-- ==== Sys2Proof/Word.lean ====
section
/-! DEFINITION. The word type (00_scope.md R11) and `Num`, the binary32 number type (R12), with the constants the
rules use, as bit patterns (R14). The arithmetic on numbers is in `Machine/Float.lean`. -/

namespace Sys2Proof

/-- A port, buffer or payload word: 32 bits (R11). -/
abbrev Word := BitVec 32

/-- The spec's `Num`: an IEEE 754 binary32 value, held as its bit pattern (R12, R16: `bits_to_num` and `num_to_bits` are
the identity on patterns). -/
abbrev Num32 := BitVec 32

/-- `+0.0`. -/
abbrev Num32.zero : Num32 := 0x00000000#32
/-- `ONE = 1.0` (R14). -/
abbrev Num32.one : Num32 := 0x3F800000#32
/-- `-1.0`. -/
abbrev Num32.negOne : Num32 := 0xBF800000#32
/-- `HALF = 0.5` (R14). -/
abbrev Num32.half : Num32 := 0x3F000000#32
/-- `1.5`. -/
abbrev Num32.oneAndHalf : Num32 := 0x3FC00000#32
/-- `2.0`. -/
abbrev Num32.two : Num32 := 0x40000000#32
/-- `4.0`. -/
abbrev Num32.four : Num32 := 0x40800000#32
/-- `12.0`. -/
abbrev Num32.twelve : Num32 := 0x41400000#32
/-- `64.0`. -/
abbrev Num32.n64 : Num32 := 0x42800000#32
/-- `69.0`. -/
abbrev Num32.n69 : Num32 := 0x428A0000#32
/-- `0.001` rounded to binary32 (41_envelope.md R171). -/
abbrev Num32.milli : Num32 := 0x3A83126F#32
/-- `0.45` rounded to binary32 (42_filter.md R208). -/
abbrev Num32.n045 : Num32 := 0x3EE66666#32
/-- `TWO_PI` (R14). -/
abbrev Num32.twoPi : Num32 := 0x40C90FDB#32
/-- `PI` (R14). -/
abbrev Num32.pi : Num32 := 0x40490FDB#32
/-- `+inf`. -/
abbrev Num32.inf : Num32 := 0x7F800000#32
/-- `-inf`. -/
abbrev Num32.negInf : Num32 := 0xFF800000#32

end Sys2Proof
end

