-- ==== Sys2Proof/Config.lean ====
section
/-! DEFINITION. The free values (constants with no body, of which no proof can learn a value) and the records that are
parameters of the block: the numerics record, the filter kernel. The configuration record that holds them
(00_scope.md R6) is in `Machine/Params.lean`, after the arithmetic that its ranges are stated with. -/

namespace Sys2Proof

/-- The operations that can produce a NaN; the tag keeps their free NaN patterns apart. -/
inductive NanOp where
  | add | sub | mul | div | fmod | narrow | exp | ln | exp2
  deriving DecidableEq, Repr

/-- FREE VALUE (log entry 7). The spec says which results are a NaN and never which NaN: sign and payload
are this function of the operation and its operands. -/
opaque Config.nanBits : NanOp → Num32 → Num32 → Num32

/-- FREE VALUE (log entry 8). R13 (e) leaves `NUM.exp` the numbers within one unit in the last place. Of two numbers
that both are, the greater one, `y`, is taken for the arguments from `expSwitch y` on. -/
opaque Config.expSwitch : Num32 → Num32
/-- FREE VALUE (log entry 8), as `expSwitch`, for `NUM.ln`. -/
opaque Config.lnSwitch : Num32 → Num32
/-- FREE VALUE (log entry 8), as `expSwitch`, for `NUM.exp2`. -/
opaque Config.exp2Switch : Num32 → Num32
/-- FREE VALUE (log entry 8). Whether a result of `NUM.exp` or `NUM.exp2` that underflows to a zero is `-0.0`: both zeros
are within one unit in the last place, and they are equal in the order of R13 (d). -/
opaque Config.zeroNegative : NanOp → Num32 → Bool
/-- FREE VALUE (log entry 9). `NUM.ln` of a zero, of which the spec states no result; one value for both zeros,
because R13 (d) orders results as the arguments are ordered and the zeros are equal. -/
opaque Config.lnOfZero : Num32

/-- FREE VALUE (log entry 15). The word a B-port read outside the buffer returns (20_memory.md R81, U7):
the first argument numbers the host's read, the second is the address. -/
opaque Config.outsideWord : Nat → Nat → Word

/-- The numerics record `NUM`'s library functions (00_scope.md R13). -/
structure NumLib where
  exp  : Num32 → Num32
  ln   : Num32 → Num32
  exp2 : Num32 → Num32

/-- The filter-kernel record `FILT` (42_filter.md R206) with its own type `FILT.State`. The arguments of `step` are the
state, the sample `x`, `fc`, `res` and the sample rate `fsr`. A state of the kernel lies in the block as a list of
words; `toWords` and `ofWords` go between the two (log entry 11). -/
structure FiltKernel where
  St : Type
  init : St
  step : St → Num32 → Num32 → Num32 → Num32 → St × Num32
  toWords : St → List Word
  ofWords : List Word → St
  ofWords_toWords : ∀ h, ofWords (toWords h) = h

/-- The three waveforms (10_state.md R40, `wsel`). -/
inductive Waveform where
  | triangle | saw | square
  deriving DecidableEq, Repr

end Sys2Proof
end

