-- ==== Sys2Proof/Syntax.lean ====
section
/-! DEFINITION. The command set: one constructor per row of spec/opcode_table.json (30_encoding.md R112 to
R119). Small integer operands are `Nat` (their ranges are checked in `WellFormed.lean`); payload words and the
binary64 rate are bit vectors. -/

namespace Sys2Proof

/-- The two command ports (00_scope.md R8, 30_encoding.md R123). -/
inductive Port where
  | c | p
  deriving DecidableEq, Repr

/-- The two scopes of route tables and names (30_encoding.md R118, R124). -/
inductive Scope where
  | voice | global
  deriving DecidableEq, Repr

/-- The 24 master parameter cells (10_state.md R40). -/
inductive ParamId where
  | oscWaveform
  | oscAntialias
  | oscDetune
  | oscPanspread
  | oscFmdepth
  | filtCutoff
  | filtResonance
  | filtModdepth
  | env1Attack
  | env1Decay
  | env1Sustain
  | env1Release
  | env1Mode
  | env1RatioA
  | env1RatioDr
  | env2Attack
  | env2Decay
  | env2Sustain
  | env2Release
  | env2Mode
  | env2RatioA
  | env2RatioDr
  | lfoAmount
  | lfoFreq
  deriving DecidableEq, Repr

/-- The commands. `value`, `velocity` are binary32 patterns, stored or carried as they are (R120 (c)). -/
inductive Instr where
  /-- R113, R320 -/
  | prepare (sampleRate : BitVec 64) (maxBlockSize channelCount : Nat)
  /-- R114, R325 -/
  | setvoices (n : Nat)
  /-- R115, R285 -/
  | noteon (channel midiNote : Nat) (velocity : Word)
  /-- R116, R295 -/
  | noteoff (channel midiNote : Nat) (velocity : Word) (allowTailOff : Bool)
  /-- R117, R310 -/
  | render (startSample sampleCount : Nat)
  /-- R118, R330 -/
  | route (scope : Scope) (index : Nat) (valid en : Bool) (src dst : Nat)
  /-- R119, R343 -/
  | setOscWaveform (value : Word)
  /-- R119, R344 -/
  | setOscAntialias (value : Word)
  /-- R119, R345 -/
  | setOscDetune (value : Word)
  /-- R119, R346 -/
  | setOscPanspread (value : Word)
  /-- R119, R347 -/
  | setOscFmdepth (value : Word)
  /-- R119, R348 -/
  | setFiltCutoff (value : Word)
  /-- R119, R349 -/
  | setFiltResonance (value : Word)
  /-- R119, R350 -/
  | setFiltModdepth (value : Word)
  /-- R119, R351 -/
  | setEnv1Attack (value : Word)
  /-- R119, R352 -/
  | setEnv1Decay (value : Word)
  /-- R119, R353 -/
  | setEnv1Sustain (value : Word)
  /-- R119, R354 -/
  | setEnv1Release (value : Word)
  /-- R119, R355 -/
  | setEnv1Mode (value : Word)
  /-- R119, R356 -/
  | setEnv1RatioA (value : Word)
  /-- R119, R357 -/
  | setEnv1RatioDr (value : Word)
  /-- R119, R358 -/
  | setEnv2Attack (value : Word)
  /-- R119, R359 -/
  | setEnv2Decay (value : Word)
  /-- R119, R360 -/
  | setEnv2Sustain (value : Word)
  /-- R119, R361 -/
  | setEnv2Release (value : Word)
  /-- R119, R362 -/
  | setEnv2Mode (value : Word)
  /-- R119, R363 -/
  | setEnv2RatioA (value : Word)
  /-- R119, R364 -/
  | setEnv2RatioDr (value : Word)
  /-- R119, R365 -/
  | setLfoAmount (value : Word)
  /-- R119, R366 -/
  | setLfoFreq (value : Word)
  deriving DecidableEq, Repr

end Sys2Proof
end

