-- ==== Sys2Proof/Machine/State.lean ====
section
/-! DEFINITION. The architectural state (10_state.md, 20_memory.md R80) as plain data, its reset value
(70_reset_and_hazards.md R410), and the reasons a step can stop. -/

namespace Sys2Proof.Machine

/-- `mode` (10_state.md R31); the code 3 never occurs. -/
inductive Mode where
  | unprepared | ready | halted
  deriving DecidableEq, Repr

/-- `env[E].st` (10_state.md R53); the codes 5 to 7 never occur. -/
inductive EnvState where
  | idle | attack | decay | sustain | release
  deriving DecidableEq, Repr

/-- The two master envelopes, `E = 0` and `E = 1` (10_state.md R40). -/
inductive EnvId where
  | env1 | env2
  deriving DecidableEq, Repr

/-- The six derived cells of a master envelope (10_state.md R41). -/
inductive DerivedName where
  | attackCoef | attackBase | decayCoef | decayBase | releaseCoef | releaseBase
  deriving DecidableEq, Repr

/-- A linear ramp: the fields that the frequency smoother and the amplifier share (40_oscillator.md R149). -/
structure Ramp where
  cur  : Num32
  tgt  : Num32
  step : Num32
  rem  : BitVec 16
  deriving DecidableEq, Repr

/-- An oscillator instance (10_state.md R51); `cur`, `tgt`, `step`, `rem` are the ramp's. -/
structure Osc where
  phase : Num32
  inc   : Num32
  base  : Num32
  ramp  : Ramp
  deriving DecidableEq, Repr

/-- A voice envelope (10_state.md R53). -/
structure Env where
  out : Num32
  st  : EnvState
  deriving DecidableEq, Repr

/-- A voice filter (10_state.md R54); `hist0`, `hist1` are `hist[0]`, `hist[1]`, the words of a `FILT.State` each. -/
structure Filt where
  kbd   : Num32
  modIn : Num32
  fc    : Num32
  res   : Num32
  hist0 : List Word
  hist1 : List Word
  deriving DecidableEq, Repr

/-- A voice amplifier (10_state.md R55); `cur`, `tgt`, `step`, `rem` are the ramp's. -/
structure Amp where
  gainIn : Num32
  ramp   : Ramp
  deriving DecidableEq, Repr

/-- A voice record `V[v]` (10_state.md R50 to R55). `note = none` is `NONE`: the voice is free. -/
structure Voice where
  note    : Option (BitVec 7)
  keyDown : Bool
  seq     : BitVec 32
  ccnt    : BitVec 16
  osc0    : Osc
  osc1    : Osc
  osc2    : Osc
  env1    : Env
  env2    : Env
  filt    : Filt
  amp     : Amp
  /-- the MODEL's own field (log entry 26), always false in this hardware: in the other reading of 70_reset_and_hazards.md R433,
  the voice has ended and the sub-chunk its last tick began is still open -/
  fading  : Bool
  deriving DecidableEq, Repr

/-- A route table entry (10_state.md R44). -/
structure Route where
  valid : Bool
  en    : Bool
  src   : BitVec 4
  dst   : BitVec 4
  deriving DecidableEq, Repr

/-- The oscillator master's cells, ids 0x00 to 0x04 (10_state.md R40). -/
structure OscMaster where
  waveform  : Num32
  antialias : Num32
  detune    : Num32
  panspread : Num32
  fmdepth   : Num32
  deriving DecidableEq, Repr

/-- The filter master's cells, ids 0x08 to 0x0A (10_state.md R40). -/
structure FiltMaster where
  cutoff    : Num32
  resonance : Num32
  moddepth  : Num32
  deriving DecidableEq, Repr

/-- A master envelope's cells, ids 0x10 to 0x16 and 0x18 to 0x1E (10_state.md R40). -/
structure EnvMaster where
  attack  : Num32
  decay   : Num32
  sustain : Num32
  release : Num32
  mode    : Num32
  ratioA  : Num32
  ratioDr : Num32
  deriving DecidableEq, Repr

/-- The 24 master parameter cells `P[id]` (10_state.md R40). -/
structure ParamCells where
  osc       : OscMaster
  filt      : FiltMaster
  env1      : EnvMaster
  env2      : EnvMaster
  lfoAmount : Num32
  lfoFreq   : Num32
  deriving DecidableEq, Repr

/-- The derived cells `D[E]` of a master envelope (10_state.md R41). -/
structure Derived where
  attackCoef  : Num32
  attackBase  : Num32
  decayCoef   : Num32
  decayBase   : Num32
  releaseCoef : Num32
  releaseBase : Num32
  deriving DecidableEq, Repr

/-- The render cursor, which exists only while RENDER runs (10_state.md R33). -/
structure Cursor where
  pos : BitVec 32
  rem : BitVec 16
  deriving DecidableEq, Repr

/-- The environment's moves (log entry 2): which agent acts next at an atomic-step boundary (20_memory.md R92),
the `rst` input (70_reset_and_hazards.md R410), and a B-port write (20_memory.md R83). -/
inductive Event where
  /-- the render engine takes its next step -/
  | engine
  /-- the parameter writer takes its next step -/
  | writer
  /-- `rst` is asserted and released -/
  | rst
  /-- the host writes word `w` at buffer address `a` -/
  | hostWrite (a : Nat) (w : Word)
  deriving DecidableEq, Repr

/-- The whole state of the block (10_state.md R30). -/
structure State where
  /-- engine configuration (R31) -/
  mode     : Mode
  fs       : Num32
  maxBlock : BitVec 16
  nch      : BitVec 2
  nvoices  : BitVec 8
  /-- status (R32) -/
  busy     : Bool
  pbusy    : Bool
  err      : BitVec 6
  errinfo  : Word
  errport  : Port
  /-- sequencing (R33, R34) -/
  cursor   : Option Cursor
  gcnt     : BitVec 16
  noteSeq  : BitVec 32
  /-- master parameter cells (R40) and derived cells (R41) -/
  par      : ParamCells
  der1     : Derived
  der2     : Derived
  /-- master modulation slots `MO.fmIn`, `MF.modIn` (R42) -/
  fmIn     : Num32
  modIn    : Num32
  /-- global LFO and its source slot (R43) -/
  lfo      : Osc
  lfoOut   : Num32
  /-- route tables (R44) -/
  vr       : List Route
  gr       : List Route
  /-- voice records (R50) -/
  voices   : List Voice
  /-- the audio buffer (20_memory.md R80): word address and word, addresses rising, no zero word listed -/
  buf      : List (Nat × Word)
  /-- words that have arrived on the C port and the P port -/
  cIn      : List Word
  pIn      : List Word
  /-- the unfinished write sequence of the accepted SETPARAM (R58, 48_parameter_setters.md R342) -/
  pPend    : List (EnvId × DerivedName)
  /-- the MODEL's own field: moves the environment has already chosen (log entry 2) -/
  events   : List Event
  deriving DecidableEq, Repr

/-- The machine never stops with a fault: every error of 60_exceptions.md R380 is recorded in the status and
the block goes on with the next command (R381, R393), and HALTED is a mode, not a stop (R386). No constructor, so
nobody raises one; safe. -/
inductive Fault where
  deriving DecidableEq, Repr

/-- Why the model gives an instruction no meaning. -/
inductive Refusal where
  /-- raised by `exec` for an instruction that has no meaning yet; safe. No arm raises it. -/
  | notModelled (mnemonic : String)
  deriving DecidableEq, Repr

def Ramp.reset : Ramp := ⟨Num32.zero, Num32.zero, Num32.zero, 0⟩

def Osc.reset : Osc := ⟨Num32.zero, Num32.zero, Num32.zero, Ramp.reset⟩

def Env.reset : Env := ⟨Num32.zero, .idle⟩

/-- The history's words at reset: `FILT.init` of `FILT_REF` (42_filter.md R208). -/
def resetHist : List Word := [Num32.zero, Num32.zero, Num32.zero, Num32.zero]

def Filt.reset : Filt := ⟨Num32.one, Num32.zero, Num32.zero, Num32.zero, resetHist, resetHist⟩

def Amp.reset : Amp := ⟨Num32.zero, Ramp.reset⟩

/-- A voice's reset record (10_state.md R50 to R55, `FILT.init` of `FILT_REF`). -/
def Voice.reset : Voice :=
  { note := none, keyDown := false, seq := 0, ccnt := 0,
    osc0 := Osc.reset, osc1 := Osc.reset, osc2 := Osc.reset,
    env1 := Env.reset, env2 := Env.reset, filt := Filt.reset, amp := Amp.reset, fading := false }

/-- An entry that holds no route. -/
def Route.empty : Route := ⟨false, false, 0, 0⟩

/-- A master envelope's cells at reset: sustain 1.0, ratios 0.3 and 0.0001 (10_state.md R40). -/
def EnvMaster.reset : EnvMaster :=
  { attack := Num32.zero, decay := Num32.zero, sustain := Num32.one, release := Num32.zero, mode := Num32.zero,
    ratioA := 0x3E99999A#32, ratioDr := 0x38D1B717#32 }

/-- The parameter cells at reset (10_state.md R40): cutoff 1000.0, LFO frequency 1.0. -/
def ParamCells.reset : ParamCells :=
  { osc := ⟨Num32.zero, Num32.zero, Num32.zero, Num32.zero, Num32.zero⟩,
    filt := ⟨0x447A0000#32, Num32.zero, Num32.zero⟩,
    env1 := EnvMaster.reset, env2 := EnvMaster.reset, lfoAmount := Num32.zero, lfoFreq := Num32.one }

/-- The derived cells at reset (10_state.md R41). -/
def Derived.reset : Derived :=
  { attackCoef := Num32.zero, attackBase := 0x3FA66666#32, decayCoef := Num32.zero, decayBase := 0x3F7FF972#32,
    releaseCoef := Num32.zero, releaseBase := 0xB8D1B717#32 }

/-- The voice-scope route table at reset (10_state.md R44). -/
def resetVR : List Route := [⟨true, true, 0, 1⟩, ⟨true, true, 1, 0⟩] ++ List.replicate 6 Route.empty

/-- The global route table at reset (10_state.md R44). -/
def resetGR : List Route := [⟨true, true, 0, 0⟩, ⟨true, true, 0, 1⟩] ++ List.replicate 6 Route.empty

/-- The machine right after reset (70_reset_and_hazards.md R410). The buffer lists nothing (log entry 5); no
environment move is chosen (log entry 2). -/
def State.reset : State :=
  { mode := .unprepared, fs := Num32.zero, maxBlock := 0, nch := 0, nvoices := 0,
    busy := false, pbusy := false, err := 0, errinfo := 0, errport := .c,
    cursor := none, gcnt := 0, noteSeq := 0,
    par := ParamCells.reset, der1 := Derived.reset, der2 := Derived.reset,
    fmIn := Num32.zero, modIn := Num32.zero, lfo := Osc.reset, lfoOut := Num32.zero,
    vr := resetVR, gr := resetGR, voices := List.replicate 16 Voice.reset,
    buf := [], cIn := [], pIn := [], pPend := [], events := [] }

end Sys2Proof.Machine
end

