-- ==== Sys2Proof/Machine/Flags.lean ====
section
/-! DEFINITION. The block has no arithmetic condition codes (10_state.md R57); its derived predicates are here,
and the error bits of the sticky status (10_state.md R32, 60_exceptions.md R380). -/

namespace Sys2Proof.Machine

/-- `env.isActive()` (41_envelope.md R178). -/
def Env.isActive (e : Env) : Bool := e.st != .idle

/-- `voiceActive(v)` (10_state.md R57). -/
def Voice.isActive (v : Voice) : Bool := v.env1.isActive || v.env2.isActive

/-- `free(v)` (10_state.md R57). -/
def Voice.isFree (v : Voice) : Bool := v.note.isNone

/-- `released(v)` (10_state.md R57). -/
def Voice.isReleased (v : Voice) : Bool := v.isActive && !v.keyDown

/-- `sustainHeld(v)`: constant false, the block has no sustain mechanism (46_voicepool.md R282). -/
def Voice.sustainHeld (_ : Voice) : Bool := false

/-- The six errors (60_exceptions.md R380). -/
inductive Error where
  | illegal | config | notPrepared | capacity | range | paramId
  deriving DecidableEq, Repr

/-- An error's bit in `err` (60_exceptions.md R380). -/
def Error.bit : Error → Nat
  | .illegal => 0
  | .config => 1
  | .notPrepared => 2
  | .capacity => 3
  | .range => 4
  | .paramId => 5

/-- `1 << bit(E)`. -/
def Error.flag (e : Error) : BitVec 6 := BitVec.ofNat 6 (2 ^ e.bit)

end Sys2Proof.Machine
end

