-- ==== Sys2Proof/Machine/Float.lean ====
section
/-! DEFINITION. IEEE 754 binary32 arithmetic on bit patterns (00_scope.md R12, R15, R16). Every finite number is
a whole number of units of 2^-149, so each operation computes exactly in `Nat` or `Int` and rounds once, to
nearest, ties to even. No result is an exception of any kind (60_exceptions.md R390). -/

namespace Sys2Proof.Machine

/-- The 31 bits below the sign. -/
def fmag (x : Num32) : Nat := x.toNat % 0x80000000

/-- The sign bit. -/
def fneg? (x : Num32) : Bool := decide (0x80000000 ≤ x.toNat)

def isNaN (x : Num32) : Bool := decide (0x7F800000 < fmag x)

def isInf (x : Num32) : Bool := fmag x == 0x7F800000

def isZero (x : Num32) : Bool := fmag x == 0

/-- Neither infinite nor NaN. -/
def isFinite (x : Num32) : Bool := decide (fmag x < 0x7F800000)

/-- A number from its sign and the 31 bits below it. -/
def fpack (neg : Bool) (mag : Nat) : Num32 := BitVec.ofNat 32 (mag + if neg then 0x80000000 else 0)

/-- The size of a finite number in units of 2^-149, from its 31 bits. -/
def unitsOfMag (m : Nat) : Nat :=
  if m < 0x800000 then m else (m % 0x800000 + 0x800000) * 2 ^ (m / 0x800000 - 1)

/-- The absolute value of a finite number in units of 2^-149. -/
def units (x : Num32) : Nat := unitsOfMag (fmag x)

/-- A finite number in units of 2^-149. -/
def value (x : Num32) : Int := if fneg? x then -(units x : Int) else units x

/-- The place of a non-NaN number in the order of the numbers, infinities included; both zeros are 0. -/
def fkey (x : Num32) : Int := if fneg? x then -(fmag x : Int) else fmag x

/-- `a < b`, false with a NaN operand (R12). -/
def flt (a b : Num32) : Bool := !isNaN a && !isNaN b && decide (fkey a < fkey b)

/-- `a <= b`, false with a NaN operand (R12). -/
def fle (a b : Num32) : Bool := !isNaN a && !isNaN b && decide (fkey a ≤ fkey b)

/-- `a > b` (R12). -/
def fgt (a b : Num32) : Bool := flt b a

/-- `a >= b` (R12). -/
def fge (a b : Num32) : Bool := fle b a

/-- `a == b`: `+0.0 == -0.0` is true (R12). -/
def feq (a b : Num32) : Bool := !isNaN a && !isNaN b && decide (fkey a = fkey b)

/-- Some NaN pattern: `x` itself if it is one, else `x` with the bits of the default NaN set. Every NaN
pattern is the value of some `x`. -/
def asNaN (x : Num32) : Num32 := if isNaN x then x else x ||| 0x7FC00000#32

/-- The NaN an operation produces: some NaN, the spec does not say which (log entry 7). -/
def freeNaN (op : NanOp) (a b : Num32) : Num32 := asNaN (Config.nanBits op a b)

/-- The 31 bits of `n` units of 2^-(149+k), rounded to nearest, ties to even; 0x7F800000 (infinity) on
overflow. `sh` bits of `n` lie below the result's last place. -/
def roundMag (n k : Nat) : Nat :=
  let sh := max k (n.log2 + 1 - 24)
  let hi := n / 2 ^ sh
  let r := n % 2 ^ sh
  let m := if 2 ^ sh < 2 * r ∨ (2 ^ sh = 2 * r ∧ hi % 2 = 1) then hi + 1 else hi
  min ((sh - k) * 0x800000 + m) 0x7F800000

/-- The number of sign `neg` and size `n` units of 2^-(149+k), rounded. -/
def fround (neg : Bool) (n k : Nat) : Num32 := fpack neg (roundMag n k)

/-- `-x`: only the sign bit changes (R12). -/
def fneg (x : Num32) : Num32 := x ^^^ 0x80000000#32

/-- `abs(x)`: only the sign bit changes (R12). -/
def fabs (x : Num32) : Num32 := x &&& 0x7FFFFFFF#32

/-- The IEEE sum of `a` and `b`, with the NaN it produces if it produces one. An exact zero sum is `-0.0`
only when both operands are negative. -/
def addWith (nan a b : Num32) : Num32 :=
  if isNaN a || isNaN b then nan
  else if isInf a then (if isInf b && (fneg? a != fneg? b) then nan else a)
  else if isInf b then b
  else
    let z := value a + value b
    if z = 0 then fpack (fneg? a && fneg? b) 0 else fround (decide (z < 0)) z.natAbs 0

/-- `a + b` (R12). -/
def fadd (a b : Num32) : Num32 := addWith (freeNaN .add a b) a b

/-- `a - b` (R12). -/
def fsub (a b : Num32) : Num32 := addWith (freeNaN .sub a b) a (fneg b)

/-- `a * b` (R12). -/
def fmul (a b : Num32) : Num32 :=
  if isNaN a || isNaN b || (isInf a && isZero b) || (isZero a && isInf b) then freeNaN .mul a b
  else if isInf a || isInf b then fpack (fneg? a != fneg? b) 0x7F800000
  else fround (fneg? a != fneg? b) (units a * units b) 149

/-- `a / b` (R12). The quotient is taken to two places below 2^-149 with a third place that is 1 exactly
when something was cut off, which is enough to round once. -/
def fdiv (a b : Num32) : Num32 :=
  if isNaN a || isNaN b || (isInf a && isInf b) || (isZero a && isZero b) then freeNaN .div a b
  else if isInf a || isZero b then fpack (fneg? a != fneg? b) 0x7F800000
  else if isInf b then fpack (fneg? a != fneg? b) 0
  else
    let n := units a * 2 ^ 151
    fround (fneg? a != fneg? b) (2 * (n / units b) + if n % units b = 0 then 0 else 1) 3

/-- `fmod(x, y)`, exact, of the sign of `x` (R13). -/
def fmod (x y : Num32) : Num32 :=
  if isNaN x || isNaN y || isInf x || isZero y then freeNaN .fmod x y
  else if isInf y then x
  else fround (fneg? x) (units x % units y) 0

/-- `clamp(v, lo, hi)` (R15): the only place a NaN is turned into a number. -/
def clamp (v lo hi : Num32) : Num32 :=
  if isNaN v || flt v lo then lo else if fgt v hi then hi else v

/-- `int_to_num(i)` (R16). -/
def intToNum (i : Nat) : Num32 := fround false (i * 2 ^ 149) 0

/-- `f64_to_num(d)` (R16): a binary64 in units of 2^-1074, rounded to binary32. -/
def f64ToNum (d : BitVec 64) : Num32 :=
  let neg := decide (0x8000000000000000 ≤ d.toNat)
  let mag := d.toNat % 0x8000000000000000
  let e := mag / 0x10000000000000
  let f := mag % 0x10000000000000
  if e = 2047 then
    (if f = 0 then fpack neg 0x7F800000 else freeNaN .narrow (d.extractLsb' 0 32) (d.extractLsb' 32 32))
  else fround neg (if e = 0 then f else (f + 0x10000000000000) * 2 ^ (e - 1)) 925

end Sys2Proof.Machine
end

