-- ==== Sys2Proof/Machine/Library.lean ====
section
/-! DEFINITION. The library functions `NUM.exp`, `NUM.ln`, `NUM.exp2` (00_scope.md R13) as this hardware's
configuration has them (log entry 8): the exact points are exact; elsewhere the result is any number within one unit in
the last place of the real value: the two next to it, and next to a power of two a third, beyond which the places are
half as wide. The lower neighbour is found by building its bits from the top, each bit by a test that is monotone in the
argument; each number above the least admissible one is taken from a free switch point of its own on. So (d) holds
whatever the free choices are. -/

namespace Sys2Proof.Machine

/-- The next `k` binary digits of `log2` of the mantissa `y`, a number of [1, 2) with 160 fraction bits, after
the digits `acc`: square, and halve when the square reaches 2. -/
def logDigits : Nat → Nat → Nat → Nat
  | 0, _, acc => acc
  | k + 1, y, acc =>
    let z := y * y / 2 ^ 160
    if 2 ^ 161 ≤ z then logDigits k (z / 2) (2 * acc + 1) else logDigits k z (2 * acc)

/-- `log2` of `n` units of 2^-149 (`n > 0`), with 96 fraction bits, cut off below. -/
def log2Fix (n : Nat) : Int :=
  ((n.log2 : Int) - 149) * 2 ^ 96 + logDigits 96 (n * 2 ^ 160 / 2 ^ n.log2) 0

/-- `log2(e)` with 160 fraction bits, cut off below. -/
def log2e : Nat := 2108501164428393954197770173035669514763056903505

/-- The greatest number below 2^k above `acc` that passes `ok`, built bit by bit from the top. -/
def bitSearch (ok : Nat → Bool) : Nat → Nat → Nat
  | 0, acc => acc
  | k + 1, acc => if ok (acc + 2 ^ k) then bitSearch ok k (acc + 2 ^ k) else bitSearch ok k acc

/-- 2^x is at least the number with the 31 bits `m` (`m > 0`), for `x` given in units of 2^-149. -/
def exp2AtLeast (x : Int) (m : Nat) : Bool :=
  decide (m ≤ 0x7F7FFFFF) && decide (log2Fix (unitsOfMag m) * 2 ^ 149 ≤ x * 2 ^ 96)

/-- e^x is at least `n` units of 2^-149, for `x` given in the same units. -/
def expReaches (x : Int) (n : Nat) : Bool := decide (log2Fix n * 2 ^ 309 ≤ x * log2e * 2 ^ 96)

/-- e^x is at least the number with the 31 bits `m` (`m > 0`), for `x` given in units of 2^-149. -/
def expAtLeast (x : Int) (m : Nat) : Bool := decide (m ≤ 0x7F7FFFFF) && expReaches x (unitsOfMag m)

/-- The 31 bits of the greatest number not above 2^x. -/
def exp2Below (x : Num32) : Nat := bitSearch (exp2AtLeast (value x)) 31 0

/-- The 31 bits of the greatest number not above e^x. -/
def expBelow (x : Num32) : Nat := bitSearch (expAtLeast (value x)) 31 0

/-- The number of size `m` is a power of two below which the places are half as wide as above it. -/
def isBinade (m : Nat) : Bool := m % 0x800000 == 0 && decide (0x1000000 ≤ m)

/-- The middle of the place above such a power of two, in units of 2^-149. -/
def binadeMid (m : Nat) : Nat := unitsOfMag m + 2 ^ (m / 0x800000 - 2)

/-- The number of size `m` as a result at `x` of a function that is never negative. The sign of a zero is free (log
entry 8). -/
def libResult (op : NanOp) (x : Num32) (m : Nat) : Num32 := fpack (m == 0 && Config.zeroNegative op x) m

/-- The number of the neighbours `m`, `m + 1` that a function takes at `x`: the upper one from its switch on. -/
def pickNeighbour (op : NanOp) (switch : Num32 → Num32) (x : Num32) (m : Nat) : Num32 :=
  if fge x (switch (fpack false (m + 1))) then libResult op x (m + 1) else libResult op x m

/-- `2^k` for an integer `k` with `2^k` representable, -149 ≤ k ≤ 127. -/
def pow2 (k : Int) : Num32 :=
  if k < -126 then fpack false (2 ^ (k + 149).toNat) else fpack false ((k + 127).toNat * 0x800000)

/-- `NUM.exp2` (R13). -/
def libExp2 (x : Num32) : Num32 :=
  if isNaN x then freeNaN .exp2 x x
  else if isInf x then (if fneg? x then libResult .exp2 x 0 else Num32.inf)
  else if value x % 2 ^ 149 = 0 ∧ -149 ≤ value x / 2 ^ 149 ∧ value x / 2 ^ 149 ≤ 127 then
    pow2 (value x / 2 ^ 149)
  else if 128 * 2 ^ 149 < value x then Num32.inf
  else pickNeighbour .exp2 Config.exp2Switch x (exp2Below x)

/-- `NUM.exp` (R13). Below the middle of the place above a power of two `m`, the number below `m` is admissible too; at
`m = 1` it is not, since `exp` of a positive argument is not below `exp(0)`. Which admissible number is given is free, also at
the arguments of worked examples that call a result exact (log entry 32). -/
def libExp (x : Num32) : Num32 :=
  if isNaN x then freeNaN .exp x x
  else if isInf x then (if fneg? x then Num32.zero else Num32.inf)
  else if isZero x then Num32.one
  else if 128 * 2 ^ 309 < value x * log2e then Num32.inf
  else
    let m := expBelow x
    if isBinade m && m != 0x3F800000 && !expReaches (value x) (binadeMid m) &&
      !fge x (Config.expSwitch (fpack false m)) then fpack false (m - 1)
    else pickNeighbour .exp Config.expSwitch x m

/-- `ln` of `n` units of 2^-149 is at least `q` of them. -/
def lnReaches (n : Nat) (q : Int) : Bool := decide (q * log2e * 2 ^ 96 ≤ log2Fix n * 2 ^ 309)

/-- `ln(x)` is at least the number at place `j - 2^31` in the order of the finite numbers, for `x` of `n` units. -/
def lnAtLeast (n j : Nat) : Bool :=
  decide (j ≤ 0x80000000 + 0x7F7FFFFF) &&
  (decide (j ≤ 0x80000000 - 0x7F7FFFFF) ||
    lnReaches n (if 0x80000000 ≤ j then unitsOfMag (j - 0x80000000) else -(unitsOfMag (0x80000000 - j) : Int)))

/-- The number at place `j - 2^31` in the order of the numbers. -/
def ofPlace (j : Nat) : Num32 := if 0x80000000 ≤ j then fpack false (j - 0x80000000) else fpack true (0x80000000 - j)

/-- The place, raised by 2^31, of the greatest number not above `ln(x)`. -/
def lnBelow (x : Num32) : Nat := bitSearch (lnAtLeast (units x)) 32 0

/-- A number not above `ln(2^-149)`, the least value `ln` takes on a positive number. -/
def lnFloor : Num32 := 0xC2CE8ED1#32

/-- `NUM.ln` of a zero: a free value, kept not above every other logarithm as R13 (d) asks (log entry 9). -/
def lnZero : Num32 := if fle Config.lnOfZero lnFloor then Config.lnOfZero else Num32.negInf

/-- The logarithm of a positive number other than 1, at whose place `j` the greatest number not above it stands. A third
number is admissible next to a power of two: below it for a positive logarithm, above it for a negative one. -/
def pickLog (x : Num32) (j : Nat) : Num32 :=
  if isBinade (j - 0x80000000) && !lnReaches (units x) (binadeMid (j - 0x80000000)) &&
    !fge x (Config.lnSwitch (ofPlace j)) then ofPlace (j - 1)
  else if isBinade (0x7FFFFFFF - j) && lnReaches (units x) (-(binadeMid (0x7FFFFFFF - j) : Int)) &&
    fge x (Config.lnSwitch (ofPlace (j + 2))) then ofPlace (j + 2)
  else if fge x (Config.lnSwitch (ofPlace (j + 1))) then ofPlace (j + 1)
  else ofPlace j

/-- `NUM.ln` (R13); NaN on a negative argument (92_eei_decisions.md D1). -/
def libLn (x : Num32) : Num32 :=
  if isNaN x then freeNaN .ln x x
  else if isZero x then lnZero
  else if fneg? x then freeNaN .ln x x
  else if isInf x then Num32.inf
  else if x = Num32.one then Num32.zero
  else pickLog x (lnBelow x)

/-- The numerics record `NUM` of this hardware (00_scope.md R6, R13). -/
def numLib : NumLib := { exp := libExp, ln := libLn, exp2 := libExp2 }

end Sys2Proof.Machine
end

