-- ==== Sys2Proof/Machine/Params.lean ====
section
/-! DEFINITION. The configuration record of 00_scope.md R6: every implementation parameter a field, so that a claim can
quantify over it; every legal range a proof field; and the contracts that the spec lets a model assume of the open
fields (R13, 40_oscillator.md R146, 42_filter.md R206). -/

namespace Sys2Proof

open Sys2Proof.Machine

/-- The implementation parameters of 00_scope.md R6. An instance with `CONTROL_DIV < 1` does not exist (R7). The upper
bounds the table does not give are the widths of the registers that count up to them (10_state.md R31, R34; log
entry 10). -/
structure Params where
  controlDiv  : Nat
  maxVoices   : Nat
  maxChannels : Nat
  maxBlockCap : Nat
  nroutes     : Nat
  num         : NumLib
  /-- arguments: `base dm detune fmDepth fmIn` (40_oscillator.md R146) -/
  freqLaw     : Num32 → Num32 → Num32 → Num32 → Num32 → Num32
  /-- `FILT`, for an oversampling factor (42_filter.md R206: run at `OS` times the sample rate) -/
  kernel      : Nat → FiltKernel
  os          : Nat
  matrixZeroDisabled : Bool
  phaseResetOnNote   : Bool
  ratioMin    : Num32
  ratioMax    : Num32
  a4Hz        : Num32
  lfoWaveform : Waveform
  /-- no parameter of R6 but the model's own: whether the range of 41_envelope.md R188 holds where R181 passes it (log
  entry 25) -/
  decayCapped : Bool
  /-- no parameter of R6 but the model's own: whether the last sentence of 70_reset_and_hazards.md R433 holds of a voice that
  has ended, against 45_voice.md R266 and R268 (log entry 26) -/
  fadeOutGoesOn : Bool
  controlDiv_legal  : 1 ≤ controlDiv ∧ controlDiv < 65536
  maxVoices_legal   : 1 ≤ maxVoices ∧ maxVoices < 256
  maxChannels_legal : 1 ≤ maxChannels ∧ maxChannels ≤ 2
  maxBlockCap_legal : 1 ≤ maxBlockCap ∧ maxBlockCap < 65536
  nroutes_legal     : 1 ≤ nroutes ∧ nroutes ≤ 8
  os_legal          : 2 ≤ os
  ratioMin_legal    : fgt ratioMin Num32.zero = true
  ratioMax_legal    : isFinite ratioMax = true ∧ fgt ratioMax ratioMin = true
  a4Hz_legal        : fgt a4Hz Num32.zero = true

/-- The filter kernel of a configuration: `FILT` at its oversampling factor. -/
def Params.filt (c : Params) : FiltKernel := c.kernel c.os

/-- `FILT.init` as it lies in the block. -/
def FiltKernel.initWords (k : FiltKernel) : List Word := k.toWords k.init

/-- `FILT.step` on a state that lies in the block. -/
def FiltKernel.stepWords (k : FiltKernel) (h : List Word) (x fc res fsr : Num32) : List Word × Num32 :=
  let r := k.step (k.ofWords h) x fc res fsr
  (k.toWords r.1, r.2)

/-! The contracts. -/

/-- `y` is within one unit in the last place of the real number `r` (00_scope.md R13 (e)): at most one unit of a binade
that does not lie above `r`; an infinity only beyond the largest finite number. -/
def WithinUlp (y : Num32) (r : ℝ) : Prop :=
  (y = Num32.inf ∧ (2 : ℝ) ^ 128 - 2 ^ 104 < r) ∨ (y = Num32.negInf ∧ r < -((2 : ℝ) ^ 128 - 2 ^ 104)) ∨
  (isFinite y = true ∧ ∃ k : ℤ, -126 ≤ k ∧ k ≤ 127 ∧ (k = -126 ∨ (2 : ℝ) ^ k ≤ |r|) ∧
    |(value y : ℝ) / 2 ^ 149 - r| ≤ (2 : ℝ) ^ (k - 23))

/-- What a model assumes of `NUM`'s library functions (00_scope.md R13): (a) is their type; (b) the exact points, (c)
NaN to NaN, (d) monotone, (e) within one unit in the last place. For `ln` (d) and (e) speak of the arguments that have
a logarithm (92_eei_decisions.md D1). -/
structure NumLib.Contract (n : NumLib) : Prop where
  exp_points : n.exp Num32.negInf = Num32.zero ∧ ∀ z, isZero z = true → n.exp z = Num32.one
  exp2_points : ∀ (x : Num32) (k : ℤ), isFinite x = true → value x = k * 2 ^ 149 → -149 ≤ k → k ≤ 127 →
    isFinite (n.exp2 x) = true ∧ value (n.exp2 x) = 2 ^ (k + 149).toNat
  ln_points : n.ln Num32.one = Num32.zero ∧ n.ln Num32.inf = Num32.inf
  nan : ∀ x, isNaN x = true → isNaN (n.exp x) = true ∧ isNaN (n.exp2 x) = true ∧ isNaN (n.ln x) = true
  monotone : ∀ a b, fle a b = true → fle (n.exp a) (n.exp b) = true ∧ fle (n.exp2 a) (n.exp2 b) = true ∧
    (fge a Num32.zero = true → fle (n.ln a) (n.ln b) = true)
  near : ∀ x, isFinite x = true → WithinUlp (n.exp x) (Real.exp ((value x : ℝ) / 2 ^ 149)) ∧
    WithinUlp (n.exp2 x) ((2 : ℝ) ^ ((value x : ℝ) / 2 ^ 149)) ∧
    (fgt x Num32.zero = true → WithinUlp (n.ln x) (Real.log ((value x : ℝ) / 2 ^ 149)))

/-- `FREQ_LAW_NEUTRAL` (40_oscillator.md R146). -/
def FreqLawNeutral (law : Num32 → Num32 → Num32 → Num32 → Num32 → Num32) : Prop :=
  ∀ base dm detune depth input : Num32, isNaN base = false → isZero (fmul dm detune) = true →
    isZero (fmul depth input) = true → law base dm detune depth input = base

/-- `FILT_SILENCE` (42_filter.md R206 (c)) for the sample rates with property `R`: the initial state is silent, and a
zero sample leaves a silent state silent and gives a zero. (a) and (b) of R206 are the type of `step`. -/
def FiltKernel.SilentFor (k : FiltKernel) (R : Num32 → Prop) : Prop :=
  ∃ silent : k.St → Prop, silent k.init ∧ ∀ (h : k.St) (z fc res fsr : Num32), silent h → isZero z = true →
    fge res Num32.zero = true → fle res Num32.one = true → R fsr →
    isZero (k.step h z fc res fsr).2 = true ∧ silent (k.step h z fc res fsr).1

/-- The contract of `FILT` (42_filter.md R206). -/
def FiltKernel.Contract (k : FiltKernel) : Prop :=
  k.SilentFor fun fsr => isFinite fsr = true ∧ fgt fsr Num32.zero = true

/-- What a model may assume of the open fields of a configuration. -/
structure Params.Contract (c : Params) : Prop where
  num : c.num.Contract
  freqLaw : FreqLawNeutral c.freqLaw
  filt : c.filt.Contract

end Sys2Proof
end

