-- ==== Sys2Proof/Machine/Operands.lean ====
section
/-! DEFINITION. The use-site readings of operands and parameter cells: a cell holds the raw word, and a rule
reads it through one of these functions (10_state.md R40, 48_parameter_setters.md R341, 41_envelope.md R171 to
R173, 45_voice.md R252, 42_filter.md R201). -/

namespace Sys2Proof.Machine

/-- `wsel(x)` (10_state.md R40). -/
def wsel (x : Num32) : Waveform :=
  if isNaN x || flt x Num32.half then .triangle else if flt x Num32.oneAndHalf then .saw else .square

/-- `flag(x)` (10_state.md R40). -/
def flag (x : Num32) : Bool := fge x Num32.half

/-- A time, or a cutoff: `clamp(x, 0, +inf)` (10_state.md R40). -/
def nonNegative (x : Num32) : Num32 := clamp x Num32.zero Num32.inf

/-- A level: `clamp(x, 0, 1)` (10_state.md R40). -/
def unitLevel (x : Num32) : Num32 := clamp x Num32.zero Num32.one

/-- A target ratio: `clamp(x, RATIO_MIN, RATIO_MAX)` (41_envelope.md R172). -/
def ratio (c : Params) (x : Num32) : Num32 := clamp x c.ratioMin c.ratioMax

/-- The control rate `fs / int_to_num(CONTROL_DIV)`: `fsEnv` of 41_envelope.md R171 and the LFO's `fsL` of
46_voicepool.md R301. -/
def controlRate (c : Params) (fs : Num32) : Num32 := fdiv fs (intToNum c.controlDiv)

/-- `rate(ms)` in voice ticks (41_envelope.md R171). -/
def rate (c : Params) (fs ms : Num32) : Num32 :=
  nonNegative (fmul (fmul (nonNegative ms) Num32.milli) (controlRate c fs))

/-- `calcCoef(rate, ratio)` (41_envelope.md R173). The segment lengths that follow from it in binary32 can miss R186's by far
(log entry 31); at `calcCoef(1.0, 1.0)` the result is `0.5` or a number next to it (log entry 32). -/
def calcCoef (c : Params) (rate ratio : Num32) : Num32 :=
  if fle rate Num32.zero then Num32.zero
  else c.num.exp (fdiv (fneg (c.num.ln (fdiv (fadd Num32.one ratio) ratio))) rate)

/-- `midiHz(n)` (45_voice.md R252). -/
def midiHz (c : Params) (n : Nat) : Num32 :=
  fmul c.a4Hz (c.num.exp2 (fdiv (fsub (intToNum n) Num32.n69) Num32.twelve))

/-- The keyboard-tracking multiplier of a note (42_filter.md R201). -/
def keyboardTrack (c : Params) (n : Nat) : Num32 :=
  c.num.exp2 (fdiv (fsub (intToNum n) Num32.n64) Num32.twelve)

end Sys2Proof.Machine
end

