-- ==== Sys2Proof/Machine/Hw.lean ====
section
/-! DEFINITION. The decided target-frequency law, the stand-in filter kernel, and this hardware's configuration:
the decided value of every implementation parameter (00_scope.md R6). Of the model's own two fields it has the readings of
log entries 25 and 26. -/

namespace Sys2Proof.Machine

/-- `FREQ_LAW` (40_oscillator.md R146), over a numerics record. -/
def freqLawOctaves (num : NumLib) (base dm detune fmDepth fmIn : Num32) : Num32 :=
  fmul base (num.exp2 (fadd (fmul dm detune) (fmul fmDepth fmIn)))

/-- `FILT.State` of `FILT_REF`: the numbers `s[0..3]` (42_filter.md R208). -/
structure Ladder where
  s0 : Num32
  s1 : Num32
  s2 : Num32
  s3 : Num32
  deriving DecidableEq, Repr

/-- `FILT.init` of `FILT_REF` (42_filter.md R208). -/
def Ladder.reset : Ladder := ⟨Num32.zero, Num32.zero, Num32.zero, Num32.zero⟩

/-- One inner iteration of `FILT_REF` (42_filter.md R208). -/
def ladderIteration (x g k : Num32) (h : Ladder) : Ladder :=
  let u := fsub x (fmul k h.s3)
  let s0 := fadd h.s0 (fmul g (fsub u h.s0))
  let s1 := fadd h.s1 (fmul g (fsub s0 h.s1))
  let s2 := fadd h.s2 (fmul g (fsub s1 h.s2))
  let s3 := fadd h.s3 (fmul g (fsub s2 h.s3))
  ⟨s0, s1, s2, s3⟩

/-- `n` inner iterations. -/
def ladderRun (x g k : Num32) : Nat → Ladder → Ladder
  | 0, h => h
  | n + 1, h => ladderRun x g k n (ladderIteration x g k h)

/-- The one-pole coefficient `g` of `FILT_REF` (42_filter.md R208, R209). -/
def ladderG (num : NumLib) (os : Nat) (fc fsr : Num32) : Num32 :=
  let fcl := clamp fc Num32.zero (fmul Num32.n045 fsr)
  fsub Num32.one (num.exp (fdiv (fmul (fneg Num32.twoPi) fcl) (fmul (intToNum os) fsr)))

/-- The feedback amount `k` of `FILT_REF` (42_filter.md R208, R209). -/
def ladderK (res : Num32) : Num32 := fmul Num32.four (unitLevel res)

/-- `FILT_REF` (42_filter.md R208): the stand-in kernel. -/
def filtRef (num : NumLib) (os : Nat) : FiltKernel where
  St := Ladder
  init := Ladder.reset
  step h x fc res fsr :=
    let h' := ladderRun x (ladderG num os fc fsr) (ladderK res) os h
    (h', h'.s3)
  toWords h := [h.s0, h.s1, h.s2, h.s3]
  ofWords ws := ⟨ws.getD 0 0, ws.getD 1 0, ws.getD 2 0, ws.getD 3 0⟩
  ofWords_toWords _ := rfl

/-- This hardware's configuration: the values of 00_scope.md R6. -/
def hw : Params where
  controlDiv := 100
  maxVoices := 16
  maxChannels := 2
  maxBlockCap := 4096
  nroutes := 8
  num := numLib
  freqLaw := freqLawOctaves numLib
  kernel := filtRef numLib
  os := 2
  matrixZeroDisabled := true
  phaseResetOnNote := true
  ratioMin := 0x3089705F#32
  ratioMax := 0x42C80000#32
  a4Hz := 0x43DC0000#32
  lfoWaveform := .triangle
  decayCapped := true
  fadeOutGoesOn := false
  controlDiv_legal := by decide
  maxVoices_legal := by decide
  maxChannels_legal := by decide
  maxBlockCap_legal := by decide
  nroutes_legal := by decide
  os_legal := by decide
  ratioMin_legal := by decide
  ratioMax_legal := by decide
  a4Hz_legal := by decide

end Sys2Proof.Machine
end

