-- ==== Sys2Proof/Machine/Ops.lean ====
section
/-! DEFINITION. The named operations that the meanings share: access to the buffer, the cells, the routes and the
voices; raising an error (60_exceptions.md R381, this hardware's one exception mechanism, of which there is no
return, R393); admission (R383); reset (70_reset_and_hazards.md R410); the host's B and S ports. -/

namespace Sys2Proof.Machine

/-! The audio buffer. -/

/-- A buffer's contents: word addresses rising, no entry equal to what an unlisted address reads as. -/
abbrev Memory := List (Nat × Word)

/-- What a word that nothing has written reads as (log entry 5). -/
def Memory.unlisted : Word := 0#32

/-- The word at an address (20_memory.md R81). -/
def Memory.read : Memory → Nat → Word
  | [], _ => Memory.unlisted
  | (b, w) :: m, a => if a = b then w else Memory.read m a

/-- Puts an entry in front, unless an unlisted address reads as that anyway. -/
def Memory.cons (a : Nat) (w : Word) (m : Memory) : Memory := if w = Memory.unlisted then m else (a, w) :: m

/-- Replaces the word at an address (20_memory.md R81), keeping the canonical form. -/
def Memory.write : Memory → Nat → Word → Memory
  | [], a, w => Memory.cons a w []
  | (b, x) :: m, a, w =>
    if a < b then Memory.cons a w ((b, x) :: m)
    else if a = b then Memory.cons a w m
    else (b, x) :: Memory.write m a w

/-- The canonical form: addresses at least `lo`, strictly rising, below `size`; no word listed that reads so unlisted. -/
def Memory.wfFrom (size lo : Nat) : Memory → Bool
  | [] => true
  | (b, w) :: m => decide (lo ≤ b) && decide (b < size) && decide (w ≠ Memory.unlisted) && Memory.wfFrom size (b + 1) m

/-- The buffer's size in words, `MAX_CHANNELS * MAX_BLOCK_CAP` (20_memory.md R80). -/
def bufferWords (c : Params) : Nat := c.maxChannels * c.maxBlockCap

/-- The canonical form of a buffer of `size` words. -/
def Memory.wf (size : Nat) (m : Memory) : Bool := Memory.wfFrom size 0 m

/-- `MemRead(a, 1)` (20_memory.md R81). -/
def memRead (a : Nat) (s : State) : Word := Memory.read s.buf a

/-- `MemWrite(a, 1, w)` (20_memory.md R81). An address outside the buffer is never produced (log entry 14); such
a write is ignored, as on the B port. -/
def memWrite (c : Params) (a : Nat) (w : Word) (s : State) : State :=
  if a < bufferWords c then { s with buf := Memory.write s.buf a w } else s

/-- The word address of sample `i` of channel `ch` (20_memory.md R80). -/
def sampleAddr (c : Params) (ch i : Nat) : Nat := ch * c.maxBlockCap + i

/-! Parameter cells and derived cells. -/

/-- A master envelope's cells. -/
def ParamCells.env (p : ParamCells) : EnvId → EnvMaster
  | .env1 => p.env1
  | .env2 => p.env2

/-- Read of `P[id]` (20_memory.md R86). -/
def ParamCells.get (p : ParamCells) : ParamId → Num32
  | .oscWaveform => p.osc.waveform
  | .oscAntialias => p.osc.antialias
  | .oscDetune => p.osc.detune
  | .oscPanspread => p.osc.panspread
  | .oscFmdepth => p.osc.fmdepth
  | .filtCutoff => p.filt.cutoff
  | .filtResonance => p.filt.resonance
  | .filtModdepth => p.filt.moddepth
  | .env1Attack => p.env1.attack
  | .env1Decay => p.env1.decay
  | .env1Sustain => p.env1.sustain
  | .env1Release => p.env1.release
  | .env1Mode => p.env1.mode
  | .env1RatioA => p.env1.ratioA
  | .env1RatioDr => p.env1.ratioDr
  | .env2Attack => p.env2.attack
  | .env2Decay => p.env2.decay
  | .env2Sustain => p.env2.sustain
  | .env2Release => p.env2.release
  | .env2Mode => p.env2.mode
  | .env2RatioA => p.env2.ratioA
  | .env2RatioDr => p.env2.ratioDr
  | .lfoAmount => p.lfoAmount
  | .lfoFreq => p.lfoFreq

/-- `P[id] <- v` (20_memory.md R86). -/
def ParamCells.set (p : ParamCells) (id : ParamId) (v : Num32) : ParamCells :=
  match id with
  | .oscWaveform => { p with osc.waveform := v }
  | .oscAntialias => { p with osc.antialias := v }
  | .oscDetune => { p with osc.detune := v }
  | .oscPanspread => { p with osc.panspread := v }
  | .oscFmdepth => { p with osc.fmdepth := v }
  | .filtCutoff => { p with filt.cutoff := v }
  | .filtResonance => { p with filt.resonance := v }
  | .filtModdepth => { p with filt.moddepth := v }
  | .env1Attack => { p with env1.attack := v }
  | .env1Decay => { p with env1.decay := v }
  | .env1Sustain => { p with env1.sustain := v }
  | .env1Release => { p with env1.release := v }
  | .env1Mode => { p with env1.mode := v }
  | .env1RatioA => { p with env1.ratioA := v }
  | .env1RatioDr => { p with env1.ratioDr := v }
  | .env2Attack => { p with env2.attack := v }
  | .env2Decay => { p with env2.decay := v }
  | .env2Sustain => { p with env2.sustain := v }
  | .env2Release => { p with env2.release := v }
  | .env2Mode => { p with env2.mode := v }
  | .env2RatioA => { p with env2.ratioA := v }
  | .env2RatioDr => { p with env2.ratioDr := v }
  | .lfoAmount => { p with lfoAmount := v }
  | .lfoFreq => { p with lfoFreq := v }

/-- Read of one derived cell. -/
def Derived.get (d : Derived) : DerivedName → Num32
  | .attackCoef => d.attackCoef
  | .attackBase => d.attackBase
  | .decayCoef => d.decayCoef
  | .decayBase => d.decayBase
  | .releaseCoef => d.releaseCoef
  | .releaseBase => d.releaseBase

/-- Write of one derived cell. -/
def Derived.set (d : Derived) (n : DerivedName) (v : Num32) : Derived :=
  match n with
  | .attackCoef => { d with attackCoef := v }
  | .attackBase => { d with attackBase := v }
  | .decayCoef => { d with decayCoef := v }
  | .decayBase => { d with decayBase := v }
  | .releaseCoef => { d with releaseCoef := v }
  | .releaseBase => { d with releaseBase := v }

/-- `D[E]`. -/
def State.der (s : State) : EnvId → Derived
  | .env1 => s.der1
  | .env2 => s.der2

/-- One atomic write of a derived cell. -/
def State.setDer (s : State) (E : EnvId) (n : DerivedName) (v : Num32) : State :=
  match E with
  | .env1 => { s with der1 := s.der1.set n v }
  | .env2 => { s with der2 := s.der2.set n v }

/-- The value `envm.derive(E)` gives one derived cell (R174), from the cells of the master and `fs`. -/
def derivedValue (c : Params) (fs : Num32) (m : EnvMaster) : DerivedName → Num32
  | .attackCoef => calcCoef c (rate c fs m.attack) (ratio c m.ratioA)
  | .attackBase =>
    fmul (fadd Num32.one (ratio c m.ratioA))
      (fsub Num32.one (calcCoef c (rate c fs m.attack) (ratio c m.ratioA)))
  | .decayCoef => calcCoef c (rate c fs m.decay) (ratio c m.ratioDr)
  | .decayBase =>
    fmul (fsub (unitLevel m.sustain) (ratio c m.ratioDr))
      (fsub Num32.one (calcCoef c (rate c fs m.decay) (ratio c m.ratioDr)))
  | .releaseCoef => calcCoef c (rate c fs m.release) (ratio c m.ratioDr)
  | .releaseBase =>
    fmul (fneg (ratio c m.ratioDr))
      (fsub Num32.one (calcCoef c (rate c fs m.release) (ratio c m.ratioDr)))

/-! Voices. -/

/-- `V[v]`. -/
def State.voice (s : State) (v : Nat) : Voice := s.voices.getD v Voice.reset

/-- Changes voice `v` alone. -/
def State.modVoice (s : State) (v : Nat) (f : Voice → Voice) : State := { s with voices := s.voices.modify v f }

/-! Errors. -/

/-- A command ends: the engine is not busy and holds no render cursor (10_state.md R32, R33). -/
def endCommand (s : State) : State := { s with busy := false, cursor := none }

/-- `raise E(H)` on a port (60_exceptions.md R381, R394): the first error since reset is recorded with its header
and port, the error's bit is set, and the command is abandoned. -/
def raise (e : Error) (H : Word) (port : Port) (s : State) : State :=
  let s1 := if s.err = 0 then { s with errinfo := H, errport := port } else s
  let s2 := { s1 with err := s1.err ||| e.flag }
  match port with
  | .c => endCommand s2
  | .p => { s2 with pbusy := false }

/-- The frame of every C-port command: it raises `busy`, is admitted unless the mode is HALTED
(60_exceptions.md R383), runs `body`. -/
def cCommand (H : Word) (body : State → State) (s : State) : State :=
  let s1 := { s with busy := true }
  if s1.mode = .halted then raise .notPrepared H .c s1 else body s1

/-! Reset. -/

/-- A voice's reset record in a configuration (10_state.md R50 to R55): its histories hold `FILT.init`. -/
def resetVoice (c : Params) : Voice :=
  { Voice.reset with filt := { Filt.reset with hist0 := c.filt.initWords, hist1 := c.filt.initWords } }

/-- The derived cells at reset in a configuration (10_state.md R41): those of the reset cells with `fs = +0.0`. -/
def resetDerived (c : Params) : Derived :=
  let v := derivedValue c Num32.zero EnvMaster.reset
  ⟨v .attackCoef, v .attackBase, v .decayCoef, v .decayBase, v .releaseCoef, v .releaseBase⟩

/-- The reset state of a configuration (70_reset_and_hazards.md R410): its derived cells, voices and route entries.
`State.reset` is that of this hardware. -/
def State.resetOf (c : Params) : State :=
  { State.reset with
    der1 := resetDerived c, der2 := resetDerived c,
    vr := resetVR.take c.nroutes, gr := resetGR.take c.nroutes, voices := List.replicate c.maxVoices (resetVoice c) }

/-- `rst` (70_reset_and_hazards.md R410): every element at its reset value, pending words discarded; the buffer is
not initialised, and the environment's later moves are its own (log entry 6). -/
def rst (c : Params) (s : State) : State := { State.resetOf c with buf := s.buf, events := s.events }

/-! The host's ports. -/

/-- A B-port write (20_memory.md R81, R83): no move while `busy = 1`, ignored outside the buffer. -/
def hostWrite (c : Params) (a : Nat) (w : Word) (s : State) : State := if s.busy then s else memWrite c a w s

/-- The host's `k`-th B-port read, of address `a` (20_memory.md R81, R83): no move while `busy = 1`; outside the
buffer some word (log entry 15). It changes nothing. -/
def hostRead (c : Params) (k a : Nat) (s : State) : Option Word :=
  if s.busy then none
  else some (if a < bufferWords c then memRead a s else Config.outsideWord k a)

/-- What the S port shows (10_state.md R32). -/
structure Status where
  busy    : Bool
  pbusy   : Bool
  mode    : Mode
  err     : BitVec 6
  errinfo : Word
  errport : Port
  deriving DecidableEq, Repr

/-- The S port (10_state.md R32). -/
def State.status (s : State) : Status := ⟨s.busy, s.pbusy, s.mode, s.err, s.errinfo, s.errport⟩

end Sys2Proof.Machine
end

