-- ==== Sys2Proof/Machine/Oscillator.lean ====
section
/-! DEFINITION. Oscillator operations (40_oscillator.md). -/

namespace Sys2Proof.Machine

/-- `DM[k]`, and `PM[k]`, which is equal to it (10_state.md R52): 0, +1, -1. -/
def unisonMult : Nat → Num32
  | 0 => Num32.zero
  | 1 => Num32.one
  | _ => Num32.negOne

/-- `osc.prepare()` (R141). -/
def Osc.prepare (_ : Osc) : Osc := Osc.reset

/-- `osc.resetPhase()` (R143). -/
def Osc.resetPhase (o : Osc) : Osc := { o with phase := Num32.zero }

/-- A ramp set to a value at once (R147, `force`). -/
def Ramp.jump (t : Num32) : Ramp := ⟨t, t, Num32.zero, 0⟩

/-- A ramp that starts from the present value to `t` over `len` samples (R147, 43_amplifier.md R222). -/
def Ramp.retarget (len : Nat) (t : Num32) (r : Ramp) : Ramp :=
  { cur := r.cur, tgt := t, step := fdiv (fsub t r.cur) (intToNum len), rem := BitVec.ofNat 16 len }

/-- `ramp.next()` (R149): the last step lands exactly on the target. The value returned is the new `cur`. -/
def Ramp.next (r : Ramp) : Ramp :=
  if r.rem = 0 then r
  else if r.rem - 1 = 0 then { r with rem := 0, cur := r.tgt }
  else { r with rem := r.rem - 1, cur := fadd r.cur r.step }

/-- `osc.updateFrequency(force)` (R147) with the operands of the law read (R146). -/
def Osc.updateFrequency (c : Params) (force : Bool) (rl : Nat) (dm detune fmDepth fmIn : Num32) (o : Osc) : Osc :=
  let t := c.freqLaw o.base dm detune fmDepth fmIn
  { o with ramp := if force then Ramp.jump t else Ramp.retarget rl t o.ramp }

/-- `osc.setBaseFrequency(hz)` (R142). -/
def Osc.setBaseFrequency (c : Params) (rl : Nat) (dm detune fmDepth fmIn hz : Num32) (o : Osc) : Osc :=
  Osc.updateFrequency c true rl dm detune fmDepth fmIn { o with base := hz }

/-- `wrap(x)` (R153). -/
def wrap (x : Num32) : Num32 :=
  let r := fmod x Num32.twoPi
  let r := if flt r Num32.zero then fadd r Num32.twoPi else r
  if fge r Num32.twoPi then fsub r Num32.twoPi else r

/-- `blep(t, dt)` (R155). -/
def blep (t dt : Num32) : Num32 :=
  if flt t dt then
    let u := fdiv t dt
    fsub (fsub (fadd u u) (fmul u u)) Num32.one
  else if fgt t (fsub Num32.one dt) then
    let u := fdiv (fsub t Num32.one) dt
    fadd (fadd (fadd (fmul u u) u) u) Num32.one
  else Num32.zero

/-- Triangle (R151). -/
def waveTriangle (t : Num32) : Num32 :=
  fsub (fmul Num32.two (fabs (fsub (fmul Num32.two t) Num32.one))) Num32.one

/-- Saw (R152). -/
def waveSaw (aa : Bool) (t dt : Num32) : Num32 :=
  let s := fsub (fmul Num32.two t) Num32.one
  if aa then fsub s (blep t dt) else s

/-- Square (R154). A NaN phase gives `-1.0`, and a NaN with antialiasing, as R154's comment, R150 and R155 say: the naive term
carries it (log entry 27). One place below `PI` the rounding of `t + 0.5` can give 2.0, outside R158's bound (log entry 28). -/
def waveSquare (aa : Bool) (phase t dt : Num32) : Num32 :=
  let s := if flt phase Num32.pi then Num32.one else Num32.negOne
  if aa then
    let naive := if isNaN phase then phase else s
    fsub (fadd naive (blep t dt)) (blep (fmod (fadd t Num32.half) Num32.one) dt)
  else s

/-- `wave(w, aa, phase, t, dt)` (R150). -/
def wave (w : Waveform) (aa : Bool) (phase t dt : Num32) : Num32 :=
  match w with
  | .triangle => waveTriangle t
  | .saw => waveSaw aa t dt
  | .square => waveSquare aa phase t dt

/-- `osc.processSample()` (R150): the sample, taken from the phase before the advance, and the new instance. -/
def Osc.processSample (w : Waveform) (aa : Bool) (fsL : Num32) (o : Osc) : Num32 × Osc :=
  let ramp := o.ramp.next
  let inc := fdiv (fmul Num32.twoPi ramp.cur) fsL
  let t := fdiv o.phase Num32.twoPi
  let dt := fdiv inc Num32.twoPi
  (wave w aa o.phase t dt, { o with ramp := ramp, inc := inc, phase := wrap (fadd o.phase inc) })

/-- `osc.spread(s)` (R156), channel `ch` of `nch`: panned right attenuates channel 0, panned left channel 1. -/
def spread (nch : BitVec 2) (panspread pm s : Num32) (ch : Nat) : Num32 :=
  if nch = 2 then
    let p := clamp (fmul panspread pm) Num32.negOne Num32.one
    if fgt p Num32.zero && ch == 0 then fmul s (fsub Num32.one p)
    else if flt p Num32.zero && ch == 1 then fmul s (fadd Num32.one p)
    else s
  else s

end Sys2Proof.Machine
end

