-- ==== Sys2Proof/Machine/Amplifier.lean ====
section
/-! DEFINITION. Amplifier operations (43_amplifier.md). -/

namespace Sys2Proof.Machine

/-- `amp.tick()` (R222). -/
def Amp.tick (c : Params) (a : Amp) : Amp := { a with ramp := a.ramp.retarget c.controlDiv a.gainIn }

/-- `amp.step` (R223): the ramp advances once a sample; the gain is its new value. -/
def Amp.advance (a : Amp) : Amp := { a with ramp := a.ramp.next }

/-- `amp.step` (R223), the output for one channel's input `x` after the advance. -/
def Amp.apply (a : Amp) (x : Num32) : Num32 := fmul x a.ramp.cur

/-- `amp.reset()` (R224). -/
def Amp.clear (_ : Amp) : Amp := Amp.reset

end Sys2Proof.Machine
end

