-- ==== Sys2Proof/Machine/Envelope.lean ====
section
/-! DEFINITION. Envelope operations (41_envelope.md). -/

namespace Sys2Proof.Machine

/-- One atomic write of a derived cell with its value from the present cells (R174). -/
def deriveCell (c : Params) (E : EnvId) (n : DerivedName) (s : State) : State :=
  s.setDer E n (derivedValue c s.fs (s.par.env E) n)

/-- The order in which `prepare` writes a master's cells (47_config_commands.md R322). -/
def derivedOrder : List DerivedName :=
  [.attackCoef, .attackBase, .decayCoef, .decayBase, .releaseCoef, .releaseBase]

/-- `envm.derive(E)` in whole (R174). -/
def deriveAll (c : Params) (E : EnvId) (s : State) : State :=
  derivedOrder.foldl (fun s n => deriveCell c E n s) s

/-- `env.gate(on)` (R176). -/
def Env.gate (on : Bool) (e : Env) : Env :=
  if on then { e with st := .attack }
  else if e.st = .idle then e else { e with st := .release }

/-- `env.forceIdle()` (R177). -/
def Env.forceIdle (_ : Env) : Env := ⟨Num32.zero, .idle⟩

/-- ATTACK step (R180). -/
def Env.attackStep (d : Derived) (e : Env) : Env :=
  let out := fadd d.attackBase (fmul e.out d.attackCoef)
  if fge out Num32.one then ⟨Num32.one, .decay⟩ else { e with out := out }

/-- DECAY step (R181). -/
def Env.decayStep (d : Derived) (m : EnvMaster) (e : Env) : Env :=
  let s := unitLevel m.sustain
  let out := fadd d.decayBase (fmul e.out d.decayCoef)
  if fle out s then ⟨s, .sustain⟩ else { e with out := out }

/-- The range of a level after a tick (R188, 10_state.md R53). Of the five steps only that of DECAY can pass it, when its cells
are torn (20_memory.md R94); the level is then 1 (log entry 25). -/
def Env.limit (capped : Bool) (e : Env) : Env := if capped && fgt e.out Num32.one then { e with out := Num32.one } else e

/-- SUSTAIN step (R182). -/
def Env.sustainStep (m : EnvMaster) (e : Env) : Env :=
  { out := unitLevel m.sustain, st := if flag m.mode then .release else e.st }

/-- RELEASE step (R183). -/
def Env.releaseStep (d : Derived) (e : Env) : Env :=
  let out := fadd d.releaseBase (fmul e.out d.releaseCoef)
  if fle out Num32.zero then ⟨Num32.zero, .idle⟩ else { e with out := out }

/-- `env.tick()` (R179, R185): one segment, chosen by the state before the tick, and the level's range (R188). -/
def Env.tick (capped : Bool) (d : Derived) (m : EnvMaster) (e : Env) : Env :=
  match e.st with
  | .idle => e
  | .attack => e.attackStep d
  | .decay => (e.decayStep d m).limit capped
  | .sustain => e.sustainStep m
  | .release => e.releaseStep d

end Sys2Proof.Machine
end

