-- ==== Sys2Proof/Machine/Filter.lean ====
section
/-! DEFINITION. Filter stage operations (42_filter.md); the kernel is the configuration's (R206). -/

namespace Sys2Proof.Machine

/-- `filt.setNote(n)` (R201). -/
def Filt.setNote (c : Params) (n : Nat) (q : Filt) : Filt := { q with kbd := keyboardTrack c n }

/-- `filt.reset()` (R202): the histories only. -/
def Filt.clear (c : Params) (q : Filt) : Filt := { q with hist0 := c.filt.initWords, hist1 := c.filt.initWords }

/-- `filt.tick()` (R203), with the master's slot `MF.modIn`. -/
def Filt.tick (c : Params) (m : FiltMaster) (masterIn : Num32) (q : Filt) : Filt :=
  { q with
    fc := fmul (fmul q.kbd (nonNegative m.cutoff)) (c.num.exp2 (fmul (fadd q.modIn masterIn) m.moddepth)),
    res := m.resonance }

/-- `filt.step(0, x)` (R204). -/
def Filt.step0 (c : Params) (fs x : Num32) (q : Filt) : Num32 × Filt :=
  let r := c.filt.stepWords q.hist0 x q.fc q.res fs
  (r.2, { q with hist0 := r.1 })

/-- `filt.step(1, x)` (R204). -/
def Filt.step1 (c : Params) (fs x : Num32) (q : Filt) : Num32 × Filt :=
  let r := c.filt.stepWords q.hist1 x q.fc q.res fs
  (r.2, { q with hist1 := r.1 })

end Sys2Proof.Machine
end

