-- ==== Sys2Proof/Machine/Matrix.lean ====
section
/-! DEFINITION. The modulation matrix (44_modmatrix.md): one routing engine over a binding, used in two scopes
(R230). -/

namespace Sys2Proof.Machine

/-- A binding: the slots that source and destination ids name in some holder `β` of slots; `none` is
`UNBOUND` (R231 to R233). -/
structure Binding (β : Type) where
  src : BitVec 4 → Option (β → Num32)
  dst : BitVec 4 → Option ((β → Num32) × (Num32 → β → β))

/-- The binding of a voice (R232, R233). -/
def voiceBinding : Binding Voice where
  src id := if id = 0 then some (fun v => v.env1.out) else if id = 1 then some (fun v => v.env2.out) else none
  dst id :=
    if id = 0 then some (fun v => v.filt.modIn, fun x v => { v with filt.modIn := x })
    else if id = 1 then some (fun v => v.amp.gainIn, fun x v => { v with amp.gainIn := x })
    else none

/-- The global binding (R232, R233). -/
def globalBinding : Binding State where
  src id := if id = 0 then some (fun s => s.lfoOut) else none
  dst id :=
    if id = 0 then some (fun s => s.fmIn, fun x s => { s with fmIn := x })
    else if id = 1 then some (fun s => s.modIn, fun x s => { s with modIn := x })
    else none

/-- Pass 1 of one route: zero its destination (R235, R236). -/
def matrixZero {β : Type} (zeroDisabled : Bool) (B : Binding β) (b : β) (r : Route) : β :=
  if r.valid && (r.en || zeroDisabled) then
    match B.dst r.dst with
    | some d => d.2 Num32.zero b
    | none => b
  else b

/-- Pass 2 of one route: add its source into its destination (R235, R237). -/
def matrixAdd {β : Type} (B : Binding β) (b : β) (r : Route) : β :=
  if r.valid && r.en then
    match B.src r.src, B.dst r.dst with
    | some src, some d => d.2 (fadd (d.1 b) (src b)) b
    | _, _ => b
  else b

/-- `matrix.process(T, B)` (R235): both passes in table order. -/
def matrixProcess {β : Type} (zeroDisabled : Bool) (B : Binding β) (T : List Route) (b : β) : β :=
  T.foldl (matrixAdd B) (T.foldl (matrixZero zeroDisabled B) b)

end Sys2Proof.Machine
end

