-- ==== Sys2Proof/Machine/Voice.lean ====
section
/-! DEFINITION. The voice (45_voice.md): construction, note operations, the voice tick and the voice sample. -/

namespace Sys2Proof.Machine

/-- `voice.construct(v)` (47_config_commands.md R326), field by field. -/
def Voice.construct (c : Params) (v : Voice) : Voice :=
  { note := none, keyDown := false, seq := 0, ccnt := 0,
    osc0 := v.osc0.prepare, osc1 := v.osc1.prepare, osc2 := v.osc2.prepare,
    env1 := v.env1.forceIdle, env2 := v.env2.forceIdle,
    filt := Filt.clear c { v.filt with kbd := Num32.one, modIn := Num32.zero, fc := Num32.zero, res := Num32.zero },
    amp := v.amp.clear, fading := false }

/-- What `startNote` does to oscillator `k` (R254). -/
def startOsc (c : Params) (s : State) (k : Nat) (hz : Num32) (o : Osc) : Osc :=
  let o := if c.phaseResetOnNote then o.resetPhase else o
  o.setBaseFrequency c c.controlDiv (unisonMult k) s.par.osc.detune s.par.osc.fmdepth s.fmIn hz

/-- `voice.startNote(v, n)` (R254), on the voice record; `s` gives the cells and the slot it reads. -/
def Voice.startNote (c : Params) (s : State) (n : BitVec 7) (v : Voice) : Voice :=
  let hz := midiHz c n.toNat
  { v with
    note := some n, keyDown := true,
    osc0 := startOsc c s 0 hz v.osc0, osc1 := startOsc c s 1 hz v.osc1, osc2 := startOsc c s 2 hz v.osc2,
    filt := Filt.clear c (v.filt.setNote c n.toNat),
    env1 := v.env1.gate true, env2 := v.env2.gate true,
    ccnt := 0, fading := false }

/-- `voice.stopNote(v, allowTailOff)` (R258). -/
def Voice.stopNote (allowTailOff : Bool) (v : Voice) : Voice :=
  let v1 := { v with keyDown := false, env1 := v.env1.gate false, env2 := v.env2.gate false }
  if allowTailOff then v1
  else { v1 with env1 := v1.env1.forceIdle, env2 := v1.env2.forceIdle, note := none, fading := false }

/-- The voice tick's first part (R264): both envelopes advance, envelope-1 first. -/
def Voice.tickEnvs (c : Params) (s : State) (v : Voice) : Voice :=
  { v with env1 := v.env1.tick c.decayCapped s.der1 s.par.env1, env2 := v.env2.tick c.decayCapped s.der2 s.par.env2 }

/-- The voice tick's free test (R264): a voice whose envelopes are both idle is marked free. -/
def Voice.tickFree (c : Params) (v : Voice) : Voice :=
  if v.isActive then v else { v with note := none, keyDown := false, fading := c.fadeOutGoesOn }

/-- The test at the head of a sub-chunk (R266): the voice is active. In the reading `fadeOutGoesOn` (log entry 26) a voice that
has ended goes on too while its last sub-chunk is open. -/
def Voice.sounds (c : Params) (v : Voice) : Bool := v.isActive || (c.fadeOutGoesOn && v.fading)

/-- What the voice tick does to oscillator `k` (R264). -/
def tickOsc (c : Params) (s : State) (k : Nat) (o : Osc) : Osc :=
  o.updateFrequency c false c.controlDiv (unisonMult k) s.par.osc.detune s.par.osc.fmdepth s.fmIn

/-- The voice tick's last part (R264): frequency, cutoff and gain targets. -/
def Voice.tickTargets (c : Params) (s : State) (v : Voice) : Voice :=
  { v with
    osc0 := tickOsc c s 0 v.osc0, osc1 := tickOsc c s 1 v.osc1, osc2 := tickOsc c s 2 v.osc2,
    filt := v.filt.tick c s.par.filt s.modIn, amp := v.amp.tick c }

/-- The voice tick (R264) on the voice record: envelopes, matrix, free test, targets. -/
def Voice.tick (c : Params) (s : State) (v : Voice) : Voice :=
  Voice.tickTargets c s (Voice.tickFree c (matrixProcess c.matrixZeroDisabled voiceBinding s.vr (v.tickEnvs c s)))

/-- The voice tick of voice `v`: one atomic step (20_memory.md R91). -/
def voiceTick (c : Params) (v : Nat) (s : State) : State := s.modVoice v (Voice.tick c s)

/-- One sample of oscillator `k` (R267, 40_oscillator.md R150). -/
def oscSample (s : State) (o : Osc) : Num32 × Osc :=
  o.processSample (wsel s.par.osc.waveform) (flag s.par.osc.antialias) s.fs

/-- The voice's sample before the buffer (R267): the outputs `z[0]`, `z[1]` (channels the configuration has not
switched on are not computed and stand as `+0.0`) and the new voice record. -/
def Voice.sample (c : Params) (s : State) (v : Voice) : Num32 × Num32 × Voice :=
  let r0 := oscSample s v.osc0
  let r1 := oscSample s v.osc1
  let r2 := oscSample s v.osc2
  let mix := fun ch =>
    fadd (fadd (spread s.nch s.par.osc.panspread (unisonMult 0) r0.1 ch)
      (spread s.nch s.par.osc.panspread (unisonMult 1) r1.1 ch))
      (spread s.nch s.par.osc.panspread (unisonMult 2) r2.1 ch)
  let amp := v.amp.advance
  let f0 := if 1 ≤ s.nch.toNat then v.filt.step0 c s.fs (mix 0) else (Num32.zero, v.filt)
  let f1 := if 2 ≤ s.nch.toNat then f0.2.step1 c s.fs (mix 1) else (Num32.zero, f0.2)
  (amp.apply f0.1, amp.apply f1.1,
    { v with osc0 := r0.2, osc1 := r1.2, osc2 := r2.2, filt := f1.2, amp := amp })

/-- Adds `z` to the buffer word of sample `i` of channel `ch` (R267, 20_memory.md R82). -/
def mixIn (c : Params) (ch i : Nat) (z : Num32) (s : State) : State :=
  memWrite c (sampleAddr c ch i) (fadd (memRead (sampleAddr c ch i) s) z) s

/-- The voice sample of voice `v` at index `i` (R267): one atomic step (20_memory.md R91). -/
def voiceSample (c : Params) (v i : Nat) (s : State) : State :=
  let r := (s.voice v).sample c s
  let s1 := s.modVoice v (fun _ => r.2.2)
  let s2 := if 1 ≤ s.nch.toNat then mixIn c 0 i r.1 s1 else s1
  if 2 ≤ s.nch.toNat then mixIn c 1 i r.2.1 s2 else s2

end Sys2Proof.Machine
end

