-- ==== Sys2Proof/WellFormed.lean ====
section
/-! DEFINITION. Which instruction terms have an encoding: each small integer operand fits its header field
(30_encoding.md R113 to R118). Payload words and flags need no check. Ranges that are encodable but out of range
for the semantics (R122) are well formed. -/

namespace Sys2Proof

/-- The operands fit the fields of the format. -/
def Instr.wf : Instr → Bool
  | .prepare _ maxBlockSize channelCount => maxBlockSize < 65536 && channelCount < 256
  | .setvoices n => n < 256
  | .noteon channel midiNote _ => channel < 16 && midiNote < 128
  | .noteoff channel midiNote _ _ => channel < 16 && midiNote < 128
  | .render startSample sampleCount => startSample < 4294967296 && sampleCount < 65536
  | .route _ index _ _ src dst => index < 8 && src < 16 && dst < 16
  | .setOscWaveform _ | .setOscAntialias _ | .setOscDetune _ | .setOscPanspread _ | .setOscFmdepth _
  | .setFiltCutoff _ | .setFiltResonance _ | .setFiltModdepth _
  | .setEnv1Attack _ | .setEnv1Decay _ | .setEnv1Sustain _ | .setEnv1Release _ | .setEnv1Mode _
  | .setEnv1RatioA _ | .setEnv1RatioDr _
  | .setEnv2Attack _ | .setEnv2Decay _ | .setEnv2Sustain _ | .setEnv2Release _ | .setEnv2Mode _
  | .setEnv2RatioA _ | .setEnv2RatioDr _
  | .setLfoAmount _ | .setLfoFreq _ => true

end Sys2Proof
end

