-- ==== Sys2Proof/Decode.lean ====
section
/-! DEFINITION. The decoder of 30_encoding.md R121, total on any word sequence, and after it the encoder of the
formats R113 to R119. A refused word is refused by name (`Illegal`). -/

namespace Sys2Proof

/-- `w[lo+width-1 : lo]`, the bit field read as an unsigned integer (00_scope.md R11). -/
def field (w lo width : Nat) : Nat := w / 2 ^ lo % 2 ^ width

/-- One row of the opcode map (R112) with its format's reserved fields, as (lowest bit, width) (R113 to R119). -/
structure Format where
  op       : Nat
  port     : Port
  payload  : Nat
  reserved : List (Nat × Nat)
  deriving DecidableEq, Repr

/-- The opcode map (R112). -/
def formats : List Format :=
  [ { op := 0x01, port := .c, payload := 2, reserved := [] },
    { op := 0x02, port := .c, payload := 0, reserved := [(8, 16)] },
    { op := 0x10, port := .c, payload := 1, reserved := [(15, 5), (0, 8)] },
    { op := 0x11, port := .c, payload := 1, reserved := [(15, 5), (1, 7)] },
    { op := 0x20, port := .c, payload := 1, reserved := [(16, 8)] },
    { op := 0x30, port := .c, payload := 0, reserved := [(18, 2), (12, 4), (4, 4)] },
    { op := 0x40, port := .p, payload := 1, reserved := [(8, 16)] } ]

/-- The opcode byte `H[31:24]` (R111). -/
def opcodeOf (H : Word) : Nat := field H.toNat 24 8

/-- The format of an opcode; none for the 249 undefined ones (R112). -/
def formatOf (op : Nat) : Option Format := formats.find? fun f => f.op == op

/-- A bit the format does not assign is 1 (R111, R121). -/
def reservedSet (f : Format) (H : Word) : Bool :=
  f.reserved.any fun r => field H.toNat r.1 r.2 != 0

/-- `P[id]`'s id (10_state.md R40). -/
def ParamId.code : ParamId → Nat
  | .oscWaveform => 0x00
  | .oscAntialias => 0x01
  | .oscDetune => 0x02
  | .oscPanspread => 0x03
  | .oscFmdepth => 0x04
  | .filtCutoff => 0x08
  | .filtResonance => 0x09
  | .filtModdepth => 0x0A
  | .env1Attack => 0x10
  | .env1Decay => 0x11
  | .env1Sustain => 0x12
  | .env1Release => 0x13
  | .env1Mode => 0x14
  | .env1RatioA => 0x15
  | .env1RatioDr => 0x16
  | .env2Attack => 0x18
  | .env2Decay => 0x19
  | .env2Sustain => 0x1A
  | .env2Release => 0x1B
  | .env2Mode => 0x1C
  | .env2RatioA => 0x1D
  | .env2RatioDr => 0x1E
  | .lfoAmount => 0x20
  | .lfoFreq => 0x21

/-- The cell an id names; none for the ids that name no cell (10_state.md R40). -/
def ParamId.ofCode : Nat → Option ParamId
  | 0x00 => some .oscWaveform
  | 0x01 => some .oscAntialias
  | 0x02 => some .oscDetune
  | 0x03 => some .oscPanspread
  | 0x04 => some .oscFmdepth
  | 0x08 => some .filtCutoff
  | 0x09 => some .filtResonance
  | 0x0A => some .filtModdepth
  | 0x10 => some .env1Attack
  | 0x11 => some .env1Decay
  | 0x12 => some .env1Sustain
  | 0x13 => some .env1Release
  | 0x14 => some .env1Mode
  | 0x15 => some .env1RatioA
  | 0x16 => some .env1RatioDr
  | 0x18 => some .env2Attack
  | 0x19 => some .env2Decay
  | 0x1A => some .env2Sustain
  | 0x1B => some .env2Release
  | 0x1C => some .env2Mode
  | 0x1D => some .env2RatioA
  | 0x1E => some .env2RatioDr
  | 0x20 => some .lfoAmount
  | 0x21 => some .lfoFreq
  | _ => none

/-- The SETPARAM form that writes a cell (R119). -/
def ParamId.instr : ParamId → Word → Instr
  | .oscWaveform, v => .setOscWaveform v
  | .oscAntialias, v => .setOscAntialias v
  | .oscDetune, v => .setOscDetune v
  | .oscPanspread, v => .setOscPanspread v
  | .oscFmdepth, v => .setOscFmdepth v
  | .filtCutoff, v => .setFiltCutoff v
  | .filtResonance, v => .setFiltResonance v
  | .filtModdepth, v => .setFiltModdepth v
  | .env1Attack, v => .setEnv1Attack v
  | .env1Decay, v => .setEnv1Decay v
  | .env1Sustain, v => .setEnv1Sustain v
  | .env1Release, v => .setEnv1Release v
  | .env1Mode, v => .setEnv1Mode v
  | .env1RatioA, v => .setEnv1RatioA v
  | .env1RatioDr, v => .setEnv1RatioDr v
  | .env2Attack, v => .setEnv2Attack v
  | .env2Decay, v => .setEnv2Decay v
  | .env2Sustain, v => .setEnv2Sustain v
  | .env2Release, v => .setEnv2Release v
  | .env2Mode, v => .setEnv2Mode v
  | .env2RatioA, v => .setEnv2RatioA v
  | .env2RatioDr, v => .setEnv2RatioDr v
  | .lfoAmount, v => .setLfoAmount v
  | .lfoFreq, v => .setLfoFreq v

/-- The cell and value of a SETPARAM form; none for the C-port commands. -/
def Instr.setparam : Instr → Option (ParamId × Word)
  | .prepare _ _ _ | .setvoices _ | .noteon _ _ _ | .noteoff _ _ _ _ | .render _ _ | .route _ _ _ _ _ _ => none
  | .setOscWaveform v => some (.oscWaveform, v)
  | .setOscAntialias v => some (.oscAntialias, v)
  | .setOscDetune v => some (.oscDetune, v)
  | .setOscPanspread v => some (.oscPanspread, v)
  | .setOscFmdepth v => some (.oscFmdepth, v)
  | .setFiltCutoff v => some (.filtCutoff, v)
  | .setFiltResonance v => some (.filtResonance, v)
  | .setFiltModdepth v => some (.filtModdepth, v)
  | .setEnv1Attack v => some (.env1Attack, v)
  | .setEnv1Decay v => some (.env1Decay, v)
  | .setEnv1Sustain v => some (.env1Sustain, v)
  | .setEnv1Release v => some (.env1Release, v)
  | .setEnv1Mode v => some (.env1Mode, v)
  | .setEnv1RatioA v => some (.env1RatioA, v)
  | .setEnv1RatioDr v => some (.env1RatioDr, v)
  | .setEnv2Attack v => some (.env2Attack, v)
  | .setEnv2Decay v => some (.env2Decay, v)
  | .setEnv2Sustain v => some (.env2Sustain, v)
  | .setEnv2Release v => some (.env2Release, v)
  | .setEnv2Mode v => some (.env2Mode, v)
  | .setEnv2RatioA v => some (.env2RatioA, v)
  | .setEnv2RatioDr v => some (.env2RatioDr, v)
  | .setLfoAmount v => some (.lfoAmount, v)
  | .setLfoFreq v => some (.lfoFreq, v)

/-- Operand assembly (R113 to R120) for a header `h` of a defined opcode with its payload words; none only for
a SETPARAM whose id names no cell (R122, R385). -/
def assemble (h : Nat) (w1 w2 : Word) : Option Instr :=
  match field h 24 8 with
  | 0x01 => some (.prepare (w2 ++ w1) (field h 0 16) (field h 16 8))
  | 0x02 => some (.setvoices (field h 0 8))
  | 0x10 => some (.noteon (field h 20 4) (field h 8 7) w1)
  | 0x11 => some (.noteoff (field h 20 4) (field h 8 7) w1 (field h 0 1 == 1))
  | 0x20 => some (.render w1.toNat (field h 0 16))
  | 0x30 => some (.route (if field h 23 1 = 0 then .voice else .global) (field h 20 3)
      (field h 17 1 == 1) (field h 16 1 == 1) (field h 8 4) (field h 0 4))
  | 0x40 => (ParamId.ofCode (field h 0 8)).map fun id => id.instr w1
  | _ => none

/-- Why a header is illegal (R122), in the order of the checks (60_exceptions.md R392). -/
inductive Illegal where
  /-- the opcode is none of the seven -/
  | opcode
  /-- a reserved bit is 1 -/
  | reserved
  /-- the command belongs to the other port -/
  | port
  deriving DecidableEq, Repr

/-- What a port's decoder makes of the words that have arrived. -/
inductive Decoded where
  /-- no complete command has arrived: the port waits -/
  | wait
  /-- a command, and the words after it -/
  | command (i : Instr) (rest : List Word)
  /-- an illegal command with header `H` (R121, R122): its words are consumed -/
  | illegal (why : Illegal) (H : Word) (rest : List Word)
  /-- a well-formed SETPARAM whose id names no cell (R385): its words are consumed -/
  | noCell (H : Word) (rest : List Word)
  deriving DecidableEq, Repr

/-- The decoder for a header of format `f` whose payload has arrived. -/
def decodeFormat (port : Port) (f : Format) (H : Word) (payload rest : List Word) : Decoded :=
  if reservedSet f H then .illegal .reserved H rest
  else if f.port ≠ port then .illegal .port H rest
  else match assemble H.toNat (payload.getD 0 0) (payload.getD 1 0) with
    | some i => .command i rest
    | none => .noCell H rest

/-- The decoding algorithm (R121): the opcode fixes the length; the payload is consumed whatever happens. -/
def decode (port : Port) : List Word → Decoded
  | [] => .wait
  | H :: ws =>
    match formatOf (opcodeOf H) with
    | none => .illegal .opcode H ws
    | some f =>
      if ws.length < f.payload then .wait
      else decodeFormat port f H (ws.take f.payload) (ws.drop f.payload)

/-- The words of an instruction whose bits are the number `w`, first word lowest. -/
def tableWords (w : Nat) : List Word :=
  [BitVec.ofNat 32 w, BitVec.ofNat 32 (w / 4294967296), BitVec.ofNat 32 (w / 18446744073709551616)]

/-- The port an opcode belongs to (R123); an undefined opcode is given to the C port. -/
def portOfWord (H : Word) : Port := ((formatOf (opcodeOf H)).map Format.port).getD .c

/-- The instruction the decoder reads from an instruction word numbered as spec/opcode_table.json numbers it. -/
def decodeTableWord (nbits w : Nat) : Option Instr :=
  let words := tableWords (w % 2 ^ nbits)
  match decode (portOfWord (words.getD 0 0)) words with
  | .command i _ => some i
  | _ => none

/-! The encoder. -/

/-- The port of a command (R112). -/
def Instr.port (i : Instr) : Port := if i.setparam.isSome then .p else .c

/-- PREPARE, SETVOICES and ROUTE: the commands of the interlock (20_memory.md R93). -/
def Instr.isConfig : Instr → Bool
  | .prepare _ _ _ | .setvoices _ | .route _ _ _ _ _ _ => true
  | _ => false

/-- The header's value (R113 to R119); the operands are taken modulo their field widths. -/
def Instr.headerNat (i : Instr) : Nat :=
  match i with
  | .prepare _ maxBlockSize channelCount => 0x01000000 + channelCount % 256 * 0x10000 + maxBlockSize % 65536
  | .setvoices n => 0x02000000 + n % 256
  | .noteon channel midiNote _ => 0x10000000 + channel % 16 * 0x100000 + midiNote % 128 * 0x100
  | .noteoff channel midiNote _ tail =>
    0x11000000 + channel % 16 * 0x100000 + midiNote % 128 * 0x100 + tail.toNat
  | .render _ sampleCount => 0x20000000 + sampleCount % 65536
  | .route scope index valid en src dst =>
    0x30000000 + (if scope = .voice then 0 else 0x800000) + index % 8 * 0x100000 + valid.toNat * 0x20000
      + en.toNat * 0x10000 + src % 16 * 0x100 + dst % 16
  | i => 0x40000000 + (i.setparam.map fun pv => pv.1.code).getD 0

/-- The header word `H` of a command. -/
def Instr.header (i : Instr) : Word := BitVec.ofNat 32 i.headerNat

/-- The payload words (R113 to R119); the low word of the binary64 rate first (20_memory.md R85). -/
def Instr.payload (i : Instr) : List Word :=
  match i with
  | .prepare d _ _ => [d.extractLsb' 0 32, d.extractLsb' 32 32]
  | .setvoices _ => []
  | .noteon _ _ velocity => [velocity]
  | .noteoff _ _ velocity _ => [velocity]
  | .render startSample _ => [BitVec.ofNat 32 startSample]
  | .route _ _ _ _ _ _ => []
  | i => [(i.setparam.map Prod.snd).getD 0]

/-- The words of an instruction. -/
def encode (i : Instr) : List Word := i.header :: i.payload

end Sys2Proof
end

