-- ==== Sys2Proof/Machine/Writer.lean ====
section
/-! DEFINITION. The parameter writer (00_scope.md R9, 48_parameter_setters.md R340 to R342) one cell write at a
time, and how its steps and the environment's moves fall between the atomic steps of the render engine
(20_memory.md R91, R92). -/

namespace Sys2Proof.Machine

/-- The derived writes of a SETPARAM, in order (48_parameter_setters.md R342). -/
def derivedWrites : ParamId → List (EnvId × DerivedName)
  | .env1Attack | .env1RatioA => [(.env1, .attackCoef), (.env1, .attackBase)]
  | .env1Decay => [(.env1, .decayCoef), (.env1, .decayBase)]
  | .env1Sustain => [(.env1, .decayBase)]
  | .env1Release => [(.env1, .releaseCoef), (.env1, .releaseBase)]
  | .env1RatioDr =>
    [(.env1, .decayCoef), (.env1, .decayBase), (.env1, .releaseCoef), (.env1, .releaseBase)]
  | .env2Attack | .env2RatioA => [(.env2, .attackCoef), (.env2, .attackBase)]
  | .env2Decay => [(.env2, .decayCoef), (.env2, .decayBase)]
  | .env2Sustain => [(.env2, .decayBase)]
  | .env2Release => [(.env2, .releaseCoef), (.env2, .releaseBase)]
  | .env2RatioDr =>
    [(.env2, .decayCoef), (.env2, .decayBase), (.env2, .releaseCoef), (.env2, .releaseBase)]
  | .oscWaveform | .oscAntialias | .oscDetune | .oscPanspread | .oscFmdepth
  | .filtCutoff | .filtResonance | .filtModdepth | .env1Mode | .env2Mode | .lfoAmount | .lfoFreq => []

/-- The rest of a write sequence after a write: `pbusy` falls with the last one (R340). -/
def setPending (rest : List (EnvId × DerivedName)) (s : State) : State :=
  { s with pPend := rest, pbusy := !rest.isEmpty }

/-- A SETPARAM starts: its first write, of the raw cell (R340, R341). The model's choice (log entry 29): `pbusy <- 1`
belongs to this write, so a form with no derived write shows `pbusy = 1` in no state. -/
def setParamStart (id : ParamId) (v : Word) (s : State) : State :=
  setPending (derivedWrites id) { s with par := s.par.set id v }

/-- The writer's next derived write, if one is pending (R342). -/
def writeNext (c : Params) (s : State) : State :=
  match s.pPend with
  | [] => s
  | (E, n) :: rest => setPending rest (deriveCell c E n s)

/-- All pending derived writes, at most `k`. -/
def writeRest (c : Params) : Nat → State → State
  | 0, s => s
  | k + 1, s => writeRest c k (writeNext c s)

/-- A SETPARAM that has started goes on while no other move is chosen: each `writer` move is one write; another
move leaves the sequence in flight (R94); with no moves chosen it is finished. -/
def drainWith (c : Params) : List Event → State → State
  | [], s => writeRest c s.pPend.length { s with events := [] }
  | e :: es, s =>
    if s.pPend.isEmpty then { s with events := e :: es }
    else match e with
      | .writer => drainWith c es (writeNext c s)
      | .engine | .rst | .hostWrite _ _ => { s with events := e :: es }

/-- `SETPARAM id, value` (R340): its writes, as far as the environment's moves let it. -/
def setParam (c : Params) (id : ParamId) (v : Word) (s : State) : State :=
  let s1 := setParamStart id v s
  drainWith c s1.events s1

/-- One atomic step of the parameter writer (20_memory.md R91): the next write of the sequence in flight, else
the start of the next P-port command that has arrived (R340, R385, 30_encoding.md R121). -/
def writerStep (c : Params) (s : State) : State :=
  match s.pPend with
  | _ :: _ => writeNext c s
  | [] =>
    match decode .p s.pIn with
    | .wait => s
    | .illegal _ H rest => raise .illegal H .p { s with pIn := rest }
    | .noCell H rest => raise .paramId H .p { s with pIn := rest }
    | .command i rest =>
      match i.setparam with
      | some (id, v) => setParamStart id v { s with pIn := rest }
      | none => { s with pIn := rest }

/-- The moves chosen for one boundary between two atomic steps of a running command (R92): writer steps up to the
next `engine` move. `rst` abandons the command (70_reset_and_hazards.md R410); a B-port write is no move while
`busy = 1` (20_memory.md R83) and stands until the command has ended. -/
def interleaveWith (c : Params) : List Event → State → State
  | [], s => { s with events := [] }
  | .engine :: es, s => { s with events := es }
  | .writer :: es, s => interleaveWith c es (writerStep c s)
  | .rst :: es, s => rst c { s with events := es }
  | .hostWrite a w :: es, s => { s with events := .hostWrite a w :: es }

/-- The moves at the boundary the engine has reached. -/
def interleave (c : Params) (s : State) : State := interleaveWith c s.events s

/-- One atomic step of a running command and the boundary after it; nothing once the command is abandoned. -/
def atomic (c : Params) (f : State → State) (s : State) : State :=
  if s.busy then interleave c (f s) else s

/-- The engine's own bookkeeping between atomic steps; nothing once the command is abandoned. -/
def whileBusy (f : State → State) (s : State) : State := if s.busy then f s else s

end Sys2Proof.Machine
end

