-- ==== Sys2Proof/Machine/Pool.lean ====
section
/-! DEFINITION. The voice pool (46_voicepool.md): NOTEON, NOTEOFF, RENDER, the stealing policy, the global tick
and the render loop. -/

namespace Sys2Proof.Machine

/-- The voices that exist, `0..nvoices` (R280). -/
def liveVoices (s : State) : List Nat := List.range s.nvoices.toNat

/-- The voice of a list with the least `seq`; the first of those on a tie (R286, 70_reset_and_hazards.md R432). -/
def oldest (s : State) : List Nat → Option Nat
  | [] => none
  | v :: vs =>
    match oldest s vs with
    | none => some v
    | some w => if (s.voice w).seq.toNat < (s.voice v).seq.toNat then some w else some v

/-- The steal tiers (R286): same pitch; released and not sustain-held; key up; any. -/
def stealVoice (n : BitVec 7) (s : State) : Option Nat :=
  let live := liveVoices s
  (oldest s (live.filter fun v => (s.voice v).note == some n)).or
    ((oldest s (live.filter fun v => !(s.voice v).keyDown && !(s.voice v).sustainHeld)).or
      ((oldest s (live.filter fun v => !(s.voice v).keyDown)).or (oldest s live)))

/-- `findVoice(n)` (R286): the least free voice, else a steal. -/
def findVoice (n : BitVec 7) (s : State) : Nat :=
  match (liveVoices s).find? fun v => (s.voice v).isFree with
  | some v => v
  | none => (stealVoice n s).getD 0

/-- Starts a note on a voice that is not the least bit busy or has to be stolen (R285, 45_voice.md R254, R258). -/
def takeVoice (c : Params) (v : Nat) (n : BitVec 7) (s : State) : State :=
  let s1 := if (s.voice v).isFree then s else s.modVoice v (Voice.stopNote false)
  let s2 := s1.modVoice v (Voice.startNote c s1 n)
  { s2.modVoice v (fun x => { x with seq := s2.noteSeq }) with noteSeq := s2.noteSeq + 1 }

/-- NOTEON (R285). -/
def noteOn (c : Params) (H : Word) (n : BitVec 7) : State → State :=
  cCommand H fun s =>
    if s.mode ≠ .ready then raise .notPrepared H .c s
    else if s.nvoices = 0 then { raise .capacity H .c s with mode := .halted }
    else endCommand (takeVoice c (findVoice n s) n s)

/-- Stops voice `v` if it holds the note (R295). -/
def stopIfHolding (n : BitVec 7) (allowTailOff : Bool) (s : State) (v : Nat) : State :=
  if (s.voice v).note = some n then s.modVoice v (Voice.stopNote allowTailOff) else s

/-- NOTEOFF (R295). -/
def noteOff (H : Word) (n : BitVec 7) (allowTailOff : Bool) : State → State :=
  cCommand H fun s =>
    if s.mode ≠ .ready then raise .notPrepared H .c s
    else endCommand ((liveVoices s).foldl (stopIfHolding n allowTailOff) s)

/-- The LFO's part of the global tick (R301, R302): base frequency at once, one sample, the scaled output. -/
def lfoTick (c : Params) (s : State) : State :=
  let o := s.lfo.setBaseFrequency c 1 Num32.zero Num32.zero Num32.zero Num32.zero s.par.lfoFreq
  let r := o.processSample c.lfoWaveform false (controlRate c s.fs)
  { s with lfo := r.2, lfoOut := fmul s.par.lfoAmount r.1 }

/-- The global tick (R302): one atomic step. -/
def globalTick (c : Params) (s : State) : State :=
  matrixProcess c.matrixZeroDisabled globalBinding s.gr (lfoTick c s)

/-- `n` voice samples of voice `v` from index `i` on (45_voice.md R266). -/
def sampleLoop (c : Params) (v : Nat) : Nat → Nat → State → State
  | 0, _, s => s
  | n + 1, i, s => sampleLoop c v n (i + 1) (atomic c (voiceSample c v i) s)

/-- The length of a chunk: the samples left, up to the next tick of a counter (R311, 45_voice.md R266). -/
def chunkLength (c : Params) (left : Nat) (counter : BitVec 16) : Nat := min left (c.controlDiv - counter.toNat)

/-- A control-rate counter after `n` samples (10_state.md R34). -/
def advanceCounter (c : Params) (n : Nat) (counter : BitVec 16) : BitVec 16 :=
  BitVec.ofNat 16 ((counter.toNat + n) % c.controlDiv)

/-- The voice's bookkeeping after `n` samples of a sub-chunk (45_voice.md R266): its counter; an open sub-chunk of an ended
voice (log entry 26) ends with it. -/
def Voice.advance (c : Params) (n : Nat) (v : Voice) : Voice :=
  let k := advanceCounter c n v.ccnt
  { v with ccnt := k, fading := c.fadeOutGoesOn && v.fading && k != 0 }

/-- The loop of `voice.renderBlock` (45_voice.md R266); the first argument bounds the number of sub-chunks, each of
which has at least one sample (log entry 19). -/
def voiceLoop (c : Params) (v : Nat) : Nat → Nat → Nat → State → State
  | 0, _, _, s => s
  | k + 1, pos, left, s =>
    if left = 0 || !s.busy || !(s.voice v).sounds c then s
    else
      let s1 := if (s.voice v).ccnt = 0 then atomic c (voiceTick c v) s else s
      let n := chunkLength c left (s1.voice v).ccnt
      let s2 := sampleLoop c v n pos s1
      let s3 := whileBusy (fun s => s.modVoice v (Voice.advance c n)) s2
      voiceLoop c v k (pos + n) (left - n) s3

/-- In the reading `fadeOutGoesOn` (log entry 26): a pool-chunk boundary cuts the open sub-chunk of an ended voice
(70_reset_and_hazards.md R433). -/
def cutFadeOut (c : Params) (v : Nat) (s : State) : State :=
  if c.fadeOutGoesOn && s.gcnt == 0 then s.modVoice v fun x => { x with fading := false } else s

/-- `voice.renderBlock(v, start, count)` (45_voice.md R266). -/
def renderVoice (c : Params) (start count : Nat) (s : State) (v : Nat) : State :=
  voiceLoop c v count start count (whileBusy (cutFadeOut c v) s)

/-- One pool chunk (R311): the global tick if it is due, every voice in ascending order, the counters. -/
def poolChunk (c : Params) (cur : Cursor) (s : State) : State :=
  let s1 := if s.gcnt = 0 then atomic c (globalTick c) s else s
  let n := chunkLength c cur.rem.toNat s1.gcnt
  let s2 := (liveVoices s1).foldl (renderVoice c cur.pos.toNat n) s1
  whileBusy (fun s => { s with
    gcnt := advanceCounter c n s.gcnt,
    cursor := some ⟨cur.pos + BitVec.ofNat 32 n, cur.rem - BitVec.ofNat 16 n⟩ }) s2

/-- The render loop (R311) on the render cursor (10_state.md R33); the first argument bounds the number of pool
chunks, each of which has at least one sample (log entry 19). -/
def renderLoop (c : Params) : Nat → State → State
  | 0, s => s
  | k + 1, s =>
    match s.cursor with
    | none => s
    | some cur => if cur.rem = 0 then s else renderLoop c k (poolChunk c cur s)

/-- RENDER (R310): admission, the range check with an unwrapped sum, the loop. -/
def renderCommand (c : Params) (H : Word) (start count : Nat) : State → State :=
  cCommand H fun s =>
    if s.mode ≠ .ready then raise .notPrepared H .c s
    else if s.maxBlock.toNat < start + count then raise .range H .c s
    else endCommand (renderLoop c count { s with cursor := some ⟨BitVec.ofNat 32 start, BitVec.ofNat 16 count⟩ })

/-- `NOTEON channel, midiNote, velocity` (R285); channel and velocity are carried and ignored. -/
def execNoteon (channel midiNote : Nat) (velocity : Word) (s : State) : Host.Outcome State Fault Refusal :=
  .next (noteOn hw (Instr.noteon channel midiNote velocity).header (BitVec.ofNat 7 midiNote) s)

/-- `NOTEOFF channel, midiNote, velocity, allowTailOff` (R295). -/
def execNoteoff (channel midiNote : Nat) (velocity : Word) (allowTailOff : Bool) (s : State) :
    Host.Outcome State Fault Refusal :=
  .next (noteOff (Instr.noteoff channel midiNote velocity allowTailOff).header (BitVec.ofNat 7 midiNote)
    allowTailOff s)

/-- `RENDER startSample, sampleCount` (R310). -/
def execRender (startSample sampleCount : Nat) (s : State) : Host.Outcome State Fault Refusal :=
  .next (renderCommand hw (Instr.render startSample sampleCount).header startSample sampleCount s)

end Sys2Proof.Machine
end

