-- ==== Sys2Proof/Machine/ConfigCommands.lean ====
section
/-! DEFINITION. The configuration commands PREPARE, SETVOICES, ROUTE (47_config_commands.md). -/

namespace Sys2Proof.Machine

/-- `osc.prepare(LFO)` and the slots and counters that `prepare` clears (R322). -/
def clearGlobal (s : State) : State :=
  { s with lfo := s.lfo.prepare, lfoOut := Num32.zero, fmIn := Num32.zero, modIn := Num32.zero, gcnt := 0, noteSeq := 0 }

/-- `prepare(fsn, mb, nc)` (R322). -/
def prepareEffects (c : Params) (fsn : Num32) (mb nc : Nat) (s : State) : State :=
  let s1 := { s with
    fs := fsn, maxBlock := BitVec.ofNat 16 mb, nch := BitVec.ofNat 2 nc,
    voices := s.voices.map (Voice.construct c) }
  let s2 := deriveAll c .env2 (deriveAll c .env1 (clearGlobal s1))
  { s2 with mode := .ready }

/-- The sample rate PREPARE accepts: finite and positive in binary32 (R320). -/
def rateLegal (fsn : Num32) : Bool := fgt fsn Num32.zero && fsn != Num32.inf

/-- PREPARE (R320). -/
def prepareCommand (c : Params) (H : Word) (d : BitVec 64) (mb nc : Nat) : State → State :=
  cCommand H fun s =>
    if !rateLegal (f64ToNum d) then raise .config H .c s
    else if mb = 0 ∨ c.maxBlockCap < mb then raise .config H .c s
    else if nc = 0 ∨ c.maxChannels < nc then raise .config H .c s
    else endCommand (prepareEffects c (f64ToNum d) mb nc s)

/-- Constructs (or destroys, R326) the voices `lo..hi`. -/
def constructRange (c : Params) (lo hi : Nat) (voices : List Voice) : List Voice :=
  voices.mapIdx fun v x => if lo ≤ v ∧ v < hi then x.construct c else x

/-- SETVOICES (R325). -/
def setVoicesCommand (c : Params) (H : Word) (n : Nat) : State → State :=
  cCommand H fun s =>
    if c.maxVoices < n then raise .config H .c s
    else
      let old := s.nvoices.toNat
      endCommand { s with voices := constructRange c (min n old) (max n old) s.voices, nvoices := BitVec.ofNat 8 n }

/-- ROUTE (R330). -/
def routeCommand (c : Params) (H : Word) (scope : Scope) (index : Nat) (r : Route) : State → State :=
  cCommand H fun s =>
    if c.nroutes ≤ index then raise .config H .c s
    else match scope with
      | .voice => endCommand { s with vr := s.vr.set index r }
      | .global => endCommand { s with gr := s.gr.set index r }

/-- `PREPARE sampleRate, maxBlockSize, channelCount` (R320, R322). -/
def execPrepare (sampleRate : BitVec 64) (maxBlockSize channelCount : Nat) (s : State) :
    Host.Outcome State Fault Refusal :=
  .next (prepareCommand hw (Instr.prepare sampleRate maxBlockSize channelCount).header sampleRate maxBlockSize
    channelCount s)

/-- `SETVOICES n` (R325). -/
def execSetvoices (n : Nat) (s : State) : Host.Outcome State Fault Refusal :=
  .next (setVoicesCommand hw (Instr.setvoices n).header n s)

/-- `ROUTE scope, index, valid, en, src, dst` (R330). -/
def execRoute (scope : Scope) (index : Nat) (valid en : Bool) (src dst : Nat) (s : State) :
    Host.Outcome State Fault Refusal :=
  .next (routeCommand hw (Instr.route scope index valid en src dst).header scope index
    ⟨valid, en, BitVec.ofNat 4 src, BitVec.ofNat 4 dst⟩ s)

end Sys2Proof.Machine
end

