-- ==== Sys2Proof/Machine/Setters.lean ====
section
/-! DEFINITION. The 24 forms of SETPARAM (48_parameter_setters.md R343 to R366), each one line over the shared
`setParam` (R340 to R342), which writes the raw cell and then the derived cells of R342 in order. Accepted in every
mode; the value is stored as it is (R341). -/

namespace Sys2Proof.Machine

/-- `SETPARAM OSC_WAVEFORM, value` (id 0x00, R343). -/
def execSetOscWaveform (value : Word) (s : State) : Host.Outcome State Fault Refusal :=
  .next (setParam hw .oscWaveform value s)

/-- `SETPARAM OSC_ANTIALIAS, value` (id 0x01, R344). -/
def execSetOscAntialias (value : Word) (s : State) : Host.Outcome State Fault Refusal :=
  .next (setParam hw .oscAntialias value s)

/-- `SETPARAM OSC_DETUNE, value` (id 0x02, R345). -/
def execSetOscDetune (value : Word) (s : State) : Host.Outcome State Fault Refusal :=
  .next (setParam hw .oscDetune value s)

/-- `SETPARAM OSC_PANSPREAD, value` (id 0x03, R346). -/
def execSetOscPanspread (value : Word) (s : State) : Host.Outcome State Fault Refusal :=
  .next (setParam hw .oscPanspread value s)

/-- `SETPARAM OSC_FMDEPTH, value` (id 0x04, R347). -/
def execSetOscFmdepth (value : Word) (s : State) : Host.Outcome State Fault Refusal :=
  .next (setParam hw .oscFmdepth value s)

/-- `SETPARAM FILT_CUTOFF, value` (id 0x08, R348). -/
def execSetFiltCutoff (value : Word) (s : State) : Host.Outcome State Fault Refusal :=
  .next (setParam hw .filtCutoff value s)

/-- `SETPARAM FILT_RESONANCE, value` (id 0x09, R349). -/
def execSetFiltResonance (value : Word) (s : State) : Host.Outcome State Fault Refusal :=
  .next (setParam hw .filtResonance value s)

/-- `SETPARAM FILT_MODDEPTH, value` (id 0x0A, R350). -/
def execSetFiltModdepth (value : Word) (s : State) : Host.Outcome State Fault Refusal :=
  .next (setParam hw .filtModdepth value s)

/-- `SETPARAM ENV1_ATTACK, value` (id 0x10, R351). -/
def execSetEnv1Attack (value : Word) (s : State) : Host.Outcome State Fault Refusal :=
  .next (setParam hw .env1Attack value s)

/-- `SETPARAM ENV1_DECAY, value` (id 0x11, R352). -/
def execSetEnv1Decay (value : Word) (s : State) : Host.Outcome State Fault Refusal :=
  .next (setParam hw .env1Decay value s)

/-- `SETPARAM ENV1_SUSTAIN, value` (id 0x12, R353). -/
def execSetEnv1Sustain (value : Word) (s : State) : Host.Outcome State Fault Refusal :=
  .next (setParam hw .env1Sustain value s)

/-- `SETPARAM ENV1_RELEASE, value` (id 0x13, R354). -/
def execSetEnv1Release (value : Word) (s : State) : Host.Outcome State Fault Refusal :=
  .next (setParam hw .env1Release value s)

/-- `SETPARAM ENV1_MODE, value` (id 0x14, R355). -/
def execSetEnv1Mode (value : Word) (s : State) : Host.Outcome State Fault Refusal :=
  .next (setParam hw .env1Mode value s)

/-- `SETPARAM ENV1_RATIO_A, value` (id 0x15, R356). -/
def execSetEnv1RatioA (value : Word) (s : State) : Host.Outcome State Fault Refusal :=
  .next (setParam hw .env1RatioA value s)

/-- `SETPARAM ENV1_RATIO_DR, value` (id 0x16, R357). -/
def execSetEnv1RatioDr (value : Word) (s : State) : Host.Outcome State Fault Refusal :=
  .next (setParam hw .env1RatioDr value s)

/-- `SETPARAM ENV2_ATTACK, value` (id 0x18, R358). -/
def execSetEnv2Attack (value : Word) (s : State) : Host.Outcome State Fault Refusal :=
  .next (setParam hw .env2Attack value s)

/-- `SETPARAM ENV2_DECAY, value` (id 0x19, R359). -/
def execSetEnv2Decay (value : Word) (s : State) : Host.Outcome State Fault Refusal :=
  .next (setParam hw .env2Decay value s)

/-- `SETPARAM ENV2_SUSTAIN, value` (id 0x1A, R360). -/
def execSetEnv2Sustain (value : Word) (s : State) : Host.Outcome State Fault Refusal :=
  .next (setParam hw .env2Sustain value s)

/-- `SETPARAM ENV2_RELEASE, value` (id 0x1B, R361). -/
def execSetEnv2Release (value : Word) (s : State) : Host.Outcome State Fault Refusal :=
  .next (setParam hw .env2Release value s)

/-- `SETPARAM ENV2_MODE, value` (id 0x1C, R362). -/
def execSetEnv2Mode (value : Word) (s : State) : Host.Outcome State Fault Refusal :=
  .next (setParam hw .env2Mode value s)

/-- `SETPARAM ENV2_RATIO_A, value` (id 0x1D, R363). -/
def execSetEnv2RatioA (value : Word) (s : State) : Host.Outcome State Fault Refusal :=
  .next (setParam hw .env2RatioA value s)

/-- `SETPARAM ENV2_RATIO_DR, value` (id 0x1E, R364). -/
def execSetEnv2RatioDr (value : Word) (s : State) : Host.Outcome State Fault Refusal :=
  .next (setParam hw .env2RatioDr value s)

/-- `SETPARAM LFO_AMOUNT, value` (id 0x20, R365). -/
def execSetLfoAmount (value : Word) (s : State) : Host.Outcome State Fault Refusal :=
  .next (setParam hw .lfoAmount value s)

/-- `SETPARAM LFO_FREQ, value` (id 0x21, R366). -/
def execSetLfoFreq (value : Word) (s : State) : Host.Outcome State Fault Refusal :=
  .next (setParam hw .lfoFreq value s)

end Sys2Proof.Machine
end

