-- ==== Sys2Proof/Machine/Dispatch.lean ====
section
/-! DEFINITION. One arm per constructor of Instr: the meaning of each command. -/

namespace Sys2Proof.Machine

def exec (i : Instr) (s : State) : Host.Outcome State Fault Refusal :=
  match i with
  | .prepare sampleRate maxBlockSize channelCount => Sys2Proof.Machine.execPrepare sampleRate maxBlockSize channelCount s
  | .setvoices n => Sys2Proof.Machine.execSetvoices n s
  | .noteon channel midiNote velocity => Sys2Proof.Machine.execNoteon channel midiNote velocity s
  | .noteoff channel midiNote velocity allowTailOff => Sys2Proof.Machine.execNoteoff channel midiNote velocity allowTailOff s
  | .render startSample sampleCount => Sys2Proof.Machine.execRender startSample sampleCount s
  | .route scope index valid en src dst => Sys2Proof.Machine.execRoute scope index valid en src dst s
  | .setOscWaveform value => Sys2Proof.Machine.execSetOscWaveform value s
  | .setOscAntialias value => Sys2Proof.Machine.execSetOscAntialias value s
  | .setOscDetune value => Sys2Proof.Machine.execSetOscDetune value s
  | .setOscPanspread value => Sys2Proof.Machine.execSetOscPanspread value s
  | .setOscFmdepth value => Sys2Proof.Machine.execSetOscFmdepth value s
  | .setFiltCutoff value => Sys2Proof.Machine.execSetFiltCutoff value s
  | .setFiltResonance value => Sys2Proof.Machine.execSetFiltResonance value s
  | .setFiltModdepth value => Sys2Proof.Machine.execSetFiltModdepth value s
  | .setEnv1Attack value => Sys2Proof.Machine.execSetEnv1Attack value s
  | .setEnv1Decay value => Sys2Proof.Machine.execSetEnv1Decay value s
  | .setEnv1Sustain value => Sys2Proof.Machine.execSetEnv1Sustain value s
  | .setEnv1Release value => Sys2Proof.Machine.execSetEnv1Release value s
  | .setEnv1Mode value => Sys2Proof.Machine.execSetEnv1Mode value s
  | .setEnv1RatioA value => Sys2Proof.Machine.execSetEnv1RatioA value s
  | .setEnv1RatioDr value => Sys2Proof.Machine.execSetEnv1RatioDr value s
  | .setEnv2Attack value => Sys2Proof.Machine.execSetEnv2Attack value s
  | .setEnv2Decay value => Sys2Proof.Machine.execSetEnv2Decay value s
  | .setEnv2Sustain value => Sys2Proof.Machine.execSetEnv2Sustain value s
  | .setEnv2Release value => Sys2Proof.Machine.execSetEnv2Release value s
  | .setEnv2Mode value => Sys2Proof.Machine.execSetEnv2Mode value s
  | .setEnv2RatioA value => Sys2Proof.Machine.execSetEnv2RatioA value s
  | .setEnv2RatioDr value => Sys2Proof.Machine.execSetEnv2RatioDr value s
  | .setLfoAmount value => Sys2Proof.Machine.execSetLfoAmount value s
  | .setLfoFreq value => Sys2Proof.Machine.execSetLfoFreq value s

end Sys2Proof.Machine
end

