-- ==== Sys2Proof/Machine/Fetch.lean ====
section
/-! DEFINITION. How commands come off the two ports (30_encoding.md R121, 20_memory.md R90, R93) and what the
model does when the environment has chosen no move. `run` is what executes a decoded command. -/

namespace Sys2Proof.Machine

/-- The outcome type of a step. -/
abbrev StepOutcome := Host.Outcome State Fault Refusal

/-- PREPARE, SETVOICES and ROUTE do not start while `pbusy = 1` (20_memory.md R93). -/
def interlocked (i : Instr) (s : State) : Bool := i.isConfig && s.pbusy

/-- The render engine has a command it can start. -/
def engineCanMove (s : State) : Bool :=
  match decode .c s.cIn with
  | .wait => false
  | .command i _ => !interlocked i s
  | .illegal _ _ _ => true
  | .noCell _ _ => true

/-- The render engine's turn: its next C-port command, whole (log entry 1). With no complete command, or one
the interlock holds back, nothing happens. -/
def engineTurn (run : Instr → State → StepOutcome) (s : State) : StepOutcome :=
  match decode .c s.cIn with
  | .wait => .next s
  | .command i rest => if interlocked i s then .next s else run i { s with cIn := rest }
  | .illegal _ H rest => .next (raise .illegal H .c { s with cIn := rest })
  | .noCell H rest => .next (raise .paramId H .c { s with cIn := rest })

/-- The parameter writer's turn: the next write of the sequence in flight, else its next P-port command. -/
def writerTurn (c : Params) (run : Instr → State → StepOutcome) (s : State) : StepOutcome :=
  if s.pPend.isEmpty then
    match decode .p s.pIn with
    | .wait => .next s
    | .command i rest => run i { s with pIn := rest }
    | .illegal _ H rest => .next (raise .illegal H .p { s with pIn := rest })
    | .noCell H rest => .next (raise .paramId H .p { s with pIn := rest })
  else .next (writeNext c s)

/-- One step: the environment's next move; with none chosen, the engine if it can move, else the writer. A block
with nothing to do holds its state (60_exceptions.md R396). -/
def stepWith (c : Params) (run : Instr → State → StepOutcome) (s : State) : StepOutcome :=
  match s.events with
  | [] => if engineCanMove s then engineTurn run s else writerTurn c run s
  | .engine :: es => engineTurn run { s with events := es }
  | .writer :: es => writerTurn c run { s with events := es }
  | .rst :: es => .next (rst c { s with events := es })
  | .hostWrite a w :: es => .next (hostWrite c a w { s with events := es })

/-- The words of the command whose bits are `w`: its header and as many payload words as its opcode has. -/
def commandWords (nbits w : Nat) : List Word :=
  let words := tableWords (w % 2 ^ nbits)
  words.take (1 + ((formatOf (opcodeOf (words.getD 0 0))).map Format.payload).getD 0)

/-- `s` with the command `w` alone waiting, on its opcode's port, and nothing that would keep the next step from
running it: no word on the other port, no write sequence in flight, no move chosen (log entry 3). -/
def placeCommand (s : State) (nbits w : Nat) : State :=
  let words := commandWords nbits w
  let s1 := { s with pPend := [], pbusy := false, events := [] }
  match portOfWord (words.getD 0 0) with
  | .c => { s1 with cIn := words, pIn := [] }
  | .p => { s1 with cIn := [], pIn := words }

end Sys2Proof.Machine
end

