-- ==== Sys2Proof/Machine/Step.lean ====
section
/-! DEFINITION. The step of the block. -/

namespace Sys2Proof.Machine

/-- One step (70_reset_and_hazards.md R440). -/
def step (s : State) : Host.Outcome State Fault Refusal := stepWith hw exec s

/-- `s` with the instruction `w` placed where `step` takes its next command. -/
def State.withFetchWord (s : State) (nbits w : Nat) : State := placeCommand s nbits w

end Sys2Proof.Machine
end

