-- ==== Sys2Proof/Machine/Generic.lean ====
section
/-! DEFINITION. The block for any configuration (00_scope.md R6: a claim can quantify over it). `exec`, `step` and
`State.reset` are these at `hw` (Laws/Generic.lean). -/

namespace Sys2Proof.Machine

/-- What a command does to the state of the block with configuration `c`. -/
def runOf (c : Params) (i : Instr) : State → State :=
  match i with
  | .prepare sampleRate maxBlockSize channelCount =>
    prepareCommand c (Instr.prepare sampleRate maxBlockSize channelCount).header sampleRate maxBlockSize channelCount
  | .setvoices n => setVoicesCommand c (Instr.setvoices n).header n
  | .noteon channel midiNote velocity =>
    noteOn c (Instr.noteon channel midiNote velocity).header (BitVec.ofNat 7 midiNote)
  | .noteoff channel midiNote velocity allowTailOff =>
    noteOff (Instr.noteoff channel midiNote velocity allowTailOff).header (BitVec.ofNat 7 midiNote) allowTailOff
  | .render startSample sampleCount =>
    renderCommand c (Instr.render startSample sampleCount).header startSample sampleCount
  | .route scope index valid en src dst =>
    routeCommand c (Instr.route scope index valid en src dst).header scope index
      ⟨valid, en, BitVec.ofNat 4 src, BitVec.ofNat 4 dst⟩
  | .setOscWaveform value => setParam c .oscWaveform value
  | .setOscAntialias value => setParam c .oscAntialias value
  | .setOscDetune value => setParam c .oscDetune value
  | .setOscPanspread value => setParam c .oscPanspread value
  | .setOscFmdepth value => setParam c .oscFmdepth value
  | .setFiltCutoff value => setParam c .filtCutoff value
  | .setFiltResonance value => setParam c .filtResonance value
  | .setFiltModdepth value => setParam c .filtModdepth value
  | .setEnv1Attack value => setParam c .env1Attack value
  | .setEnv1Decay value => setParam c .env1Decay value
  | .setEnv1Sustain value => setParam c .env1Sustain value
  | .setEnv1Release value => setParam c .env1Release value
  | .setEnv1Mode value => setParam c .env1Mode value
  | .setEnv1RatioA value => setParam c .env1RatioA value
  | .setEnv1RatioDr value => setParam c .env1RatioDr value
  | .setEnv2Attack value => setParam c .env2Attack value
  | .setEnv2Decay value => setParam c .env2Decay value
  | .setEnv2Sustain value => setParam c .env2Sustain value
  | .setEnv2Release value => setParam c .env2Release value
  | .setEnv2Mode value => setParam c .env2Mode value
  | .setEnv2RatioA value => setParam c .env2RatioA value
  | .setEnv2RatioDr value => setParam c .env2RatioDr value
  | .setLfoAmount value => setParam c .lfoAmount value
  | .setLfoFreq value => setParam c .lfoFreq value

/-- `exec` for a configuration. -/
def execOf (c : Params) (i : Instr) (s : State) : StepOutcome := .next (runOf c i s)

/-- `step` for a configuration. -/
def stepOf (c : Params) (s : State) : StepOutcome := stepWith c (execOf c) s

end Sys2Proof.Machine
end

