-- ==== Sys2Proof/Safety.lean ====
section
/-! DEFINITION. What holds of the block between any two steps: the statements of the rules that no single operation
makes true on its own. Every rule number is given at its clause. A safe run is one whose every state meets `BlockInv`.
After it, the right-hand sides that the statements compare with, written from the rules and not from the meanings. -/

namespace Sys2Proof.Machine

/-- A ramp counts down from at most one control period (40_oscillator.md R149, 43_amplifier.md R222). -/
def Ramp.legal (r : Ramp) : Bool := decide (r.rem.toNat ≤ hw.controlDiv)

/-- An idle envelope is at level `+0.0` (41_envelope.md R177, R183). -/
def Env.legal (e : Env) : Bool := e.isActive || e.out == Num32.zero

/-- What holds of a voice record: its control counter is below `CONTROL_DIV` (10_state.md R34), its ramps and
envelopes are legal, it is free exactly when both envelopes are idle (45_voice.md R260), and then its key is up; the model's
own field `fading` is false (log entry 26). -/
def Voice.legal (v : Voice) : Bool :=
  decide (v.ccnt.toNat < hw.controlDiv) &&
  (v.osc0.ramp.legal && v.osc1.ramp.legal && v.osc2.ramp.legal && v.amp.ramp.legal) &&
  (v.env1.legal && v.env2.legal) &&
  (v.isFree == !v.isActive) && (!v.isFree || !v.keyDown) && !v.fading

/-- The table of 48_parameter_setters.md R342, row by row: the id of `E = 0`, the id of `E = 1`, and the derived cells
written after the raw cell, in order. -/
def sequenceTable : List (ParamId × ParamId × List DerivedName) :=
  [(.env1Attack, .env2Attack, [.attackCoef, .attackBase]),
   (.env1Decay, .env2Decay, [.decayCoef, .decayBase]),
   (.env1Sustain, .env2Sustain, [.decayBase]),
   (.env1Release, .env2Release, [.releaseCoef, .releaseBase]),
   (.env1Mode, .env2Mode, []),
   (.env1RatioA, .env2RatioA, [.attackCoef, .attackBase]),
   (.env1RatioDr, .env2RatioDr, [.decayCoef, .decayBase, .releaseCoef, .releaseBase])]

/-- The derived writes of a SETPARAM by that table: none for an id of no row. -/
def sequenceOf (id : ParamId) : List (EnvId × DerivedName) :=
  sequenceTable.flatMap fun row =>
    if id = row.1 then row.2.2.map (EnvId.env1, ·) else if id = row.2.1 then row.2.2.map (EnvId.env2, ·) else []

/-- The derived writes still to come are the last ones of some SETPARAM's (48_parameter_setters.md R342). -/
def pendingLegal (pend : List (EnvId × DerivedName)) : Prop := ∃ id, pend <:+ sequenceOf id

/-- What holds of the block at every atomic-step boundary, inside a command or between commands. -/
structure Boundary (s : State) : Prop where
  /-- the buffer keeps its canonical form and has no word outside its 8192 (20_memory.md R80) -/
  memory : Memory.wf (bufferWords hw) s.buf = true
  voices : s.voices.length = hw.maxVoices
  vr : s.vr.length = hw.nroutes
  gr : s.gr.length = hw.nroutes
  /-- 10_state.md R31, 47_config_commands.md R325 -/
  nvoices : s.nvoices.toNat ≤ hw.maxVoices
  /-- 10_state.md R34, 46_voicepool.md R300 -/
  gcnt : s.gcnt.toNat < hw.controlDiv
  voice : ∀ v ∈ s.voices, v.legal = true
  /-- the LFO's frequency is forced at every tick, so its ramp never runs (46_voicepool.md R302) -/
  lfo : s.lfo.ramp.rem = 0
  /-- once prepared, the configuration is the one PREPARE accepted (47_config_commands.md R320) -/
  config : s.mode ≠ .unprepared →
    rateLegal s.fs = true ∧ (1 ≤ s.maxBlock.toNat ∧ s.maxBlock.toNat ≤ hw.maxBlockCap) ∧
    (1 ≤ s.nch.toNat ∧ s.nch.toNat ≤ hw.maxChannels)
  /-- HALTED is entered by E_CAPACITY alone, whose bit is sticky (60_exceptions.md R386, R381) -/
  halted : s.mode = .halted → s.err.getLsbD Error.capacity.bit = true
  /-- `errinfo` and `errport` are written by an error only (10_state.md R32) -/
  noError : s.err = 0 → s.errinfo = 0 ∧ s.errport = .c
  /-- `pbusy` says that a write sequence is in flight (48_parameter_setters.md R340) -/
  pbusy : s.pbusy = !s.pPend.isEmpty
  pending : pendingLegal s.pPend

/-- What holds between two steps: no command runs and no render cursor exists (10_state.md R32, R33). -/
structure BlockInv (s : State) : Prop extends Boundary s where
  busy : s.busy = false
  cursor : s.cursor = none

/-- A safe run of `k` steps: each answers a next state, and every state on the way meets `BlockInv`. -/
def SafeRun : Nat → State → Prop
  | 0, s => BlockInv s
  | k + 1, s => BlockInv s ∧ ∃ s', step s = .next s' ∧ SafeRun k s'

/-- A phase is a NaN or lies in `[0, TWO_PI)` (10_state.md R51, R60 (a)). -/
def Osc.phaseLegal (o : Osc) : Bool := isNaN o.phase || (fge o.phase Num32.zero && flt o.phase Num32.twoPi)

/-- Every oscillator's phase is legal (10_state.md R60 (a)). -/
def PhasesLegal (s : State) : Prop :=
  s.lfo.phaseLegal = true ∧
  ∀ v ∈ s.voices, v.osc0.phaseLegal = true ∧ v.osc1.phaseLegal = true ∧ v.osc2.phaseLegal = true

/-- The `seq` values of non-free voices are pairwise distinct and were all given out already (10_state.md R60 (g)). -/
def SeqsDistinct (s : State) : Prop :=
  (∀ v, (s.voice v).isFree = false → (s.voice v).seq.toNat < s.noteSeq.toNat) ∧
  ∀ v w, v ≠ w → (s.voice v).isFree = false → (s.voice w).isFree = false → (s.voice v).seq ≠ (s.voice w).seq

/-- The six derived cells of a master's cells and `fs` (41_envelope.md R171 to R174). -/
def derivedOf (fs : Num32) (m : EnvMaster) : Derived :=
  let rate := fun ms => clamp (fmul (fmul (clamp ms Num32.zero Num32.inf) Num32.milli) (fdiv fs (intToNum hw.controlDiv)))
    Num32.zero Num32.inf
  let coef := fun r q => if fle r Num32.zero then Num32.zero
    else hw.num.exp (fdiv (fneg (hw.num.ln (fdiv (fadd Num32.one q) q))) r)
  let ra := clamp m.ratioA hw.ratioMin hw.ratioMax
  let rdr := clamp m.ratioDr hw.ratioMin hw.ratioMax
  let a := coef (rate m.attack) ra
  let d := coef (rate m.decay) rdr
  let r := coef (rate m.release) rdr
  { attackCoef := a
    attackBase := fmul (fadd Num32.one ra) (fsub Num32.one a)
    decayCoef := d
    decayBase := fmul (fsub (clamp m.sustain Num32.zero Num32.one) rdr) (fsub Num32.one d)
    releaseCoef := r
    releaseBase := fmul (fneg rdr) (fsub Num32.one r) }

/-- Every derived cell that no pending write is about to overwrite has the value of the present cells and rate (10_state.md
R41, 41_envelope.md R174, 48_parameter_setters.md R342). -/
def DerivedInStep (s : State) : Prop :=
  ∀ (E : EnvId) (n : DerivedName), (E, n) ∉ s.pPend → (s.der E).get n = (derivedOf s.fs (s.par.env E)).get n

/-- A number of [0, 1], so no NaN. -/
def inUnit (x : Num32) : Bool := fge x Num32.zero && fle x Num32.one

/-- Every envelope's level is a number of [0, 1] (10_state.md R60 (b)). -/
def LevelsInUnit (s : State) : Prop := ∀ v ∈ s.voices, inUnit v.env1.out = true ∧ inUnit v.env2.out = true

/-- Derived cells in the range that every single write keeps them in, whatever the cells they are computed from, so also
torn ones (41_envelope.md R174): coefficients of [0, 1], an attack base not below 0, a decay base that is a number, a
release base not above 0. -/
def Derived.inRange (d : Derived) : Bool :=
  (inUnit d.attackCoef && inUnit d.decayCoef && inUnit d.releaseCoef) &&
  (fge d.attackBase Num32.zero && !isNaN d.decayBase && fle d.releaseBase Num32.zero)

/-- This hardware in given readings of the contradictions of log entries 25 and 26; `hw` is `readings true false`. -/
def readings (capped fadeOutGoesOn : Bool) : Params := { hw with decayCapped := capped, fadeOutGoesOn := fadeOutGoesOn }

/-- Derived cells that fit together: coefficients of [0, 1], an attack base not below 0, a release base not above 0, a decay
base that with its coefficient does not lead above 1. Cells torn from two sequences need not fit (20_memory.md R94). -/
def Derived.fits (d : Derived) : Bool :=
  (inUnit d.attackCoef && inUnit d.decayCoef && inUnit d.releaseCoef) &&
  (fge d.attackBase Num32.zero && fle d.decayBase (fsub Num32.one d.decayCoef) && fle d.releaseBase Num32.zero)

/-! Right-hand sides. -/

/-- The 24 ids that name a parameter cell (10_state.md R40). -/
def paramIds : List Nat :=
  [0x00, 0x01, 0x02, 0x03, 0x04, 0x08, 0x09, 0x0A, 0x10, 0x11, 0x12, 0x13, 0x14, 0x15, 0x16,
   0x18, 0x19, 0x1A, 0x1B, 0x1C, 0x1D, 0x1E, 0x20, 0x21]

/-- A C-port command dropped with the error of bit `b` (60_exceptions.md R381): nothing but the record changes. -/
def rejectedC (b : Nat) (H : Word) (s : State) : State :=
  { s with
    err := s.err ||| 1#6 <<< b, errinfo := if s.err = 0 then H else s.errinfo,
    errport := if s.err = 0 then .c else s.errport, busy := false, cursor := none }

/-- A P-port command dropped with the error of bit `b` (60_exceptions.md R381). -/
def rejectedP (b : Nat) (H : Word) (s : State) : State :=
  { s with
    err := s.err ||| 1#6 <<< b, errinfo := if s.err = 0 then H else s.errinfo,
    errport := if s.err = 0 then .p else s.errport, pbusy := false }

/-- The target frequency of a voice's oscillator (40_oscillator.md R146, R147). -/
def targetFrequency (s : State) (dm base : Num32) : Num32 :=
  fmul base (hw.num.exp2 (fadd (fmul dm s.par.osc.detune) (fmul s.par.osc.fmdepth s.fmIn)))

/-- A ramp that starts towards `t` over one control period (40_oscillator.md R147, 43_amplifier.md R222). -/
def rampTowards (t : Num32) (r : Ramp) : Ramp := ⟨r.cur, t, fdiv (fsub t r.cur) (intToNum 100), 100⟩

/-- An oscillator right after a note-on (40_oscillator.md R142, R143, R146, R147 with `force`). -/
def oscStarted (s : State) (dm hz : Num32) (o : Osc) : Osc :=
  let f := targetFrequency s dm hz
  { phase := Num32.zero, inc := o.inc, base := hz, ramp := ⟨f, f, Num32.zero, 0⟩ }

/-- A voice right after NOTEON took it for note `n` (45_voice.md R252, R254, 46_voicepool.md R285, 42_filter.md R201,
R202). -/
def noteStarted (s : State) (n : BitVec 7) (x : Voice) : Voice :=
  let hz := fmul hw.a4Hz (hw.num.exp2 (fdiv (fsub (intToNum n.toNat) Num32.n69) Num32.twelve))
  { x with
    note := some n, keyDown := true, seq := s.noteSeq, ccnt := 0,
    osc0 := oscStarted s Num32.zero hz x.osc0, osc1 := oscStarted s Num32.one hz x.osc1,
    osc2 := oscStarted s Num32.negOne hz x.osc2,
    env1 := { x.env1 with st := .attack }, env2 := { x.env2 with st := .attack },
    filt := { x.filt with
      kbd := hw.num.exp2 (fdiv (fsub (intToNum n.toNat) Num32.n64) Num32.twelve),
      hist0 := hw.filt.initWords, hist1 := hw.filt.initWords },
    fading := false }

/-- An envelope whose gate went off (41_envelope.md R176). -/
def gatedOff (e : Env) : Env := if e.st = .idle then e else { e with st := .release }

/-- A voice right after `stopNote(v, true)` (45_voice.md R258). -/
def noteReleased (x : Voice) : Voice := { x with keyDown := false, env1 := gatedOff x.env1, env2 := gatedOff x.env2 }

/-- A voice right after `stopNote(v, false)` (45_voice.md R258). -/
def noteCut (x : Voice) : Voice :=
  { x with note := none, keyDown := false, env1 := ⟨Num32.zero, .idle⟩, env2 := ⟨Num32.zero, .idle⟩, fading := false }

/-- `v` is the least free voice that exists (46_voicepool.md R286). -/
def LeastFree (s : State) (v : Nat) : Prop :=
  v < s.nvoices.toNat ∧ (s.voice v).note = none ∧ ∀ w < v, (s.voice w).note ≠ none

/-- `v` is the oldest-started of the existing voices with property `S`, the least of equally old ones
(46_voicepool.md R286, 70_reset_and_hazards.md R432). -/
def OldestOf (s : State) (S : Voice → Prop) (v : Nat) : Prop :=
  v < s.nvoices.toNat ∧ S (s.voice v) ∧ ∀ w < s.nvoices.toNat, S (s.voice w) →
    (s.voice v).seq.toNat < (s.voice w).seq.toNat ∨ (s.voice v).seq = (s.voice w).seq ∧ v ≤ w

/-- `v` is the voice that a note `n` steals when no voice is free (46_voicepool.md R286, R282): the oldest of the
same pitch, else the oldest whose key is up, else the oldest. -/
def StealChoice (s : State) (n : BitVec 7) (v : Nat) : Prop :=
  OldestOf s (fun x => x.note = some n) v ∨
  ((∀ w < s.nvoices.toNat, (s.voice w).note ≠ some n) ∧ OldestOf s (fun x => x.keyDown = false) v) ∨
  ((∀ w < s.nvoices.toNat, (s.voice w).note ≠ some n ∧ (s.voice w).keyDown = true) ∧ OldestOf s (fun _ => True) v)

/-- What `matrix.process` leaves in the slot with id `dst` that held `old` (44_modmatrix.md R235 to R237): `old` if no valid
route names it; else the sum from `+0.0`, in table order, of the bound sources of the enabled routes that do. -/
def slotSum (src : BitVec 4 → Option Num32) (dst : BitVec 4) (old : Num32) (T : List Route) : Num32 :=
  let named := T.filter fun r => r.valid && r.dst == dst
  if named.isEmpty then old else ((named.filter Route.en).filterMap fun r => src r.src).foldl fadd Num32.zero

/-- The sources of a voice: its envelopes' levels (44_modmatrix.md R232). -/
def voiceSources (e1 e2 : Env) (id : BitVec 4) : Option Num32 :=
  if id = 0 then some e1.out else if id = 1 then some e2.out else none

/-- The source of the global scope: the LFO's output (44_modmatrix.md R232). -/
def globalSources (lfoOut : Num32) (id : BitVec 4) : Option Num32 := if id = 0 then some lfoOut else none

/-- A voice right after its voice tick (45_voice.md R264; 40_oscillator.md R147, 42_filter.md R203, 43_amplifier.md R222,
44_modmatrix.md R235, R239). The model's readings: a level keeps the range of 41_envelope.md R188 (`true`, log entry 25), and the
field `fading` stays false (log entry 26). -/
def voiceTicked (s : State) (v : Voice) : Voice :=
  let e1 := v.env1.tick true s.der1 s.par.env1
  let e2 := v.env2.tick true s.der2 s.par.env2
  let active := e1.st ≠ .idle ∨ e2.st ≠ .idle
  let cutoffIn := slotSum (voiceSources e1 e2) 0 v.filt.modIn s.vr
  let gain := slotSum (voiceSources e1 e2) 1 v.amp.gainIn s.vr
  let osc := fun dm (o : Osc) => { o with ramp := rampTowards (targetFrequency s dm o.base) o.ramp }
  { note := if active then v.note else none, keyDown := if active then v.keyDown else false, seq := v.seq, ccnt := v.ccnt,
    osc0 := osc Num32.zero v.osc0, osc1 := osc Num32.one v.osc1, osc2 := osc Num32.negOne v.osc2,
    env1 := e1, env2 := e2,
    filt :=
      { kbd := v.filt.kbd, modIn := cutoffIn,
        fc := fmul (fmul v.filt.kbd (clamp s.par.filt.cutoff Num32.zero Num32.inf))
          (hw.num.exp2 (fmul (fadd cutoffIn s.modIn) s.par.filt.moddepth)),
        res := s.par.filt.resonance, hist0 := v.filt.hist0, hist1 := v.filt.hist1 },
    amp := ⟨gain, rampTowards gain v.amp.ramp⟩,
    fading := if active then v.fading else false }

/-- The triangle, from the phase (40_oscillator.md R151). -/
def triangleAt (phase : Num32) : Num32 :=
  fsub (fmul Num32.two (fabs (fsub (fmul Num32.two (fdiv phase Num32.twoPi)) Num32.one))) Num32.one

/-- The block right after the global tick, when the LFO's target frequency is `f` (46_voicepool.md R301, R302; R235). -/
def globalTicked (f : Num32) (s : State) : State :=
  let inc := fdiv (fmul Num32.twoPi f) (fdiv s.fs (intToNum 100))
  let out := fmul s.par.lfoAmount (triangleAt s.lfo.phase)
  { s with
    lfo := ⟨wrap (fadd s.lfo.phase inc), inc, s.par.lfoFreq, ⟨f, f, Num32.zero, 0⟩⟩, lfoOut := out,
    fmIn := slotSum (globalSources out) 0 s.fmIn s.gr, modIn := slotSum (globalSources out) 1 s.modIn s.gr }

/-- Channel `ch` of the sum of a voice's three oscillators (45_voice.md R267). -/
def oscillatorSum (s : State) (v : Voice) (ch : Nat) : Num32 :=
  let y := fun pm o => spread s.nch s.par.osc.panspread pm (oscSample s o).1 ch
  fadd (fadd (y Num32.zero v.osc0) (y Num32.one v.osc1)) (y Num32.negOne v.osc2)

/-- Channel `ch`'s filter of a voice on its oscillators' sum, from the history `hist` (45_voice.md R267, 42_filter.md R204). -/
def filtered (s : State) (v : Voice) (ch : Nat) (hist : List Word) : List Word × Num32 :=
  hw.filt.stepWords hist (oscillatorSum s v ch) v.filt.fc v.filt.res s.fs

/-- A voice with which a sample begins: its tick is due when its counter is 0 (45_voice.md R262, R266). -/
def atSample (s : State) (v : Voice) : Voice := if v.ccnt = 0 then voiceTicked s v else v

/-- What a voice adds to channel `ch` in one sample (45_voice.md R267, 42_filter.md R204, 43_amplifier.md R223): the filtered
sum of its oscillators times the gain. -/
def sampleAdded (s : State) (v : Voice) (ch : Nat) : Num32 :=
  fmul (filtered s v ch (if ch = 0 then v.filt.hist0 else v.filt.hist1)).2 v.amp.ramp.next.cur

/-- A voice's record after one sample (45_voice.md R262, R267): oscillators, the histories of the channels in use, gain ramp and
counter have moved on. -/
def sampleTaken (s : State) (v : Voice) : Voice :=
  { v with
    osc0 := (oscSample s v.osc0).2, osc1 := (oscSample s v.osc1).2, osc2 := (oscSample s v.osc2).2,
    filt := { v.filt with
      hist0 := (filtered s v 0 v.filt.hist0).1,
      hist1 := if s.nch.toNat = 2 then (filtered s v 1 v.filt.hist1).1 else v.filt.hist1 },
    amp := { v.amp with ramp := v.amp.ramp.next },
    ccnt := BitVec.ofNat 16 ((v.ccnt.toNat + 1) % 100), fading := false }

/-- The existing voices that render, in ascending order (46_voicepool.md R311, 45_voice.md R266). -/
def activeVoices (s : State) : List Voice :=
  ((List.range s.nvoices.toNat).map s.voice).filter Voice.isActive

/-- The word addresses that `RENDER start, count` may touch (20_memory.md R80, 46_voicepool.md R312). -/
def Rendered (s : State) (start count a : Nat) : Prop :=
  ∃ ch i, ch < s.nch.toNat ∧ start ≤ i ∧ i < start + count ∧ a = ch * hw.maxBlockCap + i

/-- The environment's next move is the engine's: chosen so, or no move chosen and the engine can move. The second
argument is what is left of the chosen moves. -/
def EngineMoves (s : State) (es : List Event) : Prop := s.events = .engine :: es ∨ s.events = [] ∧ es = []

/-- The environment's next move is the writer's: chosen so, or no move chosen and the engine has no complete C-port command
or one that the interlock holds back (20_memory.md R93). -/
def WriterMoves (s : State) (es : List Event) : Prop :=
  s.events = .writer :: es ∨
  s.events = [] ∧ es = [] ∧ (decode .c s.cIn = .wait ∨
    ∃ i rest, decode .c s.cIn = .command i rest ∧ i.isConfig = true ∧ s.pbusy = true)

end Sys2Proof.Machine
end

