-- ==== Sys2Proof/Certificates/Slice0/Obligations.lean ====
section
/-! DEFINITION. The statements for the provers. Each docstring names the rules it formalises; where a clause rests on
the model's own choice, it names the log entry. -/

open Sys2Proof Sys2Proof.Machine

/-! Encoding (30_encoding.md). -/

/-- Every well-formed command, encoded and followed by any words, is decoded back with every operand, and the words
after it are left (R110 to R121). -/
def Obligations.DecodeOfEncode : Prop :=
  ∀ (i : Instr) (rest : List Word), i.wf = true → decode i.port (encode i ++ rest) = .command i rest

/-- Whatever a port's decoder accepts is the encoding of a well-formed command of that port: no second spelling, no
reserved bit dropped (R111 to R123). -/
def Obligations.EncodeOfDecode : Prop :=
  ∀ (port : Port) (ws : List Word) (i : Instr) (rest : List Word), decode port ws = .command i rest →
    i.wf = true ∧ i.port = port ∧ ws = encode i ++ rest

/-- The worked encodings of R128, word for word. -/
def Obligations.WorkedEncodings : Prop :=
  decode .c [0x01020200#32, 0x00000000#32, 0x40E77000#32] = .command (.prepare 0x40E7700000000000#64 512 2) [] ∧
  decode .c [0x02000004#32] = .command (.setvoices 4) [] ∧
  decode .c [0x10003C00#32, 0x3F800000#32] = .command (.noteon 0 60 0x3F800000#32) [] ∧
  decode .c [0x11003C01#32, 0x00000000#32] = .command (.noteoff 0 60 0#32 true) [] ∧
  decode .c [0x20000200#32, 0x00000000#32] = .command (.render 0 512) [] ∧
  decode .c [0x30020001#32] = .command (.route .voice 0 true false 0 1) [] ∧
  decode .c [0x30930001#32] = .command (.route .global 1 true true 0 1) [] ∧
  decode .p [0x40000008#32, 0x447A0000#32] = .command (.setFiltCutoff 0x447A0000#32) []

/-- Which headers are illegal and how many words each takes (R121, R122): an undefined opcode takes one word; a defined
opcode takes its payload too, whether a reserved bit is set or the port is the wrong one. A SETPARAM whose id names no
cell is no illegal encoding but is told apart (60_exceptions.md R385). -/
def Obligations.IllegalEncodings : Prop :=
  (∀ (port : Port) (H : Word) (ws : List Word), opcodeOf H ∉ [0x01, 0x02, 0x10, 0x11, 0x20, 0x30, 0x40] →
    decode port (H :: ws) = .illegal .opcode H ws) ∧
  (∀ (port : Port) (H : Word) (ws : List Word) (op mask payload : Nat) (right : Port),
    (op, mask, payload, right) ∈
      [(0x01, 0xFF000000, 2, Port.c), (0x02, 0xFFFFFF00, 0, Port.c), (0x10, 0xFF0F80FF, 1, Port.c),
       (0x11, 0xFF0F80FE, 1, Port.c), (0x20, 0xFFFF0000, 1, Port.c), (0x30, 0xFF0CF0F0, 0, Port.c),
       (0x40, 0xFFFFFF00, 1, Port.p)] →
    opcodeOf H = op → payload ≤ ws.length →
    (H &&& BitVec.ofNat 32 mask ≠ BitVec.ofNat 32 (op * 0x1000000) →
      decode port (H :: ws) = .illegal .reserved H (ws.drop payload)) ∧
    (H &&& BitVec.ofNat 32 mask = BitVec.ofNat 32 (op * 0x1000000) → port ≠ right →
      decode port (H :: ws) = .illegal .port H (ws.drop payload)) ∧
    (H &&& BitVec.ofNat 32 mask = BitVec.ofNat 32 (op * 0x1000000) → port = right →
      if op = 0x40 ∧ H.toNat % 256 ∉ paramIds then decode port (H :: ws) = .noCell H (ws.drop payload)
      else ∃ i, decode port (H :: ws) = .command i (ws.drop payload)))

/-! The step (20_memory.md R90 to R93; log entries 1 to 3 for the shape of a step). -/

/-- When the engine moves and the words of its port begin with a command that the interlock does not hold back, the step
takes those words off and is `exec` of that command. One step for one whole command, and the list of chosen moves, are
the model's choice (log entries 1 and 2). -/
def Obligations.StepRunsCPortCommand : Prop :=
  ∀ (s : State) (es : List Event) (i : Instr) (rest : List Word), i.wf = true → i.port = .c → EngineMoves s es →
    s.cIn = encode i ++ rest → (i.isConfig = true → s.pbusy = false) →
    step s = exec i { s with cIn := rest, events := es }

/-- When the writer moves with no write sequence in flight and the words of its port begin with a command, the step
takes those words off and is `exec` of that command (log entries 1 and 2 for the form of a step). -/
def Obligations.StepRunsPPortCommand : Prop :=
  ∀ (s : State) (es : List Event) (i : Instr) (rest : List Word), i.wf = true → i.port = .p → WriterMoves s es →
    s.pPend = [] → s.pIn = encode i ++ rest → step s = exec i { s with pIn := rest, events := es }

/-- When the writer moves with a write sequence in flight, the step writes the next derived cell (48_parameter_setters.md
R342). The model's own: one write for one move (log entry 2); the value is computed at the write, from the cells as they
then stand (log entry 13); `pbusy` falls in the step of the last write (log entry 29). -/
def Obligations.StepWritesNextDerivedCell : Prop :=
  ∀ (s : State) (es : List Event) (E : EnvId) (n : DerivedName) (rest : List (EnvId × DerivedName)), WriterMoves s es →
    s.pPend = (E, n) :: rest →
    step s = .next
      { (({ s with events := es } : State).setDer E n ((derivedOf s.fs (s.par.env E)).get n)) with
        pPend := rest, pbusy := !rest.isEmpty }

/-- An illegal command, or a SETPARAM whose id names no cell, is dropped with its error and its words, and changes
nothing else (60_exceptions.md R381, R382, R385; the chosen move is the model's, log entry 2). -/
def Obligations.StepDropsIllegalCommand : Prop :=
  (∀ (s : State) (es : List Event) (why : Illegal) (H : Word) (rest : List Word), EngineMoves s es →
    decode .c s.cIn = .illegal why H rest →
    step s = .next (rejectedC 0 H { s with cIn := rest, events := es })) ∧
  (∀ (s : State) (es : List Event) (why : Illegal) (H : Word) (rest : List Word), WriterMoves s es → s.pPend = [] →
    decode .p s.pIn = .illegal why H rest →
    step s = .next (rejectedP 0 H { s with pIn := rest, events := es })) ∧
  (∀ (s : State) (es : List Event) (H : Word) (rest : List Word), WriterMoves s es → s.pPend = [] →
    decode .p s.pIn = .noCell H rest →
    step s = .next (rejectedP 5 H { s with pIn := rest, events := es }))

/-- The interlock (20_memory.md R93): PREPARE, SETVOICES and ROUTE do not start while `pbusy = 1`; the command waits
where it is. That the engine's move then changes nothing is the model's form of waiting (log entry 20). -/
def Obligations.StepHoldsInterlockedCommand : Prop :=
  ∀ (s : State) (es : List Event) (i : Instr) (rest : List Word), i.wf = true → i.isConfig = true → s.pbusy = true →
    s.events = .engine :: es → s.cIn = encode i ++ rest → step s = .next { s with events := es }

/-- A block with nothing to do holds its state (60_exceptions.md R396). -/
def Obligations.StepIdleHoldsState : Prop :=
  ∀ s : State, s.events = [] → s.pPend = [] → decode .c s.cIn = .wait → decode .p s.pIn = .wait → step s = .next s

/-- `rst` puts every state element at its reset value, from any state, and discards the words on both ports
(70_reset_and_hazards.md R410). That the buffer's words stay is the model's choice (log entry 6). -/
def Obligations.StepReset : Prop :=
  ∀ (s : State) (es : List Event), s.events = .rst :: es →
    step s = .next { State.reset with buf := s.buf, events := es }

/-- The B port (20_memory.md R81, R83). While `busy = 0`: a write replaces the word at its address and nothing else, and is
ignored outside the buffer; a read returns the word. While `busy = 1` the host has no move: a read gives nothing, a write
that was chosen changes nothing. The model's own: a write chosen for a time at which RENDER runs stands until RENDER has
ended (log entries 2, 15); the buffer's list form, and what an unwritten word reads as (log entries 4, 5). -/
def Obligations.HostBufferAccess : Prop :=
  (∀ (s : State) (a : Nat) (w : Word) (es : List Event), s.busy = false → Memory.wf (bufferWords hw) s.buf = true →
    s.events = .hostWrite a w :: es →
    ∃ m, step s = .next { s with events := es, buf := m } ∧ Memory.wf (bufferWords hw) m = true ∧
      (a < 8192 → Memory.read m a = w) ∧ (∀ b, b ≠ a ∨ 8192 ≤ a → Memory.read m b = Memory.read s.buf b)) ∧
  (∀ (s : State) (k a : Nat), s.busy = false → a < 8192 → hostRead hw k a s = some (Memory.read s.buf a)) ∧
  (∀ (s : State) (k a : Nat), s.busy = true → hostRead hw k a s = none) ∧
  (∀ (s : State) (a : Nat) (w : Word) (es : List Event), s.busy = true → s.events = .hostWrite a w :: es →
    step s = .next { s with events := es }) ∧
  (∀ (start count : Nat) (s t : State) (pre es : List Event) (a : Nat) (w : Word), s.mode = .ready →
    start + count ≤ s.maxBlock.toNat → (∀ e ∈ pre, e = .engine ∨ e = .writer) →
    s.events = pre ++ .hostWrite a w :: es → exec (.render start count) s = .next t →
    ∃ rest, rest <:+ pre ∧ t.events = rest ++ .hostWrite a w :: es)

/-- No step ends in a fault or a refusal, whatever the configuration, and `step` and `State.reset` are those of this
hardware's configuration (60_exceptions.md R393, 00_scope.md R6, R21). That HALTED is a mode and no stop is the model's
choice (log entry 16); R386 lets a model treat it as a fault. -/
def Obligations.StepAlwaysAnswers : Prop :=
  (∀ s : State, ∃ t, step s = .next t) ∧ (∀ (c : Params) (s : State), ∃ t, stepOf c s = .next t) ∧
  (∀ s : State, step s = stepOf hw s) ∧ State.reset = State.resetOf hw

/-! Reset and errors. -/

/-- The reset values of R410 and the rules it cites (10_state.md R31 to R34, R40 to R44, R50 to R55); and in any configuration
the derived cells are what R41 derives from R40 and 41_envelope.md R174 at `fs = +0.0`. The model's own field `fading` is
false (log entry 26). -/
def Obligations.ResetValues : Prop :=
  let s := State.reset
  (s.mode = .unprepared ∧ s.fs = 0#32 ∧ s.maxBlock = 0 ∧ s.nch = 0 ∧ s.nvoices = 0) ∧
  (s.busy = false ∧ s.pbusy = false ∧ s.err = 0 ∧ s.errinfo = 0 ∧ s.errport = .c) ∧
  (s.cursor = none ∧ s.gcnt = 0 ∧ s.noteSeq = 0) ∧
  (∀ id : ParamId, s.par.get id = match id with
    | .filtCutoff => 0x447A0000#32
    | .env1Sustain | .env2Sustain | .lfoFreq => 0x3F800000#32
    | .env1RatioA | .env2RatioA => 0x3E99999A#32
    | .env1RatioDr | .env2RatioDr => 0x38D1B717#32
    | _ => 0#32) ∧
  (∀ E : EnvId, s.der E = ⟨0#32, 0x3FA66666#32, 0#32, 0x3F7FF972#32, 0#32, 0xB8D1B717#32⟩) ∧
  (s.fmIn = 0#32 ∧ s.modIn = 0#32 ∧ s.lfoOut = 0#32 ∧ s.lfo = ⟨0#32, 0#32, 0#32, ⟨0#32, 0#32, 0#32, 0⟩⟩) ∧
  s.vr = [⟨true, true, 0, 1⟩, ⟨true, true, 1, 0⟩, ⟨false, false, 0, 0⟩, ⟨false, false, 0, 0⟩, ⟨false, false, 0, 0⟩,
    ⟨false, false, 0, 0⟩, ⟨false, false, 0, 0⟩, ⟨false, false, 0, 0⟩] ∧
  s.gr = [⟨true, true, 0, 0⟩, ⟨true, true, 0, 1⟩, ⟨false, false, 0, 0⟩, ⟨false, false, 0, 0⟩, ⟨false, false, 0, 0⟩,
    ⟨false, false, 0, 0⟩, ⟨false, false, 0, 0⟩, ⟨false, false, 0, 0⟩] ∧
  (s.voices.length = 16 ∧ ∀ v ∈ s.voices,
    (v.note = none ∧ v.keyDown = false ∧ v.seq = 0 ∧ v.ccnt = 0) ∧
    (∀ o ∈ [v.osc0, v.osc1, v.osc2], o = ⟨0#32, 0#32, 0#32, ⟨0#32, 0#32, 0#32, 0⟩⟩) ∧
    (v.env1 = ⟨0#32, .idle⟩ ∧ v.env2 = ⟨0#32, .idle⟩) ∧
    (v.filt.kbd = 0x3F800000#32 ∧ v.filt.modIn = 0#32 ∧ v.filt.fc = 0#32 ∧ v.filt.res = 0#32 ∧
      v.filt.hist0 = [0#32, 0#32, 0#32, 0#32] ∧ v.filt.hist1 = [0#32, 0#32, 0#32, 0#32]) ∧
    v.amp = ⟨0#32, ⟨0#32, 0#32, 0#32, 0⟩⟩ ∧ v.fading = false) ∧
  (s.cIn = [] ∧ s.pIn = [] ∧ s.pPend = []) ∧
  (∀ (c : Params) (E : EnvId),
    let ra := clamp 0x3E99999A#32 c.ratioMin c.ratioMax
    let rdr := clamp 0x38D1B717#32 c.ratioMin c.ratioMax
    (State.resetOf c).der E = ⟨0#32, fadd Num32.one ra, 0#32, fsub Num32.one rdr, 0#32, fneg rdr⟩)

/-- `raise E(H)` (60_exceptions.md R381): the first error since reset leaves its header and port, the bit is set, `busy`
(or `pbusy`) falls and the command has no other effect; and no step clears a bit or rewrites the first record, but
for `rst`. -/
def Obligations.ErrorRecord : Prop :=
  (∀ (e : Error) (H : Word) (s : State),
    raise e H .c s = rejectedC e.bit H s ∧ raise e H .p s = rejectedP e.bit H s) ∧
  (∀ s t : State, step s = .next t → .rst ∉ s.events →
    s.err &&& t.err = s.err ∧ (s.err ≠ 0 → t.errinfo = s.errinfo ∧ t.errport = s.errport))

/-! Configuration commands (47_config_commands.md). -/

/-- PREPARE (R320, R322, R326): dropped in HALTED; dropped with `E_CONFIG` on an illegal argument; else the new
configuration, every voice, the LFO, the slots and the counters at their reset values, the derived cells from the
cells and the new rate, mode READY; parameter cells, route tables, `nvoices`, errors and buffer are kept. -/
def Obligations.PrepareCommand : Prop :=
  ∀ (d : BitVec 64) (mb nc : Nat) (s : State),
    let H := (Instr.prepare d mb nc).header
    let fsn := f64ToNum d
    let legal := fgt fsn 0#32 = true ∧ fsn ≠ Num32.inf ∧ (1 ≤ mb ∧ mb ≤ 4096) ∧ (1 ≤ nc ∧ nc ≤ 2)
    (s.mode = .halted → exec (.prepare d mb nc) s = .next (rejectedC 2 H s)) ∧
    (s.mode ≠ .halted → ¬ legal → exec (.prepare d mb nc) s = .next (rejectedC 1 H s)) ∧
    (s.mode ≠ .halted → legal → exec (.prepare d mb nc) s = .next { s with
      mode := .ready, fs := fsn, maxBlock := BitVec.ofNat 16 mb, nch := BitVec.ofNat 2 nc,
      voices := s.voices.map fun _ => Voice.reset, lfo := Osc.reset, lfoOut := 0#32, fmIn := 0#32, modIn := 0#32,
      gcnt := 0, noteSeq := 0, der1 := derivedOf fsn s.par.env1, der2 := derivedOf fsn s.par.env2,
      busy := false, cursor := none })

/-- A second PREPARE with the same arguments finds and leaves the state that the first one left (R323), whatever the
arguments and the mode. -/
def Obligations.PrepareIdempotent : Prop :=
  ∀ (d : BitVec 64) (mb nc : Nat) (s t : State), exec (.prepare d mb nc) s = .next t → exec (.prepare d mb nc) t = .next t

/-- SETVOICES (R325, R326): dropped in HALTED; `E_CONFIG` above 16; else the voices between the old and the new
count take their reset records and no other voice changes. -/
def Obligations.SetvoicesCommand : Prop :=
  ∀ (n : Nat) (s : State),
    let H := (Instr.setvoices n).header
    let old := s.nvoices.toNat
    (s.mode = .halted → exec (.setvoices n) s = .next (rejectedC 2 H s)) ∧
    (s.mode ≠ .halted → 16 < n → exec (.setvoices n) s = .next (rejectedC 1 H s)) ∧
    (s.mode ≠ .halted → n ≤ 16 → exec (.setvoices n) s = .next { s with
      voices := s.voices.mapIdx fun v x => if n ≤ v ∧ v < old ∨ old ≤ v ∧ v < n then Voice.reset else x,
      nvoices := BitVec.ofNat 8 n, busy := false, cursor := none })

/-- ROUTE (R330): dropped in HALTED; `E_CONFIG` for an index outside the table; else the one entry takes all four
fields as given. -/
def Obligations.RouteCommand : Prop :=
  ∀ (scope : Scope) (index : Nat) (valid en : Bool) (src dst : BitVec 4) (s : State),
    let i := Instr.route scope index valid en src.toNat dst.toNat
    (s.mode = .halted → exec i s = .next (rejectedC 2 i.header s)) ∧
    (s.mode ≠ .halted → 8 ≤ index → exec i s = .next (rejectedC 1 i.header s)) ∧
    (s.mode ≠ .halted → index < 8 → scope = .voice →
      exec i s = .next { s with vr := s.vr.set index ⟨valid, en, src, dst⟩, busy := false, cursor := none }) ∧
    (s.mode ≠ .halted → index < 8 → scope = .global →
      exec i s = .next { s with gr := s.gr.set index ⟨valid, en, src, dst⟩, busy := false, cursor := none })

/-! Note commands (46_voicepool.md). -/

/-- NOTEON (R285, R286, 45_voice.md R254, R258): dropped in HALTED and UNPREPARED; with no voice `E_CAPACITY` and mode
HALTED; else a voice is always found: the least free one, or, if none is free, the stolen one (cut first), starts the
note, and no other voice changes. Channel and velocity change nothing. -/
def Obligations.NoteonCommand : Prop :=
  ∀ (channel : Nat) (n : BitVec 7) (velocity : Word) (s : State),
    let i := Instr.noteon channel n.toNat velocity
    let started := fun v x => exec i s = .next { s with
      voices := s.voices.set v (noteStarted s n x), noteSeq := s.noteSeq + 1, busy := false, cursor := none }
    let noneFree := ∀ w < s.nvoices.toNat, (s.voice w).note ≠ none
    (s.mode ≠ .ready → exec i s = .next (rejectedC 2 i.header s)) ∧
    (s.mode = .ready → s.nvoices = 0 → exec i s = .next { rejectedC 3 i.header s with mode := .halted }) ∧
    (s.mode = .ready → s.nvoices ≠ 0 →
      (∃ v, LeastFree s v ∧ started v (s.voice v)) ∨
      (noneFree ∧ ∃ v, StealChoice s n v ∧ started v (noteCut (s.voice v)))) ∧
    (s.mode = .ready → ∀ v, LeastFree s v → started v (s.voice v)) ∧
    (s.mode = .ready → noneFree → ∀ v, StealChoice s n v → started v (noteCut (s.voice v)))

/-- NOTEOFF (R295, 45_voice.md R258): dropped in HALTED and UNPREPARED; else every existing voice that holds the note is
released, or cut when the tail is not allowed, and no other voice changes. -/
def Obligations.NoteoffCommand : Prop :=
  ∀ (channel : Nat) (n : BitVec 7) (velocity : Word) (tail : Bool) (s : State),
    let i := Instr.noteoff channel n.toNat velocity tail
    (s.mode ≠ .ready → exec i s = .next (rejectedC 2 i.header s)) ∧
    (s.mode = .ready → exec i s = .next { s with
      voices := s.voices.mapIdx fun v x =>
        if v < s.nvoices.toNat ∧ x.note = some n then (if tail then noteReleased x else noteCut x) else x,
      busy := false, cursor := none })

/-- A voice cut by NOTEOFF without tail is inactive at once, both envelopes idle, and free, so the next NOTEON takes a
free voice: it steals none (45_voice.md R270). -/
def Obligations.ForcedStopFrees : Prop :=
  ∀ (channel : Nat) (n m : BitVec 7) (velocity : Word) (s t : State) (v : Nat), s.mode = .ready →
    v < s.nvoices.toNat → v < s.voices.length → (s.voice v).note = some n →
    exec (.noteoff channel n.toNat velocity false) s = .next t →
    (t.voice v).env1.isActive = false ∧ (t.voice v).env2.isActive = false ∧ (t.voice v).isFree = true ∧
    (t.voice (findVoice m t)).isFree = true

/-! Admission (60_exceptions.md). -/

/-- In HALTED every C-port command is dropped with `E_NOT_PREPARED`, and a SETPARAM does what it does in any other mode
(R383, R386). -/
def Obligations.HaltedAdmitsNothing : Prop :=
  (∀ (i : Instr) (s : State), i.port = .c → s.mode = .halted → exec i s = .next (rejectedC 2 i.header s)) ∧
  (∀ (i : Instr) (s t : State) (m : Mode), i.port = .p → exec i s = .next t →
    exec i { s with mode := m } = .next { t with mode := m })

/-- The mode is changed by an accepted PREPARE, by `E_CAPACITY` and by `rst` only (R395, 10_state.md R31). -/
def Obligations.ModeChanges : Prop :=
  ∀ (i : Instr) (s t : State), exec i s = .next t → .rst ∉ s.events → t.mode ≠ s.mode →
    (∃ d mb nc, i = .prepare d mb nc ∧ t.mode = .ready) ∨
    (∃ ch n v, i = .noteon ch n v ∧ s.nvoices = 0 ∧ t.mode = .halted)

/-! SETPARAM (48_parameter_setters.md). -/

/-- The twelve forms that write one cell and nothing derived (R342 to R350, R355, R362, R365, R366), in every mode. -/
def Obligations.SetparamRawForms : Prop :=
  ∀ (x : Word) (s : State),
    exec (.setOscWaveform x) s = .next { s with par.osc.waveform := x, pPend := [], pbusy := false } ∧
    exec (.setOscAntialias x) s = .next { s with par.osc.antialias := x, pPend := [], pbusy := false } ∧
    exec (.setOscDetune x) s = .next { s with par.osc.detune := x, pPend := [], pbusy := false } ∧
    exec (.setOscPanspread x) s = .next { s with par.osc.panspread := x, pPend := [], pbusy := false } ∧
    exec (.setOscFmdepth x) s = .next { s with par.osc.fmdepth := x, pPend := [], pbusy := false } ∧
    exec (.setFiltCutoff x) s = .next { s with par.filt.cutoff := x, pPend := [], pbusy := false } ∧
    exec (.setFiltResonance x) s = .next { s with par.filt.resonance := x, pPend := [], pbusy := false } ∧
    exec (.setFiltModdepth x) s = .next { s with par.filt.moddepth := x, pPend := [], pbusy := false } ∧
    exec (.setEnv1Mode x) s = .next { s with par.env1.mode := x, pPend := [], pbusy := false } ∧
    exec (.setEnv2Mode x) s = .next { s with par.env2.mode := x, pPend := [], pbusy := false } ∧
    exec (.setLfoAmount x) s = .next { s with par.lfoAmount := x, pPend := [], pbusy := false } ∧
    exec (.setLfoFreq x) s = .next { s with par.lfoFreq := x, pPend := [], pbusy := false }

/-- The attack forms (R351, R356, R358, R363, 41_envelope.md R174) with no other move in between: the cell, then
`attackCoef` and `attackBase` from the new cells. -/
def Obligations.SetparamAttackForms : Prop :=
  ∀ (x : Word) (s : State), s.events = [] →
    (∀ (i : Instr) (m : EnvMaster),
      (i, m) ∈ [(.setEnv1Attack x, { s.par.env1 with attack := x }), (.setEnv1RatioA x, { s.par.env1 with ratioA := x })] →
      exec i s = .next { s with
        par.env1 := m, pPend := [], pbusy := false,
        der1.attackCoef := (derivedOf s.fs m).attackCoef, der1.attackBase := (derivedOf s.fs m).attackBase }) ∧
    (∀ (i : Instr) (m : EnvMaster),
      (i, m) ∈ [(.setEnv2Attack x, { s.par.env2 with attack := x }), (.setEnv2RatioA x, { s.par.env2 with ratioA := x })] →
      exec i s = .next { s with
        par.env2 := m, pPend := [], pbusy := false,
        der2.attackCoef := (derivedOf s.fs m).attackCoef, der2.attackBase := (derivedOf s.fs m).attackBase })

/-- The decay and sustain forms (R352, R353, R359, R360, 41_envelope.md R174) with no other move in between. -/
def Obligations.SetparamDecayForms : Prop :=
  ∀ (x : Word) (s : State), s.events = [] →
    (let m := { s.par.env1 with decay := x }
     exec (.setEnv1Decay x) s = .next { s with
       par.env1 := m, pPend := [], pbusy := false,
       der1.decayCoef := (derivedOf s.fs m).decayCoef, der1.decayBase := (derivedOf s.fs m).decayBase }) ∧
    (let m := { s.par.env2 with decay := x }
     exec (.setEnv2Decay x) s = .next { s with
       par.env2 := m, pPend := [], pbusy := false,
       der2.decayCoef := (derivedOf s.fs m).decayCoef, der2.decayBase := (derivedOf s.fs m).decayBase }) ∧
    (let m := { s.par.env1 with sustain := x }
     exec (.setEnv1Sustain x) s = .next { s with
       par.env1 := m, pPend := [], pbusy := false, der1.decayBase := (derivedOf s.fs m).decayBase }) ∧
    (let m := { s.par.env2 with sustain := x }
     exec (.setEnv2Sustain x) s = .next { s with
       par.env2 := m, pPend := [], pbusy := false, der2.decayBase := (derivedOf s.fs m).decayBase })

/-- The release and decay/release ratio forms (R354, R357, R361, R364, 41_envelope.md R174) with no other move in
between. -/
def Obligations.SetparamReleaseForms : Prop :=
  ∀ (x : Word) (s : State), s.events = [] →
    (let m := { s.par.env1 with release := x }
     exec (.setEnv1Release x) s = .next { s with
       par.env1 := m, pPend := [], pbusy := false,
       der1.releaseCoef := (derivedOf s.fs m).releaseCoef, der1.releaseBase := (derivedOf s.fs m).releaseBase }) ∧
    (let m := { s.par.env2 with release := x }
     exec (.setEnv2Release x) s = .next { s with
       par.env2 := m, pPend := [], pbusy := false,
       der2.releaseCoef := (derivedOf s.fs m).releaseCoef, der2.releaseBase := (derivedOf s.fs m).releaseBase }) ∧
    (let m := { s.par.env1 with ratioDr := x }
     exec (.setEnv1RatioDr x) s = .next { s with
       par.env1 := m, pPend := [], pbusy := false,
       der1.decayCoef := (derivedOf s.fs m).decayCoef, der1.decayBase := (derivedOf s.fs m).decayBase,
       der1.releaseCoef := (derivedOf s.fs m).releaseCoef, der1.releaseBase := (derivedOf s.fs m).releaseBase }) ∧
    (let m := { s.par.env2 with ratioDr := x }
     exec (.setEnv2RatioDr x) s = .next { s with
       par.env2 := m, pPend := [], pbusy := false,
       der2.decayCoef := (derivedOf s.fs m).decayCoef, der2.decayBase := (derivedOf s.fs m).decayBase,
       der2.releaseCoef := (derivedOf s.fs m).releaseCoef, der2.releaseBase := (derivedOf s.fs m).releaseBase })

/-- A write sequence is not atomic (20_memory.md R92, R94): when the engine, `rst` or the host moves right after the cell
write, the derived cells hold their old values and those of the table of R342 are still to be written, in its order;
when `k` writer moves come first, the first `k` of them are done. The model's own: the list of chosen moves (log entry
2), a value computed at its write (log entry 13), and `pbusy = 1` from the cell write on, exactly while a derived write
is pending (log entry 29). -/
def Obligations.SetparamSequenceIsTorn : Prop :=
  (∀ (id : ParamId) (x : Word) (s : State) (e : Event) (es : List Event), e ≠ .writer → s.events = e :: es →
    exec (id.instr x) s = .next { s with
      par := s.par.set id x, pPend := sequenceOf id, pbusy := !(sequenceOf id).isEmpty }) ∧
  (∀ (id : ParamId) (x : Word) (s t : State) (k : Nat) (e : Event) (es : List Event), e ≠ .writer →
    s.events = List.replicate k .writer ++ e :: es → k ≤ (sequenceOf id).length → exec (id.instr x) s = .next t →
    t.par = s.par.set id x ∧ t.pPend = (sequenceOf id).drop k ∧ t.events = e :: es ∧
    ∀ (E : EnvId) (n : DerivedName), (t.der E).get n =
      if (E, n) ∈ (sequenceOf id).take k then (derivedOf s.fs ((s.par.set id x).env E)).get n else (s.der E).get n)

/-- No value is rejected and the word is stored unchanged, NaN payloads and signed zeros included; no other cell
changes (R341, 10_state.md R40). -/
def Obligations.SetparamStoresWord : Prop :=
  ∀ (id : ParamId) (x : Word) (s : State), ∃ t, exec (id.instr x) s = .next t ∧ t.par.get id = x ∧
    (∀ id', id' ≠ id → t.par.get id' = s.par.get id') ∧ t.err = s.err

/-! RENDER (46_voicepool.md, 45_voice.md). -/

/-- RENDER's checks (R310, 60_exceptions.md R387, R388): dropped whole when not READY, and with `E_RANGE` when the
unwrapped sum passes `maxBlock`. -/
def Obligations.RenderRejected : Prop :=
  ∀ (start count : Nat) (s : State),
    let i := Instr.render start count
    (s.mode ≠ .ready → exec i s = .next (rejectedC 2 i.header s)) ∧
    (s.mode = .ready → s.maxBlock.toNat < start + count → exec i s = .next (rejectedC 4 i.header s))

/-- An accepted RENDER that no `rst` interrupts (log entry 2: no `rst` among the chosen moves) completes, whatever the parameters, the signals and the writer's moves
(00_scope.md R21); it advances `gcnt` by the count modulo 100 (R300, R311); every word outside its index range and
channels reads as before (R312); and its frame: configuration, note counter, route tables, the C port's words, the
voices that do not exist. -/
def Obligations.RenderCompletes : Prop :=
  ∀ (start count : Nat) (s : State), s.mode = .ready → start + count ≤ s.maxBlock.toNat → s.gcnt.toNat < 100 →
    .rst ∉ s.events →
    ∃ t, exec (.render start count) s = .next t ∧ t.busy = false ∧ t.cursor = none ∧
      t.gcnt.toNat = (s.gcnt.toNat + count) % 100 ∧
      (t.mode = s.mode ∧ t.fs = s.fs ∧ t.maxBlock = s.maxBlock ∧ t.nch = s.nch ∧ t.nvoices = s.nvoices ∧
        t.noteSeq = s.noteSeq ∧ t.vr = s.vr ∧ t.gr = s.gr ∧ t.cIn = s.cIn ∧ t.voices.length = s.voices.length) ∧
      (∀ v, s.nvoices.toNat ≤ v → t.voice v = s.voice v) ∧
      (∀ a, ¬ Rendered s start count a → memRead a t = memRead a s)

/-- RENDER itself writes no parameter cell, no derived cell and no error: with no move of the writer chosen, these and
the P port's words are as before (10_state.md R40, R41, 60_exceptions.md R390). -/
def Obligations.RenderLeavesWriterState : Prop :=
  ∀ (start count : Nat) (s t : State), s.mode = .ready → start + count ≤ s.maxBlock.toNat →
    .rst ∉ s.events → .writer ∉ s.events → exec (.render start count) s = .next t →
    t.par = s.par ∧ t.der1 = s.der1 ∧ t.der2 = s.der2 ∧ t.pPend = s.pPend ∧ t.pbusy = s.pbusy ∧ t.pIn = s.pIn ∧
    t.err = s.err ∧ t.errinfo = s.errinfo ∧ t.errport = s.errport

/-- A free voice contributes nothing (45_voice.md R266, R268): when no voice that exists is active, RENDER leaves every word of
the buffer and every voice as they are, whatever the writer does in between. In the other reading of log entry 26 that is
so when no voice has an open fade-out, and the buffer stays in any case when the RENDER begins a pool chunk, which
cuts it (70_reset_and_hazards.md R433). -/
def Obligations.RenderSilentWhenIdle : Prop :=
  (∀ (start count : Nat) (s t : State), s.mode = .ready → start + count ≤ s.maxBlock.toNat → .rst ∉ s.events →
    (∀ v < s.nvoices.toNat, (s.voice v).isActive = false) → exec (.render start count) s = .next t →
    t.voices = s.voices ∧ ∀ a, memRead a t = memRead a s) ∧
  (∀ (capped : Bool) (start count : Nat) (s t : State), s.mode = .ready → start + count ≤ s.maxBlock.toNat →
    .rst ∉ s.events → (∀ v < s.nvoices.toNat, (s.voice v).isActive = false) →
    execOf (readings capped true) (.render start count) s = .next t →
    ((∀ v < s.nvoices.toNat, (s.voice v).fading = false) → t.voices = s.voices ∧ ∀ a, memRead a t = memRead a s) ∧
    (s.gcnt = 0 → ∀ a, memRead a t = memRead a s))

/-- A RENDER that fits in one pool chunk (R311) with no other move in between: the global tick if it is due, then every
existing voice in ascending order, then the counter. -/
def Obligations.RenderOneChunk : Prop :=
  ∀ (start count : Nat) (s : State), s.mode = .ready → start + count ≤ s.maxBlock.toNat → s.events = [] →
    s.gcnt.toNat + count ≤ 100 → 0 < count →
    let s0 := { s with busy := true, cursor := some ⟨BitVec.ofNat 32 start, BitVec.ofNat 16 count⟩ }
    let s1 := if s.gcnt = 0 then globalTick hw s0 else s0
    let u := (List.range s.nvoices.toNat).foldl (renderVoice hw start count) s1
    exec (.render start count) s =
      .next { u with gcnt := BitVec.ofNat 16 ((s.gcnt.toNat + count) % 100), busy := false, cursor := none }

/-- RENDER cut in two is the two RENDERs one after the other: the counters persist (R300, R311), and the second part goes on
with the indices, the counters and the phases where the first ended (45_voice.md R266, R267). So where a pool chunk ends; and
anywhere inside one, for any number of voices, each idle, or with no tick of its own due inside, or still active after
the first part (a voice that ends in the first part has its last sub-chunk cut there, R268). In the other reading of log
entry 26, that of 70_reset_and_hazards.md R433, anywhere inside a pool chunk, also when voices end. -/
def Obligations.RenderSplitsAtControlTick : Prop :=
  (∀ (start a b : Nat) (s t u : State), s.mode = .ready → start + a + b ≤ s.maxBlock.toNat → s.events = [] →
    s.gcnt.toNat < 100 → (s.gcnt.toNat + a) % 100 = 0 →
    exec (.render start a) s = .next t → exec (.render (start + a) b) t = .next u →
    exec (.render start (a + b)) s = .next u) ∧
  (∀ (start a b : Nat) (s t u : State), s.mode = .ready → start + a + b ≤ s.maxBlock.toNat → s.maxBlock.toNat ≤ 4096 →
    Memory.wf (bufferWords hw) s.buf = true → s.events = [] → s.gcnt.toNat + a + b ≤ 100 →
    (∀ v < s.nvoices.toNat, (s.voice v).ccnt.toNat < 100) →
    exec (.render start a) s = .next t → exec (.render (start + a) b) t = .next u →
    (∀ v < s.nvoices.toNat, (s.voice v).isActive = false ∨ (t.voice v).isActive = true ∨
      (s.voice v).ccnt ≠ 0 ∧ (s.voice v).ccnt.toNat + a + b ≤ 100) →
    exec (.render start (a + b)) s = .next u) ∧
  (∀ (capped : Bool) (start a b : Nat) (s t u : State), s.mode = .ready → start + a + b ≤ s.maxBlock.toNat →
    s.maxBlock.toNat ≤ 4096 → Memory.wf (bufferWords hw) s.buf = true → s.events = [] → s.gcnt.toNat + a + b ≤ 100 →
    (∀ v < s.nvoices.toNat, (s.voice v).ccnt.toNat < 100) →
    execOf (readings capped true) (.render start a) s = .next t →
    execOf (readings capped true) (.render (start + a) b) t = .next u →
    execOf (readings capped true) (.render start (a + b)) s = .next u)

/-- One sample of any number of voices (46_voicepool.md R311, 45_voice.md R266, R267): the global tick if it is due; then each
active voice that exists, in ascending order: its tick if it is due (R264), also the one at which it ends (R268), and its
sample, the three oscillators' sum in their order, through each channel's filter with its own history, times one gain for all
channels, added into the word of each channel below `nch`. Each such voice's own record moves on, every other voice
keeps its own, and every other word of the buffer its value. `f` is the LFO's frequency, `LFO_FREQ` or, if that is a NaN,
some NaN. The model's readings are those of log entries 25 and 26; the buffer's list form is log entry 4's. -/
def Obligations.RenderOneSample : Prop :=
  ∀ (start : Nat) (s : State), s.mode = .ready → start + 1 ≤ s.maxBlock.toNat → s.maxBlock.toNat ≤ 4096 →
    s.events = [] → s.gcnt.toNat < 100 → (∀ v < s.nvoices.toNat, (s.voice v).ccnt.toNat < 100) →
    1 ≤ s.nch.toNat → s.nch.toNat ≤ 2 → Memory.wf (bufferWords hw) s.buf = true →
    ∃ f, (isNaN s.par.lfoFreq = false → f = s.par.lfoFreq) ∧ (isNaN s.par.lfoFreq = true → isNaN f = true) ∧
    let s' := if s.gcnt = 0 then globalTicked f s else s
    let added := fun ch => (activeVoices s).map fun v => sampleAdded s' (atSample s' v) ch
    ∃ t, exec (.render start 1) s = .next t ∧
      (∀ v, t.voice v = if v < s.nvoices.toNat ∧ (s.voice v).isActive = true
        then sampleTaken s' (atSample s' (s.voice v)) else s.voice v) ∧
      (t.lfo = s'.lfo ∧ t.lfoOut = s'.lfoOut ∧ t.fmIn = s'.fmIn ∧ t.modIn = s'.modIn) ∧
      memRead start t = (added 0).foldl fadd (memRead start s) ∧
      (s.nch.toNat = 2 → memRead (4096 + start) t = (added 1).foldl fadd (memRead (4096 + start) s)) ∧
      (∀ a, a ≠ start → (s.nch.toNat = 2 → a ≠ 4096 + start) → memRead a t = memRead a s)

/-- `rst` in the middle of RENDER abandons the command and leaves the reset state, at whatever boundary it comes
(70_reset_and_hazards.md R410). What had been added to the buffer by then stays: no word outside RENDER's range changes,
each word is its old one with zero or more additions (of a buffer in its canonical form, log entry 4), and with one voice and no tick due the words are those of the
RENDER of the samples done. That the buffer's words stay is the model's choice (log entry 6). -/
def Obligations.RenderAbandonedByReset : Prop :=
  (∀ (start count : Nat) (s : State) (es : List Event), s.mode = .ready → start + count ≤ s.maxBlock.toNat → 0 < count →
    s.gcnt = 0 → s.events = .rst :: es →
    exec (.render start count) s = .next { State.reset with buf := s.buf, events := es }) ∧
  (∀ (start count : Nat) (s t : State) (pre es : List Event), s.mode = .ready → start + count ≤ s.maxBlock.toNat →
    Memory.wf (bufferWords hw) s.buf = true → (∀ e ∈ pre, e = .engine ∨ e = .writer) → s.events = pre ++ .rst :: es → exec (.render start count) s = .next t →
    (t = { State.reset with buf := t.buf, events := es } ∨
      t.mode = .ready ∧ ∃ rest, rest <:+ pre ∧ t.events = rest ++ .rst :: es) ∧
    ∀ a, (∃ zs : List Num32, memRead a t = zs.foldl fadd (memRead a s)) ∧
      (¬ Rendered s start count a → memRead a t = memRead a s)) ∧
  (∀ (start count k : Nat) (s u : State) (es : List Event), s.mode = .ready → start + count ≤ s.maxBlock.toNat →
    s.gcnt ≠ 0 → s.gcnt.toNat + count ≤ 100 → s.nvoices = 1 → s.voices ≠ [] → (s.voice 0).isActive = true →
    (s.voice 0).ccnt ≠ 0 → (s.voice 0).ccnt.toNat + count ≤ 100 → 1 ≤ k → k ≤ count →
    s.events = List.replicate (k - 1) .engine ++ .rst :: es → exec (.render start k) { s with events := [] } = .next u →
    exec (.render start count) s = .next { State.reset with buf := u.buf, events := es })

/-- Nothing but RENDER touches the buffer (20_memory.md R82), in this hardware and in any configuration. -/
def Obligations.OnlyRenderTouchesBuffer : Prop :=
  (∀ (i : Instr) (s t : State), (∀ start count, i ≠ .render start count) → exec i s = .next t →
    ∀ a, memRead a t = memRead a s) ∧
  (∀ (c : Params) (i : Instr) (s t : State), (∀ start count, i ≠ .render start count) → execOf c i s = .next t →
    ∀ a, memRead a t = memRead a s)

/-- Parameter cells are written by SETPARAM only (10_state.md R40): a C-port command leaves them alone, unless the writer
moves or `rst` comes while it runs; in this hardware and in any configuration. -/
def Obligations.OnlySetparamWritesCells : Prop :=
  (∀ (i : Instr) (s t : State), i.port = .c → .writer ∉ s.events → .rst ∉ s.events → exec i s = .next t →
    t.par = s.par) ∧
  (∀ (c : Params) (i : Instr) (s t : State), i.port = .c → .writer ∉ s.events → .rst ∉ s.events →
    execOf c i s = .next t → t.par = s.par)

/-! Invariants (10_state.md R60). -/

/-- The invariants of Safety.lean hold right after reset. -/
def Obligations.InvariantAtReset : Prop := BlockInv State.reset ∧ PhasesLegal State.reset ∧ SeqsDistinct State.reset ∧
  DerivedInStep State.reset ∧ LevelsInUnit State.reset ∧ State.reset.der1.inRange = true ∧ State.reset.der2.inRange = true

/-- Every step keeps the invariant of Safety.lean: the buffer's canonical form, the counters' ranges, the ramps, free
exactly when idle, the legal configuration, the error record, the pending writes (R60 (c) to (f)). The model's own
clauses: `busy = 0` and no render cursor between two steps, because a step is a whole command (log entries 1, 12);
`pbusy = 1` exactly while a derived write is pending (log entry 29); the field `fading` is false (log entry
26); the list form of the buffer (log entries 4, 5). -/
def Obligations.InvariantKept : Prop := ∀ s t : State, BlockInv s → step s = .next t → BlockInv t

/-- Every step keeps every oscillator's phase a NaN or in `[0, TWO_PI)` (R60 (a), 10_state.md R51, 40_oscillator.md R153); and
a sample makes a phase a NaN only by an increment that is not finite (R150). -/
def Obligations.PhaseRangeKept : Prop :=
  (∀ s t : State, PhasesLegal s → step s = .next t → PhasesLegal t) ∧
  (∀ (w : Waveform) (aa : Bool) (fsL : Num32) (o : Osc), o.phaseLegal = true → isNaN o.phase = false →
    let o' := (o.processSample w aa fsL).2
    isFinite o'.inc = true → isNaN o'.phase = false ∧ o'.phaseLegal = true)

/-- The `seq` values of sounding voices stay distinct as long as the counter does not wrap (R60 (g)). -/
def Obligations.SeqsStayDistinct : Prop :=
  ∀ s t : State, SeqsDistinct s → s.noteSeq ≠ 0xFFFFFFFF#32 → step s = .next t → SeqsDistinct t

/-- Every envelope's level is a number of [0, 1] (R60 (b), R53, 41_envelope.md R188): every step keeps it, whatever the parameters
and whatever is torn, since each derived cell is in its range by itself; that a torn decay is limited to 1 is log entry
25's. In either reading of that entry every step keeps the derived cells in step with the cells and the rate, but for
those whose writes are pending (R41, R174, 48_parameter_setters.md R342), and with none pending and no writer move chosen
every step keeps the level in range. -/
def Obligations.EnvelopeLevelsKept : Prop :=
  (∀ s t : State, s.der1.inRange = true → s.der2.inRange = true → LevelsInUnit s → step s = .next t →
    t.der1.inRange = true ∧ t.der2.inRange = true ∧ LevelsInUnit t) ∧
  (∀ (fade : Bool) (s t : State), s.der1.inRange = true → s.der2.inRange = true → LevelsInUnit s →
    stepOf (readings true fade) s = .next t →
    t.der1.inRange = true ∧ t.der2.inRange = true ∧ LevelsInUnit t) ∧
  (∀ (d : Derived) (m : EnvMaster) (e : Env), d.inRange = true → inUnit e.out = true →
    inUnit (e.tick true d m).out = true) ∧
  (∀ s t : State, DerivedInStep s → step s = .next t → DerivedInStep t) ∧
  (∀ (capped fade : Bool) (s t : State), DerivedInStep s → s.pPend = [] → .writer ∉ s.events → LevelsInUnit s →
    stepOf (readings capped fade) s = .next t → LevelsInUnit t) ∧
  (∀ (capped : Bool) (d : Derived) (m : EnvMaster) (e : Env), d.fits = true → inUnit e.out = true →
    inUnit (e.tick capped d m).out = true) ∧
  (∀ (fs : Num32) (m : EnvMaster), (derivedOf fs m).fits = true ∧ (derivedOf fs m).inRange = true)

/-! Internal operations. -/

/-- `ramp.next()` (40_oscillator.md R149): unchanged when finished, lands exactly on the target at its last step, adds the
step before that; so `rem` calls end at the target whatever the rounding of the step. -/
def Obligations.RampLandsOnTarget : Prop :=
  (∀ r : Ramp, r.rem = 0 → r.next = r) ∧
  (∀ r : Ramp, r.rem = 1 → r.next = { r with rem := 0, cur := r.tgt }) ∧
  (∀ r : Ramp, 1 < r.rem.toNat → r.next = { r with rem := r.rem - 1, cur := fadd r.cur r.step }) ∧
  (∀ r : Ramp, r.rem ≠ 0 → Ramp.next^[r.rem.toNat] r = { r with rem := 0, cur := r.tgt }) ∧
  (∀ (r : Ramp) (t : Num32), (Ramp.retarget 1 t r).next.cur = t)

/-- `wrap(x)` (40_oscillator.md R153): a NaN exactly for a NaN or an infinity; else a number of `[0, TWO_PI)`, which is
`fmod(x, TWO_PI)` when that is not below 0, and else that plus `TWO_PI`, minus `TWO_PI` again when the addition rounded up
to it. -/
def Obligations.WrapRange : Prop :=
  ∀ x : Num32, (isNaN (wrap x) = true ↔ isFinite x = false) ∧
    (isFinite x = true → fge (wrap x) 0#32 = true ∧ flt (wrap x) Num32.twoPi = true ∧
      let r := fmod x Num32.twoPi
      let y := fadd r Num32.twoPi
      (flt r 0#32 = false → wrap x = r) ∧ (flt r 0#32 = true → flt y Num32.twoPi = true → wrap x = y) ∧
      (flt r 0#32 = true → fge y Num32.twoPi = true → wrap x = fsub y Num32.twoPi))

/-- The envelope's state machine (41_envelope.md R176, R177, R179 to R183, R185): the table's transitions and nothing else. That
a level above 1, which R181 gives in DECAY with torn cells, becomes 1 in this hardware (`capped`) is the model's choice (log
entry 25); without it the step is R181's. -/
def Obligations.EnvelopeTransitions : Prop :=
  ∀ (capped : Bool) (d : Derived) (m : EnvMaster) (e : Env),
    let s := clamp m.sustain 0#32 Num32.one
    let t := e.tick capped d m
    e.gate true = { e with st := .attack } ∧
    e.forceIdle = ⟨0#32, .idle⟩ ∧
    (e.st = .idle → e.gate false = e ∧ t = e) ∧
    (e.st ≠ .idle → e.gate false = { e with st := .release }) ∧
    (e.st = .attack → let x := fadd d.attackBase (fmul e.out d.attackCoef)
      t = if fge x Num32.one then ⟨Num32.one, .decay⟩ else ⟨x, .attack⟩) ∧
    (e.st = .decay → let x := fadd d.decayBase (fmul e.out d.decayCoef)
      t = if fle x s then ⟨s, .sustain⟩ else ⟨if capped = true ∧ fgt x Num32.one = true then Num32.one else x, .decay⟩) ∧
    (e.st = .sustain → t = ⟨s, if fge m.mode Num32.half then .release else .sustain⟩) ∧
    (e.st = .release → let x := fadd d.releaseBase (fmul e.out d.releaseCoef)
      t = if fle x 0#32 then ⟨0#32, .idle⟩ else ⟨x, .release⟩)

/-- After a tick in ATTACK the level is not above 1, in DECAY not below the sustain level, in RELEASE not below 0 (a NaN
level is none of these); in SUSTAIN it is a number of [0, 1] (41_envelope.md R180 to R183). And a segment is monotone
(R186): RELEASE never rises; an ATTACK from 0 rises or stays, a DECAY from 1 falls or stays, and what has once risen or
fallen goes on so to the segment's end. The segment's length is not stated (log entry 31). -/
def Obligations.EnvelopeLevelClamped : Prop :=
  ∀ (capped : Bool) (d : Derived) (m : EnvMaster) (e : Env),
    let t := fun e : Env => e.tick capped d m
    ((e.st = .attack → fgt (t e).out Num32.one = false) ∧
      (e.st = .decay → flt (t e).out (clamp m.sustain 0#32 Num32.one) = false) ∧
      (e.st = .sustain → fge (t e).out 0#32 = true ∧ fle (t e).out Num32.one = true) ∧
      (e.st = .release → flt (t e).out 0#32 = false)) ∧
    (d.inRange = true → inUnit e.out = true →
      (e.st = .release → fle (t e).out e.out = true) ∧
      (e.st = .attack → isZero e.out = true → fle e.out (t e).out = true) ∧
      (e.st = .attack → (t e).st = .attack → fle e.out (t e).out = true → fle (t e).out (t (t e)).out = true) ∧
      (e.st = .decay → d.fits = true → e.out = Num32.one → fle (t e).out e.out = true) ∧
      (e.st = .decay → (t e).st = .decay → fle (t e).out e.out = true → fle (t (t e)).out (t e).out = true))

/-- The document's matrix example (44_modmatrix.md R238): `D = 2.0` with the route enabled, `D = 0.0` after it is
disabled. -/
def Obligations.MatrixExample : Prop :=
  ∀ (s : State) (rest : List Route), s.lfoOut = 0x40000000#32 → (∀ r ∈ rest, r.valid = false) →
    let s1 := matrixProcess hw.matrixZeroDisabled globalBinding (⟨true, true, 0, 0⟩ :: rest) s
    s1.fmIn = 0x40000000#32 ∧
    (matrixProcess hw.matrixZeroDisabled globalBinding (⟨true, false, 0, 0⟩ :: rest) s1).fmIn = 0#32

/-- What `matrix.process` does in each scope (44_modmatrix.md R235 to R237): each slot takes the sum, in table order, of the
bound sources of the enabled routes that name it; `+0.0` when valid routes name it and none of these does; it is kept
when no valid route names it; nothing else changes. -/
def Obligations.MatrixFrame : Prop :=
  (∀ (T : List Route) (v : Voice),
    let src := voiceSources v.env1 v.env2
    let w := matrixProcess hw.matrixZeroDisabled voiceBinding T v
    (w = { v with
      filt := { v.filt with modIn := slotSum src 0 v.filt.modIn T },
      amp := { v.amp with gainIn := slotSum src 1 v.amp.gainIn T } }) ∧
    ((∀ r ∈ T, r.valid = true → r.dst ≠ 0) → w.filt.modIn = v.filt.modIn) ∧
    ((∀ r ∈ T, r.valid = true → r.dst ≠ 1) → w.amp.gainIn = v.amp.gainIn) ∧
    ((∃ r ∈ T, r.valid = true ∧ r.dst = 0) → (∀ r ∈ T, r.valid = true → r.en = true → r.dst = 0 → 2 ≤ r.src.toNat) →
      w.filt.modIn = 0#32) ∧
    ((∃ r ∈ T, r.valid = true ∧ r.dst = 1) → (∀ r ∈ T, r.valid = true → r.en = true → r.dst = 1 → 2 ≤ r.src.toNat) →
      w.amp.gainIn = 0#32)) ∧
  (∀ (T : List Route) (s : State),
    matrixProcess hw.matrixZeroDisabled globalBinding T s = { s with
      fmIn := slotSum (globalSources s.lfoOut) 0 s.fmIn T, modIn := slotSum (globalSources s.lfoOut) 1 s.modIn T })

/-- The whole voice record after a voice tick (45_voice.md R264, R268): the envelopes ticked, the free test after them, the
slots as the matrix leaves them with the new levels, the oscillators, cutoff and gain retargeted from these over 100
samples, the resonance latched, and everything else as it was. The model's choices: a torn decay step is limited to 1 (log
entry 25), and the model's own field `fading` of a voice that ends is false (log entry 26). -/
def Obligations.VoiceTickEffects : Prop := ∀ (s : State) (v : Voice), Voice.tick hw s v = voiceTicked s v

/-- The global tick (46_voicepool.md R301, R302, 44_modmatrix.md R239): the LFO's frequency is `LFO_FREQ` at once (some NaN if it is one),
the sample is the triangle at the phase before the advance, `lfoOut` is it times `LFO_AMOUNT`, the two master slots are
the matrix's sums of it, and nothing else of the block changes. -/
def Obligations.GlobalTickEffects : Prop :=
  ∀ s : State, ∃ f, (isNaN s.par.lfoFreq = false → f = s.par.lfoFreq) ∧ (isNaN s.par.lfoFreq = true → isNaN f = true) ∧
    globalTick hw s = globalTicked f s

/-- `FREQ_LAW_NEUTRAL` (40_oscillator.md R146): with both products zero, of either sign, the target is the base
frequency; a NaN base gives some NaN. -/
def Obligations.FrequencyLawNeutral : Prop :=
  ∀ base dm detune depth input : Num32, isZero (fmul dm detune) = true → isZero (fmul depth input) = true →
    (isNaN base = false → hw.freqLaw base dm detune depth input = base) ∧
    (isNaN base = true → isNaN (hw.freqLaw base dm detune depth input) = true)

/-- A voice oscillator's sample (40_oscillator.md R150 to R156): ramp, increment and phase move on, the sample is the
waveform that `OSC_WAVEFORM` names at the phase before; triangle, saw and square with their kernels; `blep` piece by
piece, `+0.0` for a zero or negative increment and for a NaN operand; `spread` duplicates to both channels and then
attenuates the opposite one. A NaN phase gives a NaN, but -1.0 for the square without antialiasing (R154's comment; log
entry 27). -/
def Obligations.OscillatorSample : Prop :=
  (∀ (s : State) (o : Osc),
    let x := s.par.osc.waveform
    let aa := fge s.par.osc.antialias Num32.half
    let inc := fdiv (fmul Num32.twoPi o.ramp.next.cur) s.fs
    let t := fdiv o.phase Num32.twoPi
    let dt := fdiv inc Num32.twoPi
    let saw := fsub (fmul Num32.two t) Num32.one
    let square := if flt o.phase Num32.pi then Num32.one else Num32.negOne
    let r := oscSample s o
    r.2 = ⟨wrap (fadd o.phase inc), inc, o.base, o.ramp.next⟩ ∧
    (isNaN x = true ∨ flt x Num32.half = true → r.1 = triangleAt o.phase) ∧
    (fge x Num32.half = true → flt x Num32.oneAndHalf = true → r.1 = if aa then fsub saw (blep t dt) else saw) ∧
    (fge x Num32.oneAndHalf = true → isNaN o.phase = false → r.1 =
      if aa then fsub (fadd square (blep t dt)) (blep (fmod (fadd t Num32.half) Num32.one) dt) else square) ∧
    (fge x Num32.oneAndHalf = true → isNaN o.phase = true → aa = false → r.1 = Num32.negOne) ∧
    (isNaN o.phase = true → aa = true ∨ isNaN x = true ∨ flt x Num32.oneAndHalf = true → isNaN r.1 = true)) ∧
  (∀ t dt : Num32, flt t dt = true →
    let u := fdiv t dt
    blep t dt = fsub (fsub (fadd u u) (fmul u u)) Num32.one) ∧
  (∀ t dt : Num32, flt t dt = false → fgt t (fsub Num32.one dt) = true →
    let u := fdiv (fsub t Num32.one) dt
    blep t dt = fadd (fadd (fadd (fmul u u) u) u) Num32.one) ∧
  (∀ t dt : Num32, flt t dt = false → fgt t (fsub Num32.one dt) = false → blep t dt = 0#32) ∧
  (∀ t dt : Num32, fge t 0#32 = true → flt t Num32.one = true → fle dt 0#32 = true → blep t dt = 0#32) ∧
  (∀ t dt : Num32, isNaN t = true ∨ isNaN dt = true → blep t dt = 0#32) ∧
  (∀ (panspread pm x : Num32) (ch : Nat), spread 1 panspread pm x ch = x) ∧
  (∀ panspread pm x : Num32,
    let p := clamp (fmul panspread pm) Num32.negOne Num32.one
    spread 2 panspread pm x 0 = (if fgt p 0#32 then fmul x (fsub Num32.one p) else x) ∧
    spread 2 panspread pm x 1 = (if flt p 0#32 then fmul x (fadd Num32.one p) else x))

/-- `FILT_SILENCE` (42_filter.md R206 (c)). Of the stand-in kernel, for a sample rate whose double is finite (log entry 24:
above that the stand-in gives NaN): a silent history and a zero sample give a zero and a silent history, for every
cutoff, NaN and infinities included, and every resonance. Of any kernel with the contract of R206: its words in the
block start silent, and from silent ones a zero sample gives a zero and silent ones. -/
def Obligations.FilterSilence : Prop :=
  (∀ a b c d z fc res fsr : Num32,
    (isZero a = true ∧ isZero b = true ∧ isZero c = true ∧ isZero d = true) → isZero z = true →
    fgt fsr 0#32 = true → isFinite (fmul Num32.two fsr) = true →
    let r := hw.filt.stepWords [a, b, c, d] z fc res fsr
    isZero r.2 = true ∧ ∃ a' b' c' d', r.1 = [a', b', c', d'] ∧
      isZero a' = true ∧ isZero b' = true ∧ isZero c' = true ∧ isZero d' = true) ∧
  hw.filt.initWords = [0#32, 0#32, 0#32, 0#32] ∧
  (∀ k : FiltKernel, k.Contract → ∃ silent : List Word → Prop, silent k.initWords ∧
    ∀ (h : List Word) (z fc res fsr : Num32), silent h → isZero z = true → fge res 0#32 = true →
      fle res Num32.one = true → isFinite fsr = true → fgt fsr 0#32 = true →
      isZero (k.stepWords h z fc res fsr).2 = true ∧ silent (k.stepWords h z fc res fsr).1)

/-! Numbers (00_scope.md R12, R13, R15). -/

/-- Rounding is to nearest, ties to even (R12): no number is nearer to `n` units of 2^-(149+k) than the rounded one, of two
equally near ones the even one is taken, and a size that no number below infinity is near enough to gives
infinity (2^128 - 2^103 units of 1 and up). The sum, the difference and the product of finite operands are the exact ones
so rounded (`value` and `units` count units of 2^-149), a zero sum is negative only from two negative terms; the quotient
is the number next to the exact one, in cross products; `fmod` is exact, with the dividend's sign (R13). -/
def Obligations.RoundsToNearestEven : Prop :=
  (∀ n k : Nat,
    (roundMag n k < 0x7F800000 → ∀ m < 0x7F800000,
      let near := ((unitsOfMag (roundMag n k) * 2 ^ k : Nat) : Int) - n
      let other := ((unitsOfMag m * 2 ^ k : Nat) : Int) - n
      near.natAbs ≤ other.natAbs ∧ (near.natAbs = other.natAbs → m = roundMag n k ∨ roundMag n k % 2 = 0)) ∧
    (roundMag n k = 0x7F800000 ↔ (2 ^ 128 - 2 ^ 103) * 2 ^ (149 + k) ≤ n)) ∧
  (∀ a b : Num32, isFinite a = true → isFinite b = true →
    let rounded := fun (z : Int) (zeroNegative : Bool) =>
      if z = 0 then fpack zeroNegative 0 else fpack (decide (z < 0)) (roundMag z.natAbs 0)
    fadd a b = rounded (value a + value b) (fneg? a && fneg? b) ∧
    fsub a b = rounded (value a - value b) (fneg? a && !fneg? b) ∧
    fmul a b = fpack (fneg? a != fneg? b) (roundMag (units a * units b) 149)) ∧
  (∀ a b : Num32, isFinite a = true → isFinite b = true → isZero b = false →
    let q := fdiv a b
    fneg? q = (fneg? a != fneg? b) ∧ isNaN q = false ∧
    (isFinite q = true → ∀ m < 0x7F800000,
      let near := ((units q * units b : Nat) : Int) - (units a * 2 ^ 149 : Nat)
      let other := ((unitsOfMag m * units b : Nat) : Int) - (units a * 2 ^ 149 : Nat)
      near.natAbs ≤ other.natAbs ∧ (near.natAbs = other.natAbs → m = fmag q ∨ fmag q % 2 = 0)) ∧
    (isInf q = true ↔ (2 ^ 128 - 2 ^ 103) * units b ≤ units a)) ∧
  (∀ x y : Num32, isFinite x = true → isFinite y = true → isZero y = false →
    let r := fmod x y
    isFinite r = true ∧ fneg? r = fneg? x ∧ units r = units x % units y)

/-- `clamp` (R15): the low bound for a NaN, and always a number between the bounds. -/
def Obligations.ClampRange : Prop :=
  ∀ v lo hi : Num32, isNaN lo = false → isNaN hi = false → fle lo hi = true →
    (isNaN v = true → clamp v lo hi = lo) ∧ fle lo (clamp v lo hi) = true ∧ fle (clamp v lo hi) hi = true ∧
    (fle lo v = true → fle v hi = true → clamp v lo hi = v)

/-- The exact points of the library functions and their NaNs (R13 (b), (c)). -/
def Obligations.LibraryExactPoints : Prop :=
  (hw.num.exp Num32.negInf = 0#32 ∧ hw.num.exp 0#32 = Num32.one ∧ hw.num.exp 0x80000000#32 = Num32.one) ∧
  (hw.num.exp2 0#32 = Num32.one ∧ hw.num.exp2 0x80000000#32 = Num32.one) ∧
  (∀ (x : Num32) (k : Int), isFinite x = true → value x = k * 2 ^ 149 → -149 ≤ k → k ≤ 127 →
    isFinite (hw.num.exp2 x) = true ∧ value (hw.num.exp2 x) = 2 ^ (k + 149).toNat) ∧
  (hw.num.ln Num32.one = 0#32 ∧ hw.num.ln Num32.inf = Num32.inf) ∧
  (∀ x : Num32, isNaN x = true →
    isNaN (hw.num.exp x) = true ∧ isNaN (hw.num.exp2 x) = true ∧ isNaN (hw.num.ln x) = true)

/-- The library functions are monotone on the arguments where they are numbers (R13 (d)), whatever the free choices of
log entries 8 and 9 are. -/
def Obligations.LibraryMonotone : Prop :=
  ∀ a b : Num32, fle a b = true →
    fle (hw.num.exp a) (hw.num.exp b) = true ∧ fle (hw.num.exp2 a) (hw.num.exp2 b) = true ∧
    (fge a 0#32 = true → fle (hw.num.ln a) (hw.num.ln b) = true)
end

