-- ==== Sys2Proof/Laws/Encoding.lean ====
section
/-! SUPPORT. What the fields of an encoded header are, and how the decoder goes through a header. -/

namespace Sys2Proof

/-- The decoder on a header of format `f`: it waits for the payload, then takes it whatever happens. -/
theorem decode_format {H : Word} {f : Format} (port : Port) (ws : List Word) (h : formatOf (opcodeOf H) = some f) :
    decode port (H :: ws) =
      if ws.length < f.payload then .wait else decodeFormat port f H (ws.take f.payload) (ws.drop f.payload) := by
  simp only [decode, h]

/-- A header that its format accepts on the right port is assembled. -/
theorem decodeFormat_accept {port : Port} {f : Format} {H : Word} {payload rest : List Word} {i : Instr}
    (hr : reservedSet f H = false) (hp : f.port = port)
    (ha : assemble H.toNat (payload.getD 0 0) (payload.getD 1 0) = some i) :
    decodeFormat port f H payload rest = .command i rest := by
  unfold decodeFormat
  rw [hr, if_neg (by decide), if_neg (by simp [hp]), ha]

theorem Instr.headerNat_lt (i : Instr) : i.headerNat < 4294967296 := by
  cases i with
  | prepare d m c => simp only [Instr.headerNat]; omega
  | setvoices n => simp only [Instr.headerNat]; omega
  | noteon c n v => simp only [Instr.headerNat]; omega
  | noteoff c n v t => simp only [Instr.headerNat]; cases t <;> simp only [Bool.toNat_true, Bool.toNat_false] <;> omega
  | render a b => simp only [Instr.headerNat]; omega
  | route sc ix va en s d =>
    simp only [Instr.headerNat]
    cases sc <;> cases va <;> cases en <;> simp only [Bool.toNat_true, Bool.toNat_false, reduceCtorEq, if_true, if_false] <;> omega
  | _ => simp only [Instr.headerNat, Instr.setparam, ParamId.code, Option.map_some, Option.getD_some]; decide

theorem Instr.header_toNat (i : Instr) : i.header.toNat = i.headerNat := by
  rw [Instr.header, BitVec.toNat_ofNat]
  exact Nat.mod_eq_of_lt i.headerNat_lt

theorem opcodeOf_header (i : Instr) : opcodeOf i.header = field i.headerNat 24 8 := by
  rw [opcodeOf, Instr.header_toNat]

/-- A command's words are its header and the payload of its format. -/
theorem encode_eq (i : Instr) : encode i = i.header :: i.payload := rfl

/-! The fields of each header, as numbers. -/

theorem field_prepare (d : BitVec 64) (m c : Nat) (hm : m < 65536) (hc : c < 256) :
    let n := (Instr.prepare d m c).headerNat
    field n 24 8 = 0x01 ∧ field n 16 8 = c ∧ field n 0 16 = m := by
  simp only [Instr.headerNat, field]
  omega

theorem field_setvoices (k : Nat) (hk : k < 256) :
    let n := (Instr.setvoices k).headerNat
    field n 24 8 = 0x02 ∧ field n 8 16 = 0 ∧ field n 0 8 = k := by
  simp only [Instr.headerNat, field]
  omega

theorem field_noteon (c m : Nat) (v : Word) (hc : c < 16) (hm : m < 128) :
    let n := (Instr.noteon c m v).headerNat
    field n 24 8 = 0x10 ∧ field n 20 4 = c ∧ field n 15 5 = 0 ∧ field n 8 7 = m ∧ field n 0 8 = 0 := by
  simp only [Instr.headerNat, field]
  omega

theorem field_noteoff (c m : Nat) (v : Word) (t : Bool) (hc : c < 16) (hm : m < 128) :
    let n := (Instr.noteoff c m v t).headerNat
    field n 24 8 = 0x11 ∧ field n 20 4 = c ∧ field n 15 5 = 0 ∧ field n 8 7 = m ∧ field n 1 7 = 0 ∧
      field n 0 1 = t.toNat := by
  simp only [Instr.headerNat, field]
  cases t <;> simp only [Bool.toNat_true, Bool.toNat_false] <;> omega

theorem field_render (a b : Nat) (hb : b < 65536) :
    let n := (Instr.render a b).headerNat
    field n 24 8 = 0x20 ∧ field n 16 8 = 0 ∧ field n 0 16 = b := by
  simp only [Instr.headerNat, field]
  omega

theorem field_route (sc : Scope) (ix : Nat) (va en : Bool) (s d : Nat) (hi : ix < 8) (hs : s < 16) (hd : d < 16) :
    let n := (Instr.route sc ix va en s d).headerNat
    field n 24 8 = 0x30 ∧ field n 23 1 = (if sc = .voice then 0 else 1) ∧ field n 20 3 = ix ∧ field n 18 2 = 0 ∧
      field n 17 1 = va.toNat ∧ field n 16 1 = en.toNat ∧ field n 12 4 = 0 ∧ field n 8 4 = s ∧ field n 4 4 = 0 ∧
      field n 0 4 = d := by
  simp only [Instr.headerNat, field]
  cases sc <;> cases va <;> cases en <;> simp only [Bool.toNat_true, Bool.toNat_false, reduceCtorEq, if_true, if_false] <;> omega

theorem ParamId.ofCode_code (id : ParamId) : ParamId.ofCode id.code = some id := by cases id <;> rfl

theorem ParamId.setparam_instr (id : ParamId) (v : Word) : (id.instr v).setparam = some (id, v) := by cases id <;> rfl

/-- Every SETPARAM form is the form of its cell. -/
theorem Instr.eq_of_setparam {i : Instr} {id : ParamId} {v : Word} (h : i.setparam = some (id, v)) : i = id.instr v := by
  cases i <;> simp only [Instr.setparam, reduceCtorEq, Option.some.injEq, Prod.mk.injEq] at h <;>
    (obtain ⟨rfl, rfl⟩ := h; rfl)

theorem headerNat_instr (id : ParamId) (v : Word) : (id.instr v).headerNat = 0x40000000 + id.code := by
  cases id <;> rfl

theorem payload_instr (id : ParamId) (v : Word) : (id.instr v).payload = [v] := by cases id <;> rfl

theorem port_instr (id : ParamId) (v : Word) : (id.instr v).port = .p := by cases id <;> rfl

theorem ParamId.code_lt (id : ParamId) : id.code < 256 := by cases id <;> decide

theorem field_setparam (id : ParamId) (v : Word) :
    let n := (id.instr v).headerNat
    field n 24 8 = 0x40 ∧ field n 8 16 = 0 ∧ field n 0 8 = id.code := by
  have := id.code_lt
  simp only [headerNat_instr, field]
  omega

end Sys2Proof
end

