-- ==== Sys2Proof/Laws/Float.lean ====
section
/-! SUPPORT. A NaN operand gives a NaN (00_scope.md R12), whatever the free patterns are. -/

namespace Sys2Proof.Machine

theorem isNaN_asNaN (x : Num32) : isNaN (asNaN x) = true := by
  unfold asNaN
  split
  · assumption
  · unfold isNaN fmag
    rw [decide_eq_true_eq, BitVec.toNat_or, show (0x80000000 : Nat) = 2 ^ 31 from rfl, Nat.or_mod_two_pow]
    exact Nat.lt_of_lt_of_le (by decide) Nat.right_le_or

@[simp] theorem isNaN_freeNaN (op : NanOp) (a b : Num32) : isNaN (freeNaN op a b) = true := isNaN_asNaN _

theorem isNaN_fadd_left {a : Num32} (b : Num32) (h : isNaN a = true) : isNaN (fadd a b) = true := by
  simp [fadd, addWith, h]

theorem isNaN_fsub_left {a : Num32} (b : Num32) (h : isNaN a = true) : isNaN (fsub a b) = true := by
  simp [fsub, addWith, h]

end Sys2Proof.Machine
end

