-- ==== Sys2Proof/Laws/Generic.lean ====
section
/-! SUPPORT. The block that `exec`, `step` and `State.reset` describe is the one of configuration `hw`. -/

namespace Sys2Proof.Machine

theorem exec_eq_execOf (i : Instr) (s : State) : exec i s = execOf hw i s := by
  cases i <;> rfl

theorem step_eq_stepOf (s : State) : step s = stepOf hw s := by
  unfold step stepOf
  rw [show exec = execOf hw from funext fun i => funext fun s => exec_eq_execOf i s]

theorem resetVoice_hw : resetVoice hw = Voice.reset := rfl

/-- The derived cells of the reset cells at `fs = +0.0` are the constants that 10_state.md R41 prints. -/
theorem resetDerived_hw : resetDerived hw = Derived.reset := by decide +kernel

theorem State.resetOf_hw : State.resetOf hw = State.reset := by
  unfold State.resetOf
  rw [resetDerived_hw]
  rfl

theorem rst_hw (s : State) : rst hw s = { State.reset with buf := s.buf, events := s.events } := by
  unfold rst
  rw [State.resetOf_hw]

/-- A kernel's step on the words of a state is its step on the state. -/
theorem stepWords_toWords (k : FiltKernel) (h : k.St) (x fc res fsr : Num32) :
    k.stepWords (k.toWords h) x fc res fsr = (k.toWords (k.step h x fc res fsr).1, (k.step h x fc res fsr).2) := by
  unfold FiltKernel.stepWords
  rw [k.ofWords_toWords]

/-- Construction gives the reset record of the configuration, whatever the record held. -/
theorem Voice.construct_eq_resetVoice (c : Params) (v : Voice) : v.construct c = resetVoice c := rfl

end Sys2Proof.Machine
end

