-- ==== Sys2Proof/Laws/State.lean ====
section
/-! SUPPORT. What each update of the state leaves and changes: one lemma per field for the updates that every meaning
uses, and for the larger ones one frame lemma, which says at once that nothing but the named fields can change
(a field of the left side is that field of the right side by `congrArg`). -/

namespace Sys2Proof.Machine

/-! `endCommand` changes `busy`, `cursor`. -/

@[simp] theorem endCommand_mode (s : State) : (endCommand s).mode = s.mode := rfl
@[simp] theorem endCommand_fs (s : State) : (endCommand s).fs = s.fs := rfl
@[simp] theorem endCommand_maxBlock (s : State) : (endCommand s).maxBlock = s.maxBlock := rfl
@[simp] theorem endCommand_nch (s : State) : (endCommand s).nch = s.nch := rfl
@[simp] theorem endCommand_nvoices (s : State) : (endCommand s).nvoices = s.nvoices := rfl
@[simp] theorem endCommand_pbusy (s : State) : (endCommand s).pbusy = s.pbusy := rfl
@[simp] theorem endCommand_err (s : State) : (endCommand s).err = s.err := rfl
@[simp] theorem endCommand_errinfo (s : State) : (endCommand s).errinfo = s.errinfo := rfl
@[simp] theorem endCommand_errport (s : State) : (endCommand s).errport = s.errport := rfl
@[simp] theorem endCommand_gcnt (s : State) : (endCommand s).gcnt = s.gcnt := rfl
@[simp] theorem endCommand_noteSeq (s : State) : (endCommand s).noteSeq = s.noteSeq := rfl
@[simp] theorem endCommand_par (s : State) : (endCommand s).par = s.par := rfl
@[simp] theorem endCommand_der1 (s : State) : (endCommand s).der1 = s.der1 := rfl
@[simp] theorem endCommand_der2 (s : State) : (endCommand s).der2 = s.der2 := rfl
@[simp] theorem endCommand_fmIn (s : State) : (endCommand s).fmIn = s.fmIn := rfl
@[simp] theorem endCommand_modIn (s : State) : (endCommand s).modIn = s.modIn := rfl
@[simp] theorem endCommand_lfo (s : State) : (endCommand s).lfo = s.lfo := rfl
@[simp] theorem endCommand_lfoOut (s : State) : (endCommand s).lfoOut = s.lfoOut := rfl
@[simp] theorem endCommand_vr (s : State) : (endCommand s).vr = s.vr := rfl
@[simp] theorem endCommand_gr (s : State) : (endCommand s).gr = s.gr := rfl
@[simp] theorem endCommand_voices (s : State) : (endCommand s).voices = s.voices := rfl
@[simp] theorem endCommand_buf (s : State) : (endCommand s).buf = s.buf := rfl
@[simp] theorem endCommand_cIn (s : State) : (endCommand s).cIn = s.cIn := rfl
@[simp] theorem endCommand_pIn (s : State) : (endCommand s).pIn = s.pIn := rfl
@[simp] theorem endCommand_pPend (s : State) : (endCommand s).pPend = s.pPend := rfl
@[simp] theorem endCommand_events (s : State) : (endCommand s).events = s.events := rfl

@[simp] theorem endCommand_busy (s : State) : (endCommand s).busy = false := rfl
@[simp] theorem endCommand_cursor (s : State) : (endCommand s).cursor = none := rfl

/-! `State.modVoice` changes `voices`. -/

@[simp] theorem State.modVoice_mode (s : State) (v : Nat) (f : Voice → Voice) : (s.modVoice v f).mode = s.mode := rfl
@[simp] theorem State.modVoice_fs (s : State) (v : Nat) (f : Voice → Voice) : (s.modVoice v f).fs = s.fs := rfl
@[simp] theorem State.modVoice_maxBlock (s : State) (v : Nat) (f : Voice → Voice) : (s.modVoice v f).maxBlock = s.maxBlock := rfl
@[simp] theorem State.modVoice_nch (s : State) (v : Nat) (f : Voice → Voice) : (s.modVoice v f).nch = s.nch := rfl
@[simp] theorem State.modVoice_nvoices (s : State) (v : Nat) (f : Voice → Voice) : (s.modVoice v f).nvoices = s.nvoices := rfl
@[simp] theorem State.modVoice_busy (s : State) (v : Nat) (f : Voice → Voice) : (s.modVoice v f).busy = s.busy := rfl
@[simp] theorem State.modVoice_pbusy (s : State) (v : Nat) (f : Voice → Voice) : (s.modVoice v f).pbusy = s.pbusy := rfl
@[simp] theorem State.modVoice_err (s : State) (v : Nat) (f : Voice → Voice) : (s.modVoice v f).err = s.err := rfl
@[simp] theorem State.modVoice_errinfo (s : State) (v : Nat) (f : Voice → Voice) : (s.modVoice v f).errinfo = s.errinfo := rfl
@[simp] theorem State.modVoice_errport (s : State) (v : Nat) (f : Voice → Voice) : (s.modVoice v f).errport = s.errport := rfl
@[simp] theorem State.modVoice_cursor (s : State) (v : Nat) (f : Voice → Voice) : (s.modVoice v f).cursor = s.cursor := rfl
@[simp] theorem State.modVoice_gcnt (s : State) (v : Nat) (f : Voice → Voice) : (s.modVoice v f).gcnt = s.gcnt := rfl
@[simp] theorem State.modVoice_noteSeq (s : State) (v : Nat) (f : Voice → Voice) : (s.modVoice v f).noteSeq = s.noteSeq := rfl
@[simp] theorem State.modVoice_par (s : State) (v : Nat) (f : Voice → Voice) : (s.modVoice v f).par = s.par := rfl
@[simp] theorem State.modVoice_der1 (s : State) (v : Nat) (f : Voice → Voice) : (s.modVoice v f).der1 = s.der1 := rfl
@[simp] theorem State.modVoice_der2 (s : State) (v : Nat) (f : Voice → Voice) : (s.modVoice v f).der2 = s.der2 := rfl
@[simp] theorem State.modVoice_fmIn (s : State) (v : Nat) (f : Voice → Voice) : (s.modVoice v f).fmIn = s.fmIn := rfl
@[simp] theorem State.modVoice_modIn (s : State) (v : Nat) (f : Voice → Voice) : (s.modVoice v f).modIn = s.modIn := rfl
@[simp] theorem State.modVoice_lfo (s : State) (v : Nat) (f : Voice → Voice) : (s.modVoice v f).lfo = s.lfo := rfl
@[simp] theorem State.modVoice_lfoOut (s : State) (v : Nat) (f : Voice → Voice) : (s.modVoice v f).lfoOut = s.lfoOut := rfl
@[simp] theorem State.modVoice_vr (s : State) (v : Nat) (f : Voice → Voice) : (s.modVoice v f).vr = s.vr := rfl
@[simp] theorem State.modVoice_gr (s : State) (v : Nat) (f : Voice → Voice) : (s.modVoice v f).gr = s.gr := rfl
@[simp] theorem State.modVoice_buf (s : State) (v : Nat) (f : Voice → Voice) : (s.modVoice v f).buf = s.buf := rfl
@[simp] theorem State.modVoice_cIn (s : State) (v : Nat) (f : Voice → Voice) : (s.modVoice v f).cIn = s.cIn := rfl
@[simp] theorem State.modVoice_pIn (s : State) (v : Nat) (f : Voice → Voice) : (s.modVoice v f).pIn = s.pIn := rfl
@[simp] theorem State.modVoice_pPend (s : State) (v : Nat) (f : Voice → Voice) : (s.modVoice v f).pPend = s.pPend := rfl
@[simp] theorem State.modVoice_events (s : State) (v : Nat) (f : Voice → Voice) : (s.modVoice v f).events = s.events := rfl

@[simp] theorem State.modVoice_voices (s : State) (v : Nat) (f : Voice → Voice) :
    (s.modVoice v f).voices = s.voices.modify v f := rfl

/-! `setPending` changes `pPend`, `pbusy`. -/

@[simp] theorem setPending_mode (rest : List (EnvId × DerivedName)) (s : State) : (setPending rest s).mode = s.mode := rfl
@[simp] theorem setPending_fs (rest : List (EnvId × DerivedName)) (s : State) : (setPending rest s).fs = s.fs := rfl
@[simp] theorem setPending_maxBlock (rest : List (EnvId × DerivedName)) (s : State) : (setPending rest s).maxBlock = s.maxBlock := rfl
@[simp] theorem setPending_nch (rest : List (EnvId × DerivedName)) (s : State) : (setPending rest s).nch = s.nch := rfl
@[simp] theorem setPending_nvoices (rest : List (EnvId × DerivedName)) (s : State) : (setPending rest s).nvoices = s.nvoices := rfl
@[simp] theorem setPending_busy (rest : List (EnvId × DerivedName)) (s : State) : (setPending rest s).busy = s.busy := rfl
@[simp] theorem setPending_err (rest : List (EnvId × DerivedName)) (s : State) : (setPending rest s).err = s.err := rfl
@[simp] theorem setPending_errinfo (rest : List (EnvId × DerivedName)) (s : State) : (setPending rest s).errinfo = s.errinfo := rfl
@[simp] theorem setPending_errport (rest : List (EnvId × DerivedName)) (s : State) : (setPending rest s).errport = s.errport := rfl
@[simp] theorem setPending_cursor (rest : List (EnvId × DerivedName)) (s : State) : (setPending rest s).cursor = s.cursor := rfl
@[simp] theorem setPending_gcnt (rest : List (EnvId × DerivedName)) (s : State) : (setPending rest s).gcnt = s.gcnt := rfl
@[simp] theorem setPending_noteSeq (rest : List (EnvId × DerivedName)) (s : State) : (setPending rest s).noteSeq = s.noteSeq := rfl
@[simp] theorem setPending_par (rest : List (EnvId × DerivedName)) (s : State) : (setPending rest s).par = s.par := rfl
@[simp] theorem setPending_der1 (rest : List (EnvId × DerivedName)) (s : State) : (setPending rest s).der1 = s.der1 := rfl
@[simp] theorem setPending_der2 (rest : List (EnvId × DerivedName)) (s : State) : (setPending rest s).der2 = s.der2 := rfl
@[simp] theorem setPending_fmIn (rest : List (EnvId × DerivedName)) (s : State) : (setPending rest s).fmIn = s.fmIn := rfl
@[simp] theorem setPending_modIn (rest : List (EnvId × DerivedName)) (s : State) : (setPending rest s).modIn = s.modIn := rfl
@[simp] theorem setPending_lfo (rest : List (EnvId × DerivedName)) (s : State) : (setPending rest s).lfo = s.lfo := rfl
@[simp] theorem setPending_lfoOut (rest : List (EnvId × DerivedName)) (s : State) : (setPending rest s).lfoOut = s.lfoOut := rfl
@[simp] theorem setPending_vr (rest : List (EnvId × DerivedName)) (s : State) : (setPending rest s).vr = s.vr := rfl
@[simp] theorem setPending_gr (rest : List (EnvId × DerivedName)) (s : State) : (setPending rest s).gr = s.gr := rfl
@[simp] theorem setPending_voices (rest : List (EnvId × DerivedName)) (s : State) : (setPending rest s).voices = s.voices := rfl
@[simp] theorem setPending_buf (rest : List (EnvId × DerivedName)) (s : State) : (setPending rest s).buf = s.buf := rfl
@[simp] theorem setPending_cIn (rest : List (EnvId × DerivedName)) (s : State) : (setPending rest s).cIn = s.cIn := rfl
@[simp] theorem setPending_pIn (rest : List (EnvId × DerivedName)) (s : State) : (setPending rest s).pIn = s.pIn := rfl
@[simp] theorem setPending_events (rest : List (EnvId × DerivedName)) (s : State) : (setPending rest s).events = s.events := rfl

@[simp] theorem setPending_pPend (rest : List (EnvId × DerivedName)) (s : State) : (setPending rest s).pPend = rest := rfl
@[simp] theorem setPending_pbusy (rest : List (EnvId × DerivedName)) (s : State) :
    (setPending rest s).pbusy = !rest.isEmpty := rfl

/-! `State.setDer` changes `der1`, `der2`. -/

@[simp] theorem State.setDer_mode (s : State) (E : EnvId) (n : DerivedName) (v : Num32) : (s.setDer E n v).mode = s.mode := by cases E <;> rfl
@[simp] theorem State.setDer_fs (s : State) (E : EnvId) (n : DerivedName) (v : Num32) : (s.setDer E n v).fs = s.fs := by cases E <;> rfl
@[simp] theorem State.setDer_maxBlock (s : State) (E : EnvId) (n : DerivedName) (v : Num32) : (s.setDer E n v).maxBlock = s.maxBlock := by cases E <;> rfl
@[simp] theorem State.setDer_nch (s : State) (E : EnvId) (n : DerivedName) (v : Num32) : (s.setDer E n v).nch = s.nch := by cases E <;> rfl
@[simp] theorem State.setDer_nvoices (s : State) (E : EnvId) (n : DerivedName) (v : Num32) : (s.setDer E n v).nvoices = s.nvoices := by cases E <;> rfl
@[simp] theorem State.setDer_busy (s : State) (E : EnvId) (n : DerivedName) (v : Num32) : (s.setDer E n v).busy = s.busy := by cases E <;> rfl
@[simp] theorem State.setDer_pbusy (s : State) (E : EnvId) (n : DerivedName) (v : Num32) : (s.setDer E n v).pbusy = s.pbusy := by cases E <;> rfl
@[simp] theorem State.setDer_err (s : State) (E : EnvId) (n : DerivedName) (v : Num32) : (s.setDer E n v).err = s.err := by cases E <;> rfl
@[simp] theorem State.setDer_errinfo (s : State) (E : EnvId) (n : DerivedName) (v : Num32) : (s.setDer E n v).errinfo = s.errinfo := by cases E <;> rfl
@[simp] theorem State.setDer_errport (s : State) (E : EnvId) (n : DerivedName) (v : Num32) : (s.setDer E n v).errport = s.errport := by cases E <;> rfl
@[simp] theorem State.setDer_cursor (s : State) (E : EnvId) (n : DerivedName) (v : Num32) : (s.setDer E n v).cursor = s.cursor := by cases E <;> rfl
@[simp] theorem State.setDer_gcnt (s : State) (E : EnvId) (n : DerivedName) (v : Num32) : (s.setDer E n v).gcnt = s.gcnt := by cases E <;> rfl
@[simp] theorem State.setDer_noteSeq (s : State) (E : EnvId) (n : DerivedName) (v : Num32) : (s.setDer E n v).noteSeq = s.noteSeq := by cases E <;> rfl
@[simp] theorem State.setDer_par (s : State) (E : EnvId) (n : DerivedName) (v : Num32) : (s.setDer E n v).par = s.par := by cases E <;> rfl
@[simp] theorem State.setDer_fmIn (s : State) (E : EnvId) (n : DerivedName) (v : Num32) : (s.setDer E n v).fmIn = s.fmIn := by cases E <;> rfl
@[simp] theorem State.setDer_modIn (s : State) (E : EnvId) (n : DerivedName) (v : Num32) : (s.setDer E n v).modIn = s.modIn := by cases E <;> rfl
@[simp] theorem State.setDer_lfo (s : State) (E : EnvId) (n : DerivedName) (v : Num32) : (s.setDer E n v).lfo = s.lfo := by cases E <;> rfl
@[simp] theorem State.setDer_lfoOut (s : State) (E : EnvId) (n : DerivedName) (v : Num32) : (s.setDer E n v).lfoOut = s.lfoOut := by cases E <;> rfl
@[simp] theorem State.setDer_vr (s : State) (E : EnvId) (n : DerivedName) (v : Num32) : (s.setDer E n v).vr = s.vr := by cases E <;> rfl
@[simp] theorem State.setDer_gr (s : State) (E : EnvId) (n : DerivedName) (v : Num32) : (s.setDer E n v).gr = s.gr := by cases E <;> rfl
@[simp] theorem State.setDer_voices (s : State) (E : EnvId) (n : DerivedName) (v : Num32) : (s.setDer E n v).voices = s.voices := by cases E <;> rfl
@[simp] theorem State.setDer_buf (s : State) (E : EnvId) (n : DerivedName) (v : Num32) : (s.setDer E n v).buf = s.buf := by cases E <;> rfl
@[simp] theorem State.setDer_cIn (s : State) (E : EnvId) (n : DerivedName) (v : Num32) : (s.setDer E n v).cIn = s.cIn := by cases E <;> rfl
@[simp] theorem State.setDer_pIn (s : State) (E : EnvId) (n : DerivedName) (v : Num32) : (s.setDer E n v).pIn = s.pIn := by cases E <;> rfl
@[simp] theorem State.setDer_pPend (s : State) (E : EnvId) (n : DerivedName) (v : Num32) : (s.setDer E n v).pPend = s.pPend := by cases E <;> rfl
@[simp] theorem State.setDer_events (s : State) (E : EnvId) (n : DerivedName) (v : Num32) : (s.setDer E n v).events = s.events := by cases E <;> rfl

/-! `memWrite` changes `buf`. -/

@[simp] theorem memWrite_mode (c : Params) (a : Nat) (w : Word) (s : State) : (memWrite c a w s).mode = s.mode := by unfold memWrite; split <;> rfl
@[simp] theorem memWrite_fs (c : Params) (a : Nat) (w : Word) (s : State) : (memWrite c a w s).fs = s.fs := by unfold memWrite; split <;> rfl
@[simp] theorem memWrite_maxBlock (c : Params) (a : Nat) (w : Word) (s : State) : (memWrite c a w s).maxBlock = s.maxBlock := by unfold memWrite; split <;> rfl
@[simp] theorem memWrite_nch (c : Params) (a : Nat) (w : Word) (s : State) : (memWrite c a w s).nch = s.nch := by unfold memWrite; split <;> rfl
@[simp] theorem memWrite_nvoices (c : Params) (a : Nat) (w : Word) (s : State) : (memWrite c a w s).nvoices = s.nvoices := by unfold memWrite; split <;> rfl
@[simp] theorem memWrite_busy (c : Params) (a : Nat) (w : Word) (s : State) : (memWrite c a w s).busy = s.busy := by unfold memWrite; split <;> rfl
@[simp] theorem memWrite_pbusy (c : Params) (a : Nat) (w : Word) (s : State) : (memWrite c a w s).pbusy = s.pbusy := by unfold memWrite; split <;> rfl
@[simp] theorem memWrite_err (c : Params) (a : Nat) (w : Word) (s : State) : (memWrite c a w s).err = s.err := by unfold memWrite; split <;> rfl
@[simp] theorem memWrite_errinfo (c : Params) (a : Nat) (w : Word) (s : State) : (memWrite c a w s).errinfo = s.errinfo := by unfold memWrite; split <;> rfl
@[simp] theorem memWrite_errport (c : Params) (a : Nat) (w : Word) (s : State) : (memWrite c a w s).errport = s.errport := by unfold memWrite; split <;> rfl
@[simp] theorem memWrite_cursor (c : Params) (a : Nat) (w : Word) (s : State) : (memWrite c a w s).cursor = s.cursor := by unfold memWrite; split <;> rfl
@[simp] theorem memWrite_gcnt (c : Params) (a : Nat) (w : Word) (s : State) : (memWrite c a w s).gcnt = s.gcnt := by unfold memWrite; split <;> rfl
@[simp] theorem memWrite_noteSeq (c : Params) (a : Nat) (w : Word) (s : State) : (memWrite c a w s).noteSeq = s.noteSeq := by unfold memWrite; split <;> rfl
@[simp] theorem memWrite_par (c : Params) (a : Nat) (w : Word) (s : State) : (memWrite c a w s).par = s.par := by unfold memWrite; split <;> rfl
@[simp] theorem memWrite_der1 (c : Params) (a : Nat) (w : Word) (s : State) : (memWrite c a w s).der1 = s.der1 := by unfold memWrite; split <;> rfl
@[simp] theorem memWrite_der2 (c : Params) (a : Nat) (w : Word) (s : State) : (memWrite c a w s).der2 = s.der2 := by unfold memWrite; split <;> rfl
@[simp] theorem memWrite_fmIn (c : Params) (a : Nat) (w : Word) (s : State) : (memWrite c a w s).fmIn = s.fmIn := by unfold memWrite; split <;> rfl
@[simp] theorem memWrite_modIn (c : Params) (a : Nat) (w : Word) (s : State) : (memWrite c a w s).modIn = s.modIn := by unfold memWrite; split <;> rfl
@[simp] theorem memWrite_lfo (c : Params) (a : Nat) (w : Word) (s : State) : (memWrite c a w s).lfo = s.lfo := by unfold memWrite; split <;> rfl
@[simp] theorem memWrite_lfoOut (c : Params) (a : Nat) (w : Word) (s : State) : (memWrite c a w s).lfoOut = s.lfoOut := by unfold memWrite; split <;> rfl
@[simp] theorem memWrite_vr (c : Params) (a : Nat) (w : Word) (s : State) : (memWrite c a w s).vr = s.vr := by unfold memWrite; split <;> rfl
@[simp] theorem memWrite_gr (c : Params) (a : Nat) (w : Word) (s : State) : (memWrite c a w s).gr = s.gr := by unfold memWrite; split <;> rfl
@[simp] theorem memWrite_voices (c : Params) (a : Nat) (w : Word) (s : State) : (memWrite c a w s).voices = s.voices := by unfold memWrite; split <;> rfl
@[simp] theorem memWrite_cIn (c : Params) (a : Nat) (w : Word) (s : State) : (memWrite c a w s).cIn = s.cIn := by unfold memWrite; split <;> rfl
@[simp] theorem memWrite_pIn (c : Params) (a : Nat) (w : Word) (s : State) : (memWrite c a w s).pIn = s.pIn := by unfold memWrite; split <;> rfl
@[simp] theorem memWrite_pPend (c : Params) (a : Nat) (w : Word) (s : State) : (memWrite c a w s).pPend = s.pPend := by unfold memWrite; split <;> rfl
@[simp] theorem memWrite_events (c : Params) (a : Nat) (w : Word) (s : State) : (memWrite c a w s).events = s.events := by unfold memWrite; split <;> rfl

theorem memWrite_buf (c : Params) (a : Nat) (w : Word) (s : State) :
    (memWrite c a w s).buf = if a < bufferWords c then Memory.write s.buf a w else s.buf := by
  unfold memWrite; split <;> rfl

/-! `raise` changes `busy`, `pbusy`, `err`, `errinfo`, `errport`, `cursor`. -/

@[simp] theorem raise_mode (e : Error) (H : Word) (port : Port) (s : State) : (raise e H port s).mode = s.mode := by unfold raise; cases port <;> (dsimp only; split <;> rfl)
@[simp] theorem raise_fs (e : Error) (H : Word) (port : Port) (s : State) : (raise e H port s).fs = s.fs := by unfold raise; cases port <;> (dsimp only; split <;> rfl)
@[simp] theorem raise_maxBlock (e : Error) (H : Word) (port : Port) (s : State) : (raise e H port s).maxBlock = s.maxBlock := by unfold raise; cases port <;> (dsimp only; split <;> rfl)
@[simp] theorem raise_nch (e : Error) (H : Word) (port : Port) (s : State) : (raise e H port s).nch = s.nch := by unfold raise; cases port <;> (dsimp only; split <;> rfl)
@[simp] theorem raise_nvoices (e : Error) (H : Word) (port : Port) (s : State) : (raise e H port s).nvoices = s.nvoices := by unfold raise; cases port <;> (dsimp only; split <;> rfl)
@[simp] theorem raise_gcnt (e : Error) (H : Word) (port : Port) (s : State) : (raise e H port s).gcnt = s.gcnt := by unfold raise; cases port <;> (dsimp only; split <;> rfl)
@[simp] theorem raise_noteSeq (e : Error) (H : Word) (port : Port) (s : State) : (raise e H port s).noteSeq = s.noteSeq := by unfold raise; cases port <;> (dsimp only; split <;> rfl)
@[simp] theorem raise_par (e : Error) (H : Word) (port : Port) (s : State) : (raise e H port s).par = s.par := by unfold raise; cases port <;> (dsimp only; split <;> rfl)
@[simp] theorem raise_der1 (e : Error) (H : Word) (port : Port) (s : State) : (raise e H port s).der1 = s.der1 := by unfold raise; cases port <;> (dsimp only; split <;> rfl)
@[simp] theorem raise_der2 (e : Error) (H : Word) (port : Port) (s : State) : (raise e H port s).der2 = s.der2 := by unfold raise; cases port <;> (dsimp only; split <;> rfl)
@[simp] theorem raise_fmIn (e : Error) (H : Word) (port : Port) (s : State) : (raise e H port s).fmIn = s.fmIn := by unfold raise; cases port <;> (dsimp only; split <;> rfl)
@[simp] theorem raise_modIn (e : Error) (H : Word) (port : Port) (s : State) : (raise e H port s).modIn = s.modIn := by unfold raise; cases port <;> (dsimp only; split <;> rfl)
@[simp] theorem raise_lfo (e : Error) (H : Word) (port : Port) (s : State) : (raise e H port s).lfo = s.lfo := by unfold raise; cases port <;> (dsimp only; split <;> rfl)
@[simp] theorem raise_lfoOut (e : Error) (H : Word) (port : Port) (s : State) : (raise e H port s).lfoOut = s.lfoOut := by unfold raise; cases port <;> (dsimp only; split <;> rfl)
@[simp] theorem raise_vr (e : Error) (H : Word) (port : Port) (s : State) : (raise e H port s).vr = s.vr := by unfold raise; cases port <;> (dsimp only; split <;> rfl)
@[simp] theorem raise_gr (e : Error) (H : Word) (port : Port) (s : State) : (raise e H port s).gr = s.gr := by unfold raise; cases port <;> (dsimp only; split <;> rfl)
@[simp] theorem raise_voices (e : Error) (H : Word) (port : Port) (s : State) : (raise e H port s).voices = s.voices := by unfold raise; cases port <;> (dsimp only; split <;> rfl)
@[simp] theorem raise_buf (e : Error) (H : Word) (port : Port) (s : State) : (raise e H port s).buf = s.buf := by unfold raise; cases port <;> (dsimp only; split <;> rfl)
@[simp] theorem raise_cIn (e : Error) (H : Word) (port : Port) (s : State) : (raise e H port s).cIn = s.cIn := by unfold raise; cases port <;> (dsimp only; split <;> rfl)
@[simp] theorem raise_pIn (e : Error) (H : Word) (port : Port) (s : State) : (raise e H port s).pIn = s.pIn := by unfold raise; cases port <;> (dsimp only; split <;> rfl)
@[simp] theorem raise_pPend (e : Error) (H : Word) (port : Port) (s : State) : (raise e H port s).pPend = s.pPend := by unfold raise; cases port <;> (dsimp only; split <;> rfl)
@[simp] theorem raise_events (e : Error) (H : Word) (port : Port) (s : State) : (raise e H port s).events = s.events := by unfold raise; cases port <;> (dsimp only; split <;> rfl)

@[simp] theorem raise_err (e : Error) (H : Word) (port : Port) (s : State) :
    (raise e H port s).err = s.err ||| e.flag := by
  unfold raise; cases port <;> (dsimp only; split <;> rfl)
@[simp] theorem raise_errinfo (e : Error) (H : Word) (port : Port) (s : State) :
    (raise e H port s).errinfo = if s.err = 0 then H else s.errinfo := by
  unfold raise; cases port <;> (dsimp only; split <;> rfl)
@[simp] theorem raise_errport (e : Error) (H : Word) (port : Port) (s : State) :
    (raise e H port s).errport = if s.err = 0 then port else s.errport := by
  unfold raise; cases port <;> (dsimp only; split <;> rfl)
@[simp] theorem raise_c_busy (e : Error) (H : Word) (s : State) : (raise e H .c s).busy = false := rfl
@[simp] theorem raise_c_cursor (e : Error) (H : Word) (s : State) : (raise e H .c s).cursor = none := rfl
@[simp] theorem raise_c_pbusy (e : Error) (H : Word) (s : State) : (raise e H .c s).pbusy = s.pbusy := by
  unfold raise; dsimp only; split <;> rfl
@[simp] theorem raise_p_busy (e : Error) (H : Word) (s : State) : (raise e H .p s).busy = s.busy := by
  unfold raise; dsimp only; split <;> rfl
@[simp] theorem raise_p_cursor (e : Error) (H : Word) (s : State) : (raise e H .p s).cursor = s.cursor := by
  unfold raise; dsimp only; split <;> rfl
@[simp] theorem raise_p_pbusy (e : Error) (H : Word) (s : State) : (raise e H .p s).pbusy = false := rfl

/-! `rst` keeps `buf` and `events`. -/

@[simp] theorem rst_buf (c : Params) (s : State) : (rst c s).buf = s.buf := rfl
@[simp] theorem rst_events (c : Params) (s : State) : (rst c s).events = s.events := rfl
@[simp] theorem rst_mode (c : Params) (s : State) : (rst c s).mode = State.reset.mode := rfl
@[simp] theorem rst_fs (c : Params) (s : State) : (rst c s).fs = State.reset.fs := rfl
@[simp] theorem rst_maxBlock (c : Params) (s : State) : (rst c s).maxBlock = State.reset.maxBlock := rfl
@[simp] theorem rst_nch (c : Params) (s : State) : (rst c s).nch = State.reset.nch := rfl
@[simp] theorem rst_nvoices (c : Params) (s : State) : (rst c s).nvoices = State.reset.nvoices := rfl
@[simp] theorem rst_busy (c : Params) (s : State) : (rst c s).busy = State.reset.busy := rfl
@[simp] theorem rst_pbusy (c : Params) (s : State) : (rst c s).pbusy = State.reset.pbusy := rfl
@[simp] theorem rst_err (c : Params) (s : State) : (rst c s).err = State.reset.err := rfl
@[simp] theorem rst_errinfo (c : Params) (s : State) : (rst c s).errinfo = State.reset.errinfo := rfl
@[simp] theorem rst_errport (c : Params) (s : State) : (rst c s).errport = State.reset.errport := rfl
@[simp] theorem rst_cursor (c : Params) (s : State) : (rst c s).cursor = State.reset.cursor := rfl
@[simp] theorem rst_gcnt (c : Params) (s : State) : (rst c s).gcnt = State.reset.gcnt := rfl
@[simp] theorem rst_noteSeq (c : Params) (s : State) : (rst c s).noteSeq = State.reset.noteSeq := rfl
@[simp] theorem rst_par (c : Params) (s : State) : (rst c s).par = State.reset.par := rfl
@[simp] theorem rst_der1 (c : Params) (s : State) : (rst c s).der1 = (State.resetOf c).der1 := rfl
@[simp] theorem rst_der2 (c : Params) (s : State) : (rst c s).der2 = (State.resetOf c).der2 := rfl
@[simp] theorem rst_fmIn (c : Params) (s : State) : (rst c s).fmIn = State.reset.fmIn := rfl
@[simp] theorem rst_modIn (c : Params) (s : State) : (rst c s).modIn = State.reset.modIn := rfl
@[simp] theorem rst_lfo (c : Params) (s : State) : (rst c s).lfo = State.reset.lfo := rfl
@[simp] theorem rst_lfoOut (c : Params) (s : State) : (rst c s).lfoOut = State.reset.lfoOut := rfl
@[simp] theorem rst_vr (c : Params) (s : State) : (rst c s).vr = (State.resetOf c).vr := rfl
@[simp] theorem rst_gr (c : Params) (s : State) : (rst c s).gr = (State.resetOf c).gr := rfl
@[simp] theorem rst_voices (c : Params) (s : State) : (rst c s).voices = (State.resetOf c).voices := rfl
@[simp] theorem rst_cIn (c : Params) (s : State) : (rst c s).cIn = State.reset.cIn := rfl
@[simp] theorem rst_pIn (c : Params) (s : State) : (rst c s).pIn = State.reset.pIn := rfl
@[simp] theorem rst_pPend (c : Params) (s : State) : (rst c s).pPend = State.reset.pPend := rfl
/-! Frames. -/

/-- Folding steps that each change only what `R` allows changes only what `R` allows. -/
theorem foldl_only {α : Type} (R : State → State → Prop) (refl : ∀ s, R s s)
    (trans : ∀ a b d, R a b → R b d → R a d) (g : State → α → State) (hg : ∀ s x, R s (g s x)) :
    ∀ (l : List α) (s : State), R s (l.foldl g s)
  | [], s => refl s
  | x :: l, s => trans _ _ _ (hg s x) (foldl_only R refl trans g hg l (g s x))

theorem deriveCell_only (c : Params) (E : EnvId) (n : DerivedName) (s : State) :
    ∃ a b, deriveCell c E n s = { s with der1 := a, der2 := b } := by
  unfold deriveCell
  generalize derivedValue c s.fs (s.par.env E) n = v
  cases E
  · exact ⟨_, s.der2, rfl⟩
  · exact ⟨s.der1, _, rfl⟩

theorem deriveAll_only (c : Params) (E : EnvId) (s : State) :
    ∃ a b, deriveAll c E s = { s with der1 := a, der2 := b } :=
  foldl_only (fun s t => ∃ a b, t = { s with der1 := a, der2 := b }) (fun s => ⟨s.der1, s.der2, rfl⟩)
    (fun _ _ _ ⟨_, _, h1⟩ ⟨x, y, h2⟩ => ⟨x, y, by rw [h2, h1]⟩) _ (fun s n => deriveCell_only c E n s) derivedOrder s

theorem deriveAll_frame (c : Params) (E : EnvId) (s : State) :
    deriveAll c E s = { s with der1 := (deriveAll c E s).der1, der2 := (deriveAll c E s).der2 } := by
  obtain ⟨a, b, h⟩ := deriveAll_only c E s
  rw [h]

theorem writeNext_only (c : Params) (s : State) :
    ∃ a b p q, writeNext c s = { s with der1 := a, der2 := b, pPend := p, pbusy := q } := by
  unfold writeNext
  split
  · exact ⟨s.der1, s.der2, s.pPend, s.pbusy, rfl⟩
  · rename_i E n rest _
    obtain ⟨a, b, h⟩ := deriveCell_only c E n s
    exact ⟨a, b, rest, !rest.isEmpty, by rw [h]; rfl⟩

theorem writeNext_frame (c : Params) (s : State) :
    writeNext c s = { s with
      der1 := (writeNext c s).der1, der2 := (writeNext c s).der2,
      pPend := (writeNext c s).pPend, pbusy := (writeNext c s).pbusy } := by
  obtain ⟨a, b, p, q, h⟩ := writeNext_only c s
  rw [h]

theorem writeRest_only (c : Params) (k : Nat) (s : State) :
    ∃ a b p q, writeRest c k s = { s with der1 := a, der2 := b, pPend := p, pbusy := q } := by
  induction k generalizing s with
  | zero => exact ⟨s.der1, s.der2, s.pPend, s.pbusy, rfl⟩
  | succ k ih =>
    obtain ⟨a, b, p, q, h⟩ := ih (writeNext c s)
    obtain ⟨_, _, _, _, h1⟩ := writeNext_only c s
    exact ⟨a, b, p, q, by unfold writeRest; rw [h, h1]⟩

theorem drainWith_only (c : Params) (es : List Event) (s : State) :
    ∃ a b p q es', drainWith c es s = { s with der1 := a, der2 := b, pPend := p, pbusy := q, events := es' } ∧
      es' <:+ es := by
  induction es generalizing s with
  | nil =>
    obtain ⟨a, b, p, q, h⟩ := writeRest_only c s.pPend.length { s with events := [] }
    exact ⟨a, b, p, q, [], by unfold drainWith; rw [h], List.nil_suffix⟩
  | cons e es ih =>
    unfold drainWith
    split
    · exact ⟨s.der1, s.der2, s.pPend, s.pbusy, e :: es, rfl, List.suffix_refl _⟩
    · cases e with
      | writer =>
        obtain ⟨a, b, p, q, es', h, he⟩ := ih (writeNext c s)
        obtain ⟨_, _, _, _, h1⟩ := writeNext_only c s
        exact ⟨a, b, p, q, es', by dsimp only; rw [h, h1], he.trans (List.suffix_cons _ _)⟩
      | engine => exact ⟨s.der1, s.der2, s.pPend, s.pbusy, _, rfl, List.suffix_refl _⟩
      | rst => exact ⟨s.der1, s.der2, s.pPend, s.pbusy, _, rfl, List.suffix_refl _⟩
      | hostWrite a w => exact ⟨s.der1, s.der2, s.pPend, s.pbusy, _, rfl, List.suffix_refl _⟩

/-- Everything a SETPARAM can do: the raw cell is written, derived cells, the writer's status and the moves taken. -/
theorem setParam_frame (c : Params) (id : ParamId) (v : Word) (s : State) :
    setParam c id v s = { s with
      par := s.par.set id v,
      der1 := (setParam c id v s).der1, der2 := (setParam c id v s).der2,
      pPend := (setParam c id v s).pPend, pbusy := (setParam c id v s).pbusy,
      events := (setParam c id v s).events } := by
  obtain ⟨a, b, p, q, es', h, _⟩ := drainWith_only c s.events (setParamStart id v s)
  have h' : setParam c id v s = _ := h
  rw [h']
  rfl

theorem raise_p_frame (e : Error) (H : Word) (s : State) :
    raise e H .p s = { s with
      err := s.err ||| e.flag, errinfo := (raise e H .p s).errinfo, errport := (raise e H .p s).errport,
      pbusy := false } := by
  unfold raise; dsimp only; split <;> rfl

/-- Everything a writer step can do. -/
theorem writerStep_cases (c : Params) (s : State) :
    writerStep c s = writeNext c s ∨ writerStep c s = s ∨
    (s.pPend = [] ∧ ∃ rest, rest <:+ s.pIn ∧
      ((∃ H e, writerStep c s = raise e H .p { s with pIn := rest }) ∨
       (∃ id v, writerStep c s = setParamStart id v { s with pIn := rest }) ∨
       writerStep c s = { s with pIn := rest })) := by
  have hrest : ∀ H ws, s.pIn = H :: ws → ws <:+ s.pIn ∧ ∀ k, ws.drop k <:+ s.pIn := fun H ws h => by
    have h1 : ws <:+ s.pIn := by rw [h]; exact List.suffix_cons _ _
    exact ⟨h1, fun k => (List.drop_suffix k ws).trans h1⟩
  have key : ∀ d, decode .p s.pIn = d → (d = .wait ∨ ∃ rest, rest <:+ s.pIn ∧
      ((∃ w H, d = .illegal w H rest) ∨ (∃ H, d = .noCell H rest) ∨ ∃ i, d = .command i rest)) := by
    intro d hd
    cases hp : s.pIn with
    | nil => rw [hp] at hd; exact .inl hd.symm
    | cons H ws =>
      rw [hp] at hd
      have hr := hrest H ws hp
      rw [hp] at hr
      unfold decode at hd
      dsimp only at hd
      split at hd
      · exact .inr ⟨ws, hr.1, .inl ⟨_, _, hd.symm⟩⟩
      · split at hd
        · exact .inl hd.symm
        · rename_i f _ _
          unfold decodeFormat at hd
          split at hd
          · exact .inr ⟨_, hr.2 f.payload, .inl ⟨_, _, hd.symm⟩⟩
          · split at hd
            · exact .inr ⟨_, hr.2 f.payload, .inl ⟨_, _, hd.symm⟩⟩
            · split at hd
              · exact .inr ⟨_, hr.2 f.payload, .inr (.inr ⟨_, hd.symm⟩)⟩
              · exact .inr ⟨_, hr.2 f.payload, .inr (.inl ⟨_, hd.symm⟩)⟩
  unfold writerStep
  split
  · exact .inl rfl
  · rename_i hpend
    obtain h | ⟨rest, hr, ⟨w, H, h⟩ | ⟨H, h⟩ | ⟨i, h⟩⟩ := key _ rfl
    · rw [h]; exact .inr (.inl rfl)
    · rw [h]; exact .inr (.inr ⟨hpend, rest, hr, .inl ⟨_, _, rfl⟩⟩)
    · rw [h]; exact .inr (.inr ⟨hpend, rest, hr, .inl ⟨_, _, rfl⟩⟩)
    · rw [h]
      dsimp only
      split
      · exact .inr (.inr ⟨hpend, rest, hr, .inr (.inl ⟨_, _, rfl⟩)⟩)
      · exact .inr (.inr ⟨hpend, rest, hr, .inr (.inr rfl)⟩)

theorem writerStep_only (c : Params) (s : State) :
    ∃ p a b q r i e f g, writerStep c s = { s with
      par := p, der1 := a, der2 := b, pPend := q, pbusy := r, pIn := i, err := e, errinfo := f, errport := g } := by
  obtain h | h | ⟨_, rest, _, ⟨H, e, h⟩ | ⟨id, v, h⟩ | h⟩ := writerStep_cases c s
  · obtain ⟨a, b, q, r, h1⟩ := writeNext_only c s
    exact ⟨s.par, a, b, q, r, s.pIn, s.err, s.errinfo, s.errport, by rw [h, h1]⟩
  · exact ⟨s.par, s.der1, s.der2, s.pPend, s.pbusy, s.pIn, s.err, s.errinfo, s.errport, h⟩
  · exact ⟨s.par, s.der1, s.der2, s.pPend, false, rest, _, _, _, by rw [h, raise_p_frame]⟩
  · exact ⟨_, s.der1, s.der2, _, _, rest, s.err, s.errinfo, s.errport, h⟩
  · exact ⟨s.par, s.der1, s.der2, s.pPend, s.pbusy, rest, s.err, s.errinfo, s.errport, h⟩

theorem writerStep_frame (c : Params) (s : State) :
    writerStep c s = { s with
      par := (writerStep c s).par, der1 := (writerStep c s).der1, der2 := (writerStep c s).der2,
      pPend := (writerStep c s).pPend, pbusy := (writerStep c s).pbusy, pIn := (writerStep c s).pIn,
      err := (writerStep c s).err, errinfo := (writerStep c s).errinfo, errport := (writerStep c s).errport } := by
  obtain ⟨p, a, b, q, r, i, e, f, g, h⟩ := writerStep_only c s
  rw [h]

/-- The moves at one boundary: writer steps, or these and then `rst`. -/
theorem interleaveWith_cases (c : Params) (es : List Event) (s : State) :
    (∃ p a b q r i e f g es', interleaveWith c es s = { s with
        par := p, der1 := a, der2 := b, pPend := q, pbusy := r, pIn := i, err := e, errinfo := f, errport := g,
        events := es' } ∧ es' <:+ es) ∨
    (Event.rst ∈ es ∧ ∃ s1, interleaveWith c es s = rst c s1 ∧ s1.buf = s.buf ∧ s1.events <:+ es) := by
  induction es generalizing s with
  | nil =>
    exact .inl ⟨s.par, s.der1, s.der2, s.pPend, s.pbusy, s.pIn, s.err, s.errinfo, s.errport, [], rfl, List.nil_suffix⟩
  | cons e es ih =>
    cases e with
    | engine =>
      exact .inl ⟨s.par, s.der1, s.der2, s.pPend, s.pbusy, s.pIn, s.err, s.errinfo, s.errport, es, rfl,
        List.suffix_cons _ _⟩
    | hostWrite a w =>
      exact .inl ⟨s.par, s.der1, s.der2, s.pPend, s.pbusy, s.pIn, s.err, s.errinfo, s.errport, _, rfl,
        List.suffix_refl _⟩
    | rst => exact .inr ⟨List.mem_cons_self, { s with events := es }, rfl, rfl, List.suffix_cons _ _⟩
    | writer =>
      obtain ⟨_, _, _, _, _, _, _, _, _, h1⟩ := writerStep_only c s
      obtain ⟨p, a, b, q, r, i, e, f, g, es', h, he⟩ | ⟨hm, s1, h, hb, he⟩ := ih (writerStep c s)
      · exact .inl ⟨p, a, b, q, r, i, e, f, g, es', by unfold interleaveWith; rw [h, h1],
          he.trans (List.suffix_cons _ _)⟩
      · exact .inr ⟨List.mem_cons_of_mem _ hm, s1, h, by rw [hb, h1], he.trans (List.suffix_cons _ _)⟩

/-- The moves at one boundary when, after moves of the engine and the writer, `rst` or a host's write stands: the boundary's
moves end before it, or `rst` is taken and the command abandoned. A host's write is never passed. -/
theorem interleaveWith_until (c : Params) (x : Event) (hx : x ≠ .engine ∧ x ≠ .writer) (pre es : List Event)
    (hpre : ∀ e ∈ pre, e = .engine ∨ e = .writer) (s : State) :
    (∃ p a b q r i e f g rest, rest <:+ pre ∧ interleaveWith c (pre ++ x :: es) s = { s with
        par := p, der1 := a, der2 := b, pPend := q, pbusy := r, pIn := i, err := e, errinfo := f, errport := g,
        events := rest ++ x :: es }) ∨
    (x = .rst ∧ ∃ s1, interleaveWith c (pre ++ x :: es) s = rst c s1 ∧ s1.buf = s.buf ∧ s1.events = es) := by
  induction pre generalizing s with
  | nil =>
    cases x with
    | engine => exact absurd rfl hx.1
    | writer => exact absurd rfl hx.2
    | rst => exact .inr ⟨rfl, _, rfl, rfl, rfl⟩
    | hostWrite a w =>
      exact .inl ⟨s.par, s.der1, s.der2, s.pPend, s.pbusy, s.pIn, s.err, s.errinfo, s.errport, [], List.suffix_refl _, rfl⟩
  | cons e pre ih =>
    obtain rfl | rfl := hpre e List.mem_cons_self
    · exact .inl ⟨s.par, s.der1, s.der2, s.pPend, s.pbusy, s.pIn, s.err, s.errinfo, s.errport, pre, List.suffix_cons _ _, rfl⟩
    · obtain ⟨_, _, _, _, _, _, _, _, _, h1⟩ := writerStep_only c s
      obtain ⟨p, a, b, q, r, i, e, f, g, rest, hs, h⟩ | ⟨hm, s1, h, hb, he⟩ :=
        ih (fun e he => hpre e (List.mem_cons_of_mem _ he)) (writerStep c s)
      · exact .inl ⟨p, a, b, q, r, i, e, f, g, rest, hs.trans (List.suffix_cons _ _),
          by rw [List.cons_append, interleaveWith, h, h1]⟩
      · exact .inr ⟨hm, s1, h, by rw [hb, h1], he⟩

theorem voiceTick_frame (c : Params) (v : Nat) (s : State) :
    voiceTick c v s = { s with voices := (voiceTick c v s).voices } := rfl

theorem mixIn_frame (c : Params) (ch i : Nat) (z : Num32) (s : State) :
    mixIn c ch i z s = { s with buf := (mixIn c ch i z s).buf } := by
  unfold mixIn memWrite; split <;> rfl

theorem voiceSample_frame (c : Params) (v i : Nat) (s : State) :
    voiceSample c v i s = { s with voices := (voiceSample c v i s).voices, buf := (voiceSample c v i s).buf } := by
  unfold voiceSample mixIn memWrite
  dsimp only
  split <;> split <;> (try split) <;> (try split) <;> rfl

theorem cutFadeOut_frame (c : Params) (v : Nat) (s : State) :
    cutFadeOut c v s = { s with voices := (cutFadeOut c v s).voices } := by
  unfold cutFadeOut; split <;> rfl

/-- In this hardware's reading nothing is cut, and only an active voice sounds. -/
@[simp] theorem cutFadeOut_hw (v : Nat) (s : State) : cutFadeOut hw v s = s := rfl

@[simp] theorem Voice.sounds_hw (v : Voice) : v.sounds hw = v.isActive := Bool.or_false _

/-- The destinations of the global scope are the two slots, so the matrix changes nothing else. -/
theorem matrixProcess_global_frame (z : Bool) (T : List Route) (s : State) :
    matrixProcess z globalBinding T s = { s with
      fmIn := (matrixProcess z globalBinding T s).fmIn, modIn := (matrixProcess z globalBinding T s).modIn } := by
  have hz : ∀ (s : State) (r : Route), ∃ x y, matrixZero z globalBinding s r = { s with fmIn := x, modIn := y } := by
    intro s r
    unfold matrixZero globalBinding
    dsimp only
    split
    · split_ifs <;> exact ⟨_, _, rfl⟩
    · exact ⟨s.fmIn, s.modIn, rfl⟩
  have ha : ∀ (s : State) (r : Route), ∃ x y, matrixAdd globalBinding s r = { s with fmIn := x, modIn := y } := by
    intro s r
    unfold matrixAdd globalBinding
    dsimp only
    split_ifs <;> exact ⟨_, _, rfl⟩
  have fold : ∀ g : State → Route → State, (∀ s r, ∃ x y, g s r = { s with fmIn := x, modIn := y }) →
      ∀ (T : List Route) (s : State), ∃ x y, T.foldl g s = { s with fmIn := x, modIn := y } := fun g hg =>
    foldl_only (fun s t => ∃ x y, t = { s with fmIn := x, modIn := y }) (fun s => ⟨s.fmIn, s.modIn, rfl⟩)
      (fun _ _ _ ⟨_, _, h1⟩ ⟨x, y, h2⟩ => ⟨x, y, by rw [h2, h1]⟩) g hg
  obtain ⟨x, y, h1⟩ := fold _ hz T s
  obtain ⟨x', y', h2⟩ := fold _ ha T (T.foldl (matrixZero z globalBinding) s)
  have h : matrixProcess z globalBinding T s = { s with fmIn := x', modIn := y' } := by
    unfold matrixProcess; rw [h2, h1]
  rw [h]

theorem globalTick_frame (c : Params) (s : State) :
    globalTick c s = { s with
      lfo := (lfoTick c s).lfo, lfoOut := (lfoTick c s).lfoOut,
      fmIn := (globalTick c s).fmIn, modIn := (globalTick c s).modIn } := by
  unfold globalTick
  rw [matrixProcess_global_frame]
  rfl

theorem takeVoice_frame (c : Params) (v : Nat) (n : BitVec 7) (s : State) :
    takeVoice c v n s = { s with voices := (takeVoice c v n s).voices, noteSeq := s.noteSeq + 1 } := by
  unfold takeVoice; dsimp only; split <;> rfl

theorem stopAll_frame (n : BitVec 7) (tail : Bool) (vs : List Nat) (s : State) :
    vs.foldl (stopIfHolding n tail) s = { s with voices := (vs.foldl (stopIfHolding n tail) s).voices } := by
  obtain ⟨x, h⟩ := foldl_only (fun s t => ∃ x, t = { s with voices := x }) (fun s => ⟨s.voices, rfl⟩)
    (fun _ _ _ ⟨_, h1⟩ ⟨x, h2⟩ => ⟨x, by rw [h2, h1]⟩) (stopIfHolding n tail)
    (fun s v => by unfold stopIfHolding; split; exacts [⟨_, rfl⟩, ⟨s.voices, rfl⟩]) vs s
  rw [h]

theorem prepareEffects_frame (c : Params) (fsn : Num32) (mb nc : Nat) (s : State) :
    prepareEffects c fsn mb nc s = { s with
      mode := .ready, fs := fsn, maxBlock := BitVec.ofNat 16 mb, nch := BitVec.ofNat 2 nc,
      voices := s.voices.map (Voice.construct c), lfo := Osc.reset, lfoOut := Num32.zero,
      fmIn := Num32.zero, modIn := Num32.zero, gcnt := 0, noteSeq := 0,
      der1 := (prepareEffects c fsn mb nc s).der1, der2 := (prepareEffects c fsn mb nc s).der2 } := by
  unfold prepareEffects
  dsimp only
  rw [deriveAll_frame c .env2, deriveAll_frame c .env1]
  rfl

/-! Voices. -/

theorem State.voice_modVoice_ne (s : State) {v w : Nat} (f : Voice → Voice) (h : v ≠ w) :
    (s.modVoice v f).voice w = s.voice w := by
  simp [State.voice, List.getD_eq_getElem?_getD, h]

theorem State.voice_modVoice_eq (s : State) (v : Nat) (f : Voice → Voice) (h : v < s.voices.length) :
    (s.modVoice v f).voice v = f (s.voice v) := by
  simp [State.voice, List.getD_eq_getElem?_getD, h]

/-- What holds of the default record and of every listed voice holds of voice `v`, whatever `v` is. -/
theorem State.voice_of_all {P : Voice → Prop} (s : State) (v : Nat) (h0 : P Voice.reset) (h : ∀ x ∈ s.voices, P x) :
    P (s.voice v) := by
  unfold State.voice
  by_cases hv : v < s.voices.length
  · simpa [List.getD_eq_getElem?_getD, hv] using h _ (List.getElem_mem hv)
  · simpa [List.getD_eq_getElem?_getD, hv] using h0

/-- A property of all voices survives a change of one that keeps it. -/
theorem State.modVoice_all {P : Voice → Prop} (s : State) (v : Nat) (f : Voice → Voice)
    (h : ∀ x ∈ s.voices, P x) (hf : ∀ x, P x → P (f x)) : ∀ x ∈ (s.modVoice v f).voices, P x := by
  intro x hx
  obtain ⟨n, hn, rfl⟩ := List.mem_iff_getElem.1 hx
  simp only [State.modVoice_voices, List.getElem_modify]
  rw [State.modVoice_voices, List.length_modify] at hn
  split
  · exact hf _ (h _ (List.getElem_mem hn))
  · exact h _ (List.getElem_mem hn)

end Sys2Proof.Machine
end

