-- ==== Sys2Proof/Laws/Loops.lean ====
section
/-! SUPPORT. The loops of RENDER: what every atomic step, every move at a boundary and every counter update keeps,
RENDER keeps. A proof about RENDER gives the one-step facts (`Keeps`) and cites `render_keeps`. -/

namespace Sys2Proof.Machine

/-- `P` survives each atomic step of RENDER on the sample indices `R`, the moves at a boundary, and the bookkeeping of the
voices between them. -/
structure Keeps (c : Params) (R : Nat → Prop) (P : State → Prop) : Prop where
  global : ∀ s, s.busy = true → P s → P (globalTick c s)
  tick : ∀ v s, s.busy = true → P s → P (voiceTick c v s)
  sample : ∀ v i s, R i → s.busy = true → P s → P (voiceSample c v i s)
  moves : ∀ s, s.busy = true → P s → P (interleave c s)
  advance : ∀ v n s, s.busy = true → P s → P (s.modVoice v (Voice.advance c n))
  cut : ∀ v s, s.busy = true → P s → P (cutFadeOut c v s)

theorem atomic_keeps {c : Params} {P : State → Prop} {f : State → State} {s : State}
    (hb : (f s).busy = s.busy) (hf : s.busy = true → P s → P (f s))
    (hm : ∀ s, s.busy = true → P s → P (interleave c s)) (h : P s) : P (atomic c f s) := by
  unfold atomic
  split
  · exact hm _ (hb.trans ‹_›) (hf ‹_› h)
  · exact h

theorem whileBusy_keeps {P : State → Prop} {f : State → State} {s : State} (hf : s.busy = true → P s → P (f s))
    (h : P s) : P (whileBusy f s) := by
  unfold whileBusy
  split
  · exact hf ‹_› h
  · exact h

theorem sampleLoop_keeps {c : Params} {R : Nat → Prop} {P : State → Prop} (K : Keeps c R P) (v n i : Nat) (s : State)
    (hR : ∀ j, i ≤ j → j < i + n → R j) (h : P s) : P (sampleLoop c v n i s) := by
  induction n generalizing i s with
  | zero => exact h
  | succ n ih =>
    exact ih (i + 1) _ (fun j h1 h2 => hR j (by omega) (by omega))
      (atomic_keeps (by rw [voiceSample_frame]) (K.sample v i s (hR i (by omega) (by omega))) K.moves h)

theorem voiceLoop_keeps {c : Params} {R : Nat → Prop} {P : State → Prop} (K : Keeps c R P) (v k pos left : Nat)
    (s : State) (hR : ∀ j, pos ≤ j → j < pos + left → R j) (h : P s) : P (voiceLoop c v k pos left s) := by
  induction k generalizing pos left s with
  | zero => exact h
  | succ k ih =>
    unfold voiceLoop
    split
    · exact h
    · dsimp only
      generalize hs1 : (if (s.voice v).ccnt = 0 then atomic c (voiceTick c v) s else s) = s1
      have h1 : P s1 := by
        subst hs1
        split
        · exact atomic_keeps rfl (K.tick v s) K.moves h
        · exact h
      generalize hn : chunkLength c left (s1.voice v).ccnt = n
      have hn' : n ≤ left := by subst hn; unfold chunkLength; exact Nat.min_le_left _ _
      have h2 := sampleLoop_keeps K v n pos s1 (fun j a b => hR j a (by omega)) h1
      refine ih (pos + n) (left - n) _ (fun j a b => hR j (by omega) (by omega)) ?_
      exact whileBusy_keeps (K.advance v n _) h2

theorem voices_keep {c : Params} {R : Nat → Prop} {P : State → Prop} (K : Keeps c R P) (pos n : Nat)
    (hR : ∀ j, pos ≤ j → j < pos + n → R j) (vs : List Nat) (s : State) (h : P s) :
    P (vs.foldl (renderVoice c pos n) s) := by
  induction vs generalizing s with
  | nil => exact h
  | cons v vs ih => exact ih _ (voiceLoop_keeps K v n pos n _ hR (whileBusy_keeps (K.cut v s) h))

/-- The part of a pool chunk before its counters move. -/
def chunkBody (c : Params) (cur : Cursor) (s : State) : State :=
  let s1 := if s.gcnt = 0 then atomic c (globalTick c) s else s
  (liveVoices s1).foldl (renderVoice c cur.pos.toNat (chunkLength c cur.rem.toNat s1.gcnt)) s1

/-- The number of samples of a pool chunk. -/
def chunkCount (c : Params) (cur : Cursor) (s : State) : Nat :=
  chunkLength c cur.rem.toNat (if s.gcnt = 0 then atomic c (globalTick c) s else s).gcnt

theorem poolChunk_eq (c : Params) (cur : Cursor) (s : State) :
    poolChunk c cur s = whileBusy (fun t => { t with
      gcnt := advanceCounter c (chunkCount c cur s) t.gcnt,
      cursor := some ⟨cur.pos + BitVec.ofNat 32 (chunkCount c cur s), cur.rem - BitVec.ofNat 16 (chunkCount c cur s)⟩ })
      (chunkBody c cur s) := rfl

theorem chunkCount_le (c : Params) (cur : Cursor) (s : State) : chunkCount c cur s ≤ cur.rem.toNat :=
  Nat.min_le_left _ _

theorem chunkBody_keeps {c : Params} {R : Nat → Prop} {P : State → Prop} (K : Keeps c R P) (cur : Cursor) (s : State)
    (hR : ∀ j, cur.pos.toNat ≤ j → j < cur.pos.toNat + cur.rem.toNat → R j) (h : P s) : P (chunkBody c cur s) := by
  unfold chunkBody
  dsimp only
  refine voices_keep K _ _ (fun j a b => hR j a ?_) _ _ ?_
  · exact Nat.lt_of_lt_of_le b (Nat.add_le_add_left (Nat.min_le_left _ _) _)
  · split
    · exact atomic_keeps (by rw [globalTick_frame]) (K.global s) K.moves h
    · exact h

/-- While RENDER runs, the cursor is `cur` and `busy` is set; after `rst` neither is. -/
def atCursor (cur : Cursor) (s : State) : Prop :=
  s.busy = true ∧ s.cursor = some cur ∨ s.busy = false ∧ s.cursor = none

theorem atCursor_of_frame {cur : Cursor} {s t : State} (hb : t.busy = s.busy) (hc : t.cursor = s.cursor)
    (h : atCursor cur s) : atCursor cur t := by
  unfold atCursor; rw [hb, hc]; exact h

theorem interleave_atCursor {c : Params} {cur : Cursor} {s : State} (h : atCursor cur s) :
    atCursor cur (interleave c s) := by
  unfold interleave
  obtain ⟨_, _, _, _, _, _, _, _, _, _, e, _⟩ | ⟨_, s1, e, _⟩ := interleaveWith_cases c s.events s
  · rw [e]; exact h
  · rw [e]; exact .inr ⟨rfl, rfl⟩

theorem atCursor_keeps (c : Params) (R : Nat → Prop) (cur : Cursor) : Keeps c R (atCursor cur) where
  global s _ h := by rw [globalTick_frame]; exact h
  tick v s _ h := h
  sample v i s _ _ h := by rw [voiceSample_frame]; exact h
  moves s _ h := interleave_atCursor h
  advance v n s _ h := h
  cut v s _ h := by rw [cutFadeOut_frame]; exact h

theorem Keeps.and {c : Params} {R : Nat → Prop} {P Q : State → Prop} (hP : Keeps c R P) (hQ : Keeps c R Q) :
    Keeps c R (fun s => P s ∧ Q s) where
  global s b h := ⟨hP.global s b h.1, hQ.global s b h.2⟩
  tick v s b h := ⟨hP.tick v s b h.1, hQ.tick v s b h.2⟩
  sample v i s r b h := ⟨hP.sample v i s r b h.1, hQ.sample v i s r b h.2⟩
  moves s b h := ⟨hP.moves s b h.1, hQ.moves s b h.2⟩
  advance v n s b h := ⟨hP.advance v n s b h.1, hQ.advance v n s b h.2⟩
  cut v s b h := ⟨hP.cut v s b h.1, hQ.cut v s b h.2⟩

/-- The cursor names only indices of `R`, and its sum does not wrap. -/
def cursorWithin (R : Nat → Prop) (cur : Cursor) : Prop :=
  cur.pos.toNat + cur.rem.toNat < 2 ^ 32 ∧ ∀ j, cur.pos.toNat ≤ j → j < cur.pos.toNat + cur.rem.toNat → R j

theorem cursorWithin_advance {R : Nat → Prop} {cur : Cursor} {n : Nat} (h : cursorWithin R cur)
    (hn : n ≤ cur.rem.toNat) :
    cursorWithin R ⟨cur.pos + BitVec.ofNat 32 n, cur.rem - BitVec.ofNat 16 n⟩ := by
  obtain ⟨h1, h2⟩ := h
  have hr := cur.rem.isLt
  have e1 : (cur.pos + BitVec.ofNat 32 n).toNat = cur.pos.toNat + n := by
    rw [BitVec.toNat_add, BitVec.toNat_ofNat]; omega
  have e2 : (cur.rem - BitVec.ofNat 16 n).toNat = cur.rem.toNat - n := by
    rw [BitVec.toNat_sub, BitVec.toNat_ofNat]; omega
  refine ⟨?_, fun j a b => ?_⟩
  · simp only [e1, e2]; omega
  · simp only [e1, e2] at a b
    exact h2 j (by omega) (by omega)

/-- What the atomic steps, the moves and the counters keep, the render loop keeps. -/
theorem renderLoop_keeps {c : Params} {R : Nat → Prop} {P : State → Prop} (K : Keeps c R P)
    (hG : ∀ s n cur, s.busy = true → P s → P { s with gcnt := advanceCounter c n s.gcnt, cursor := some cur })
    (k : Nat) (s : State) (h : P s)
    (hs : s.busy = true ∧ (∃ cur, s.cursor = some cur ∧ cursorWithin R cur) ∨ s.busy = false ∧ s.cursor = none) :
    P (renderLoop c k s) ∧ ((renderLoop c k s).busy = false → (renderLoop c k s).cursor = none) := by
  induction k generalizing s with
  | zero =>
    refine ⟨h, fun hb => ?_⟩
    obtain ⟨h1, _⟩ | ⟨_, h2⟩ := hs
    · exact absurd (h1.symm.trans hb) (by decide)
    · exact h2
  | succ k ih =>
    unfold renderLoop
    obtain ⟨hb, cur, hc, hw⟩ | ⟨hb, hc⟩ := hs
    · rw [hc]
      dsimp only
      split
      · exact ⟨h, fun hb' => absurd (hb.symm.trans hb') (by decide)⟩
      · have hbody := chunkBody_keeps (K.and (atCursor_keeps c R cur)) cur s hw.2 ⟨h, .inl ⟨hb, hc⟩⟩
        rw [poolChunk_eq]
        unfold whileBusy
        split
        · rename_i hb2
          exact ih _ (hG _ _ _ hb2 hbody.1)
            (.inl ⟨hb2, _, rfl, cursorWithin_advance hw (chunkCount_le c cur s)⟩)
        · rename_i hb2
          obtain ⟨hb3, _⟩ | hb3 := hbody.2
          · exact absurd hb3 hb2
          · exact ih _ hbody.1 (.inr hb3)
    · rw [hc]
      exact ⟨h, fun _ => hc⟩

/-- What the atomic steps, the moves and the counters keep, an accepted RENDER keeps up to its end. -/
theorem render_keeps {c : Params} {R : Nat → Prop} {P : State → Prop} (K : Keeps c R P)
    (hG : ∀ s n cur, s.busy = true → P s → P { s with gcnt := advanceCounter c n s.gcnt, cursor := some cur })
    (start count : Nat) (hlen : start + count < 65536) (hR : ∀ j, start ≤ j → j < start + count → R j)
    (s : State) (hb : s.busy = true)
    (h : P { s with cursor := some ⟨BitVec.ofNat 32 start, BitVec.ofNat 16 count⟩ }) (k : Nat) :
    P (renderLoop c k { s with cursor := some ⟨BitVec.ofNat 32 start, BitVec.ofNat 16 count⟩ }) := by
  have e1 : (BitVec.ofNat 32 start).toNat = start := by rw [BitVec.toNat_ofNat]; omega
  have e2 : (BitVec.ofNat 16 count).toNat = count := by rw [BitVec.toNat_ofNat]; omega
  refine (renderLoop_keeps K hG k _ h (.inl ⟨hb, _, rfl, ?_, ?_⟩)).1
  · simp only [e1, e2]; omega
  · simp only [e1, e2]; exact hR

end Sys2Proof.Machine
end

