-- ==== Sys2Proof/Laws/Memory.lean ====
section
/-! SUPPORT. The laws of the buffer: read after write, and that every operation keeps the canonical form. -/

namespace Sys2Proof.Machine

@[simp] theorem Memory.read_nil (a : Nat) : Memory.read [] a = Memory.unlisted := rfl

theorem Memory.read_cons (b : Nat) (w : Word) (m : Memory) (a : Nat) :
    Memory.read ((b, w) :: m) a = if a = b then w else Memory.read m a := rfl

/-- An address below every listed one reads as unlisted. -/
theorem Memory.read_below {size lo a : Nat} {m : Memory} (h : Memory.wfFrom size lo m = true) (ha : a < lo) :
    Memory.read m a = Memory.unlisted := by
  induction m generalizing lo with
  | nil => rfl
  | cons p m ih =>
    obtain ⟨b, w⟩ := p
    simp only [Memory.wfFrom, Bool.and_eq_true, decide_eq_true_eq] at h
    rw [Memory.read_cons, if_neg (by omega)]
    exact ih h.2 (by omega)

/-- A canonical form from `lo` on is one from any lower address on. -/
theorem Memory.wfFrom_mono {size lo lo' : Nat} {m : Memory} (h : Memory.wfFrom size lo m = true) (hl : lo' ≤ lo) :
    Memory.wfFrom size lo' m = true := by
  cases m with
  | nil => rfl
  | cons p m =>
    simp only [Memory.wfFrom, Bool.and_eq_true, decide_eq_true_eq] at h ⊢
    exact ⟨⟨⟨by omega, h.1.1.2⟩, h.1.2⟩, h.2⟩

theorem Memory.wfFrom_cons {size lo a : Nat} {w : Word} {m : Memory} (ha : lo ≤ a) (hs : a < size)
    (h : Memory.wfFrom size (a + 1) m = true) : Memory.wfFrom size lo (Memory.cons a w m) = true := by
  unfold Memory.cons
  split
  · exact Memory.wfFrom_mono h (by omega)
  · simp only [Memory.wfFrom, Bool.and_eq_true, decide_eq_true_eq]
    exact ⟨⟨⟨ha, hs⟩, ‹_›⟩, h⟩

/-- A write inside the buffer keeps the canonical form. -/
theorem Memory.write_wfFrom {size lo a : Nat} {w : Word} {m : Memory} (h : Memory.wfFrom size lo m = true)
    (ha : lo ≤ a) (hs : a < size) : Memory.wfFrom size lo (Memory.write m a w) = true := by
  induction m generalizing lo with
  | nil => exact Memory.wfFrom_cons ha hs rfl
  | cons p m ih =>
    obtain ⟨b, x⟩ := p
    have h' := h
    simp only [Memory.wfFrom, Bool.and_eq_true, decide_eq_true_eq] at h
    unfold Memory.write
    split
    · refine Memory.wfFrom_cons ha hs ?_
      simp only [Memory.wfFrom, Bool.and_eq_true, decide_eq_true_eq]
      exact ⟨⟨⟨by omega, h.1.1.2⟩, h.1.2⟩, h.2⟩
    · split
      · exact Memory.wfFrom_cons ha hs (by subst_vars; exact h.2)
      · simp only [Memory.wfFrom, Bool.and_eq_true, decide_eq_true_eq]
        exact ⟨h.1, ih h.2 (by omega)⟩

theorem Memory.write_wf {size a : Nat} {w : Word} {m : Memory} (h : Memory.wf size m = true) (hs : a < size) :
    Memory.wf size (Memory.write m a w) = true := Memory.write_wfFrom h (Nat.zero_le a) hs

theorem Memory.read_consEntry_same {size a : Nat} {w : Word} {m : Memory} (h : Memory.wfFrom size (a + 1) m = true) :
    Memory.read (Memory.cons a w m) a = w := by
  unfold Memory.cons
  split
  · rw [Memory.read_below h (by omega)]; exact Eq.symm ‹_›
  · rw [Memory.read_cons, if_pos rfl]

theorem Memory.read_consEntry_other {a b : Nat} {w : Word} {m : Memory} (h : b ≠ a) :
    Memory.read (Memory.cons a w m) b = Memory.read m b := by
  unfold Memory.cons
  split
  · rfl
  · rw [Memory.read_cons, if_neg h]

/-- Read after write, same address, of a canonical buffer. -/
theorem Memory.read_write_same {size lo a : Nat} {w : Word} {m : Memory} (h : Memory.wfFrom size lo m = true) :
    Memory.read (Memory.write m a w) a = w := by
  induction m generalizing lo with
  | nil => exact Memory.read_consEntry_same (size := size) rfl
  | cons p m ih =>
    obtain ⟨b, x⟩ := p
    have h' := h
    simp only [Memory.wfFrom, Bool.and_eq_true, decide_eq_true_eq] at h
    unfold Memory.write
    split
    · refine Memory.read_consEntry_same (size := size) ?_
      simp only [Memory.wfFrom, Bool.and_eq_true, decide_eq_true_eq]
      exact ⟨⟨⟨by omega, h.1.1.2⟩, h.1.2⟩, h.2⟩
    · split
      · exact Memory.read_consEntry_same (size := size) (by subst_vars; exact h.2)
      · rw [Memory.read_cons, if_neg ‹_›]; exact ih h.2

/-- Read after write, another address. -/
theorem Memory.read_write_other {a b : Nat} {w : Word} (m : Memory) (h : b ≠ a) :
    Memory.read (Memory.write m a w) b = Memory.read m b := by
  induction m with
  | nil => exact Memory.read_consEntry_other h
  | cons p m ih =>
    obtain ⟨c, x⟩ := p
    unfold Memory.write
    split
    · exact Memory.read_consEntry_other h
    · split
      · subst_vars; rw [Memory.read_consEntry_other h, Memory.read_cons, if_neg h]
      · rw [Memory.read_cons, Memory.read_cons, ih]

/-- Canonical buffers that read alike are equal data. -/
theorem Memory.ext_of_read {size lo : Nat} {m n : Memory} (hm : Memory.wfFrom size lo m = true)
    (hn : Memory.wfFrom size lo n = true) (h : ∀ a, Memory.read m a = Memory.read n a) : m = n := by
  induction m generalizing lo n with
  | nil =>
    cases n with
    | nil => rfl
    | cons q n =>
      obtain ⟨b, x⟩ := q
      simp only [Memory.wfFrom, Bool.and_eq_true, decide_eq_true_eq] at hn
      have := h b
      rw [Memory.read_cons, if_pos rfl] at this
      exact absurd this.symm hn.1.2
  | cons p m ih =>
    obtain ⟨a, w⟩ := p
    simp only [Memory.wfFrom, Bool.and_eq_true, decide_eq_true_eq] at hm
    cases n with
    | nil =>
      have := h a
      rw [Memory.read_cons, if_pos rfl] at this
      exact absurd this hm.1.2
    | cons q n =>
      obtain ⟨b, x⟩ := q
      have hn' := hn
      simp only [Memory.wfFrom, Bool.and_eq_true, decide_eq_true_eq] at hn
      have ha := h a
      have hb := h b
      simp only [Memory.read_cons, if_true] at ha hb
      have hab : a = b := by
        rcases Nat.lt_trichotomy a b with hlt | heq | hgt
        · rw [if_neg (by omega), Memory.read_below hn.2 (by omega)] at ha
          exact absurd ha hm.1.2
        · exact heq
        · rw [if_neg (by omega), Memory.read_below hm.2 (by omega)] at hb
          exact absurd hb.symm hn.1.2
      subst hab
      simp only [if_true] at ha
      subst ha
      congr 1
      refine ih hm.2 hn.2 fun c => ?_
      by_cases hc : c < a + 1
      · rw [Memory.read_below hm.2 hc, Memory.read_below hn.2 hc]
      · have := h c
        rwa [Memory.read_cons, Memory.read_cons, if_neg (by omega), if_neg (by omega)] at this

theorem memWrite_wf (c : Params) {a : Nat} {w : Word} {s : State} (h : Memory.wf (bufferWords c) s.buf = true) :
    Memory.wf (bufferWords c) (memWrite c a w s).buf = true := by
  unfold memWrite
  split
  · exact Memory.write_wf h ‹_›
  · exact h

theorem memRead_memWrite_same (c : Params) {a : Nat} {w : Word} {s : State}
    (h : Memory.wf (bufferWords c) s.buf = true) (ha : a < bufferWords c) : memRead a (memWrite c a w s) = w := by
  unfold memWrite memRead
  rw [if_pos ha]
  exact Memory.read_write_same h

theorem memRead_memWrite_other (c : Params) {a b : Nat} {w : Word} (s : State) (h : b ≠ a) :
    memRead b (memWrite c a w s) = memRead b s := by
  unfold memWrite memRead
  split
  · exact Memory.read_write_other _ h
  · rfl

theorem reset_memory_wf : Memory.wf (bufferWords hw) State.reset.buf = true := rfl

end Sys2Proof.Machine
end

