-- ==== Sys2Proof/Laws/Invariant.lean ====
section
/-! SUPPORT. The invariant of Safety.lean, operation by operation: what keeps `Voice.legal`, and what keeps `Boundary`. -/

namespace Sys2Proof.Machine

/-- `hw` is this hardware in the readings that log entries 25 and 26 choose. -/
theorem hw_eq_readings : hw = readings true false := rfl

/-! Ramps and envelopes. -/

theorem Ramp.jump_legal (t : Num32) : (Ramp.jump t).legal = true := rfl

theorem Ramp.reset_legal : Ramp.reset.legal = true := rfl

theorem Ramp.retarget_legal (t : Num32) (r : Ramp) : (r.retarget hw.controlDiv t).legal = true := rfl

theorem Ramp.next_legal {r : Ramp} (h : r.legal = true) : r.next.legal = true := by
  unfold Ramp.legal at *
  unfold Ramp.next
  rw [decide_eq_true_eq] at *
  split
  · exact h
  · split
    · exact Nat.zero_le _
    · have h1 : r.rem ≠ 0 := ‹_›
      have h2 : (r.rem - 1).toNat ≤ r.rem.toNat := by bv_omega
      exact Nat.le_trans h2 h

theorem Env.gate_legal {e : Env} (on : Bool) (h : e.legal = true) : (e.gate on).legal = true := by
  obtain ⟨out, st⟩ := e
  cases on <;> cases st <;> first | exact h | rfl

theorem Env.gate_on_active (e : Env) : (e.gate true).isActive = true := rfl

theorem Env.gate_off_active (e : Env) : (e.gate false).isActive = e.isActive := by
  obtain ⟨out, st⟩ := e
  cases st <;> rfl

theorem Env.forceIdle_legal (e : Env) : e.forceIdle.legal = true := rfl

theorem Env.tick_legal {e : Env} (capped : Bool) (d : Derived) (m : EnvMaster) (h : e.legal = true) :
    (e.tick capped d m).legal = true := by
  obtain ⟨out, st⟩ := e
  cases st
  · exact h
  · simp only [Env.tick, Env.attackStep]; split <;> rfl
  · simp only [Env.tick, Env.decayStep, Env.limit]; split <;> split <;> rfl
  · simp only [Env.tick, Env.sustainStep]; split <;> rfl
  · simp only [Env.tick, Env.releaseStep]; split <;> rfl

theorem Env.tick_idle {e : Env} (capped : Bool) (d : Derived) (m : EnvMaster) (h : e.isActive = false) :
    e.tick capped d m = e := by
  obtain ⟨out, st⟩ := e
  cases st <;> first | rfl | exact absurd h (by simp [Env.isActive])

/-! Voices. -/

/-- `Voice.legal` as a conjunction of propositions. -/
theorem Voice.legal_iff (v : Voice) : v.legal = true ↔
    v.ccnt.toNat < hw.controlDiv ∧
    (v.osc0.ramp.legal = true ∧ v.osc1.ramp.legal = true ∧ v.osc2.ramp.legal = true ∧ v.amp.ramp.legal = true) ∧
    (v.env1.legal = true ∧ v.env2.legal = true) ∧
    (v.isFree = !v.isActive) ∧ (v.isFree = true → v.keyDown = false) ∧ v.fading = false := by
  unfold Voice.legal
  cases v.isFree <;> cases v.isActive <;> cases v.keyDown <;> cases v.fading <;>
    simp [Bool.and_eq_true, and_assoc]

theorem Voice.reset_legal : Voice.reset.legal = true := rfl

theorem Voice.construct_legal (v : Voice) : (Voice.construct hw v).legal = true := rfl

/-- `construct` leaves a reset record, whatever the record held. -/
theorem Voice.construct_eq (v : Voice) : Voice.construct hw v = Voice.reset := rfl

theorem startOsc_legal (s : State) (k : Nat) (hz : Num32) (o : Osc) : (startOsc hw s k hz o).ramp.legal = true := rfl

theorem Voice.startNote_legal {v : Voice} (s : State) (n : BitVec 7) (h : v.legal = true) :
    (Voice.startNote hw s n v).legal = true := by
  rw [Voice.legal_iff] at h
  refine (Voice.legal_iff _).2 ⟨show (0 : BitVec 16).toNat < 100 by decide, ⟨startOsc_legal .., startOsc_legal .., startOsc_legal .., h.2.1.2.2.2⟩,
    ⟨rfl, rfl⟩, rfl, fun hf => absurd hf (by simp [Voice.isFree, Voice.startNote]), rfl⟩

theorem Voice.stopNote_active (v : Voice) : (v.stopNote true).isActive = v.isActive := by
  show (Env.isActive _ || Env.isActive _) = _
  simp only [Voice.stopNote, if_true, Env.gate_off_active, Voice.isActive]

theorem Voice.stopNote_legal {v : Voice} (tail : Bool) (h : v.legal = true) : (v.stopNote tail).legal = true := by
  rw [Voice.legal_iff] at h
  obtain ⟨h1, h2, h3, h4, _, h6⟩ := h
  cases tail
  · exact (Voice.legal_iff _).2 ⟨h1, h2, ⟨rfl, rfl⟩, rfl, fun _ => rfl, rfl⟩
  · refine (Voice.legal_iff _).2 ⟨h1, h2, ⟨Env.gate_legal false h3.1, Env.gate_legal false h3.2⟩, ?_, fun _ => rfl, h6⟩
    rw [Voice.stopNote_active]; exact h4

/-- The destinations of the voice scope are two slots, so the matrix changes nothing else. -/
theorem matrixProcess_voice_frame (z : Bool) (T : List Route) (v : Voice) :
    ∃ x y, matrixProcess z voiceBinding T v =
      { v with filt := { v.filt with modIn := x }, amp := { v.amp with gainIn := y } } := by
  have hz : ∀ (v : Voice) (r : Route), ∃ x y, matrixZero z voiceBinding v r =
      { v with filt := { v.filt with modIn := x }, amp := { v.amp with gainIn := y } } := by
    intro v r
    unfold matrixZero voiceBinding
    dsimp only
    split_ifs <;> exact ⟨_, _, rfl⟩
  have ha : ∀ (v : Voice) (r : Route), ∃ x y, matrixAdd voiceBinding v r =
      { v with filt := { v.filt with modIn := x }, amp := { v.amp with gainIn := y } } := by
    intro v r
    unfold matrixAdd voiceBinding
    dsimp only
    split_ifs <;> exact ⟨_, _, rfl⟩
  have fold : ∀ (g : Voice → Route → Voice), (∀ v r, ∃ x y, g v r =
      { v with filt := { v.filt with modIn := x }, amp := { v.amp with gainIn := y } }) →
      ∀ (T : List Route) (v : Voice), ∃ x y, T.foldl g v =
        { v with filt := { v.filt with modIn := x }, amp := { v.amp with gainIn := y } } := by
    intro g hg T
    induction T with
    | nil => exact fun v => ⟨_, _, rfl⟩
    | cons r T ih =>
      intro v
      obtain ⟨x, y, h1⟩ := hg v r
      obtain ⟨x', y', h2⟩ := ih (g v r)
      exact ⟨x', y', by rw [List.foldl_cons, h2, h1]⟩
  obtain ⟨x, y, h1⟩ := fold _ hz T v
  obtain ⟨x', y', h2⟩ := fold _ ha T (T.foldl (matrixZero z voiceBinding) v)
  exact ⟨x', y', by unfold matrixProcess; rw [h2, h1]⟩

theorem tickOsc_legal (s : State) (k : Nat) (o : Osc) : (tickOsc hw s k o).ramp.legal = true :=
  Ramp.retarget_legal _ _

theorem Voice.tick_legal {v : Voice} (s : State) (h : v.legal = true) : (Voice.tick hw s v).legal = true := by
  rw [Voice.legal_iff] at h
  obtain ⟨h1, h2, h3, h4, h5, h6⟩ := h
  have key : ∀ w : Voice, w.ccnt.toNat < hw.controlDiv → w.env1.legal = true → w.env2.legal = true →
      (w.isActive = true → w.isFree = false) → w.fading = false →
      (Voice.tickTargets hw s (Voice.tickFree hw w)).legal = true := by
    intro w hc he1 he2 hf hfade
    refine (Voice.legal_iff _).2 ?_
    unfold Voice.tickFree
    split
    · exact ⟨hc, ⟨tickOsc_legal .., tickOsc_legal .., tickOsc_legal .., Ramp.retarget_legal ..⟩, ⟨he1, he2⟩,
        (hf ‹_›).trans (by rw [show (Voice.tickTargets hw s w).isActive = w.isActive from rfl, ‹w.isActive = true›]; rfl),
        fun hfree => absurd ((hf ‹_›).symm.trans hfree) (by decide), hfade⟩
    · have hna : w.isActive = false := by simpa using ‹¬ w.isActive = true›
      refine ⟨hc, ⟨tickOsc_legal .., tickOsc_legal .., tickOsc_legal .., Ramp.retarget_legal ..⟩, ⟨he1, he2⟩, ?_,
        fun _ => rfl, rfl⟩
      show true = !w.isActive
      rw [hna]; rfl
  obtain ⟨x, y, e⟩ := matrixProcess_voice_frame hw.matrixZeroDisabled s.vr (v.tickEnvs hw s)
  unfold Voice.tick
  rw [e]
  refine key _ h1 (Env.tick_legal _ _ _ h3.1) (Env.tick_legal _ _ _ h3.2) (fun ha => ?_) h6
  show v.isFree = false
  rw [h4]
  by_contra hn
  have hv : v.isActive = false := by simpa using hn
  have hv' := Bool.or_eq_false_iff.1 (show (v.env1.isActive || v.env2.isActive) = false from hv)
  have ha' : ((v.env1.tick hw.decayCapped s.der1 s.par.env1).isActive ||
      (v.env2.tick hw.decayCapped s.der2 s.par.env2).isActive) = true := ha
  rw [Env.tick_idle _ _ _ hv'.1, Env.tick_idle _ _ _ hv'.2, hv'.1, hv'.2] at ha'
  exact absurd ha' (by decide)

theorem Voice.sample_legal {v : Voice} (s : State) (h : v.legal = true) : (Voice.sample hw s v).2.2.legal = true := by
  rw [Voice.legal_iff] at h
  obtain ⟨h1, h2, h3, h4, h5⟩ := h
  exact (Voice.legal_iff _).2 ⟨h1, ⟨Ramp.next_legal h2.1, Ramp.next_legal h2.2.1, Ramp.next_legal h2.2.2.1,
    Ramp.next_legal h2.2.2.2⟩, h3, h4, h5⟩

theorem advanceCounter_lt (n : Nat) (k : BitVec 16) : (advanceCounter hw n k).toNat < hw.controlDiv := by
  unfold advanceCounter
  rw [BitVec.toNat_ofNat]
  have : (k.toNat + n) % hw.controlDiv < 100 := Nat.mod_lt _ (by decide)
  show _ % 2 ^ 16 < 100
  omega

theorem Voice.advance_legal {v : Voice} (n : Nat) (h : v.legal = true) : (Voice.advance hw n v).legal = true := by
  rw [Voice.legal_iff] at h
  obtain ⟨_, h2, h3, h4, h5, h6⟩ := h
  exact (Voice.legal_iff _).2 ⟨advanceCounter_lt _ _, h2, h3, h4, h5, rfl⟩

/-! The block. -/

theorem State.voice_legal {s : State} (h : ∀ v ∈ s.voices, v.legal = true) (v : Nat) : (s.voice v).legal = true :=
  s.voice_of_all v Voice.reset_legal h

theorem modVoice_boundary {s : State} (v : Nat) {f : Voice → Voice} (h : Boundary s)
    (hf : ∀ x, x.legal = true → (f x).legal = true) : Boundary (s.modVoice v f) :=
  { h with
    voices := by rw [State.modVoice_voices, List.length_modify]; exact h.voices
    voice := s.modVoice_all v f h.voice hf }

theorem voiceTick_boundary {s : State} (v : Nat) (h : Boundary s) : Boundary (voiceTick hw v s) :=
  modVoice_boundary v h fun _ => Voice.tick_legal s

theorem memWrite_boundary {s : State} (a : Nat) (w : Word) (h : Boundary s) : Boundary (memWrite hw a w s) := by
  unfold memWrite
  split
  · exact { h with memory := Memory.write_wf h.memory ‹_› }
  · exact h

theorem voiceSample_boundary {s : State} (v i : Nat) (h : Boundary s) : Boundary (voiceSample hw v i s) := by
  have h1 : Boundary (s.modVoice v fun _ => ((s.voice v).sample hw s).2.2) :=
    modVoice_boundary v h fun _ _ => Voice.sample_legal s (State.voice_legal h.voice v)
  unfold voiceSample mixIn
  dsimp only
  split <;> split <;> first | exact h1 | exact memWrite_boundary _ _ h1 | exact memWrite_boundary _ _ (memWrite_boundary _ _ h1)

theorem globalTick_boundary {s : State} (h : Boundary s) : Boundary (globalTick hw s) := by
  rw [globalTick_frame]
  exact { h with lfo := rfl }

/-- The writer's order is that of the table of 48_parameter_setters.md R342. -/
theorem derivedWrites_eq (id : ParamId) : derivedWrites id = sequenceOf id := by cases id <;> rfl

theorem pendingLegal_nil : pendingLegal [] := ⟨.oscWaveform, List.nil_suffix⟩

theorem writeNext_boundary {s : State} (h : Boundary s) : Boundary (writeNext hw s) := by
  unfold writeNext
  split
  · exact h
  · rename_i E n rest hp
    obtain ⟨a, b, e⟩ := deriveCell_only hw E n s
    rw [e]
    obtain ⟨id, hid⟩ := h.pending
    rw [hp] at hid
    exact { h with pbusy := rfl, pending := ⟨id, (List.suffix_cons _ _).trans hid⟩ }

theorem setParamStart_boundary {s : State} (id : ParamId) (v : Word) (h : Boundary s) :
    Boundary (setParamStart id v s) :=
  { h with pbusy := rfl, pending := ⟨id, by rw [← derivedWrites_eq]; exact List.suffix_refl _⟩ }

theorem Error.flag_ne_zero (e : Error) (x : BitVec 6) : x ||| e.flag ≠ 0 := by
  cases e <;> (intro h; have := congrArg BitVec.toNat h; revert this; revert x; decide)

theorem or_flag_capacity (e : Error) (x : BitVec 6) (h : x.getLsbD Error.capacity.bit = true) :
    (x ||| e.flag).getLsbD Error.capacity.bit = true := by
  rw [BitVec.getLsbD_or, h, Bool.true_or]

/-- `raise` on the C port keeps the invariant of the boundary; on the P port, if no sequence is in flight. -/
theorem raise_boundary {s : State} (e : Error) (H : Word) (port : Port) (h : Boundary s)
    (hp : port = .p → s.pPend = []) : Boundary (raise e H port s) where
  memory := by rw [raise_buf]; exact h.memory
  voices := by rw [raise_voices]; exact h.voices
  vr := by rw [raise_vr]; exact h.vr
  gr := by rw [raise_gr]; exact h.gr
  nvoices := by rw [raise_nvoices]; exact h.nvoices
  gcnt := by rw [raise_gcnt]; exact h.gcnt
  voice := by rw [raise_voices]; exact h.voice
  lfo := by rw [raise_lfo]; exact h.lfo
  config := by simp only [raise_mode, raise_fs, raise_maxBlock, raise_nch]; exact h.config
  halted := by
    rw [raise_mode, raise_err]
    exact fun hm => or_flag_capacity e _ (h.halted hm)
  noError := by
    rw [raise_err]
    exact fun h0 => absurd h0 (Error.flag_ne_zero e _)
  pbusy := by
    cases port
    · rw [raise_c_pbusy, raise_pPend]; exact h.pbusy
    · rw [raise_p_pbusy, raise_pPend, hp rfl]; rfl
  pending := by rw [raise_pPend]; exact h.pending

theorem writerStep_boundary {s : State} (h : Boundary s) : Boundary (writerStep hw s) := by
  obtain e | e | ⟨hp, rest, _, ⟨H, er, e⟩ | ⟨id, v, e⟩ | e⟩ := writerStep_cases hw s <;> rw [e]
  · exact writeNext_boundary h
  · exact h
  · exact raise_boundary er H .p (s := { s with pIn := rest }) { h with } fun _ => hp
  · exact setParamStart_boundary id v (s := { s with pIn := rest }) { h with }
  · exact { h with }

theorem reset_boundary : Boundary State.reset where
  memory := rfl
  voices := rfl
  vr := rfl
  gr := rfl
  nvoices := by decide
  gcnt := by decide
  voice := fun v hv => by rw [List.eq_of_mem_replicate hv]; rfl
  lfo := rfl
  config := fun h => absurd rfl h
  halted := fun h => by cases h
  noError := fun _ => ⟨rfl, rfl⟩
  pbusy := rfl
  pending := pendingLegal_nil

theorem rst_boundary {s : State} (h : Memory.wf (bufferWords hw) s.buf = true) : Boundary (rst hw s) :=
  rst_hw s ▸ { reset_boundary with memory := h }

theorem interleaveWith_boundary (es : List Event) (s : State) (h : Boundary s) :
    Boundary (interleaveWith hw es s) := by
  induction es generalizing s with
  | nil => exact { h with }
  | cons e es ih =>
    cases e with
    | engine => exact { h with }
    | hostWrite a w => exact { h with }
    | rst => exact rst_boundary h.memory
    | writer => exact ih _ (writerStep_boundary h)

theorem boundary_keeps (R : Nat → Prop) : Keeps hw R Boundary where
  global _ _ h := globalTick_boundary h
  tick v _ _ h := voiceTick_boundary v h
  sample v i _ _ _ h := voiceSample_boundary v i h
  moves s _ h := interleaveWith_boundary s.events s h
  advance v n _ _ h := modVoice_boundary v h fun _ => Voice.advance_legal n
  cut v s _ h := (cutFadeOut_hw v s).symm ▸ h

end Sys2Proof.Machine
end

