-- ==== Sys2Proof/Laws/Matrix.lean ====
section
/-! SUPPORT. What the two passes of `matrix.process` do to one slot, over any binding: `get` reads the slot with id `dst`. -/

namespace Sys2Proof.Machine

/-- Pass 1 zeroes the slot if a valid route names it. -/
theorem matrixZero_slot {β : Type} (B : Binding β) (dst : BitVec 4) (get : β → Num32)
    (hget : ∀ b r, get (matrixZero true B b r) = if r.valid && r.dst == dst then Num32.zero else get b)
    (T : List Route) (b : β) :
    get (T.foldl (matrixZero true B) b) =
      if (T.filter fun r => r.valid && r.dst == dst).isEmpty then get b else Num32.zero := by
  induction T generalizing b with
  | nil => rfl
  | cons r T ih =>
    rw [List.foldl_cons, ih, hget, List.filter_cons]
    cases r.valid && r.dst == dst <;>
      simp only [if_true, if_false, Bool.false_eq_true, List.isEmpty_cons, ite_self]

/-- Pass 2 adds into the slot, in table order, the bound sources of the enabled valid routes that name it; `P` holds of the
holder throughout and fixes its sources as `src`. -/
theorem matrixAdd_slot {β : Type} (B : Binding β) (src : BitVec 4 → Option Num32) (dst : BitVec 4) (get : β → Num32)
    (P : β → Prop) (hP : ∀ b r, P b → P (matrixAdd B b r))
    (hget : ∀ b r, P b → get (matrixAdd B b r) =
      if r.valid && r.dst == dst && r.en then
        (match src r.src with
        | some x => fadd (get b) x
        | none => get b)
      else get b)
    (T : List Route) (b : β) (hb : P b) :
    get (T.foldl (matrixAdd B) b) =
      (((T.filter fun r => r.valid && r.dst == dst).filter Route.en).filterMap fun r => src r.src).foldl fadd (get b) := by
  induction T generalizing b with
  | nil => rfl
  | cons r T ih =>
    rw [List.foldl_cons, ih _ (hP b r hb), hget b r hb]
    by_cases h1 : (r.valid && r.dst == dst) = true <;> by_cases h2 : r.en = true <;>
      cases h3 : src r.src <;> simp [h1, h2, h3]

end Sys2Proof.Machine
end

