-- ==== Sys2Proof/Laws/PerInstr.lean ====
section
/-! SUPPORT. The per-instruction family `EncodingShape`: a well-formed command's header is of a defined opcode of the
command's port, has every reserved bit 0, and is followed by as many words as that opcode takes (30_encoding.md R110
to R119). -/

namespace Sys2Proof.Laws.EncodingShape

/-- What every form's encoding satisfies. -/
def Statement (i : Instr) : Prop :=
  i.wf = true → ∃ f, formatOf (opcodeOf i.header) = some f ∧ f.port = i.port ∧ f.payload = i.payload.length ∧
    reservedSet f i.header = false

/-- The shape follows from the header's opcode and its reserved fields. -/
theorem of_fields {i : Instr} {f : Format} (op : Nat) (ho : field i.headerNat 24 8 = op) (hf : formatOf op = some f)
    (hp : f.port = i.port) (hl : f.payload = i.payload.length)
    (hr : ∀ r ∈ f.reserved, field i.headerNat r.1 r.2 = 0) :
    ∃ f, formatOf (opcodeOf i.header) = some f ∧ f.port = i.port ∧ f.payload = i.payload.length ∧
      reservedSet f i.header = false := by
  refine ⟨f, by rw [opcodeOf_header, ho, hf], hp, hl, ?_⟩
  rw [reservedSet, List.any_eq_false]
  intro r h
  rw [Instr.header_toNat, hr r h]
  decide

/-- The shape of the 24 SETPARAM forms. -/
theorem of_setparam (id : ParamId) (v : Word) : Statement (id.instr v) := by
  intro _
  obtain ⟨h1, h2, _⟩ := field_setparam id v
  refine of_fields 0x40 h1 rfl (port_instr id v).symm (by rw [payload_instr]; rfl) ?_
  simpa using h2

theorem prepare (d : BitVec 64) (m c : Nat) : Statement (.prepare d m c) := by
  intro h
  simp only [Instr.wf, Bool.and_eq_true, decide_eq_true_eq] at h
  exact of_fields 0x01 (field_prepare d m c h.1 h.2).1 rfl rfl rfl (by simp)

theorem setvoices (n : Nat) : Statement (.setvoices n) := by
  intro h
  simp only [Instr.wf, decide_eq_true_eq] at h
  obtain ⟨h1, h2, _⟩ := field_setvoices n h
  exact of_fields 0x02 h1 rfl rfl rfl (by simpa using h2)

theorem noteon (c m : Nat) (v : Word) : Statement (.noteon c m v) := by
  intro h
  simp only [Instr.wf, Bool.and_eq_true, decide_eq_true_eq] at h
  obtain ⟨h1, _, h2, _, h3⟩ := field_noteon c m v h.1 h.2
  exact of_fields 0x10 h1 rfl rfl rfl (by simpa using ⟨h2, h3⟩)

theorem noteoff (c m : Nat) (v : Word) (t : Bool) : Statement (.noteoff c m v t) := by
  intro h
  simp only [Instr.wf, Bool.and_eq_true, decide_eq_true_eq] at h
  obtain ⟨h1, _, h2, _, h3, _⟩ := field_noteoff c m v t h.1 h.2
  exact of_fields 0x11 h1 rfl rfl rfl (by simpa using ⟨h2, h3⟩)

theorem render (a b : Nat) : Statement (.render a b) := by
  intro h
  simp only [Instr.wf, Bool.and_eq_true, decide_eq_true_eq] at h
  obtain ⟨h1, h2, _⟩ := field_render a b h.2
  exact of_fields 0x20 h1 rfl rfl rfl (by simpa using h2)

theorem route (sc : Scope) (ix : Nat) (va en : Bool) (s d : Nat) : Statement (.route sc ix va en s d) := by
  intro h
  simp only [Instr.wf, Bool.and_eq_true, decide_eq_true_eq] at h
  obtain ⟨h1, _, _, h2, _, _, h3, _, h4, _⟩ := field_route sc ix va en s d h.1.1 h.1.2 h.2
  exact of_fields 0x30 h1 rfl rfl rfl (by simpa using ⟨h2, h3, h4⟩)

theorem setOscWaveform (v : Word) : Statement (.setOscWaveform v) := of_setparam .oscWaveform v
theorem setOscAntialias (v : Word) : Statement (.setOscAntialias v) := of_setparam .oscAntialias v
theorem setOscDetune (v : Word) : Statement (.setOscDetune v) := of_setparam .oscDetune v
theorem setOscPanspread (v : Word) : Statement (.setOscPanspread v) := of_setparam .oscPanspread v
theorem setOscFmdepth (v : Word) : Statement (.setOscFmdepth v) := of_setparam .oscFmdepth v
theorem setFiltCutoff (v : Word) : Statement (.setFiltCutoff v) := of_setparam .filtCutoff v
theorem setFiltResonance (v : Word) : Statement (.setFiltResonance v) := of_setparam .filtResonance v
theorem setFiltModdepth (v : Word) : Statement (.setFiltModdepth v) := of_setparam .filtModdepth v
theorem setEnv1Attack (v : Word) : Statement (.setEnv1Attack v) := of_setparam .env1Attack v
theorem setEnv1Decay (v : Word) : Statement (.setEnv1Decay v) := of_setparam .env1Decay v
theorem setEnv1Sustain (v : Word) : Statement (.setEnv1Sustain v) := of_setparam .env1Sustain v
theorem setEnv1Release (v : Word) : Statement (.setEnv1Release v) := of_setparam .env1Release v
theorem setEnv1Mode (v : Word) : Statement (.setEnv1Mode v) := of_setparam .env1Mode v
theorem setEnv1RatioA (v : Word) : Statement (.setEnv1RatioA v) := of_setparam .env1RatioA v
theorem setEnv1RatioDr (v : Word) : Statement (.setEnv1RatioDr v) := of_setparam .env1RatioDr v
theorem setEnv2Attack (v : Word) : Statement (.setEnv2Attack v) := of_setparam .env2Attack v
theorem setEnv2Decay (v : Word) : Statement (.setEnv2Decay v) := of_setparam .env2Decay v
theorem setEnv2Sustain (v : Word) : Statement (.setEnv2Sustain v) := of_setparam .env2Sustain v
theorem setEnv2Release (v : Word) : Statement (.setEnv2Release v) := of_setparam .env2Release v
theorem setEnv2Mode (v : Word) : Statement (.setEnv2Mode v) := of_setparam .env2Mode v
theorem setEnv2RatioA (v : Word) : Statement (.setEnv2RatioA v) := of_setparam .env2RatioA v
theorem setEnv2RatioDr (v : Word) : Statement (.setEnv2RatioDr v) := of_setparam .env2RatioDr v
theorem setLfoAmount (v : Word) : Statement (.setLfoAmount v) := of_setparam .lfoAmount v
theorem setLfoFreq (v : Word) : Statement (.setLfoFreq v) := of_setparam .lfoFreq v

end Sys2Proof.Laws.EncodingShape
end

