-- ==== Sys2Proof/Machine/Pseudo.lean ====
section
/-! DEFINITION. The names of 30_encoding.md R124 and the pseudo-commands of R127, as functions to commands. There is no
reader of text (log entry 22). -/

namespace Sys2Proof.Machine

/-- The id of a source symbol in a scope (R124). -/
def sourceId : Scope → String → Option Nat
  | .voice, "ENV1" => some 0
  | .voice, "ENV2" => some 1
  | .global, "LFO" => some 0
  | _, _ => none

/-- The id of a destination symbol in a scope (R124). -/
def destinationId : Scope → String → Option Nat
  | .voice, "FILT_MOD_IN" => some 0
  | .voice, "AMP_GAIN_IN" => some 1
  | .global, "OSC_FM_IN" => some 0
  | .global, "FILT_CUTOFF_IN" => some 1
  | _, _ => none

/-- `NOTEON midiNote, velocity` (R127). -/
def pseudoNoteon (midiNote : Nat) (velocity : Word) : Instr := .noteon 0 midiNote velocity

/-- `NOTEOFF midiNote, allowTailOff` (R127). -/
def pseudoNoteoff (midiNote : Nat) (allowTailOff : Bool) : Instr := .noteoff 0 midiNote Num32.zero allowTailOff

/-- `ROUTEOFF scope, index` (R127): empties the entry. -/
def pseudoRouteoff (scope : Scope) (index : Nat) : Instr := .route scope index false false 0 0

/-- `ROUTEEN scope, index, src, dst` (R127). -/
def pseudoRouteen (scope : Scope) (index src dst : Nat) : Instr := .route scope index true true src dst

/-- `ROUTEDIS scope, index, src, dst` (R127): keeps the route, clears its enabled flag. -/
def pseudoRoutedis (scope : Scope) (index src dst : Nat) : Instr := .route scope index true false src dst

/-- `RENDERN startSample, total, block` (R127), with at most `k` commands; none for a block of 0. -/
def rendernFrom (startSample block : Nat) : Nat → Nat → List Instr
  | 0, _ => []
  | k + 1, left =>
    if left = 0 ∨ block = 0 then []
    else .render startSample (min block left) :: rendernFrom startSample block k (left - block)

/-- `RENDERN startSample, total, block` (R127): `ceil(total / block)` RENDER commands. -/
def pseudoRendern (startSample total block : Nat) : List Instr := rendernFrom startSample block total total

end Sys2Proof.Machine
end

