-- ==== Sys2Proof/Tests/Slice0.lean ====
section
/-! SUPPORT. Tests: words and vectors of the spec (95_test_vectors.md T<n>, 30_encoding.md R128), the smoke test of
`WellFormed`, and for each statement a witness that meets its hypotheses. Every expected value is the spec's. -/

namespace Sys2Proof.Tests

open Sys2Proof Sys2Proof.Machine

/- Each test asks the kernel; one after another, they do not wait for each other in threads. -/
set_option Elab.async false

/-! Small states. -/

/-- A voice that sounds a note in ATTACK. -/
def sounding (n : BitVec 7) (seq : BitVec 32) (keyDown : Bool) : Voice :=
  { Voice.reset with note := some n, keyDown := keyDown, seq := seq, env1 := ⟨0#32, .attack⟩, env2 := ⟨0#32, .attack⟩ }

/-- READY at 48000 Hz, 512 samples, two channels, with these voices and the rest of the 16 free. -/
def ready (n : BitVec 8) (vs : List Voice) : State :=
  { State.reset with
    mode := .ready, fs := 0x473B8000#32, maxBlock := 512, nch := 2, nvoices := n,
    voices := vs ++ List.replicate (16 - vs.length) Voice.reset, noteSeq := 8 }

/-- HALTED after `E_CAPACITY`. -/
def halted : State := { State.reset with mode := .halted, err := 8 }

/-- The binary64 patterns of 48000.0. -/
def rate48k : BitVec 64 := 0x40E7700000000000#64

/-- The outcome is this next state. -/
def nextIs (o : Host.Outcome State Fault Refusal) (t : State) : Bool :=
  match o with
  | .next u => decide (u = t)
  | .fault _ | .refused _ => false

/-- The outcome is a next state with this property. -/
def nextHas (o : Host.Outcome State Fault Refusal) (f : State → Bool) : Bool :=
  match o with
  | .next u => f u
  | .fault _ | .refused _ => false

/-! Decoding (T10 to T18): one word of every opcode, bit by bit from R113 to R119, and the illegal ones. -/

theorem test_decode_prepare :
    decode .c [0x01021000#32, 0x00000000#32, 0x40E58880#32] = .command (.prepare 0x40E5888000000000#64 4096 2) [] := by
  decide +kernel

theorem test_decode_setvoices : decode .c [0x02000010#32] = .command (.setvoices 16) [] := by decide +kernel

theorem test_decode_noteon :
    decode .c [0x10907F00#32, 0x3F000000#32] = .command (.noteon 9 127 0x3F000000#32) [] := by decide +kernel

theorem test_decode_noteoff :
    decode .c [0x11004000#32, 0x00000000#32] = .command (.noteoff 0 64 0#32 false) [] := by decide +kernel

theorem test_decode_render : decode .c [0x20000064#32, 0x0000019C#32] = .command (.render 412 100) [] := by
  decide +kernel

theorem test_decode_route :
    decode .c [0x30820000#32] = .command (pseudoRoutedis .global 0 0 0) [] ∧
    decode .c [0x30700000#32] = .command (pseudoRouteoff .voice 7) [] ∧
    decode .c [0x30030F0F#32] = .command (pseudoRouteen .voice 0 15 15) [] ∧
    decode .c [0x30010000#32] = .command (.route .voice 0 false true 0 0) [] := by decide +kernel

/-- The header of every SETPARAM form: opcode 0x40 and the id of 10_state.md R40. -/
theorem test_decode_setparam_osc_filt :
    decode .p [0x40000000#32, 7#32] = .command (.setOscWaveform 7#32) [] ∧
    decode .p [0x40000001#32, 7#32] = .command (.setOscAntialias 7#32) [] ∧
    decode .p [0x40000002#32, 7#32] = .command (.setOscDetune 7#32) [] ∧
    decode .p [0x40000003#32, 7#32] = .command (.setOscPanspread 7#32) [] ∧
    decode .p [0x40000004#32, 7#32] = .command (.setOscFmdepth 7#32) [] ∧
    decode .p [0x40000008#32, 7#32] = .command (.setFiltCutoff 7#32) [] ∧
    decode .p [0x40000009#32, 7#32] = .command (.setFiltResonance 7#32) [] ∧
    decode .p [0x4000000A#32, 7#32] = .command (.setFiltModdepth 7#32) [] ∧
    decode .p [0x40000020#32, 7#32] = .command (.setLfoAmount 7#32) [] ∧
    decode .p [0x40000021#32, 7#32] = .command (.setLfoFreq 7#32) [] := by decide +kernel

theorem test_decode_setparam_env1 :
    decode .p [0x40000010#32, 7#32] = .command (.setEnv1Attack 7#32) [] ∧
    decode .p [0x40000011#32, 7#32] = .command (.setEnv1Decay 7#32) [] ∧
    decode .p [0x40000012#32, 7#32] = .command (.setEnv1Sustain 7#32) [] ∧
    decode .p [0x40000013#32, 7#32] = .command (.setEnv1Release 7#32) [] ∧
    decode .p [0x40000014#32, 7#32] = .command (.setEnv1Mode 7#32) [] ∧
    decode .p [0x40000015#32, 7#32] = .command (.setEnv1RatioA 7#32) [] ∧
    decode .p [0x40000016#32, 7#32] = .command (.setEnv1RatioDr 7#32) [] := by decide +kernel

theorem test_decode_setparam_env2 :
    decode .p [0x40000018#32, 7#32] = .command (.setEnv2Attack 7#32) [] ∧
    decode .p [0x40000019#32, 7#32] = .command (.setEnv2Decay 7#32) [] ∧
    decode .p [0x4000001A#32, 7#32] = .command (.setEnv2Sustain 7#32) [] ∧
    decode .p [0x4000001B#32, 7#32] = .command (.setEnv2Release 7#32) [] ∧
    decode .p [0x4000001C#32, 7#32] = .command (.setEnv2Mode 7#32) [] ∧
    decode .p [0x4000001D#32, 7#32] = .command (.setEnv2RatioA 7#32) [] ∧
    decode .p [0x4000001E#32, 7#32] = .command (.setEnv2RatioDr 7#32) [] := by decide +kernel

/-- T18a to T18i: why each is refused, and that its payload is consumed. -/
theorem test_decode_illegal :
    decode .c [0x00000000#32, 5#32] = .illegal .opcode 0x00000000#32 [5#32] ∧
    decode .p [0xFFFFFFFF#32, 5#32] = .illegal .opcode 0xFFFFFFFF#32 [5#32] ∧
    decode .c [0x02000104#32, 5#32] = .illegal .reserved 0x02000104#32 [5#32] ∧
    decode .c [0x10083C00#32, 0x3F800000#32, 5#32] = .illegal .reserved 0x10083C00#32 [5#32] ∧
    decode .c [0x20010010#32, 0#32, 5#32] = .illegal .reserved 0x20010010#32 [5#32] ∧
    decode .c [0x40000008#32, 0x447A0000#32, 5#32] = .illegal .port 0x40000008#32 [5#32] ∧
    decode .p [0x20000010#32, 0#32, 5#32] = .illegal .port 0x20000010#32 [5#32] ∧
    decode .p [0x40000005#32, 0#32, 5#32] = .noCell 0x40000005#32 [5#32] ∧
    decode .p [0x40000108#32, 0x447A0000#32, 5#32] = .illegal .reserved 0x40000108#32 [5#32] := by decide +kernel

/-- A command whose payload has not arrived waits (R121). -/
theorem test_decode_waits : decode .c [0x01021000#32, 0#32] = .wait ∧ decode .p [] = .wait := by decide +kernel

/-- `RENDERN 0, 48000, 512` is 93 times RENDER 0, 512, then RENDER 0, 384 (program P1). -/
theorem test_rendern : pseudoRendern 0 48000 512 = List.replicate 93 (.render 0 512) ++ [.render 0 384] := by
  decide +kernel

/-- The host's reading of a table row: PREPARE's 96 bits, first word lowest. -/
theorem test_decode_table_word :
    decodeTableWord 96 0x40E770000000000001020200 = some (.prepare rate48k 512 2) ∧
    decodeTableWord 64 0x3E8000004000001A = some (.setEnv2Sustain 0x3E800000#32) ∧
    decodeTableWord 32 0x02000004 = some (.setvoices 4) := by decide +kernel

/-! `WellFormed` refuses an operand one above each field, and takes the greatest. -/

theorem test_wf_smoke_refuses :
    (Instr.prepare 0 65536 0).wf = false ∧ (Instr.prepare 0 0 256).wf = false ∧ (Instr.setvoices 256).wf = false ∧
    (Instr.noteon 16 0 0).wf = false ∧ (Instr.noteon 0 128 0).wf = false ∧
    (Instr.noteoff 16 0 0 true).wf = false ∧ (Instr.noteoff 0 128 0 true).wf = false ∧
    (Instr.render 4294967296 0).wf = false ∧ (Instr.render 0 65536).wf = false ∧
    (Instr.route .voice 8 true true 0 0).wf = false ∧ (Instr.route .voice 0 true true 16 0).wf = false ∧
    (Instr.route .voice 0 true true 0 16).wf = false := by decide +kernel

theorem test_wf_smoke_accepts :
    (Instr.prepare (-1) 65535 255).wf = true ∧ (Instr.setvoices 255).wf = true ∧ (Instr.noteon 15 127 (-1)).wf = true ∧
    (Instr.noteoff 15 127 (-1) true).wf = true ∧ (Instr.render 4294967295 65535).wf = true ∧
    (Instr.route .global 7 true true 15 15).wf = true ∧ (Instr.setLfoFreq (-1)).wf = true := by decide +kernel

/-! Numbers (T1 to T9). -/

/-- T2, T3, T4. -/
theorem test_f64_to_num :
    f64ToNum 0x3379B604AAACA626#64 = 0#32 ∧ f64ToNum 0x4C63E9E4E4C2F344#64 = Num32.inf ∧
    f64ToNum rate48k = 0x473B8000#32 ∧ f64ToNum 0x40E5888000000000#64 = 0x472C4400#32 ∧
    f64ToNum 0x3F847AE147AE147B#64 = 0x3C23D70A#32 ∧ f64ToNum 0x3FD3333333333333#64 = 0x3E99999A#32 ∧
    f64ToNum 0x3E112E0BE826D695#64 = 0x3089705F#32 ∧ f64ToNum 0x3FDCCCCCCCCCCCCD#64 = Num32.n045 := by decide +kernel

/-- T5. -/
theorem test_clamp :
    clamp 0x7FC00000#32 0#32 Num32.one = 0#32 ∧ clamp 0xC0400000#32 0#32 Num32.one = 0#32 ∧
    clamp 0x40E00000#32 0#32 Num32.one = Num32.one := by decide +kernel

/-- T6: 0.0, 0.49, 0.5, 1.0, 1.5, 99.0, NaN, -4.0. -/
theorem test_wsel :
    [0#32, 0x3EFAE148#32, 0x3F000000#32, 0x3F800000#32, 0x3FC00000#32, 0x42C60000#32, 0x7FC00000#32, 0xC0800000#32].map
      wsel = [.triangle, .triangle, .saw, .saw, .square, .square, .triangle, .triangle] := by decide +kernel

/-- T7: 0.0, 0.49, 0.5, 1.0, NaN, -1.0. -/
theorem test_flag :
    [0#32, 0x3EFAE148#32, 0x3F000000#32, 0x3F800000#32, 0x7FC00000#32, 0xBF800000#32].map flag =
      [false, false, true, true, false, false] := by decide +kernel

/-- T8. -/
theorem test_exp2 :
    hw.num.exp2 0#32 = Num32.one ∧ hw.num.exp2 Num32.one = Num32.two ∧ hw.num.exp2 Num32.negOne = Num32.half ∧
    hw.num.exp2 Num32.two = Num32.four := by decide +kernel

/-- T9. -/
theorem test_div :
    fdiv Num32.one Num32.twelve = 0x3DAAAAAB#32 ∧ fdiv 0xC1100000#32 Num32.twelve = 0xBF400000#32 ∧
    fdiv 0xC0800000#32 Num32.twelve = 0xBEAAAAAB#32 ∧ fdiv 0x40A00000#32 Num32.twelve = 0x3ED55555#32 := by
  decide +kernel

/-- The ratio bounds are 1e-9 and 100.0 rounded to binary32 (00_scope.md R6, R16), and the stand-in kernel starts from the
reset history (42_filter.md R208). -/
theorem test_configuration :
    hw.ratioMin = f64ToNum 0x3E112E0BE826D695#64 ∧ hw.ratioMax = intToNum 100 ∧ hw.a4Hz = intToNum 440 ∧
    hw.filt.initWords = resetHist := by decide +kernel

/-- 0.5 is a power of two with half as wide places below it, 2^-126 is not; the middle of the place above 0.5 is
0.5 + 2^-25. -/
theorem test_binade :
    isBinade 0x3F000000 = true ∧ isBinade 0x00800000 = false ∧ isBinade 0x3F000001 = false ∧
    binadeMid 0x3F000000 = 2 ^ 148 + 2 ^ 124 := by decide +kernel

/-- The search of the library functions finds the binary32 values next below exp(-0.25) = 0.77880078307140 and
ln(2) = 0.69314718055995, and for T35 that next below 2^-0.75 = 0.59460355750136. -/
theorem test_library_search :
    expBelow 0xBE800000#32 = 0x3F475F7C ∧ ofPlace (lnBelow Num32.two) = 0x3F317217#32 ∧
    exp2Below 0xBF400000#32 = 0x3F1837F0 := by decide +kernel

/-! Oscillator (T20 to T34). -/

/-- T20. -/
theorem test_blep :
    blep 0x3B800000#32 0x3C800000#32 = 0xBF100000#32 ∧ blep 0x3F7F0000#32 0x3C800000#32 = 0x3F100000#32 ∧
    blep 0#32 0x3C800000#32 = Num32.negOne ∧ blep Num32.half 0x3C800000#32 = 0#32 ∧
    blep 0x3E99999A#32 0#32 = 0#32 ∧ blep 0x3E99999A#32 0xBDCCCCCD#32 = 0#32 := by decide +kernel

/-- T21, T22: saw at 1/256; square at 0, at 0.5 (phase PI), at 0.25, at 127/256. -/
theorem test_waves :
    waveSaw false 0x3B800000#32 0x3C800000#32 = 0xBF7E0000#32 ∧ waveSaw true 0x3B800000#32 0x3C800000#32 = 0xBEDC0000#32 ∧
    waveSquare true 0#32 0#32 0x3C800000#32 = 0#32 ∧ waveSquare true Num32.pi Num32.half 0x3C800000#32 = 0#32 ∧
    waveSquare true 0x3FC90FDB#32 0x3E800000#32 0x3C800000#32 = Num32.one ∧
    waveSquare true 0x40478A1B#32 0x3EFE0000#32 0x3C800000#32 = 0x3EE00000#32 := by decide +kernel

/-- The comment of 40_oscillator.md R154: a NaN phase gives -1.0, and a NaN with antialiasing. -/
theorem test_square_nan_phase :
    waveSquare false 0x7FC00000#32 0x7FC00000#32 0x3C800000#32 = Num32.negOne ∧
    isNaN (waveSquare true 0x7FC00000#32 0x7FC00000#32 0x3C800000#32) = true :=
  ⟨by decide +kernel, isNaN_fsub_left _ (isNaN_fadd_left _ rfl)⟩

/-- T23: the numbers. -/
theorem test_wrap :
    wrap 0x40E00000#32 = 0x3F378128#32 ∧ wrap Num32.negOne = 0x40A90FDB#32 ∧ wrap Num32.twoPi = 0#32 := by
  decide +kernel

/-- T24: two samples of the triangle at 12000 Hz. -/
theorem test_process_sample :
    let o : Osc := { Osc.reset with ramp := Ramp.jump 0x463B8000#32 }
    let a := o.processSample .triangle true 0x473B8000#32
    let b := a.2.processSample .triangle true 0x473B8000#32
    a.1 = Num32.one ∧ a.2.inc = 0x3FC90FDB#32 ∧ a.2.phase = 0x3FC90FDB#32 ∧ b.1 = 0#32 ∧ b.2.phase = 0x40490FDB#32 := by
  decide +kernel

/-- T29, T30, T31. -/
theorem test_frequency :
    (Osc.reset.setBaseFrequency hw 100 Num32.one 0#32 0#32 0#32 0x43DC0000#32).ramp = Ramp.jump 0x43DC0000#32 ∧
    (({ Ramp.reset with cur := 0x42C80000#32 } : Ramp).retarget 100 0x43480000#32).next.cur = 0x42CA0000#32 ∧
    hw.freqLaw 0x43DC0000#32 Num32.one Num32.one 0#32 0#32 = 0x445C0000#32 ∧
    hw.freqLaw 0x43DC0000#32 Num32.negOne Num32.one 0#32 0#32 = 0x435C0000#32 := by decide +kernel

/-- T32, T33. -/
theorem test_spread :
    (spread 2 Num32.half Num32.one 0x3F4CCCCD#32 0 = 0x3ECCCCCD#32 ∧ spread 2 Num32.half Num32.one 0x3F4CCCCD#32 1 = 0x3F4CCCCD#32) ∧
    (spread 2 Num32.half Num32.negOne 0x3F4CCCCD#32 0 = 0x3F4CCCCD#32 ∧
      spread 2 Num32.half Num32.negOne 0x3F4CCCCD#32 1 = 0x3ECCCCCD#32) ∧
    spread 2 0x40400000#32 Num32.one 0x3F4CCCCD#32 0 = 0#32 := by decide +kernel

/-! Envelope (T38, T45), filter (T50 to T55), amplifier (T65), matrix (T61 to T64). -/

/-- T38: rates and the derived cells with every time 0. -/
theorem test_derive :
    rate hw 0x473B8000#32 0x41200000#32 = 0x4099999A#32 ∧ rate hw 0x473B8000#32 0x447A0000#32 = 0x43F00000#32 ∧
    rate hw 0x473B8000#32 0xC0A00000#32 = 0#32 ∧ calcCoef hw 0xC0A00000#32 0x3E99999A#32 = 0#32 ∧
    derivedOrder.map (derivedValue hw 0x473B8000#32 EnvMaster.reset) =
      [0#32, 0x3FA66666#32, 0#32, 0x3F7FF972#32, 0#32, 0xB8D1B717#32] := by decide +kernel

/-- T45, in either reading of log entry 25. -/
theorem test_envelope_ticks : ∀ capped,
    let t := fun e => Env.tick capped Derived.reset EnvMaster.reset e
    t (Env.reset.gate true) = ⟨Num32.one, .decay⟩ ∧ t ⟨Num32.one, .decay⟩ = ⟨Num32.one, .sustain⟩ ∧
    t (({ out := Num32.one, st := .sustain } : Env).gate false) = ⟨0#32, .idle⟩ := by decide +kernel

/-- Torn cells (20_memory.md R94), the reset decay base 0.9999 with a new coefficient 0.5: from level 1 the pseudocode of
41_envelope.md R181 passes 1, R188 says the level stays in [0, 1], as in this hardware (log entry 25). -/
theorem test_torn_decay :
    let t := fun capped => Env.tick capped { Derived.reset with decayCoef := Num32.half } EnvMaster.reset ⟨Num32.one, .decay⟩
    t true = ⟨Num32.one, .decay⟩ ∧ fgt (t false).out Num32.one = true := by decide +kernel

/-- The derived cells at reset with `RATIO_MIN` 0.001: `decayBase` 0.999, `releaseBase` -0.001 (10_state.md R41, 41_envelope.md
R172, R174). -/
theorem test_reset_other_ratio :
    let c : Params := { hw with
      ratioMin := 0x3A83126F#32, ratioMin_legal := by decide +kernel, ratioMax_legal := by decide +kernel }
    (State.resetOf c).der1 = ⟨0#32, 0x3FA66666#32, 0#32, 0x3F7FBE77#32, 0#32, 0xBA83126F#32⟩ := by decide +kernel

/-- A voice whose release ends at its tick in a RENDER of one sample inside a pool chunk: it is free, and its sub-chunk is open
in the next RENDER in the other reading of log entry 26 (70_reset_and_hazards.md R433), not in this hardware's. -/
theorem test_fade_out : ∀ fade,
    nextHas (execOf (readings true fade) (.render 0 1)
        { ready 1 [{ sounding 60 0 true with env1 := ⟨Num32.one, .release⟩, env2 := Env.reset }] with gcnt := 50 })
      fun t => (t.voice 0).isFree && (t.voice 0).fading == fade && (t.voice 0).ccnt == 1 := by decide +kernel

/-- T50, T52, T53. -/
theorem test_filter_tick :
    [64, 76, 52].map (keyboardTrack hw) = [Num32.one, Num32.two, Num32.half] ∧
    (Filt.tick hw ⟨0x447A0000#32, 0x3E99999A#32, Num32.two⟩ 0#32
      { Filt.reset with kbd := Num32.two, modIn := Num32.one }).fc = 0x45FA0000#32 ∧
    (Filt.tick hw ⟨0xC2480000#32, 0#32, 0#32⟩ 0#32 Filt.reset).fc = 0#32 ∧
    (Filt.tick hw ⟨0x7FC00000#32, 0#32, 0#32⟩ 0#32 Filt.reset).fc = 0#32 := by decide +kernel

/-- T55. -/
theorem test_ladder :
    ladderRun Num32.one Num32.half 0#32 2 Ladder.reset =
      ⟨0x3F400000#32, 0x3F000000#32, 0x3EA00000#32, 0x3E400000#32⟩ := by decide +kernel

/-- T65: the first four gains, and the hundredth. -/
theorem test_amp_ramp :
    let r := (Amp.tick hw { Amp.reset with gainIn := Num32.one }).ramp
    r = ⟨0#32, Num32.one, 0x3C23D70A#32, 100⟩ ∧
    [1, 2, 3, 4, 50, 99, 100].map (fun n => (Ramp.next^[n] r).cur) =
      [0x3C23D70A#32, 0x3CA3D70A#32, 0x3CF5C28F#32, 0x3D23D70A#32, 0x3EFFFFF9#32, 0x3F7D7099#32, Num32.one] := by
  decide +kernel

/-- T60 to T64: the slots (FILT_MOD_IN, AMP_GAIN_IN), both 9.0 before. -/
theorem test_matrix :
    let v : Voice := { Voice.reset with
      env1 := ⟨0x3E800000#32, .sustain⟩, env2 := ⟨Num32.half, .sustain⟩,
      filt := { Filt.reset with modIn := 0x41100000#32 }, amp := { Amp.reset with gainIn := 0x41100000#32 } }
    let slots := fun T => let w := matrixProcess true voiceBinding T v; (w.filt.modIn, w.amp.gainIn)
    slots [⟨true, true, 0, 1⟩] = (0x41100000#32, 0x3E800000#32) ∧ slots [⟨true, false, 0, 1⟩] = (0x41100000#32, 0#32) ∧
    slots resetVR = (0x3F000000#32, 0x3E800000#32) ∧
    slots [⟨true, true, 0, 1⟩, ⟨true, true, 1, 1⟩] = (0x41100000#32, 0x3F400000#32) ∧
    slots [⟨true, true, 0, 1⟩, ⟨true, true, 7, 1⟩, ⟨true, true, 1, 9⟩] = (0x41100000#32, 0x3E800000#32) ∧
    slots [⟨true, true, 7, 0⟩] = (0#32, 0x41100000#32) := by decide +kernel

/-- T79: the first two global ticks after PREPARE at 48000 Hz. -/
theorem test_global_tick :
    let a := lfoTick hw (ready 0 [])
    let b := lfoTick hw a
    a.lfo.inc = 0x3C567750#32 ∧ a.lfo.phase = 0x3C567750#32 ∧ b.lfo.phase = 0x3CD67750#32 ∧
    (lfoTick hw { a with par.lfoAmount := Num32.one }).lfoOut = 0x3F7DDDDE#32 := by decide +kernel

/-! Steps (T74, T85 to T92), one each. -/

/-- T85: RENDER right after reset. -/
theorem test_step_render_unprepared :
    nextIs (step { State.reset with cIn := [0x20000010#32, 0#32] })
      { State.reset with err := 0x04, errinfo := 0x20000010#32 } = true := by decide +kernel

/-- T88: PREPARE with 4097 samples; T18j: SETVOICES 17. -/
theorem test_step_config_errors :
    nextIs (step { State.reset with cIn := [0x01021001#32, 0#32, 0x40E77000#32] })
      { State.reset with err := 0x02, errinfo := 0x01021001#32 } = true ∧
    nextIs (step { State.reset with cIn := [0x02000011#32] })
      { State.reset with err := 0x02, errinfo := 0x02000011#32 } = true := by decide +kernel

/-- T90: `E_CAPACITY` halts. -/
theorem test_step_capacity :
    nextIs (step { ready 0 [] with cIn := [0x10003C00#32, 0x3F800000#32] })
      { ready 0 [] with mode := .halted, err := 0x08, errinfo := 0x10003C00#32 } = true := by decide +kernel

/-- T18h: a SETPARAM id that names no cell, on the P port. -/
theorem test_step_param_id :
    nextIs (step { State.reset with pIn := [0x40000005#32, 0#32] })
      { State.reset with err := 0x20, errinfo := 0x40000005#32, errport := .p } = true := by decide +kernel

/-- T92: a NaN cutoff is stored as given. -/
theorem test_step_setparam :
    nextIs (step { State.reset with pIn := [0x40000008#32, 0x7FC00000#32] })
      { State.reset with par.filt.cutoff := 0x7FC00000#32 } = true := by decide +kernel

/-- T91: a route to unbound ids is stored. -/
theorem test_step_route :
    nextIs (step { State.reset with cIn := [0x30030F0F#32] })
      { State.reset with vr := State.reset.vr.set 0 ⟨true, true, 15, 15⟩ } = true := by decide +kernel

/-- T70, T71, T72: the least free voice; the oldest of all; the oldest whose key is up. -/
theorem test_find_voice :
    findVoice 64 (ready 3 [Voice.reset, sounding 62 1 true]) = 0 ∧
    findVoice 60 (ready 3 [sounding 64 2 true, sounding 62 1 true]) = 2 ∧
    findVoice 64 (ready 2 [sounding 60 0 true, sounding 62 1 true]) = 0 ∧
    findVoice 64 (ready 2 [sounding 60 0 true, sounding 62 1 false]) = 1 ∧
    findVoice 62 (ready 2 [sounding 60 0 false, sounding 62 1 true]) = 1 := by decide +kernel

/-- T74: a hard note-off. -/
theorem test_noteoff_hard :
    nextHas (exec (.noteoff 0 60 0#32 false) (ready 1 [sounding 60 0 true]))
      (fun t => (t.voice 0).isFree && !(t.voice 0).isActive && !(t.voice 0).keyDown) = true := by decide +kernel

/-- T89: the range check does not wrap. -/
theorem test_render_range :
    nextHas (exec (.render 512 0) (ready 1 [])) (fun t => t.err == 0) = true ∧
    nextHas (exec (.render 500 13) (ready 1 [])) (fun t => t.err == 0x10) = true ∧
    nextHas (exec (.render 4294967295 1) (ready 1 [])) (fun t => t.err == 0x10) = true := by decide +kernel

/-- Three samples of the LFO-free block: the counter, and silence with no active voice (R300, R266). -/
theorem test_render_idle :
    nextHas (exec (.render 0 3) { ready 1 [] with gcnt := 99 }) (fun t => t.gcnt == 2 && t.buf == []) = true := by
  decide +kernel

/-- The word that `withFetchWord` places is the one `step` runs. -/
theorem test_with_fetch_word :
    nextIs (step (State.reset.withFetchWord 32 0x02000004)) { State.reset with nvoices := 4 } = true ∧
    nextIs (step (State.reset.withFetchWord 64 0x0000000740000020))
      { State.reset with par.lfoAmount := 7#32 } = true := by
  decide +kernel

/-! Witnesses: for each statement, operands and states that meet its hypotheses, at the ends of each clause's range. The
statements without hypotheses need none. -/

theorem witness_DecodeOfEncode :
    (Instr.prepare (-1) 65535 255).wf = true ∧ (Instr.setvoices 255).wf = true ∧ (Instr.noteon 15 127 (-1)).wf = true ∧
    (Instr.noteoff 15 127 (-1) true).wf = true ∧ (Instr.render 4294967295 65535).wf = true ∧
    (Instr.route .global 7 true true 15 15).wf = true ∧ ∀ id : ParamId, (id.instr (-1)).wf = true := by
  refine ⟨by decide +kernel, by decide +kernel, by decide +kernel, by decide +kernel, by decide +kernel, by decide +kernel,
    fun id => by cases id <;> rfl⟩

theorem witness_EncodeOfDecode :
    decode .c [0x30F30F0F#32, 5#32] = .command (.route .global 7 true true 15 15) [5#32] := by
  decide +kernel

theorem witness_IllegalEncodings :
    opcodeOf 0x41000000#32 ∉ [0x01, 0x02, 0x10, 0x11, 0x20, 0x30, 0x40] ∧
    (opcodeOf 0x02000100#32 = 0x02 ∧ 0x02000100#32 &&& 0xFFFFFF00#32 ≠ 0x02000000#32) ∧
    (opcodeOf 0x20000010#32 = 0x20 ∧ 0x20000010#32 &&& 0xFFFF0000#32 = 0x20000000#32 ∧ Port.p ≠ .c ∧ 1 ≤ [0#32].length) ∧
    (opcodeOf 0x40000021#32 = 0x40 ∧ 0x40000021#32 &&& 0xFFFFFF00#32 = 0x40000000#32 ∧ 1 ≤ [0#32].length ∧
      (0x40000021#32).toNat % 256 ∈ paramIds ∧ (0x40000022#32).toNat % 256 ∉ paramIds) := by
  decide +kernel

/-- Both ways in which the engine moves. -/
theorem witness_StepRunsCPortCommand :
    let i := Instr.setvoices 4
    let s := { State.reset with cIn := encode i ++ [5#32] }
    i.wf = true ∧ i.port = .c ∧ EngineMoves s [] ∧ EngineMoves { s with events := [.engine, .rst] } [.rst] ∧
    s.cIn = encode i ++ [5#32] ∧ (i.isConfig = true → s.pbusy = false) :=
  ⟨rfl, rfl, .inr ⟨rfl, rfl⟩, .inl rfl, rfl, fun _ => rfl⟩

/-- Every way in which the writer moves. -/
theorem witness_StepRunsPPortCommand :
    let i := Instr.setLfoFreq 7#32
    let s := { State.reset with pIn := encode i }
    i.wf = true ∧ i.port = .p ∧ WriterMoves s [] ∧ WriterMoves { s with events := [.writer] } [] ∧
    WriterMoves { s with pbusy := true, cIn := encode (.setvoices 4) } [] ∧ s.pPend = [] ∧ s.pIn = encode i ++ [] :=
  ⟨rfl, rfl, .inr ⟨rfl, rfl, .inl rfl⟩, .inl rfl, .inr ⟨rfl, rfl, .inr ⟨.setvoices 4, [], by decide +kernel, rfl, rfl⟩⟩, rfl,
    rfl⟩

/-- With no C-port command, and with one that the interlock holds. -/
theorem witness_StepWritesNextDerivedCell :
    let s := { State.reset with pPend := [(.env1, .decayBase)], pbusy := true }
    WriterMoves s [] ∧ WriterMoves { s with cIn := encode (.setvoices 4) } [] ∧ s.pPend = (.env1, .decayBase) :: [] :=
  ⟨.inr ⟨rfl, rfl, .inl rfl⟩, .inr ⟨rfl, rfl, .inr ⟨.setvoices 4, [], by decide +kernel, rfl, rfl⟩⟩, rfl⟩

theorem witness_StepDropsIllegalCommand :
    (let s := { State.reset with cIn := [0x02000104#32] }
     EngineMoves s [] ∧ decode .c s.cIn = .illegal .reserved 0x02000104#32 []) ∧
    (let s := { State.reset with pIn := [0xFFFFFFFF#32] }
     WriterMoves s [] ∧ s.pPend = [] ∧ decode .p s.pIn = .illegal .opcode 0xFFFFFFFF#32 []) ∧
    (let s := { State.reset with pIn := [0x40000005#32, 0#32] }
     WriterMoves s [] ∧ s.pPend = [] ∧ decode .p s.pIn = .noCell 0x40000005#32 []) :=
  ⟨⟨.inr ⟨rfl, rfl⟩, by decide +kernel⟩, ⟨.inr ⟨rfl, rfl, .inl rfl⟩, rfl, by decide +kernel⟩,
    ⟨.inr ⟨rfl, rfl, .inl rfl⟩, rfl, by decide +kernel⟩⟩

theorem witness_StepHoldsInterlockedCommand :
    let i := Instr.setvoices 4
    let s := { State.reset with
      cIn := encode i, pPend := [(.env1, .decayBase)], pbusy := true, events := [.engine, .writer] }
    i.wf = true ∧ i.isConfig = true ∧ s.pbusy = true ∧ s.events = .engine :: [.writer] ∧ s.cIn = encode i ++ [] :=
  ⟨rfl, rfl, rfl, rfl, rfl⟩

theorem witness_StepIdleHoldsState :
    State.reset.events = [] ∧ State.reset.pPend = [] ∧ decode .c State.reset.cIn = .wait ∧
    decode .p { State.reset with pIn := [0x40000000#32] }.pIn = .wait := by decide +kernel

theorem witness_StepReset : { ready 1 [sounding 60 0 true] with events := [.rst, .engine] }.events = .rst :: [.engine] := rfl

/-- A write of the last word of the buffer and of the first address outside; `busy = 1`; a write chosen while RENDER runs. -/
theorem witness_HostBufferAccess :
    (let s := { State.reset with buf := [(8191, 7#32)], events := [.hostWrite 8191 5#32] }
     s.busy = false ∧ Memory.wf (bufferWords hw) s.buf = true ∧ s.events = .hostWrite 8191 5#32 :: [] ∧ 8191 < 8192 ∧
     Memory.read s.buf 8191 = 7#32 ∧ Memory.read s.buf 8190 = 0#32) ∧
    (let s := { State.reset with events := [.hostWrite 8192 5#32] }
     s.busy = false ∧ Memory.wf (bufferWords hw) s.buf = true ∧ s.events = .hostWrite 8192 5#32 :: [] ∧ 8192 ≤ 8192) ∧
    { State.reset with busy := true }.busy = true ∧
    (let s := { ready 1 [] with events := [.writer, .engine, .hostWrite 0 5#32, .rst] }
     s.mode = .ready ∧ 0 + 512 ≤ s.maxBlock.toNat ∧ (∀ e ∈ [Event.writer, .engine], e = .engine ∨ e = .writer) ∧
     s.events = [.writer, .engine] ++ .hostWrite 0 5#32 :: [.rst]) := by decide +kernel

theorem witness_ErrorRecord :
    let s := { halted with cIn := [0x20000010#32, 0#32] }
    (∃ t, step s = .next t) ∧ .rst ∉ s.events ∧ s.err ≠ 0 :=
  ⟨⟨_, rfl⟩, by decide +kernel, by decide +kernel⟩

/-- HALTED; each argument one outside its range; the ends of the ranges. -/
theorem witness_PrepareCommand :
    halted.mode = .halted ∧ State.reset.mode ≠ .halted ∧
    ¬ (fgt (f64ToNum 0#64) 0#32 = true) ∧ ¬ (f64ToNum 0x7FEFFFFFFFFFFFFF#64 ≠ Num32.inf) ∧ ¬ (1 ≤ 0 ∧ 0 ≤ 4096) ∧
    ¬ (1 ≤ 4097 ∧ 4097 ≤ 4096) ∧ ¬ (1 ≤ 3 ∧ 3 ≤ 2) ∧
    (fgt (f64ToNum rate48k) 0#32 = true ∧ f64ToNum rate48k ≠ Num32.inf ∧ (1 ≤ 4096 ∧ 4096 ≤ 4096) ∧ (1 ≤ 1 ∧ 1 ≤ 2)) := by
  decide +kernel

theorem witness_PrepareIdempotent : ∃ t, exec (.prepare rate48k 512 2) State.reset = .next t := ⟨_, rfl⟩

theorem witness_SetvoicesCommand :
    halted.mode = .halted ∧ ((ready 3 []).mode ≠ .halted ∧ 16 < 17) ∧ ((ready 3 []).mode ≠ .halted ∧ 16 ≤ 16) := by
  decide +kernel

theorem witness_RouteCommand :
    halted.mode = .halted ∧ ((ready 3 []).mode ≠ .halted ∧ 8 ≤ 8) ∧ ((ready 3 []).mode ≠ .halted ∧ 7 < 8) := by
  decide +kernel

theorem leastFree_witness : LeastFree (ready 2 [sounding 60 0 true]) 1 :=
  ⟨by decide +kernel, by decide +kernel, by decide +kernel⟩

/-- Each tier of the steal, with no voice free. -/
theorem stealChoice_witness :
    (let s := ready 2 [sounding 60 0 true, sounding 62 1 true]
     (∀ w < s.nvoices.toNat, (s.voice w).note ≠ none) ∧ StealChoice s 62 1 ∧ StealChoice s 64 0) ∧
    (let s := ready 2 [sounding 60 0 true, sounding 62 1 false]
     (∀ w < s.nvoices.toNat, (s.voice w).note ≠ none) ∧ StealChoice s 64 1) := by
  refine ⟨⟨by decide +kernel, .inl ⟨?_, ?_, ?_⟩, .inr (.inr ⟨?_, ?_, ?_, ?_⟩)⟩, by decide +kernel,
    .inr (.inl ⟨?_, ?_, ?_, ?_⟩)⟩ <;> decide +kernel

theorem witness_NoteonCommand :
    State.reset.mode ≠ .ready ∧ ((ready 0 []).mode = .ready ∧ (ready 0 []).nvoices = 0) ∧
    ((ready 1 []).mode = .ready ∧ (ready 1 []).nvoices ≠ 0) ∧ (∃ s v, s.mode = .ready ∧ LeastFree s v) ∧
    (∃ s v, s.mode = .ready ∧ (∀ w < s.nvoices.toNat, (s.voice w).note ≠ none) ∧ StealChoice s 64 v) :=
  ⟨by decide +kernel, ⟨rfl, rfl⟩, ⟨rfl, by decide +kernel⟩, ⟨_, 1, rfl, leastFree_witness⟩,
    ⟨_, 0, rfl, stealChoice_witness.1.1, stealChoice_witness.1.2.2⟩⟩

theorem witness_NoteoffCommand : State.reset.mode ≠ .ready ∧ (ready 1 [sounding 60 0 true]).mode = .ready := by decide +kernel

theorem witness_ForcedStopFrees :
    let s := ready 1 [sounding 60 0 true]
    s.mode = .ready ∧ 0 < s.nvoices.toNat ∧ 0 < s.voices.length ∧ (s.voice 0).note = some 60 ∧
    ∃ t, exec (.noteoff 0 (60 : BitVec 7).toNat 0#32 false) s = .next t :=
  ⟨rfl, by decide +kernel, by decide +kernel, by decide +kernel, _, rfl⟩

theorem witness_HaltedAdmitsNothing :
    ((Instr.setvoices 4).port = .c ∧ halted.mode = .halted) ∧
    ((Instr.setLfoFreq 7#32).port = .p ∧ ∃ t, exec (.setLfoFreq 7#32) halted = .next t) :=
  ⟨⟨rfl, rfl⟩, rfl, _, rfl⟩

/-- Both ways in which the mode changes. -/
theorem witness_ModeChanges :
    (∃ t, exec (.prepare rate48k 512 2) State.reset = .next t ∧ t.mode ≠ State.reset.mode) ∧
    (∃ t, exec (.noteon 0 60 0#32) (ready 0 []) = .next t ∧ t.mode ≠ (ready 0 []).mode) ∧ .rst ∉ State.reset.events :=
  ⟨⟨_, rfl, by decide +kernel⟩, ⟨_, rfl, by decide +kernel⟩, by decide +kernel⟩

/-- The three statements about the derived writes ask only for no chosen move. -/
theorem witness_SetparamForms : (ready 1 []).events = [] := rfl

/-- The first derived write of the pair is done, the second is not. -/
theorem witness_SetparamSequenceIsTorn :
    (Event.engine ≠ .writer ∧ { State.reset with events := [.engine] }.events = .engine :: []) ∧
    (let s := { State.reset with events := [.writer, .engine] }
     s.events = List.replicate 1 .writer ++ .engine :: [] ∧ 1 ≤ (sequenceOf .env1Attack).length ∧
     ∃ t, exec (ParamId.env1Attack.instr 7#32) s = .next t) :=
  ⟨⟨by decide +kernel, rfl⟩, rfl, by decide +kernel, _, rfl⟩

theorem witness_RenderRejected :
    State.reset.mode ≠ .ready ∧ ((ready 1 []).mode = .ready ∧ (ready 1 []).maxBlock.toNat < 500 + 13) := by decide +kernel

theorem witness_RenderCompletes :
    let s := { ready 1 [sounding 60 0 true] with gcnt := 99, events := [.writer, .engine] }
    s.mode = .ready ∧ 0 + 512 ≤ s.maxBlock.toNat ∧ s.gcnt.toNat < 100 ∧ .rst ∉ s.events := by decide +kernel

theorem witness_RenderLeavesWriterState :
    let s := { ready 1 [sounding 60 0 true] with events := [.engine] }
    (s.mode = .ready ∧ 0 + 512 ≤ s.maxBlock.toNat ∧ .rst ∉ s.events ∧ .writer ∉ s.events) ∧
    ∃ t, exec (.render 0 512) s = .next t :=
  ⟨by decide +kernel, _, rfl⟩

/-- Idle voices; and in the other reading of log entry 26 one whose fade-out an earlier RENDER left open, a pool chunk due. -/
theorem witness_RenderSilentWhenIdle :
    (let s := ready 1 []
     (s.mode = .ready ∧ 0 + 512 ≤ s.maxBlock.toNat ∧ .rst ∉ s.events ∧
       (∀ v < s.nvoices.toNat, (s.voice v).isActive = false) ∧ ∀ v < s.nvoices.toNat, (s.voice v).fading = false) ∧
     (∃ t, exec (.render 0 512) s = .next t) ∧ ∃ t, execOf (readings true true) (.render 0 512) s = .next t) ∧
    (let s := ready 1 [{ Voice.reset with fading := true, ccnt := 1 }]
     (s.mode = .ready ∧ 0 + 512 ≤ s.maxBlock.toNat ∧ .rst ∉ s.events ∧
       (∀ v < s.nvoices.toNat, (s.voice v).isActive = false) ∧ s.gcnt = 0) ∧
     ∃ t, execOf (readings true true) (.render 0 512) s = .next t) :=
  ⟨⟨by decide +kernel, ⟨_, rfl⟩, _, rfl⟩, by decide +kernel, _, rfl⟩

/-- With the global tick due, and a chunk that ends just before the next. -/
theorem witness_RenderOneChunk :
    let s := { ready 1 [sounding 60 0 true] with gcnt := 99 }
    (s.mode = .ready ∧ 0 + 1 ≤ s.maxBlock.toNat ∧ s.events = [] ∧ s.gcnt.toNat + 1 ≤ 100 ∧ 0 < 1) ∧
    (ready 1 []).gcnt.toNat + 100 ≤ 100 := by decide +kernel

/-- Inside a pool chunk, three voices: no tick due within 40 samples, idle, a tick due in ATTACK. -/
def threeVoices : State :=
  { ready 3 [{ sounding 60 0 true with ccnt := 60 }, Voice.reset, sounding 62 1 true] with gcnt := 60 }

/-- `threeVoices` after one sample. -/
def threeVoicesOn : State := renderCommand hw (Instr.render 0 1).header 0 1 threeVoices

/-- At the end of a pool chunk; inside one with three voices, up to both ends: no tick due, idle, and active after its tick; and
in the other reading of log entry 26 with a voice that ends at its tick. -/
theorem witness_RenderSplitsAtControlTick :
    (let s := { ready 1 [sounding 60 0 true] with gcnt := 60 }
     (s.mode = .ready ∧ 0 + 40 + 100 ≤ s.maxBlock.toNat ∧ s.events = [] ∧ s.gcnt.toNat < 100 ∧
       (s.gcnt.toNat + 40) % 100 = 0) ∧
     ∃ t u, exec (.render 0 40) s = .next t ∧ exec (.render (0 + 40) 100) t = .next u) ∧
    (let s := threeVoices
     (s.mode = .ready ∧ 0 + 1 + 39 ≤ s.maxBlock.toNat ∧ s.maxBlock.toNat ≤ 4096 ∧ Memory.wf (bufferWords hw) s.buf = true ∧
       s.events = [] ∧ s.gcnt.toNat + 1 + 39 ≤ 100 ∧ ∀ v < s.nvoices.toNat, (s.voice v).ccnt.toNat < 100) ∧
     exec (.render 0 1) s = .next threeVoicesOn ∧ (∃ u, exec (.render (0 + 1) 39) threeVoicesOn = .next u) ∧
     ∀ v < s.nvoices.toNat, (s.voice v).isActive = false ∨ (threeVoicesOn.voice v).isActive = true ∨
       (s.voice v).ccnt ≠ 0 ∧ (s.voice v).ccnt.toNat + 1 + 39 ≤ 100) ∧
    (let s := { ready 1 [{ sounding 60 0 true with env1 := ⟨Num32.one, .release⟩, env2 := Env.reset }] with gcnt := 60 }
     (s.mode = .ready ∧ 0 + 1 + 39 ≤ s.maxBlock.toNat ∧ s.maxBlock.toNat ≤ 4096 ∧ Memory.wf (bufferWords hw) s.buf = true ∧
       s.events = [] ∧ s.gcnt.toNat + 1 + 39 ≤ 100 ∧ ∀ v < s.nvoices.toNat, (s.voice v).ccnt.toNat < 100) ∧
     ∃ t u, execOf (readings true true) (.render 0 1) s = .next t ∧ (t.voice 0).isActive = false ∧
       execOf (readings true true) (.render (0 + 1) 39) t = .next u) :=
  ⟨⟨by decide +kernel, _, _, rfl, rfl⟩, ⟨by decide +kernel, by unfold threeVoicesOn; rfl, ⟨_, rfl⟩, by decide +kernel⟩,
    by decide +kernel, _, _, rfl, by decide +kernel, rfl⟩

/-- The greatest block, two channels, four voices: one before its tick, one idle, one with its tick due in ATTACK, and one
that ends there. -/
def fourVoices (gcnt : BitVec 16) : State :=
  { ready 4 [{ sounding 60 0 true with ccnt := 99 }, Voice.reset, sounding 62 1 true,
      { sounding 64 2 true with env1 := ⟨Num32.one, .release⟩, env2 := Env.reset }] with maxBlock := 4096, gcnt := gcnt }

/-- The last sample, one before the global tick and with it due. -/
theorem witness_RenderOneSample : ∀ s ∈ [fourVoices 99, fourVoices 0],
    s.mode = .ready ∧ 4095 + 1 ≤ s.maxBlock.toNat ∧ s.maxBlock.toNat ≤ 4096 ∧ s.events = [] ∧
    s.gcnt.toNat < 100 ∧ (∀ v < s.nvoices.toNat, (s.voice v).ccnt.toNat < 100) ∧
    1 ≤ s.nch.toNat ∧ s.nch.toNat ≤ 2 ∧ Memory.wf (bufferWords hw) s.buf = true ∧
    isNaN s.par.lfoFreq = false ∧ isNaN { s with par.lfoFreq := 0x7FC00000#32 }.par.lfoFreq = true := by
  decide +kernel

/-- Two active voices and an idle one between them: each record is its own, each counter moves by the sample (45_voice.md R262). -/
theorem test_two_voices :
    let s := { ready 3 [{ sounding 60 0 true with ccnt := 3 }, Voice.reset, { sounding 62 1 true with ccnt := 98 }] with gcnt := 7 }
    nextHas (exec (.render 9 1) s) fun t =>
      (t.voice 0).ccnt == 4 && (t.voice 1 == Voice.reset) && (t.voice 2).ccnt == 99 && (t.voice 0).note == some 60 &&
      (t.voice 2).note == some 62 := by decide +kernel

/-- At the first boundary with a global tick due; after other moves; after the third of 40 samples, and after the last. -/
theorem witness_RenderAbandonedByReset :
    (let s := { ready 1 [sounding 60 0 true] with events := [.rst] }
     s.mode = .ready ∧ 0 + 512 ≤ s.maxBlock.toNat ∧ 0 < 512 ∧ s.gcnt = 0 ∧ s.events = .rst :: []) ∧
    (let s := { ready 1 [sounding 60 0 true] with events := [.engine, .writer, .rst, .engine] }
     (s.mode = .ready ∧ 0 + 512 ≤ s.maxBlock.toNat ∧ Memory.wf (bufferWords hw) s.buf = true ∧
       (∀ e ∈ [Event.engine, .writer], e = .engine ∨ e = .writer) ∧ s.events = [.engine, .writer] ++ .rst :: [.engine]) ∧ ∃ t, exec (.render 0 512) s = .next t) ∧
    (let s : State := { ready 1 [{ sounding 60 0 true with ccnt := 60 }] with
       gcnt := 60, events := List.replicate (3 - 1) Event.engine ++ [.rst] }
     (s.mode = .ready ∧ 0 + 40 ≤ s.maxBlock.toNat ∧ s.gcnt ≠ 0 ∧ s.gcnt.toNat + 40 ≤ 100 ∧ s.nvoices = 1 ∧ s.voices ≠ [] ∧
       (s.voice 0).isActive = true ∧ (s.voice 0).ccnt ≠ 0 ∧ (s.voice 0).ccnt.toNat + 40 ≤ 100 ∧ 1 ≤ 3 ∧ 3 ≤ 40 ∧ 40 ≤ 40) ∧
     ∃ u, exec (.render 0 3) { s with events := [] } = .next u) :=
  ⟨by decide +kernel, ⟨by decide +kernel, _, rfl⟩, by decide +kernel, _, rfl⟩

theorem witness_OnlyRenderTouchesBuffer :
    (∀ start count, Instr.setvoices 4 ≠ .render start count) ∧ (∃ t, exec (.setvoices 4) (ready 1 []) = .next t) ∧
    ∃ t, execOf hw (.setvoices 4) (ready 1 []) = .next t :=
  ⟨nofun, ⟨_, rfl⟩, _, rfl⟩

theorem witness_OnlySetparamWritesCells :
    let s := { ready 1 [sounding 60 0 true] with events := [.engine] }
    ((Instr.render 0 512).port = .c ∧ .writer ∉ s.events ∧ .rst ∉ s.events) ∧
    (∃ t, exec (.render 0 512) s = .next t) ∧ ∃ t, execOf hw (.render 0 512) s = .next t :=
  ⟨by decide +kernel, ⟨_, rfl⟩, _, rfl⟩

/-- READY with two sounding voices, a write sequence in flight and a word in the buffer. -/
def busyState : State :=
  { ready 2 [sounding 60 3 true, sounding 62 7 false] with
    pPend := [(.env1, .decayBase)], pbusy := true, buf := [(8191, 7#32)] }

theorem witness_InvariantKept : BlockInv busyState ∧ ∃ t, step busyState = .next t :=
  ⟨{ memory := by decide +kernel, voices := by decide +kernel, vr := by decide +kernel, gr := by decide +kernel,
     nvoices := by decide +kernel, gcnt := by decide +kernel, voice := by decide +kernel, lfo := by decide +kernel,
     config := by decide +kernel, halted := by decide +kernel, noError := by decide +kernel, pbusy := by decide +kernel,
     pending := ⟨.env1Sustain, List.suffix_refl _⟩, busy := rfl, cursor := rfl }, _, rfl⟩

/-- A state; and the greatest phase with the greatest increment that LFO_FREQ gives at rate 1. -/
theorem witness_PhaseRangeKept :
    (PhasesLegal busyState ∧ ∃ t, step busyState = .next t) ∧
    (let o : Osc := { Osc.reset with phase := 0x40C90FDA#32, ramp := Ramp.jump 0x7E000000#32 }
     o.phaseLegal = true ∧ isNaN o.phase = false ∧ isFinite (o.processSample .saw true Num32.one).2.inc = true) :=
  ⟨⟨⟨by decide +kernel, by decide +kernel⟩, _, rfl⟩, by decide +kernel⟩

/-- Torn cells, an envelope at level 1 in DECAY, the next command a RENDER; and cells in step. -/
theorem witness_EnvelopeLevelsKept :
    (let s := { ready 1 [{ sounding 60 0 true with env1 := ⟨Num32.one, .decay⟩ }] with
       der1.decayCoef := Num32.half, cIn := encode (.render 0 64) }
     s.der1.inRange = true ∧ s.der1.fits = false ∧ s.der2.inRange = true ∧ LevelsInUnit s ∧
     (∃ t, step s = .next t) ∧ ∃ t, stepOf (readings true true) s = .next t) ∧
    (let s := { ready 1 [sounding 60 0 true] with cIn := encode (.render 0 64) }
     DerivedInStep s ∧ s.pPend = [] ∧ .writer ∉ s.events ∧ LevelsInUnit s ∧ (∃ t, step s = .next t) ∧
       ∃ t, stepOf (readings false true) s = .next t) ∧
    Derived.reset.fits = true ∧ inUnit (⟨Num32.one, .decay⟩ : Env).out = true :=
  ⟨⟨by decide +kernel, by decide +kernel, by decide +kernel, by unfold LevelsInUnit; decide +kernel, ⟨_, rfl⟩, _, rfl⟩,
    ⟨fun E n _ => by cases E <;> cases n <;> decide +kernel, rfl, by decide +kernel, by unfold LevelsInUnit; decide +kernel,
    ⟨_, rfl⟩, _, rfl⟩, by decide +kernel, by decide +kernel⟩

theorem busyState_voice_free (v : Nat) : (busyState.voice (v + 2)).isFree = true := by
  by_cases h : v < 14
  · exact (by decide +kernel : ∀ v < 14, (busyState.voice (v + 2)).isFree = true) v h
  · simp [busyState, ready, State.voice, h, Voice.isFree, Voice.reset]

/-- One NOTEON before the counter wraps. -/
theorem witness_SeqsStayDistinct :
    let s := { busyState with noteSeq := 0xFFFFFFFE#32 }
    SeqsDistinct s ∧ s.noteSeq ≠ 0xFFFFFFFF#32 ∧ ∃ t, step s = .next t := by
  refine ⟨⟨fun v h => ?_, fun v w hvw hv hw => ?_⟩, by decide +kernel, _, rfl⟩
  · match v, h with
    | 0, _ => decide +kernel
    | 1, _ => decide +kernel
    | v + 2, h => exact absurd ((busyState_voice_free v).symm.trans h) (by decide)
  · match v, w, hvw, hv, hw with
    | 0, 1, _, _, _ => decide +kernel
    | 1, 0, _, _, _ => decide +kernel
    | 0, 0, h, _, _ => exact absurd rfl h
    | 1, 1, h, _, _ => exact absurd rfl h
    | v + 2, _, _, h, _ => exact absurd ((busyState_voice_free v).symm.trans h) (by decide)
    | _, w + 2, _, _, h => exact absurd ((busyState_voice_free w).symm.trans h) (by decide)

theorem witness_RampLandsOnTarget :
    Ramp.reset.rem = 0 ∧ ({ Ramp.reset with rem := 1 } : Ramp).rem = 1 ∧
    (1 < ({ Ramp.reset with rem := 100 } : Ramp).rem.toNat ∧ ({ Ramp.reset with rem := 100 } : Ramp).rem ≠ 0) := by
  decide +kernel

/-- A positive and a negative number, one so near below 0 that the addition rounds up to TWO_PI, and an infinity. -/
theorem witness_WrapRange :
    (isFinite 0x40E00000#32 = true ∧ flt (fmod 0x40E00000#32 Num32.twoPi) 0#32 = false) ∧
    (let r := fmod Num32.negOne Num32.twoPi
     isFinite Num32.negOne = true ∧ flt r 0#32 = true ∧ flt (fadd r Num32.twoPi) Num32.twoPi = true) ∧
    (let r := fmod 0x80000001#32 Num32.twoPi
     isFinite 0x80000001#32 = true ∧ flt r 0#32 = true ∧ fge (fadd r Num32.twoPi) Num32.twoPi = true) ∧
    isFinite Num32.inf = false := by decide +kernel

/-- An envelope in each state; and, with half as much of the way left after each tick, an ATTACK from 0 and a DECAY from 1 that
go on. -/
theorem witness_Envelope :
    (Env.reset.st = .idle ∧ (⟨0#32, .attack⟩ : Env).st = .attack ∧ (⟨Num32.one, .decay⟩ : Env).st = .decay ∧
      (⟨Num32.one, .sustain⟩ : Env).st = .sustain ∧ (⟨Num32.one, .release⟩ : Env).st = .release) ∧
    (∀ capped,
      let d : Derived := ⟨Num32.half, 0x3F266666#32, Num32.half, 0x3E800000#32, Num32.half, 0xB8D1B717#32⟩
      let t := fun e : Env => e.tick capped d { EnvMaster.reset with sustain := Num32.half }
      d.inRange = true ∧ d.fits = true ∧ inUnit 0#32 = true ∧ inUnit Num32.one = true ∧ isZero 0#32 = true ∧
      ((t ⟨0#32, .attack⟩).st = .attack ∧ fle 0#32 (t ⟨0#32, .attack⟩).out = true) ∧
      ((t ⟨Num32.one, .decay⟩).st = .decay ∧ fle (t ⟨Num32.one, .decay⟩).out Num32.one = true)) := by decide +kernel

theorem witness_MatrixExample :
    { State.reset with lfoOut := 0x40000000#32 }.lfoOut = 0x40000000#32 ∧
    ∀ r ∈ List.replicate 7 Route.empty, r.valid = false := by decide +kernel

/-- Tables that meet each clause: no valid route to the slot; valid routes to it, none enabled with a bound source. -/
theorem witness_MatrixFrame :
    (∀ r ∈ ([⟨true, true, 0, 1⟩] : List Route), r.valid = true → r.dst ≠ 0) ∧
    (∀ r ∈ ([⟨true, true, 0, 0⟩] : List Route), r.valid = true → r.dst ≠ 1) ∧
    (let T : List Route := [⟨true, false, 0, 0⟩, ⟨true, true, 2, 0⟩, ⟨true, false, 0, 1⟩, ⟨true, true, 2, 1⟩]
     ((∃ r ∈ T, r.valid = true ∧ r.dst = 0) ∧ ∀ r ∈ T, r.valid = true → r.en = true → r.dst = 0 → 2 ≤ r.src.toNat) ∧
     ((∃ r ∈ T, r.valid = true ∧ r.dst = 1) ∧ ∀ r ∈ T, r.valid = true → r.en = true → r.dst = 1 → 2 ≤ r.src.toNat)) := by
  decide +kernel

/-- T60 to T64: the sums of `slotSum`, the slot 9.0 before, the sources 0.25 and 0.5. -/
theorem test_slot_sum :
    let src := voiceSources ⟨0x3E800000#32, .sustain⟩ ⟨Num32.half, .sustain⟩
    let sum := fun dst T => slotSum src dst 0x41100000#32 T
    sum 0 [⟨true, true, 0, 1⟩] = 0x41100000#32 ∧ sum 1 [⟨true, true, 0, 1⟩] = 0x3E800000#32 ∧
    sum 1 [⟨true, false, 0, 1⟩] = 0#32 ∧ sum 1 [⟨true, true, 0, 1⟩, ⟨true, true, 1, 1⟩] = 0x3F400000#32 ∧
    sum 1 [⟨true, true, 0, 1⟩, ⟨true, true, 7, 1⟩, ⟨true, true, 1, 9⟩] = 0x3E800000#32 ∧
    sum 0 [⟨true, true, 7, 0⟩] = 0#32 := by decide +kernel

theorem witness_GlobalTickEffects :
    isNaN State.reset.par.lfoFreq = false ∧ isNaN { State.reset with par.lfoFreq := 0x7FC00000#32 }.par.lfoFreq = true := by
  decide +kernel

/-- Zero products of both signs, and a NaN base. -/
theorem witness_FrequencyLawNeutral :
    isZero (fmul Num32.one 0x80000000#32) = true ∧ isZero (fmul 0#32 Num32.one) = true ∧ isNaN 0x43DC0000#32 = false ∧
    isNaN 0x7FC00000#32 = true := by decide +kernel

/-- Each waveform at the ends of its range, NaN phases among them; each piece of the kernel (T20); a zero, an infinite and a NaN increment. -/
theorem witness_OscillatorSample :
    (isNaN 0x7FC00000#32 = true ∧ flt 0x3EFFFFFF#32 Num32.half = true) ∧
    (isNaN 0#32 = false ∧ fge Num32.half Num32.half = true ∧ fge 0#32 Num32.half = false ∧
      flt 0#32 Num32.oneAndHalf = true) ∧
    (fge Num32.half Num32.half = true ∧ flt Num32.half Num32.oneAndHalf = true) ∧
    fge Num32.oneAndHalf Num32.half = true ∧ fge Num32.oneAndHalf Num32.oneAndHalf = true ∧
    flt 0x3B800000#32 0x3C800000#32 = true ∧
    (flt 0x3F7F0000#32 0x3C800000#32 = false ∧ fgt 0x3F7F0000#32 (fsub Num32.one 0x3C800000#32) = true) ∧
    (flt Num32.half 0x3C800000#32 = false ∧ fgt Num32.half (fsub Num32.one 0x3C800000#32) = false) ∧
    (fge 0x80000000#32 0#32 = true ∧ flt 0x80000000#32 Num32.one = true ∧ fle 0#32 0#32 = true) ∧
    (fge 0x3F7FFFFF#32 0#32 = true ∧ flt 0x3F7FFFFF#32 Num32.one = true ∧ fle Num32.negInf 0#32 = true) := by decide +kernel

/-- A kernel with the contract of 42_filter.md R206, whose state is not that of the stand-in: it passes its input on. -/
def wire : FiltKernel where
  St := Unit
  init := ()
  step _ x _ _ _ := ((), x)
  toWords _ := []
  ofWords _ := ()
  ofWords_toWords _ := rfl

/-- A silent history of both zeros, `-0.0`, 48000 Hz and the least sample rate there is; and a kernel with the contract. -/
theorem witness_FilterSilence :
    (isZero 0#32 = true ∧ isZero 0x80000000#32 = true) ∧
    (fgt 0x473B8000#32 0#32 = true ∧ isFinite (fmul Num32.two 0x473B8000#32) = true) ∧
    (fgt 1#32 0#32 = true ∧ isFinite (fmul Num32.two 1#32) = true) ∧ wire.Contract ∧ isFinite 1#32 = true :=
  ⟨by decide +kernel, by decide +kernel, by decide +kernel,
    ⟨fun _ => True, trivial, fun _ _ _ _ _ _ hz _ _ _ => ⟨hz, trivial⟩⟩, by decide +kernel⟩

/-- A size that is rounded to a number (a tie), and the least that is rounded to infinity; finite operands, a quotient that is
a number and one that is infinite. -/
theorem witness_RoundsToNearestEven :
    (roundMag (2 ^ 24 + 1) 0 < 0x7F800000 ∧ roundMag ((2 ^ 128 - 2 ^ 103) * 2 ^ 149) 0 = 0x7F800000) ∧
    (isFinite Num32.one = true ∧ isFinite Num32.twelve = true ∧ isZero Num32.twelve = false ∧
      isFinite (fdiv Num32.one Num32.twelve) = true) ∧
    (isFinite 0x7F7FFFFF#32 = true ∧ isFinite Num32.half = true ∧ isZero Num32.half = false ∧
      isInf (fdiv 0x7F7FFFFF#32 Num32.half) = true) := by decide +kernel

theorem witness_ClampRange :
    isNaN 0#32 = false ∧ isNaN Num32.inf = false ∧ fle 0#32 Num32.inf = true ∧ fle 0#32 0#32 = true ∧
    isNaN 0x7FC00000#32 = true ∧ fle 0#32 0x80000000#32 = true := by decide +kernel

/-- The least and the greatest exponent of an exact power of two, and a NaN. -/
theorem witness_LibraryExactPoints :
    (isFinite 0xC3150000#32 = true ∧ value 0xC3150000#32 = (-149) * 2 ^ 149) ∧
    (isFinite 0x42FE0000#32 = true ∧ value 0x42FE0000#32 = 127 * 2 ^ 149) ∧ isNaN 0x7FC00000#32 = true := by decide +kernel

theorem witness_LibraryMonotone :
    fle 0x80000000#32 0#32 = true ∧ fle Num32.negInf Num32.inf = true ∧ fge 0x80000000#32 0#32 = true := by decide +kernel

end Sys2Proof.Tests
end

section
/-! SUPPORT. The fields of a packed number, and the order of the numbers as the order of their places `fkey`
(00_scope.md R12). -/

namespace Sys2Proof.Machine

theorem fmag_lt (x : Num32) : fmag x < 0x80000000 := Nat.mod_lt _ (by decide)

theorem fpack_toNat {neg : Bool} {m : Nat} (h : m < 0x80000000) :
    (fpack neg m).toNat = m + if neg then 0x80000000 else 0 := by
  unfold fpack
  rw [BitVec.toNat_ofNat]
  cases neg <;> simp <;> omega

theorem fmag_fpack {neg : Bool} {m : Nat} (h : m < 0x80000000) : fmag (fpack neg m) = m := by
  unfold fmag
  rw [fpack_toNat h]
  cases neg <;> simp <;> omega

theorem fneg?_fpack {neg : Bool} {m : Nat} (h : m < 0x80000000) : fneg? (fpack neg m) = neg := by
  unfold fneg?
  rw [fpack_toNat h]
  cases neg <;> simp
  omega

/-- A number of size at most infinity's is no NaN. -/
theorem isNaN_fpack {neg : Bool} {m : Nat} (h : m ≤ 0x7F800000) : isNaN (fpack neg m) = false := by
  unfold isNaN
  rw [fmag_fpack (by omega), decide_eq_false (by omega)]

theorem isFinite_fpack {neg : Bool} {m : Nat} (h : m < 0x7F800000) : isFinite (fpack neg m) = true := by
  unfold isFinite
  rw [fmag_fpack (by omega), decide_eq_true h]

theorem fmag_lt_of_isFinite {x : Num32} (h : isFinite x = true) : fmag x < 0x7F800000 := of_decide_eq_true h

theorem isNaN_of_isFinite {x : Num32} (h : isFinite x = true) : isNaN x = false :=
  decide_eq_false (Nat.not_lt.2 (Nat.le_of_lt (fmag_lt_of_isFinite h)))

theorem isInf_of_isFinite {x : Num32} (h : isFinite x = true) : isInf x = false :=
  beq_eq_false_iff_ne.2 (Nat.ne_of_lt (fmag_lt_of_isFinite h))

theorem fmag_le_of_isNaN {x : Num32} (h : isNaN x = false) : fmag x ≤ 0x7F800000 :=
  Nat.not_lt.1 (of_decide_eq_false h)

/-- `-x` has the size of `x`. -/
theorem fmag_fneg (x : Num32) : fmag (fneg x) = fmag x := by
  unfold fmag fneg
  rw [BitVec.toNat_xor, show (0x80000000 : Nat) = 2 ^ 31 from rfl, Nat.xor_mod_two_pow]
  exact Nat.xor_zero _

/-- `-x` has the other sign. -/
theorem fneg?_fneg (x : Num32) : fneg? (fneg x) = !fneg? x := by
  have msb : ∀ y : Num32, fneg? y = y.msb := fun y => (BitVec.msb_eq_decide y).symm
  rw [msb, msb, fneg, BitVec.msb_xor]
  exact Bool.xor_true _

theorem fle_iff {a b : Num32} :
    fle a b = true ↔ isNaN a = false ∧ isNaN b = false ∧ fkey a ≤ fkey b := by
  simp [fle, and_assoc]

theorem flt_iff {a b : Num32} :
    flt a b = true ↔ isNaN a = false ∧ isNaN b = false ∧ fkey a < fkey b := by
  simp [flt, and_assoc]

theorem fgt_eq (a b : Num32) : fgt a b = flt b a := rfl

theorem fle_trans {a b d : Num32} (h1 : fle a b = true) (h2 : fle b d = true) : fle a d = true := by
  rw [fle_iff] at *
  exact ⟨h1.1, h2.2.1, h1.2.2.trans h2.2.2⟩

theorem fle_refl {a : Num32} (h : isNaN a = false) : fle a a = true := fle_iff.2 ⟨h, h, le_refl _⟩

/-- Of two numbers that are no NaN, one is at most the other. -/
theorem fle_of_not_flt {a b : Num32} (ha : isNaN a = false) (hb : isNaN b = false) (h : ¬ flt a b = true) :
    fle b a = true :=
  fle_iff.2 ⟨hb, ha, not_lt.1 fun hk => h (flt_iff.2 ⟨ha, hb, hk⟩)⟩

/-- `a < b` excludes `b <= a`. -/
theorem not_flt_of_fle {a b : Num32} (h : fle b a = true) : ¬ flt a b = true := fun hlt =>
  absurd (flt_iff.1 hlt).2.2 (not_lt.2 (fle_iff.1 h).2.2)

/-- Settles O58: the three branches of `clamp` give the low bound, the high bound, and a number between them. -/
theorem clampRange : Obligations.ClampRange := by
  intro v lo hi hlo hhi hle
  have hnan : isNaN v = true → clamp v lo hi = lo := fun hv => by simp [clamp, hv]
  by_cases hv : isNaN v = true
  · rw [hnan hv]
    exact ⟨fun _ => rfl, fle_refl hlo, hle, fun hlv => absurd (fle_iff.1 hlv).2.1 (by simp [hv])⟩
  rw [Bool.not_eq_true] at hv
  by_cases h1 : flt v lo = true
  · have e : clamp v lo hi = lo := by simp only [clamp, h1, Bool.or_true, if_true]
    rw [e]
    exact ⟨fun _ => rfl, fle_refl hlo, hle, fun hlv => absurd h1 (not_flt_of_fle hlv)⟩
  by_cases h2 : flt hi v = true
  · have e : clamp v lo hi = hi := by
      simp only [clamp, hv, h1, fgt_eq, h2, Bool.or_self, Bool.false_eq_true, if_false, if_true]
    rw [e]
    exact ⟨fun h => by simp [hv] at h, hle, fle_refl hhi, fun _ hvh => absurd h2 (not_flt_of_fle hvh)⟩
  · have e : clamp v lo hi = v := by
      simp only [clamp, hv, h1, fgt_eq, h2, Bool.or_self, Bool.false_eq_true, if_false]
    rw [e]
    exact ⟨fun h => by simp [hv] at h, fle_of_not_flt hv hlo h1, fle_of_not_flt hhi hv h2, fun _ _ => rfl⟩

end Sys2Proof.Machine
end

section
/-! SUPPORT. The finite numbers as multiples of 2^-149: `unitsOfMag` numbers them in rising order, a significand times
a power of two each (00_scope.md R12); and the exact powers of two that `NUM.exp2` gives (R13). -/

namespace Sys2Proof.Machine

/-- The number at place `e * 2^23 + c`: a significand `c` of 24 bits (2^24 carries into the next binade) in units of `2^e`. -/
theorem unitsOfMag_place {e c : Nat} (h : e = 0 ∨ 0x800000 ≤ c) (hc : c ≤ 0x1000000) :
    unitsOfMag (e * 0x800000 + c) = c * 2 ^ e := by
  unfold unitsOfMag
  by_cases h1 : c < 0x800000
  · obtain rfl : e = 0 := by omega
    rw [if_pos (by omega)]
    omega
  rw [if_neg (by omega)]
  by_cases h2 : c = 0x1000000
  · subst h2
    rw [show (e * 0x800000 + 0x1000000) % 0x800000 = 0 by omega,
      show (e * 0x800000 + 0x1000000) / 0x800000 - 1 = e + 1 by omega, Nat.pow_succ]
    omega
  · rw [show (e * 0x800000 + c) % 0x800000 + 0x800000 = c by omega,
      show (e * 0x800000 + c) / 0x800000 - 1 = e by omega]

/-- Every number has a significand and a place of that form, rising with the number. -/
theorem exists_place (m : Nat) :
    ∃ c, (m / 0x800000 - 1 = 0 ∨ 0x800000 ≤ c) ∧ c < 0x1000000 ∧ m = (m / 0x800000 - 1) * 0x800000 + c :=
  ⟨m - (m / 0x800000 - 1) * 0x800000, by omega, by omega, by omega⟩

theorem unitsOfMag_lt_succ (m : Nat) : unitsOfMag m < unitsOfMag (m + 1) := by
  obtain ⟨c, hc, hlt, hm⟩ := exists_place m
  generalize m / 0x800000 - 1 = e at hc hm
  subst hm
  rw [Nat.add_assoc, unitsOfMag_place hc (by omega), unitsOfMag_place (by omega) (by omega)]
  exact Nat.mul_lt_mul_of_pos_right (Nat.lt_succ_self c) (Nat.two_pow_pos e)

/-- A greater 31-bit pattern is a greater number. -/
theorem unitsOfMag_strictMono : StrictMono unitsOfMag := strictMono_nat_of_lt_succ unitsOfMag_lt_succ

@[simp] theorem unitsOfMag_zero : unitsOfMag 0 = 0 := rfl

theorem unitsOfMag_pos {m : Nat} (h : 0 < m) : 0 < unitsOfMag m := unitsOfMag_strictMono h

/-- A 24-bit significand in units of `2^e` is the size of some number. -/
theorem exists_unitsOfMag_eq (e : Nat) : ∀ c < 0x1000000, ∃ m, unitsOfMag m = c * 2 ^ e := by
  induction e with
  | zero => exact fun c hc => ⟨0 * 0x800000 + c, unitsOfMag_place (.inl rfl) (by omega)⟩
  | succ e ih =>
    intro c hc
    by_cases h : 0x800000 ≤ c
    · exact ⟨(e + 1) * 0x800000 + c, unitsOfMag_place (.inr h) (by omega)⟩
    · obtain ⟨m, hm⟩ := ih (2 * c) (by omega)
      exact ⟨m, by rw [hm, Nat.pow_succ]; ring⟩

theorem units_fpack {neg : Bool} {m : Nat} (h : m < 0x80000000) : units (fpack neg m) = unitsOfMag m :=
  congrArg unitsOfMag (fmag_fpack h)

theorem value_fpack_false {m : Nat} (h : m < 0x80000000) : value (fpack false m) = unitsOfMag m := by
  unfold value
  rw [fneg?_fpack h, units_fpack h]
  rfl

/-- The 31 bits of `2^k`. -/
def pow2Mag (k : Int) : Nat := if k < -126 then 2 ^ (k + 149).toNat else (k + 127).toNat * 0x800000

theorem pow2_eq (k : Int) : pow2 k = fpack false (pow2Mag k) := by
  unfold pow2 pow2Mag
  split <;> rfl

/-- `2^k` is `2^(k+149)` units, and finite. -/
theorem pow2Mag_spec {k : Int} (h1 : -149 ≤ k) (h2 : k ≤ 127) :
    pow2Mag k < 0x7F800000 ∧ unitsOfMag (pow2Mag k) = 2 ^ (k + 149).toNat := by
  unfold pow2Mag
  split
  · have hlt : 2 ^ (k + 149).toNat < 0x800000 :=
      Nat.pow_lt_pow_right (a := 2) (n := 23) (by decide) (by omega)
    exact ⟨by omega, by rw [unitsOfMag, if_pos hlt]⟩
  · obtain ⟨e, he⟩ : ∃ e : Nat, k = e - 126 := ⟨(k + 126).toNat, by omega⟩
    have hplace : (k + 127).toNat * 0x800000 = e * 0x800000 + 0x800000 := by omega
    refine ⟨by omega, ?_⟩
    rw [hplace, unitsOfMag_place (.inr (le_refl _)) (by decide), show (k + 149).toNat = 23 + e by omega,
      Nat.pow_add]

/-- At an integer from -149 to 127 `NUM.exp2` gives the power of two. -/
theorem libExp2_of_integer {x : Num32} {k : Int} (hx : isFinite x = true) (hk : value x = k * 2 ^ 149)
    (h1 : -149 ≤ k) (h2 : k ≤ 127) : libExp2 x = pow2 k := by
  have hq : value x / 2 ^ 149 = k := by rw [hk]; exact Int.mul_ediv_cancel k (by decide)
  have hr : value x % 2 ^ 149 = 0 := by rw [hk]; exact Int.mul_emod_left k _
  unfold libExp2
  rw [if_neg (by simp [isNaN_of_isFinite hx]), if_neg (by simp [isInf_of_isFinite hx]), hq,
    if_pos ⟨hr, h1, h2⟩]

/-- Settles O59: the special branches of the three functions, and at an integer the power of two of `pow2Mag_spec`. -/
theorem libraryExactPoints : Obligations.LibraryExactPoints := by
  refine ⟨by decide +kernel, by decide +kernel, fun x k hx hk h1 h2 => ?_, by decide +kernel, fun x hx => ?_⟩
  · obtain ⟨hlt, hu⟩ := pow2Mag_spec h1 h2
    have e : hw.num.exp2 x = fpack false (pow2Mag k) := (libExp2_of_integer hx hk h1 h2).trans (pow2_eq k)
    rw [e, value_fpack_false (by omega), hu]
    exact ⟨isFinite_fpack hlt, by push_cast; rfl⟩
  · simp [hw, numLib, libExp, libExp2, libLn, hx]

end Sys2Proof.Machine
end

section
/-! SUPPORT. Rounding (00_scope.md R12): the rounded number is decided by the midpoints between the numbers, of which
nearness and the bound of infinity follow; then the arithmetic operations and `fmod` (R13). -/

namespace Sys2Proof.Machine

/-- The target `t` lies between the midpoints that bound the number `p`, when `d` measures one unit of 2^-149, and on a midpoint
only if `p` is even. -/
def Nearest (p d t : Nat) : Prop :=
  ∀ m, (p < m → 2 * t ≤ (unitsOfMag p + unitsOfMag m) * d ∧
      (2 * t = (unitsOfMag p + unitsOfMag m) * d → p % 2 = 0)) ∧
    (m < p → (unitsOfMag m + unitsOfMag p) * d ≤ 2 * t ∧
      (2 * t = (unitsOfMag m + unitsOfMag p) * d → p % 2 = 0))

/-- It is enough to look at the two neighbours of `p`. -/
theorem nearest_of_neighbours {p d t : Nat}
    (up : 2 * t ≤ (unitsOfMag p + unitsOfMag (p + 1)) * d ∧
      (2 * t = (unitsOfMag p + unitsOfMag (p + 1)) * d → p % 2 = 0))
    (down : 0 < p → (unitsOfMag (p - 1) + unitsOfMag p) * d ≤ 2 * t ∧
      (2 * t = (unitsOfMag (p - 1) + unitsOfMag p) * d → p % 2 = 0)) : Nearest p d t := by
  refine fun m => ⟨fun hm => ?_, fun hm => ?_⟩
  · have hmono : (unitsOfMag p + unitsOfMag (p + 1)) * d ≤ (unitsOfMag p + unitsOfMag m) * d :=
      Nat.mul_le_mul_right d (Nat.add_le_add_left (unitsOfMag_strictMono.monotone hm) _)
    exact ⟨up.1.trans hmono, fun e => up.2 (Nat.le_antisymm up.1 (e ▸ hmono))⟩
  · have hmono : (unitsOfMag m + unitsOfMag p) * d ≤ (unitsOfMag (p - 1) + unitsOfMag p) * d :=
      Nat.mul_le_mul_right d (Nat.add_le_add_right (unitsOfMag_strictMono.monotone (by omega)) _)
    have down := down (by omega)
    exact ⟨hmono.trans down.1, fun e => down.2 (Nat.le_antisymm (e ▸ hmono) down.1)⟩

/-- No number is nearer to the target, and of two equally near ones the even one is taken. -/
theorem Nearest.natAbs_le {p d t : Nat} (h : Nearest p d t) (hd : 0 < d) (m : Nat) :
    (((unitsOfMag p * d : Nat) : Int) - t).natAbs ≤ (((unitsOfMag m * d : Nat) : Int) - t).natAbs ∧
    ((((unitsOfMag p * d : Nat) : Int) - t).natAbs = (((unitsOfMag m * d : Nat) : Int) - t).natAbs →
      m = p ∨ p % 2 = 0) := by
  obtain ⟨hup, hdown⟩ := h m
  rw [Nat.add_mul] at hup hdown
  rcases Nat.lt_trichotomy p m with hlt | rfl | hgt
  · have := Nat.mul_lt_mul_of_pos_right (unitsOfMag_strictMono hlt) hd
    have := hup hlt
    omega
  · exact ⟨le_refl _, fun _ => .inl rfl⟩
  · have := Nat.mul_lt_mul_of_pos_right (unitsOfMag_strictMono hgt) hd
    have := hdown hgt
    omega

/-- The nearest number is at least infinity's place exactly from the midpoint below that place on; the greatest finite number
is odd. -/
theorem Nearest.overflow_iff {p d t : Nat} (h : Nearest p d t) (hd : 0 < d) :
    0x7F800000 ≤ p ↔ (2 ^ 128 - 2 ^ 103) * 2 ^ 149 * d ≤ t := by
  have hmid : (unitsOfMag 0x7F7FFFFF + unitsOfMag 0x7F800000) * d = 2 * ((2 ^ 128 - 2 ^ 103) * 2 ^ 149 * d) := by
    rw [← Nat.mul_assoc]
    exact congrArg (· * d) (by decide +kernel)
  constructor
  · intro hp
    have hmono : (unitsOfMag 0x7F7FFFFF + unitsOfMag 0x7F800000) * d ≤ (unitsOfMag 0x7F7FFFFF + unitsOfMag p) * d :=
      Nat.mul_le_mul_right d (Nat.add_le_add_left (unitsOfMag_strictMono.monotone hp) _)
    have hdown := ((h 0x7F7FFFFF).2 (by omega)).1
    omega
  · intro ht
    by_contra hp
    obtain ⟨hle, heven⟩ := (h 0x7F800000).1 (by omega)
    by_cases hmax : p = 0x7F7FFFFF
    · subst hmax
      exact absurd (heven (by omega)) (by decide)
    · have hlt : (unitsOfMag p + unitsOfMag 0x7F800000) * d < (unitsOfMag 0x7F7FFFFF + unitsOfMag 0x7F800000) * d :=
        Nat.mul_lt_mul_of_pos_right (Nat.add_lt_add_right (unitsOfMag_strictMono (by omega)) _) hd
      omega

/-- A target that is a number is rounded to that number. -/
theorem Nearest.eq_of_exact {p d m : Nat} (h : Nearest p d (unitsOfMag m * d)) (hd : 0 < d) : p = m := by
  obtain ⟨hle, _⟩ := h.natAbs_le hd m
  have e : unitsOfMag p * d = unitsOfMag m * d := by omega
  exact unitsOfMag_strictMono.injective (Nat.eq_of_mul_eq_mul_right hd e)

/-- How many bits of `n` units of 2^-(149+k) `roundMag` cuts off. -/
def cutBits (n k : Nat) : Nat := max k (n.log2 + 1 - 24)

/-- The significand of `roundMag`. -/
def roundedSig (n k : Nat) : Nat :=
  if 2 ^ cutBits n k < 2 * (n % 2 ^ cutBits n k) ∨
      (2 ^ cutBits n k = 2 * (n % 2 ^ cutBits n k) ∧ n / 2 ^ cutBits n k % 2 = 1) then
    n / 2 ^ cutBits n k + 1
  else n / 2 ^ cutBits n k

/-- The place that `roundMag` gives before infinity bounds it. -/
def roundPlace (n k : Nat) : Nat := (cutBits n k - k) * 0x800000 + roundedSig n k

theorem roundMag_eq (n k : Nat) : roundMag n k = min (roundPlace n k) 0x7F800000 := rfl

/-- The bits that stay are a significand of 24 bits, a full one if a bit of the unit is cut. -/
theorem quotient_of_cutBits (n k : Nat) :
    (cutBits n k - k = 0 ∨ 0x800000 ≤ n / 2 ^ cutBits n k) ∧ n / 2 ^ cutBits n k < 0x1000000 := by
  constructor
  · by_cases h : cutBits n k ≤ k
    · exact .inl (by omega)
    · have hlog : n.log2 = 23 + cutBits n k := by unfold cutBits at *; omega
      have hn : n ≠ 0 := fun h0 => by subst h0; simp at hlog; omega
      refine .inr ((Nat.le_div_iff_mul_le (Nat.two_pow_pos _)).2 ?_)
      calc 0x800000 * 2 ^ cutBits n k = 2 ^ (23 + cutBits n k) := (Nat.pow_add 2 23 _).symm
        _ = 2 ^ n.log2 := by rw [hlog]
        _ ≤ n := Nat.log2_self_le hn
  · refine (Nat.div_lt_iff_lt_mul (Nat.two_pow_pos _)).2 ?_
    calc n < 2 ^ (n.log2 + 1) := Nat.lt_log2_self
      _ ≤ 2 ^ (24 + cutBits n k) := Nat.pow_le_pow_right (by decide) (by unfold cutBits; omega)
      _ = 0x1000000 * 2 ^ cutBits n k := Nat.pow_add 2 24 _

/-- `roundMag` rounds to nearest, ties to even. -/
theorem nearest_roundPlace (n k : Nat) : Nearest (roundPlace n k) (2 ^ k) n := by
  obtain ⟨hfull, hlt⟩ := quotient_of_cutBits n k
  have hcut : 2 ^ (cutBits n k - k) * 2 ^ k = 2 ^ cutBits n k := by
    rw [← Nat.pow_add]
    exact congrArg (2 ^ ·) (by unfold cutBits; omega)
  have hn : 2 ^ cutBits n k * (n / 2 ^ cutBits n k) + n % 2 ^ cutBits n k = n := Nat.div_add_mod _ _
  have hr : n % 2 ^ cutBits n k < 2 ^ cutBits n k := Nat.mod_lt _ (Nat.two_pow_pos _)
  unfold roundPlace roundedSig
  generalize n / 2 ^ cutBits n k = c at *
  generalize n % 2 ^ cutBits n k = r at *
  generalize cutBits n k - k = e at *
  generalize 2 ^ cutBits n k = w at *
  have hfloor : unitsOfMag (e * 0x800000 + c) * 2 ^ k = w * c := by
    rw [unitsOfMag_place hfull (by omega), Nat.mul_assoc, hcut, Nat.mul_comm]
  have hceil : unitsOfMag (e * 0x800000 + (c + 1)) * 2 ^ k = w * c + w := by
    rw [unitsOfMag_place (by omega) (by omega), Nat.mul_assoc, hcut, Nat.mul_comm, Nat.mul_succ]
  have hnext : ∀ m, unitsOfMag m * 2 ^ k < unitsOfMag (m + 1) * 2 ^ k := fun m =>
    Nat.mul_lt_mul_of_pos_right (unitsOfMag_lt_succ m) (Nat.two_pow_pos k)
  split
  case isTrue hup =>
    refine nearest_of_neighbours ?_ fun _ => ?_
    · have := hnext (e * 0x800000 + (c + 1))
      rw [Nat.add_mul]
      omega
    · rw [show e * 0x800000 + (c + 1) - 1 = e * 0x800000 + c by omega, Nat.add_mul]
      omega
  case isFalse hdown =>
    refine nearest_of_neighbours ?_ fun hpos => ?_
    · rw [Nat.add_assoc, Nat.add_mul]
      omega
    · have := hnext (e * 0x800000 + c - 1)
      rw [Nat.sub_add_cancel hpos] at this
      rw [Nat.add_mul]
      omega

theorem roundMag_le (n k : Nat) : roundMag n k ≤ 0x7F800000 := Nat.min_le_right _ _

/-- `roundMag` is infinity from the midpoint above the greatest finite number on. -/
theorem roundMag_eq_inf_iff (n k : Nat) : roundMag n k = 0x7F800000 ↔ 0x7F800000 ≤ roundPlace n k := by
  rw [roundMag_eq]
  omega

theorem roundMag_of_finite {n k : Nat} (h : roundMag n k < 0x7F800000) : roundMag n k = roundPlace n k := by
  rw [roundMag_eq] at *
  omega

/-- A size that is that of a finite number is not changed by rounding. -/
theorem roundMag_units {m : Nat} (h : m < 0x7F800000) : roundMag (unitsOfMag m) 0 = m := by
  have hp : roundPlace (unitsOfMag m) 0 = m :=
    Nearest.eq_of_exact (d := 2 ^ 0) (by simpa using nearest_roundPlace (unitsOfMag m) 0) (by decide)
  rw [roundMag_eq, hp]
  omega

/-! The operations on finite operands. -/

theorem value_fneg (x : Num32) : value (fneg x) = -value x := by
  unfold value units
  rw [fmag_fneg, fneg?_fneg]
  cases fneg? x <;> simp

theorem isFinite_fneg (x : Num32) : isFinite (fneg x) = isFinite x := by
  unfold isFinite
  rw [fmag_fneg]

/-- The sum of finite operands is the exact one, rounded. -/
theorem addWith_of_finite (nan : Num32) {a b : Num32} (ha : isFinite a = true) (hb : isFinite b = true) :
    addWith nan a b = if value a + value b = 0 then fpack (fneg? a && fneg? b) 0
      else fpack (decide (value a + value b < 0)) (roundMag (value a + value b).natAbs 0) := by
  simp [addWith, isNaN_of_isFinite, isInf_of_isFinite, ha, hb, fround]

/-- The product of finite operands is the exact one, rounded. -/
theorem fmul_of_finite {a b : Num32} (ha : isFinite a = true) (hb : isFinite b = true) :
    fmul a b = fpack (fneg? a != fneg? b) (roundMag (units a * units b) 149) := by
  simp [fmul, isNaN_of_isFinite, isInf_of_isFinite, ha, hb, fround]

/-- The quotient of `a` by `b` in units of 2^-152, cut off, with a last place that is 1 exactly when something was cut off. -/
def stickyQuotient (a b : Nat) : Nat := 2 * (a * 2 ^ 151 / b) + if a * 2 ^ 151 % b = 0 then 0 else 1

theorem fdiv_of_finite {a b : Num32} (ha : isFinite a = true) (hb : isFinite b = true) (h0 : isZero b = false) :
    fdiv a b = fpack (fneg? a != fneg? b) (roundMag (stickyQuotient (units a) (units b)) 3) := by
  simp [fdiv, isNaN_of_isFinite, isInf_of_isFinite, ha, hb, h0, fround, stickyQuotient]

/-- What is nearest to the cut quotient is nearest to the exact one: twice a midpoint is an even number of its places, which
the cut quotient passes exactly when the exact one does. -/
theorem nearest_quotient {p a b : Nat} (hb : 0 < b) (h : Nearest p (2 ^ 3) (stickyQuotient a b)) :
    Nearest p b (a * 2 ^ 149) := by
  have key : ∀ y : Nat,
      (2 * stickyQuotient a b ≤ y * 2 ^ 3 ↔ 2 * (a * 2 ^ 149) ≤ y * b) ∧
      (y * 2 ^ 3 ≤ 2 * stickyQuotient a b ↔ y * b ≤ 2 * (a * 2 ^ 149)) := by
    intro y
    have hdiv := Nat.div_add_mod (a * 2 ^ 151) b
    have hmod := Nat.mod_lt (a * 2 ^ 151) hb
    unfold stickyQuotient
    generalize a * 2 ^ 151 / b = q at *
    generalize a * 2 ^ 151 % b = r at *
    have hlt : 2 * y < q → 2 * (y * b) + b ≤ b * q := fun h => by
      calc 2 * (y * b) + b = b * (2 * y + 1) := by ring
        _ ≤ b * q := Nat.mul_le_mul_left b h
    have hgt : q < 2 * y → b * q + b ≤ 2 * (y * b) := fun h => by
      calc b * q + b = b * (q + 1) := by ring
        _ ≤ b * (2 * y) := Nat.mul_le_mul_left b h
        _ = 2 * (y * b) := by ring
    have heq : q = 2 * y → b * q = 2 * (y * b) := fun h => by rw [h]; ring
    rcases Nat.lt_trichotomy q (2 * y) with h1 | h1 | h1
    · have := hgt h1
      split <;> omega
    · have := heq h1
      split <;> omega
    · have := hlt h1
      split <;> omega
  intro m
  obtain ⟨hup, hdown⟩ := h m
  obtain ⟨k1, k2⟩ := key (unitsOfMag p + unitsOfMag m)
  obtain ⟨k3, k4⟩ := key (unitsOfMag m + unitsOfMag p)
  refine ⟨fun hm => ?_, fun hm => ?_⟩
  · obtain ⟨hle, heven⟩ := hup hm
    exact ⟨k1.1 hle, fun e => heven (Nat.le_antisymm hle (k2.2 (le_of_eq e.symm)))⟩
  · obtain ⟨hle, heven⟩ := hdown hm
    exact ⟨k4.1 hle, fun e => heven (Nat.le_antisymm (k3.2 (le_of_eq e)) hle)⟩

theorem units_pos {x : Num32} (h : isZero x = false) : 0 < units x :=
  unitsOfMag_pos (Nat.pos_of_ne_zero (by simpa [isZero] using h))

/-- The remainder of two finite sizes is the size of a finite number: it is a multiple of the divisor's last place, or the
dividend itself. -/
theorem exists_unitsOfMag_mod (m n : Nat) (hn : 0 < unitsOfMag n) :
    ∃ r, r < n ∧ unitsOfMag r = unitsOfMag m % unitsOfMag n := by
  have hlt := Nat.mod_lt (unitsOfMag m) hn
  suffices h : ∃ r, unitsOfMag r = unitsOfMag m % unitsOfMag n by
    obtain ⟨r, hr⟩ := h
    exact ⟨r, unitsOfMag_strictMono.lt_iff_lt.1 (hr ▸ hlt), hr⟩
  by_cases hmn : m < n
  · exact ⟨m, (Nat.mod_eq_of_lt (unitsOfMag_strictMono hmn)).symm⟩
  obtain ⟨c, hc, hcl, hm⟩ := exists_place m
  obtain ⟨c', hc', hcl', hn'⟩ := exists_place n
  obtain ⟨j, hj⟩ : ∃ j, m / 0x800000 - 1 = j + (n / 0x800000 - 1) :=
    ⟨m / 0x800000 - 1 - (n / 0x800000 - 1), by have := Nat.div_le_div_right (c := 0x800000) (Nat.not_lt.1 hmn); omega⟩
  have hum : unitsOfMag m = c * 2 ^ j * 2 ^ (n / 0x800000 - 1) := by
    rw [hm, unitsOfMag_place hc (by omega), hj, Nat.pow_add, Nat.mul_assoc]
  have hun : unitsOfMag n = c' * 2 ^ (n / 0x800000 - 1) := by
    rw [hn', unitsOfMag_place hc' (by omega), ← hn']
  rw [hum, hun, Nat.mul_mod_mul_right]
  refine exists_unitsOfMag_eq _ _ (lt_trans (Nat.mod_lt _ ?_) hcl')
  exact Nat.pos_of_ne_zero fun h0 => by simp [hun, h0] at hn

/-- `fmod` by a number that is not 0 is the exact remainder with the dividend's sign. -/
theorem fmod_of_finite {x y : Num32} (hx : isFinite x = true) (hy : isFinite y = true) (h0 : isZero y = false) :
    ∃ r, r < 0x7F800000 ∧ fmod x y = fpack (fneg? x) r ∧ unitsOfMag r = units x % units y := by
  obtain ⟨r, hr, hu⟩ := exists_unitsOfMag_mod (fmag x) (fmag y) (units_pos h0)
  have hr : r < 0x7F800000 := hr.trans (fmag_lt_of_isFinite hy)
  have e : fmod x y = fpack (fneg? x) (roundMag (units x % units y) 0) := by
    simp [fmod, isNaN_of_isFinite, isInf_of_isFinite, hx, hy, h0, fround]
  refine ⟨r, hr, ?_, hu⟩
  rw [e, show units x % units y = unitsOfMag r from hu.symm, roundMag_units hr]

/-- Settles O57: rounding is `nearest_roundPlace`, and each operation rounds its exact result by it. -/
theorem roundsToNearestEven : Obligations.RoundsToNearestEven := by
  refine ⟨fun n k => ⟨fun hfin m _ => ?_, ?_⟩, fun a b ha hb => ⟨?_, ?_, fmul_of_finite ha hb⟩,
    fun a b ha hb h0 => ?_, fun x y hx hy h0 => ?_⟩
  · rw [roundMag_of_finite hfin]
    exact (nearest_roundPlace n k).natAbs_le (Nat.two_pow_pos k) m
  · rw [roundMag_eq_inf_iff, (nearest_roundPlace n k).overflow_iff (Nat.two_pow_pos k), Nat.mul_assoc, ← Nat.pow_add]
  · exact addWith_of_finite _ ha hb
  · have e := addWith_of_finite (freeNaN .sub a b) ha ((isFinite_fneg b).trans hb)
    rw [value_fneg, fneg?_fneg, ← Int.sub_eq_add_neg] at e
    exact e
  · have hnear := nearest_quotient (units_pos h0) (nearest_roundPlace (stickyQuotient (units a) (units b)) 3)
    have hle := roundMag_le (stickyQuotient (units a) (units b)) 3
    have hinf := roundMag_eq_inf_iff (stickyQuotient (units a) (units b)) 3
    have hfin := @roundMag_of_finite (stickyQuotient (units a) (units b)) 3
    have hmag : fmag (fdiv a b) = roundMag (stickyQuotient (units a) (units b)) 3 := by
      rw [fdiv_of_finite ha hb h0, fmag_fpack (by omega)]
    refine ⟨?_, ?_, fun hq m _ => ?_, ?_⟩
    · rw [fdiv_of_finite ha hb h0, fneg?_fpack (by omega)]
    · rw [fdiv_of_finite ha hb h0, isNaN_fpack hle]
    · have hq := fmag_lt_of_isFinite hq
      rw [units, hmag, hfin (hmag ▸ hq)]
      exact hnear.natAbs_le (units_pos h0) m
    · rw [isInf, hmag, beq_iff_eq, hinf, hnear.overflow_iff (units_pos h0), Nat.mul_right_comm]
      exact Nat.mul_le_mul_right_iff (Nat.two_pow_pos 149)
  · obtain ⟨r, hr, e, hu⟩ := fmod_of_finite hx hy h0
    rw [e]
    exact ⟨isFinite_fpack hr, fneg?_fpack (by omega), (units_fpack (by omega)).trans hu⟩

end Sys2Proof.Machine
end

section
/-! SUPPORT. RENDER that no `rst` interrupts (46_voicepool.md R310 to R312): what its atomic steps keep of one voice's rendering,
and the render loop with its counter. -/

namespace Sys2Proof.Machine

/-- `P` survives the atomic steps of rendering voice `v` on the sample indices `R`, the moves at a boundary and the voice's
bookkeeping: `Keeps` for one voice. -/
structure VoiceKeeps (c : Params) (R : Nat → Prop) (v : Nat) (P : State → Prop) : Prop where
  tick : ∀ s, s.busy = true → P s → P (voiceTick c v s)
  sample : ∀ i s, R i → s.busy = true → P s → P (voiceSample c v i s)
  moves : ∀ s, s.busy = true → P s → P (interleave c s)
  advance : ∀ n s, s.busy = true → P s → P (s.modVoice v (Voice.advance c n))
  cut : ∀ s, s.busy = true → P s → P (cutFadeOut c v s)

section VoiceKeeps

variable {c : Params} {R : Nat → Prop} {v : Nat} {P : State → Prop}

theorem VoiceKeeps.sampleLoop (K : VoiceKeeps c R v P) (n i : Nat) (s : State)
    (hR : ∀ j, i ≤ j → j < i + n → R j) (h : P s) : P (sampleLoop c v n i s) := by
  induction n generalizing i s with
  | zero => exact h
  | succ n ih =>
    have hbusy : (voiceSample c v i s).busy = s.busy := by rw [voiceSample_frame]
    exact ih (i + 1) _ (fun j h1 h2 => hR j (by omega) (by omega))
      (atomic_keeps hbusy (K.sample i s (hR i (by omega) (by omega))) K.moves h)

theorem VoiceKeeps.voiceLoop (K : VoiceKeeps c R v P) (k pos left : Nat) (s : State)
    (hR : ∀ j, pos ≤ j → j < pos + left → R j) (h : P s) : P (voiceLoop c v k pos left s) := by
  induction k generalizing pos left s with
  | zero => exact h
  | succ k ih =>
    unfold Machine.voiceLoop
    split
    · exact h
    have h1 : P (if (s.voice v).ccnt = 0 then atomic c (voiceTick c v) s else s) := by
      split
      · exact atomic_keeps rfl (K.tick s) K.moves h
      · exact h
    dsimp only
    generalize (if (s.voice v).ccnt = 0 then atomic c (voiceTick c v) s else s) = s1 at h1
    have hn : chunkLength c left (s1.voice v).ccnt ≤ left := Nat.min_le_left _ _
    generalize chunkLength c left (s1.voice v).ccnt = n at hn
    exact ih (pos + n) (left - n) _ (fun j a b => hR j (by omega) (by omega))
      (whileBusy_keeps (K.advance n _) (K.sampleLoop n pos s1 (fun j a b => hR j a (by omega)) h1))

theorem VoiceKeeps.renderVoice (K : VoiceKeeps c R v P) (start count : Nat) (s : State)
    (hR : ∀ j, start ≤ j → j < start + count → R j) (h : P s) : P (renderVoice c start count s v) :=
  K.voiceLoop count start count _ hR (whileBusy_keeps (K.cut s) h)

end VoiceKeeps

/-! One voice sample. -/

theorem mixIn_voices (c : Params) (ch i : Nat) (z : Num32) (s : State) : (mixIn c ch i z s).voices = s.voices :=
  memWrite_voices c _ _ s

/-- A sample is mixed, if at all, into the word of its own index and channel alone. -/
theorem memRead_mixIn_if {c : Params} {p : Prop} [Decidable p] {a ch i : Nat} (z : Num32) (s : State)
    (h : p → a ≠ sampleAddr c ch i) : memRead a (if p then mixIn c ch i z s else s) = memRead a s := by
  split
  · exact memRead_memWrite_other c s (h ‹_›)
  · rfl

theorem voiceSample_voices (c : Params) (v i : Nat) (s : State) :
    (voiceSample c v i s).voices = (s.modVoice v fun _ => ((s.voice v).sample c s).2.2).voices := by
  unfold voiceSample
  dsimp only
  split <;> split <;> simp only [mixIn_voices]

/-- A voice sample changes no other voice's record. -/
theorem voice_voiceSample_ne (c : Params) {v w : Nat} (i : Nat) (s : State) (h : v ≠ w) :
    (voiceSample c v i s).voice w = s.voice w :=
  (congrArg (List.getD · w Voice.reset) (voiceSample_voices c v i s)).trans (State.voice_modVoice_ne s _ h)

/-- A voice sample changes no word but those of its index in the channels below `nch`. -/
theorem memRead_voiceSample_other (c : Params) {a : Nat} (v i : Nat) (s : State)
    (h : ∀ ch < s.nch.toNat, a ≠ sampleAddr c ch i) : memRead a (voiceSample c v i s) = memRead a s := by
  unfold voiceSample
  dsimp only
  rw [memRead_mixIn_if _ _ fun h2 => h 1 (by omega), memRead_mixIn_if _ _ fun h1 => h 0 (by omega)]
  rfl

/-! A RENDER under way. -/

/-- What RENDER never changes: configuration, note counter, route tables, the C port's words, the number of voices. -/
def SameConfiguration (s t : State) : Prop :=
  t.mode = s.mode ∧ t.fs = s.fs ∧ t.maxBlock = s.maxBlock ∧ t.nch = s.nch ∧ t.nvoices = s.nvoices ∧
    t.noteSeq = s.noteSeq ∧ t.vr = s.vr ∧ t.gr = s.gr ∧ t.cIn = s.cIn ∧ t.voices.length = s.voices.length

/-- `t` is a state of `RENDER start, count` from `s` at the cursor `cur` with the control counter `g`, and no `rst` is chosen. -/
structure Rendering (start count : Nat) (s : State) (cur : Cursor) (g : BitVec 16) (t : State) : Prop where
  busy : t.busy = true
  cursor : t.cursor = some cur
  noReset : .rst ∉ t.events
  gcnt : t.gcnt = g
  config : SameConfiguration s t
  voice : ∀ v, s.nvoices.toNat ≤ v → t.voice v = s.voice v
  memory : ∀ a, ¬ Rendered s start count a → memRead a t = memRead a s

section Rendering

variable {start count : Nat} {s t : State} {cur : Cursor} {g : BitVec 16}

theorem Rendering.nch (h : Rendering start count s cur g t) : t.nch = s.nch := h.config.2.2.2.1

theorem Rendering.nvoices (h : Rendering start count s cur g t) : t.nvoices = s.nvoices := h.config.2.2.2.2.1

theorem Rendering.globalTick (h : Rendering start count s cur g t) :
    Rendering start count s cur g (globalTick hw t) := by
  rw [globalTick_frame]
  exact { h with }

theorem Rendering.interleave (h : Rendering start count s cur g t) :
    Rendering start count s cur g (interleave hw t) := by
  unfold Machine.interleave
  obtain ⟨_, _, _, _, _, _, _, _, _, _, e, hsuffix⟩ | ⟨hrst, _⟩ := interleaveWith_cases hw t.events t
  · rw [e]
    exact { h with noReset := fun hm => h.noReset (hsuffix.mem hm) }
  · exact absurd hrst h.noReset

/-- A change of a voice that exists. -/
theorem Rendering.modVoice (h : Rendering start count s cur g t) {v : Nat} (hv : v < s.nvoices.toNat)
    (f : Voice → Voice) : Rendering start count s cur g (t.modVoice v f) where
  __ := h
  config := by
    obtain ⟨h1, h2, h3, h4, h5, h6, h7, h8, h9, hlen⟩ := h.config
    exact ⟨h1, h2, h3, h4, h5, h6, h7, h8, h9, by rw [State.modVoice_voices, List.length_modify, hlen]⟩
  voice w hw := by rw [State.voice_modVoice_ne _ _ (by omega), h.voice w hw]

/-- A sample of a voice that exists, at an index of the range. -/
theorem Rendering.voiceSample (h : Rendering start count s cur g t) {v i : Nat} (hv : v < s.nvoices.toNat)
    (hi : start ≤ i ∧ i < start + count) : Rendering start count s cur g (voiceSample hw v i t) := by
  have hlen : (Machine.voiceSample hw v i t).voices.length = t.voices.length := by
    rw [voiceSample_voices, State.modVoice_voices, List.length_modify]
  have hvoice : ∀ w, s.nvoices.toNat ≤ w → (Machine.voiceSample hw v i t).voice w = s.voice w := fun w hw => by
    rw [voice_voiceSample_ne _ _ _ (by omega), h.voice w hw]
  have hmem : ∀ a, ¬ Rendered s start count a → memRead a (Machine.voiceSample hw v i t) = memRead a s := by
    intro a ha
    rw [memRead_voiceSample_other, h.memory a ha]
    rintro ch hch rfl
    exact ha ⟨ch, i, h.nch ▸ hch, hi.1, hi.2, rfl⟩
  obtain ⟨h1, h2, h3, h4, h5, h6, h7, h8, h9, h10⟩ := h.config
  have hconfig : SameConfiguration s (Machine.voiceSample hw v i t) := by
    refine ⟨?_, ?_, ?_, ?_, ?_, ?_, ?_, ?_, ?_, hlen.trans h10⟩ <;> rw [voiceSample_frame] <;> assumption
  have hframe := voiceSample_frame hw v i t
  exact {
    busy := by rw [hframe]; exact h.busy
    cursor := by rw [hframe]; exact h.cursor
    noReset := by rw [hframe]; exact h.noReset
    gcnt := by rw [hframe]; exact h.gcnt
    config := hconfig
    voice := hvoice
    memory := hmem }

/-- Rendering a voice that exists keeps `Rendering`. -/
theorem rendering_voiceKeeps (start count : Nat) (s : State) (cur : Cursor) (g : BitVec 16) {v : Nat}
    (hv : v < s.nvoices.toNat) :
    VoiceKeeps hw (fun i => start ≤ i ∧ i < start + count) v (Rendering start count s cur g) where
  tick _ _ h := h.modVoice hv _
  sample _ _ hi _ h := h.voiceSample hv hi
  moves _ _ h := h.interleave
  advance _ _ _ h := h.modVoice hv _
  cut _ _ h := h

/-- The voices of one pool chunk. -/
theorem Rendering.voices (vs : List Nat) (pos n : Nat) (hvs : ∀ v ∈ vs, v < s.nvoices.toNat)
    (hR : ∀ j, pos ≤ j → j < pos + n → start ≤ j ∧ j < start + count) (h : Rendering start count s cur g t) :
    Rendering start count s cur g (vs.foldl (renderVoice hw pos n) t) := by
  induction vs generalizing t with
  | nil => exact h
  | cons v vs ih =>
    exact ih (fun w hw => hvs w (List.mem_cons_of_mem v hw))
      ((rendering_voiceKeeps start count s cur g (hvs v List.mem_cons_self)).renderVoice pos n t hR h)

/-- The indices still to be rendered lie in the range. -/
def CursorInRange (start count : Nat) (cur : Cursor) : Prop :=
  cursorWithin (fun i => start ≤ i ∧ i < start + count) cur

/-- The control counter before the voices of a chunk is `g` also after the global tick. -/
theorem Rendering.tickIfDue (h : Rendering start count s cur g t) :
    Rendering start count s cur g (if t.gcnt = 0 then atomic hw (Machine.globalTick hw) t else t) := by
  split
  · exact atomic_keeps (by rw [globalTick_frame]) (fun _ h => h.globalTick) (fun _ _ h => h.interleave) h
  · exact h

theorem Rendering.chunkCount (h : Rendering start count s cur g t) :
    chunkCount hw cur t = min cur.rem.toNat (100 - g.toNat) := by
  unfold Machine.chunkCount
  rw [h.tickIfDue.gcnt]
  rfl

theorem Rendering.chunkBody (hcur : CursorInRange start count cur) (h : Rendering start count s cur g t) :
    Rendering start count s cur g (chunkBody hw cur t) := by
  unfold Machine.chunkBody
  refine Rendering.voices _ _ _ (fun v hv => ?_) (fun j a b => hcur.2 j a ?_) h.tickIfDue
  · rw [liveVoices, List.mem_range, h.tickIfDue.nvoices] at hv
    exact hv
  · exact Nat.lt_of_lt_of_le b (Nat.add_le_add_left (Nat.min_le_left _ _) _)

/-- One pool chunk of `n` samples moves the cursor and the counter by `n`. -/
theorem Rendering.poolChunk (hcur : CursorInRange start count cur) (h : Rendering start count s cur g t) {n : Nat}
    (hn : n = min cur.rem.toNat (100 - g.toNat)) :
    Rendering start count s ⟨cur.pos + BitVec.ofNat 32 n, cur.rem - BitVec.ofNat 16 n⟩ (advanceCounter hw n g)
      (poolChunk hw cur t) := by
  have hbody := h.chunkBody hcur
  rw [poolChunk_eq, h.chunkCount, ← hn, whileBusy, if_pos hbody.busy, hbody.gcnt]
  exact { hbody with cursor := rfl, gcnt := rfl }

/-- The render loop, with as many chunks allowed as samples are left, ends with the counter moved by these, modulo 100. -/
theorem Rendering.renderLoop (k : Nat) (hk : cur.rem.toNat ≤ k) (hcur : CursorInRange start count cur)
    (hg : g.toNat < 100) (h : Rendering start count s cur g t) :
    ∃ cur' g', Rendering start count s cur' g' (renderLoop hw k t) ∧ g'.toNat = (g.toNat + cur.rem.toNat) % 100 := by
  have hdone : cur.rem.toNat = 0 → g.toNat = (g.toNat + cur.rem.toNat) % 100 := by omega
  induction k generalizing t cur g with
  | zero => exact ⟨cur, g, h, hdone (by omega)⟩
  | succ k ih =>
    unfold Machine.renderLoop
    rw [h.cursor]
    dsimp only
    split
    · exact ⟨cur, g, h, hdone (by simp [*])⟩
    have hrem : cur.rem.toNat ≠ 0 := fun h0 => ‹¬ cur.rem = 0› (BitVec.eq_of_toNat_eq h0)
    obtain ⟨n, hn⟩ : ∃ n, n = min cur.rem.toNat (100 - g.toNat) := ⟨_, rfl⟩
    have hrem' : (cur.rem - BitVec.ofNat 16 n).toNat = cur.rem.toNat - n := by
      have := cur.rem.isLt
      rw [BitVec.toNat_sub, BitVec.toNat_ofNat]
      omega
    have hg' : (advanceCounter hw n g).toNat = (g.toNat + n) % 100 := by
      rw [advanceCounter, BitVec.toNat_ofNat]
      exact Nat.mod_eq_of_lt (lt_trans (Nat.mod_lt _ (by decide)) (by decide))
    obtain ⟨cur', g', hend, hend'⟩ := ih (by rw [hrem']; omega) (cursorWithin_advance hcur (by omega)) (by omega)
      (h.poolChunk hcur hn) (by omega)
    refine ⟨cur', g', hend, ?_⟩
    rw [hend', hg']
    simp only [hrem']
    omega

end Rendering

theorem exec_render_of_accepted {start count : Nat} {s : State} (hm : s.mode = .ready)
    (hr : start + count ≤ s.maxBlock.toNat) :
    exec (.render start count) s = .next (endCommand (renderLoop hw count
      { s with busy := true, cursor := some ⟨BitVec.ofNat 32 start, BitVec.ofNat 16 count⟩ })) := by
  simp [exec, execRender, renderCommand, cCommand, hm, Nat.not_lt.2 hr]

/-- Settles O32: the state at RENDER's start is `Rendering`, and the render loop keeps that to its end. -/
theorem renderCompletes : Obligations.RenderCompletes := by
  intro start count s hm hr hg hrst
  have hlen := s.maxBlock.isLt
  have epos : (BitVec.ofNat 32 start).toNat = start := by rw [BitVec.toNat_ofNat]; omega
  have erem : (BitVec.ofNat 16 count).toNat = count := by rw [BitVec.toNat_ofNat]; omega
  have hcur : CursorInRange start count ⟨BitVec.ofNat 32 start, BitVec.ofNat 16 count⟩ := by
    unfold CursorInRange cursorWithin
    rw [epos, erem]
    exact ⟨by omega, fun j a b => ⟨a, b⟩⟩
  have hstart : Rendering start count s ⟨BitVec.ofNat 32 start, BitVec.ofNat 16 count⟩ s.gcnt
      { s with busy := true, cursor := some ⟨BitVec.ofNat 32 start, BitVec.ofNat 16 count⟩ } :=
    ⟨rfl, rfl, hrst, rfl, ⟨rfl, rfl, rfl, rfl, rfl, rfl, rfl, rfl, rfl, rfl⟩, fun _ _ => rfl, fun _ _ => rfl⟩
  obtain ⟨_, g, hend, hcount⟩ := hstart.renderLoop count (le_of_eq erem) hcur hg
  refine ⟨_, exec_render_of_accepted hm hr, rfl, rfl, ?_, hend.config, hend.voice, hend.memory⟩
  rw [endCommand_gcnt, hend.gcnt, hcount, erem]

end Sys2Proof.Machine
end

section
/-! SUPPORT. The library functions are monotone (00_scope.md R13 (d)): the logarithm's digits and the search bit by bit are,
and so is the choice among the neighbours of the number found. -/

namespace Sys2Proof.Machine

/-! The logarithm of a size. -/

/-- `k` digits after `acc` are `acc` shifted by `k` places and something below it. -/
theorem logDigits_bounds (k y acc : Nat) :
    acc * 2 ^ k ≤ logDigits k y acc ∧ logDigits k y acc < (acc + 1) * 2 ^ k := by
  induction k generalizing y acc with
  | zero => exact ⟨by simp [logDigits], by simp [logDigits]⟩
  | succ k ih =>
    unfold logDigits
    rw [Nat.pow_succ]
    dsimp only
    split
    · have := ih (y * y / 2 ^ 160 / 2) (2 * acc + 1)
      constructor <;> linarith
    · have := ih (y * y / 2 ^ 160) (2 * acc)
      constructor <;> linarith

/-- A greater mantissa has no smaller digits: the first place where they differ decides. -/
theorem logDigits_mono (k acc : Nat) {y y' : Nat} (h : y ≤ y') : logDigits k y acc ≤ logDigits k y' acc := by
  induction k generalizing y y' acc with
  | zero => exact le_refl _
  | succ k ih =>
    have hz : y * y / 2 ^ 160 ≤ y' * y' / 2 ^ 160 := Nat.div_le_div_right (Nat.mul_le_mul h h)
    unfold logDigits
    dsimp only
    split <;> rename_i h1 <;> split <;> rename_i h2
    · exact ih _ (Nat.div_le_div_right hz)
    · exact absurd (h1.trans hz) h2
    · have hlo := (logDigits_bounds k (y * y / 2 ^ 160) (2 * acc)).2
      have hhi := (logDigits_bounds k (y' * y' / 2 ^ 160 / 2) (2 * acc + 1)).1
      exact Nat.le_of_lt (lt_of_lt_of_le hlo hhi)
    · exact ih _ hz

/-- The mantissa 1 has no digits. -/
theorem logDigits_one (k : Nat) : logDigits k (2 ^ 160) 0 = 0 := by
  induction k with
  | zero => rfl
  | succ k ih =>
    have hz : 2 ^ 160 * 2 ^ 160 / 2 ^ 160 = 2 ^ 160 := by decide +kernel
    unfold logDigits
    dsimp only
    rw [hz, if_neg (by decide)]
    exact ih

/-- The integer part of the logarithm bounds it. -/
theorem log2Fix_bounds (n : Nat) :
    ((n.log2 : Int) - 149) * 2 ^ 96 ≤ log2Fix n ∧ log2Fix n < ((n.log2 : Int) + 1 - 149) * 2 ^ 96 := by
  obtain ⟨_, h⟩ := logDigits_bounds 96 (n * 2 ^ 160 / 2 ^ n.log2) 0
  unfold log2Fix
  omega

theorem log2Fix_mono {n n' : Nat} (hn : 0 < n) (h : n ≤ n') : log2Fix n ≤ log2Fix n' := by
  have hlog : n.log2 ≤ n'.log2 := (Nat.le_log2 (by omega)).2 ((Nat.log2_self_le (by omega)).trans h)
  rcases Nat.lt_or_eq_of_le hlog with hlt | heq
  · have := (log2Fix_bounds n).2
    have := (log2Fix_bounds n').1
    omega
  · have hd := logDigits_mono 96 0 (Nat.div_le_div_right (c := 2 ^ n.log2) (Nat.mul_le_mul_right (2 ^ 160) h))
    unfold log2Fix
    rw [← heq]
    omega

/-- The logarithm of a power of two is exact. -/
theorem log2Fix_two_pow (e : Nat) : log2Fix (2 ^ e) = ((e : Int) - 149) * 2 ^ 96 := by
  unfold log2Fix
  rw [Nat.log2_two_pow, Nat.mul_div_cancel_left _ (Nat.two_pow_pos e), logDigits_one]
  simp

/-! The search for the greatest number that passes a test. -/

theorem bitSearch_bounds (ok : Nat → Bool) (k acc : Nat) :
    acc ≤ bitSearch ok k acc ∧ bitSearch ok k acc < acc + 2 ^ k := by
  induction k generalizing acc with
  | zero => exact ⟨le_refl _, Nat.lt_succ_self _⟩
  | succ k ih =>
    have h1 := ih (acc + 2 ^ k)
    have h2 := ih acc
    unfold bitSearch
    rw [Nat.pow_succ]
    split <;> omega

/-- A weaker test finds no smaller number. -/
theorem bitSearch_mono {ok ok' : Nat → Bool} (h : ∀ m, ok m = true → ok' m = true) (k acc : Nat) :
    bitSearch ok k acc ≤ bitSearch ok' k acc := by
  induction k generalizing acc with
  | zero => exact le_refl _
  | succ k ih =>
    unfold bitSearch
    split <;> rename_i h1 <;> split <;> rename_i h2
    · exact ih _
    · exact absurd (h _ h1) h2
    · have hlo := (bitSearch_bounds ok k acc).2
      have hhi := (bitSearch_bounds ok' k (acc + 2 ^ k)).1
      omega
    · exact ih _

/-- What is found passes the test, unless nothing is. -/
theorem bitSearch_ok (ok : Nat → Bool) (k acc : Nat) :
    bitSearch ok k acc = acc ∨ ok (bitSearch ok k acc) = true := by
  induction k generalizing acc with
  | zero => exact .inl rfl
  | succ k ih =>
    unfold bitSearch
    split
    · obtain h | h := ih (acc + 2 ^ k)
      · exact .inr (h.symm ▸ ‹_›)
      · exact .inr h
    · exact ih acc

/-- A test that passes all positive numbers below one that it passes. -/
def Downward (ok : Nat → Bool) : Prop := ∀ m m', 0 < m → m ≤ m' → ok m' = true → ok m = true

/-- Of such a test no number that passes is missed. -/
theorem le_bitSearch {ok : Nat → Bool} (hd : Downward ok) {m : Nat} (hm : ok m = true) (k acc : Nat)
    (hlt : m < acc + 2 ^ k) : m ≤ bitSearch ok k acc := by
  induction k generalizing acc with
  | zero => exact Nat.le_of_lt_succ hlt
  | succ k ih =>
    unfold bitSearch
    split
    · exact ih _ (by rw [Nat.pow_succ] at hlt; omega)
    · refine ih _ (Nat.lt_of_not_le fun hle => ?_)
      exact ‹¬ ok (acc + 2 ^ k) = true› (hd _ _ (by have := Nat.two_pow_pos k; omega) hle hm)

/-- Of such a test the number found lies below one that does not pass. -/
theorem bitSearch_lt {ok : Nat → Bool} (hd : Downward ok) {m : Nat} (h0 : 0 < m) (hm : ok m = false) (k : Nat) :
    bitSearch ok k 0 < m := by
  by_contra hle
  obtain h | h := bitSearch_ok ok k 0
  · omega
  · simp [hd m _ h0 (by omega) h] at hm

/-! The choice among the neighbours of the number found. -/

/-- The place taken where `j` is the greatest not above the exact value: `s` tells which places are switched on, `drop` and `raise`
whether the third number below or above is admissible. -/
def chosenPlace (s : Nat → Bool) (drop raise : Bool) (j : Nat) : Nat :=
  if drop && !s j then j - 1 else if raise && s (j + 2) then j + 2 else if s (j + 1) then j + 1 else j

theorem le_chosenPlace {s : Nat → Bool} {drop raise : Bool} {j p : Nat} (hj : p ≤ j)
    (hdrop : drop = true → p + 1 ≤ j) : p ≤ chosenPlace s drop raise j := by
  unfold chosenPlace
  split
  case isTrue h =>
    have := hdrop (Bool.and_eq_true _ _ ▸ h).1
    omega
  case isFalse => split_ifs <;> omega

theorem chosenPlace_le {s : Nat → Bool} {drop raise : Bool} {j p : Nat} (hj : j + 1 ≤ p)
    (hraise : raise = true → j + 2 ≤ p) : chosenPlace s drop raise j ≤ p := by
  unfold chosenPlace
  split
  · omega
  split
  case isTrue h => exact hraise (Bool.and_eq_true _ _ ▸ h).1
  case isFalse => split_ifs <;> omega

/-- More places switched on, and the third numbers going with it, move the choice up; between different places a dropped one
must not meet a raised one. -/
theorem chosenPlace_mono {s s' : Nat → Bool} (hs : ∀ i, s i = true → s' i = true) {j j' : Nat} (hj : j ≤ j')
    {drop raise drop' raise' : Bool} (hdrop : j = j' → drop' = true → drop = true)
    (hraise : j = j' → raise = true → raise' = true) (hapart : drop' = true → raise = true → j + 3 ≤ j') :
    chosenPlace s drop raise j ≤ chosenPlace s' drop' raise' j' := by
  rcases Nat.eq_or_lt_of_le hj with rfl | hlt
  · have hdrop : (drop' && !s' j) = true → (drop && !s j) = true := by
      have := hs j
      grind
    have hraise : (raise && s (j + 2)) = true → (raise' && s' (j + 2)) = true := by
      have := hs (j + 2)
      grind
    have hup := hs (j + 1)
    unfold chosenPlace
    grind
  · by_cases hd : (drop' && !s' j') = true
    · rw [Bool.and_eq_true, Bool.not_eq_true'] at hd
      have hup : s (j + 1) = true → j + 1 ≠ j' := fun h e => by simpa [e, hd.2] using hs _ h
      unfold chosenPlace
      grind
    · have hup : s (j + 2) = true → s' (j + 2) = true := hs (j + 2)
      unfold chosenPlace
      grind

end Sys2Proof.Machine
end

section
/-! SUPPORT. `NUM.exp` and `NUM.exp2` are monotone: which place each result stands at, and how the places compare. -/

namespace Sys2Proof.Machine

/-! Numbers by their places. -/

/-- `r` is a number and stands at place `j` in the order of the numbers. -/
def AtPlace (r : Num32) (j : Int) : Prop := isNaN r = false ∧ fkey r = j

theorem fle_of_atPlace {r r' : Num32} {j j' : Int} (h : AtPlace r j) (h' : AtPlace r' j') (hj : j ≤ j') :
    fle r r' = true :=
  fle_iff.2 ⟨h.1, h'.1, by rw [h.2, h'.2]; exact hj⟩

theorem atPlace_fpack {neg : Bool} {m : Nat} (h : m ≤ 0x7F800000) :
    AtPlace (fpack neg m) (if neg then -(m : Int) else m) := by
  refine ⟨isNaN_fpack h, ?_⟩
  unfold fkey
  rw [fneg?_fpack (by omega), fmag_fpack (by omega)]

theorem atPlace_fpack_false {m : Nat} (h : m ≤ 0x7F800000) : AtPlace (fpack false m) m := by
  simpa using atPlace_fpack (neg := false) h

theorem atPlace_fpack_true {m : Nat} (h : m ≤ 0x7F800000) : AtPlace (fpack true m) (-(m : Int)) := by
  simpa using atPlace_fpack (neg := true) h

theorem atPlace_inf : AtPlace Num32.inf 0x7F800000 := ⟨rfl, rfl⟩

theorem atPlace_one : AtPlace Num32.one 0x3F800000 := ⟨rfl, rfl⟩

/-- The sign of a zero does not move a result. -/
theorem atPlace_libResult (op : NanOp) (x : Num32) {m : Nat} (h : m ≤ 0x7F800000) : AtPlace (libResult op x m) m := by
  have hp := atPlace_fpack (neg := m == 0 && Config.zeroNegative op x) h
  unfold libResult
  by_cases h0 : m = 0
  · subst h0
    simpa using hp
  · simpa [h0] using hp

theorem fpack_fneg?_fmag (x : Num32) : fpack (fneg? x) (fmag x) = x := by
  refine BitVec.eq_of_toNat_eq ?_
  have := x.isLt
  rw [fpack_toNat (fmag_lt x)]
  unfold fneg? fmag
  split <;> simp at * <;> omega

/-- A number that is no NaN is finite or one of the infinities. -/
theorem number_cases {x : Num32} (h : isNaN x = false) :
    x = Num32.negInf ∨ x = Num32.inf ∨ isFinite x = true := by
  rcases Nat.lt_or_eq_of_le (fmag_le_of_isNaN h) with hlt | heq
  · exact .inr (.inr (decide_eq_true hlt))
  · rw [← fpack_fneg?_fmag x, heq]
    cases fneg? x
    · exact .inr (.inl rfl)
    · exact .inl rfl

theorem fkey_of_isFinite {x : Num32} (h : isFinite x = true) : -0x7F800000 < fkey x ∧ fkey x < 0x7F800000 := by
  have := fmag_lt_of_isFinite h
  unfold fkey
  split <;> omega

/-- Two numbers in order are both finite, or the lower one is `-inf` or the greater one `+inf`. -/
theorem fle_cases {a b : Num32} (h : fle a b = true) :
    a = Num32.negInf ∨ b = Num32.inf ∨ (isFinite a = true ∧ isFinite b = true) := by
  obtain ⟨ha, hb, hk⟩ := fle_iff.1 h
  have hinf : fkey Num32.inf = 0x7F800000 := rfl
  have hneg : fkey Num32.negInf = -0x7F800000 := rfl
  obtain rfl | rfl | hfa := number_cases ha
  · exact .inl rfl
  · obtain rfl | rfl | hfb := number_cases hb
    · omega
    · exact .inr (.inl rfl)
    · have := fkey_of_isFinite hfb
      omega
  · obtain rfl | rfl | hfb := number_cases hb
    · have := fkey_of_isFinite hfa
      omega
    · exact .inr (.inl rfl)
    · exact .inr (.inr ⟨hfa, hfb⟩)

/-- The order of finite numbers is that of their values. -/
theorem value_le_of_fle {a b : Num32} (h : fle a b = true) : value a ≤ value b := by
  obtain ⟨_, _, hk⟩ := fle_iff.1 h
  unfold fkey at hk
  unfold value units
  split_ifs at hk ⊢
  · have : unitsOfMag (fmag b) ≤ unitsOfMag (fmag a) := unitsOfMag_strictMono.monotone (by omega)
    omega
  · omega
  · have ha : fmag a = 0 := by omega
    have hb : fmag b = 0 := by omega
    simp [ha, hb]
  · have : unitsOfMag (fmag a) ≤ unitsOfMag (fmag b) := unitsOfMag_strictMono.monotone (by omega)
    omega

/-- A number is 0 exactly when its value is. -/
theorem value_eq_zero_iff {x : Num32} : value x = 0 ↔ isZero x = true := by
  have hpos : isZero x = false → 0 < units x := units_pos
  have hzero : isZero x = true → units x = 0 := fun h => congrArg unitsOfMag (beq_iff_eq.1 h)
  unfold value
  cases h : isZero x
  · have := hpos h
    split <;> simp <;> omega
  · simp [hzero h]

/-! The search of `exp` and `exp2`: the exact value is at least a number when a logarithm is at most a bound `X`, in units
that `A` measures. -/

/-- The test of `exp2AtLeast` and `expAtLeast`. -/
def reaches (A X : Int) (m : Nat) : Bool :=
  decide (m ≤ 0x7F7FFFFF) && decide (log2Fix (unitsOfMag m) * A ≤ X)

/-- The greatest finite number that is reached. -/
def greatestReached (A X : Int) : Nat := bitSearch (reaches A X) 31 0

theorem exp2Below_eq (x : Num32) : exp2Below x = greatestReached (2 ^ 149) (value x * 2 ^ 96) := rfl

theorem expBelow_eq (x : Num32) : expBelow x = greatestReached (2 ^ 309) (value x * log2e * 2 ^ 96) := rfl

theorem reaches_iff {A X : Int} {m : Nat} :
    reaches A X m = true ↔ m ≤ 0x7F7FFFFF ∧ log2Fix (unitsOfMag m) * A ≤ X := by
  simp [reaches]

section Reached

variable {A X X' : Int} {m : Nat}

theorem downward_reaches (hA : 0 ≤ A) : Downward (reaches A X) := by
  intro m m' h0 hle h
  rw [reaches_iff] at *
  have hlog := log2Fix_mono (unitsOfMag_pos h0) (unitsOfMag_strictMono.monotone hle)
  exact ⟨hle.trans h.1, (Int.mul_le_mul_of_nonneg_right hlog hA).trans h.2⟩

theorem greatestReached_mono (h : X ≤ X') : greatestReached A X ≤ greatestReached A X' :=
  bitSearch_mono (fun _ hm => reaches_iff.2 ⟨(reaches_iff.1 hm).1, (reaches_iff.1 hm).2.trans h⟩) 31 0

theorem greatestReached_le : greatestReached A X ≤ 0x7F7FFFFF := by
  obtain h | h := bitSearch_ok (reaches A X) 31 0
  · exact (le_of_eq h).trans (by decide)
  · exact (reaches_iff.1 h).1

theorem le_greatestReached (hA : 0 ≤ A) (hm : m ≤ 0x7F7FFFFF) (h : log2Fix (unitsOfMag m) * A ≤ X) :
    m ≤ greatestReached A X :=
  le_bitSearch (downward_reaches hA) (reaches_iff.2 ⟨hm, h⟩) 31 0 (by omega)

theorem greatestReached_lt (hA : 0 ≤ A) (h0 : 0 < m) (h : X < log2Fix (unitsOfMag m) * A) :
    greatestReached A X < m :=
  bitSearch_lt (downward_reaches hA) h0 (Bool.eq_false_iff.2 fun hr => not_le.2 h (reaches_iff.1 hr).2) 31

end Reached

theorem exp2Below_lt (x : Num32) : exp2Below x < 0x7F800000 := by
  rw [exp2Below_eq]
  exact Nat.lt_succ_of_le greatestReached_le

theorem expBelow_lt (x : Num32) : expBelow x < 0x7F800000 := by
  rw [expBelow_eq]
  exact Nat.lt_succ_of_le greatestReached_le

/-! The choice of a neighbour. -/

/-- Which places are switched on at the argument `x`. -/
def switched (switch : Num32 → Num32) (place : Nat → Num32) (x : Num32) (i : Nat) : Bool := fge x (switch (place i))

theorem switched_mono (switch : Num32 → Num32) (place : Nat → Num32) {a b : Num32} (h : fle a b = true) (i : Nat)
    (hi : switched switch place a i = true) : switched switch place b i = true :=
  fle_trans hi h

theorem atPlace_pickNeighbour (op : NanOp) (switch : Num32 → Num32) (x : Num32) {m : Nat} (h : m < 0x7F800000) :
    AtPlace (pickNeighbour op switch x m) (chosenPlace (switched switch (fpack false) x) false false m : Nat) := by
  unfold pickNeighbour chosenPlace switched
  simp only [Bool.false_and, Bool.false_eq_true, if_false]
  split
  · exact atPlace_libResult op x h
  · exact atPlace_libResult op x (Nat.le_of_lt h)

/-- A function that is monotone on finite arguments, with results from 0 to infinity, 0 at `-inf` and infinity at `+inf`, is
monotone. -/
theorem mono_of_finite {f : Num32 → Num32}
    (range : ∀ x, isFinite x = true → ∃ m : Nat, m ≤ 0x7F800000 ∧ AtPlace (f x) m)
    (hneg : AtPlace (f Num32.negInf) 0) (hinf : f Num32.inf = Num32.inf)
    (finite : ∀ a b, isFinite a = true → isFinite b = true → fle a b = true → fle (f a) (f b) = true)
    {a b : Num32} (h : fle a b = true) : fle (f a) (f b) = true := by
  have range : ∀ x, isNaN x = false → ∃ m : Nat, m ≤ 0x7F800000 ∧ AtPlace (f x) m := by
    intro x hx
    obtain rfl | rfl | hfin := number_cases hx
    · exact ⟨0, Nat.zero_le _, hneg⟩
    · exact ⟨0x7F800000, le_refl _, by rw [hinf]; exact atPlace_inf⟩
    · exact range x hfin
  obtain ⟨ha, hb, _⟩ := fle_iff.1 h
  obtain rfl | rfl | ⟨hfa, hfb⟩ := fle_cases h
  · obtain ⟨m, _, hm⟩ := range b hb
    exact fle_of_atPlace hneg hm (Int.natCast_nonneg m)
  · obtain ⟨m, hle, hm⟩ := range a ha
    exact fle_of_atPlace hm (by rw [hinf]; exact atPlace_inf) (Int.ofNat_le.2 hle)
  · exact finite a b hfa hfb h

/-! `exp2`. -/

/-- The place of `exp2` at an argument where it is not exact. -/
def exp2Place (x : Num32) : Nat := chosenPlace (switched Config.exp2Switch (fpack false) x) false false (exp2Below x)

theorem exp2Place_le (x : Num32) : exp2Place x ≤ 0x7F800000 :=
  chosenPlace_le (exp2Below_lt x) (by simp)

/-- The three branches of `exp2` at a finite argument. -/
theorem libExp2_cases {x : Num32} (hx : isFinite x = true) :
    (∃ k : Int, -149 ≤ k ∧ k ≤ 127 ∧ value x = k * 2 ^ 149 ∧ AtPlace (libExp2 x) (pow2Mag k)) ∨
    (128 * 2 ^ 149 < value x ∧ AtPlace (libExp2 x) 0x7F800000) ∨
    (value x ≤ 128 * 2 ^ 149 ∧ (∀ k : Int, -149 ≤ k → k ≤ 127 → value x ≠ k * 2 ^ 149) ∧
      AtPlace (libExp2 x) (exp2Place x)) := by
  by_cases hint : ∃ k : Int, -149 ≤ k ∧ k ≤ 127 ∧ value x = k * 2 ^ 149
  · obtain ⟨k, h1, h2, hk⟩ := hint
    refine .inl ⟨k, h1, h2, hk, ?_⟩
    rw [libExp2_of_integer hx hk h1 h2, pow2_eq]
    exact atPlace_fpack_false (Nat.le_of_lt (pow2Mag_spec h1 h2).1)
  have hne : ¬ (value x % 2 ^ 149 = 0 ∧ -149 ≤ value x / 2 ^ 149 ∧ value x / 2 ^ 149 ≤ 127) := fun ⟨h0, h1, h2⟩ =>
    hint ⟨value x / 2 ^ 149, h1, h2, (Int.ediv_mul_cancel (Int.dvd_of_emod_eq_zero h0)).symm⟩
  unfold libExp2
  rw [if_neg (by simp [isNaN_of_isFinite hx]), if_neg (by simp [isInf_of_isFinite hx]), if_neg hne]
  by_cases hover : 128 * 2 ^ 149 < value x
  · rw [if_pos hover]
    exact .inr (.inl ⟨hover, atPlace_inf⟩)
  · rw [if_neg hover]
    exact .inr (.inr ⟨not_lt.1 hover, fun k h1 h2 hk => hint ⟨k, h1, h2, hk⟩,
      atPlace_pickNeighbour _ _ x (exp2Below_lt x)⟩)

theorem pow2Mag_pos {k : Int} (h1 : -149 ≤ k) (h2 : k ≤ 127) : 0 < pow2Mag k := by
  refine Nat.pos_of_ne_zero fun h0 => ?_
  have h := (pow2Mag_spec h1 h2).2
  rw [h0, unitsOfMag_zero] at h
  exact absurd h.symm (Nat.ne_of_gt (Nat.two_pow_pos _))

theorem log2Fix_pow2Mag {k : Int} (h1 : -149 ≤ k) (h2 : k ≤ 127) : log2Fix (unitsOfMag (pow2Mag k)) = k * 2 ^ 96 := by
  rw [(pow2Mag_spec h1 h2).2, log2Fix_two_pow, show (((k + 149).toNat : Nat) : Int) - 149 = k by omega]

theorem pow2Mag_mono {k l : Int} (h1 : -149 ≤ k) (h2 : k ≤ 127) (hl : l ≤ 127) (hkl : k ≤ l) :
    pow2Mag k ≤ pow2Mag l := by
  refine unitsOfMag_strictMono.le_iff_le.1 ?_
  rw [(pow2Mag_spec h1 h2).2, (pow2Mag_spec (by omega) hl).2]
  exact Nat.pow_le_pow_right (by decide) (by omega)

/-- `exp2` of an argument not below the integer `k` is not below `2^k`. -/
theorem pow2Mag_le_exp2Place {x : Num32} {k : Int} (h1 : -149 ≤ k) (h2 : k ≤ 127) (h : k * 2 ^ 149 ≤ value x) :
    pow2Mag k ≤ exp2Place x := by
  have hfin := (pow2Mag_spec h1 h2).1
  have hle : pow2Mag k ≤ exp2Below x :=
    le_greatestReached (by decide) (by omega) (by rw [log2Fix_pow2Mag h1 h2]; omega)
  exact le_chosenPlace hle (by simp)

/-- `exp2` of an argument below the integer `k` is not above `2^k`. -/
theorem exp2Place_le_pow2Mag {x : Num32} {k : Int} (h1 : -149 ≤ k) (h2 : k ≤ 127) (h : value x < k * 2 ^ 149) :
    exp2Place x ≤ pow2Mag k := by
  have hlt : exp2Below x < pow2Mag k :=
    greatestReached_lt (by decide) (pow2Mag_pos h1 h2) (by rw [log2Fix_pow2Mag h1 h2]; omega)
  exact chosenPlace_le hlt (by simp)

theorem exp2Place_mono {a b : Num32} (h : fle a b = true) : exp2Place a ≤ exp2Place b := by
  have hbelow : exp2Below a ≤ exp2Below b := by
    rw [exp2Below_eq, exp2Below_eq]
    exact greatestReached_mono (Int.mul_le_mul_of_nonneg_right (value_le_of_fle h) (by decide))
  exact chosenPlace_mono (switched_mono _ _ h) hbelow (fun _ h => h) (fun _ h => h) (by simp)

/-- `exp2` gives a number from 0 to infinity. -/
theorem libExp2_range {x : Num32} (hx : isFinite x = true) :
    ∃ m : Nat, m ≤ 0x7F800000 ∧ AtPlace (libExp2 x) m := by
  obtain ⟨k, h1, h2, _, hp⟩ | ⟨_, hp⟩ | ⟨_, _, hp⟩ := libExp2_cases hx
  · exact ⟨_, Nat.le_of_lt (pow2Mag_spec h1 h2).1, hp⟩
  · exact ⟨0x7F800000, le_refl _, hp⟩
  · exact ⟨_, exp2Place_le x, hp⟩

theorem libExp2_negInf : AtPlace (libExp2 Num32.negInf) 0 := atPlace_libResult .exp2 Num32.negInf (m := 0) (by decide)

theorem libExp2_inf : libExp2 Num32.inf = Num32.inf := rfl

theorem libExp2_mono_finite {a b : Num32} (ha : isFinite a = true) (hb : isFinite b = true) (h : fle a b = true) :
    fle (libExp2 a) (libExp2 b) = true := by
  have hv := value_le_of_fle h
  obtain ⟨k, hk1, hk2, hk, hpa⟩ | ⟨hover, hpa⟩ | ⟨hle, hne, hpa⟩ := libExp2_cases ha
  · obtain ⟨l, hl1, hl2, hl, hpb⟩ | ⟨_, hpb⟩ | ⟨_, _, hpb⟩ := libExp2_cases hb
    · exact fle_of_atPlace hpa hpb (Int.ofNat_le.2 (pow2Mag_mono hk1 hk2 hl2 (by omega)))
    · exact fle_of_atPlace hpa hpb (by have := (pow2Mag_spec hk1 hk2).1; omega)
    · exact fle_of_atPlace hpa hpb (Int.ofNat_le.2 (pow2Mag_le_exp2Place hk1 hk2 (hk ▸ hv)))
  · obtain ⟨l, hl1, hl2, hl, hpb⟩ | ⟨_, hpb⟩ | ⟨hle, _, hpb⟩ := libExp2_cases hb
    · omega
    · exact fle_of_atPlace hpa hpb (le_refl _)
    · omega
  · obtain ⟨l, hl1, hl2, hl, hpb⟩ | ⟨_, hpb⟩ | ⟨_, _, hpb⟩ := libExp2_cases hb
    · have hlt := lt_of_le_of_ne (hl ▸ hv) (hne l hl1 hl2)
      exact fle_of_atPlace hpa hpb (Int.ofNat_le.2 (exp2Place_le_pow2Mag hl1 hl2 hlt))
    · exact fle_of_atPlace hpa hpb (Int.ofNat_le.2 (exp2Place_le a))
    · exact fle_of_atPlace hpa hpb (Int.ofNat_le.2 (exp2Place_mono h))

theorem libExp2_mono {a b : Num32} (h : fle a b = true) : fle (libExp2 a) (libExp2 b) = true :=
  mono_of_finite (fun _ => libExp2_range) libExp2_negInf libExp2_inf (fun _ _ => libExp2_mono_finite) h

/-! `exp`. -/

/-- The number below the power of two `m` is admissible too. -/
def expDrops (x : Num32) (m : Nat) : Bool := isBinade m && m != 0x3F800000 && !expReaches (value x) (binadeMid m)

/-- The place of `exp` at an argument where it is neither exact nor beyond the finite numbers. -/
def expPlace (x : Num32) : Nat :=
  chosenPlace (switched Config.expSwitch (fpack false) x) (expDrops x (expBelow x)) false (expBelow x)

theorem expPlace_le (x : Num32) : expPlace x ≤ 0x7F800000 :=
  chosenPlace_le (expBelow_lt x) (by simp)

/-- `exp`'s choice of the number below a power of two or a neighbour, by place. -/
theorem atPlace_expPick (x : Num32) {m : Nat} (h : m < 0x7F800000) :
    AtPlace (if expDrops x m && !switched Config.expSwitch (fpack false) x m then fpack false (m - 1)
      else pickNeighbour .exp Config.expSwitch x m)
      (chosenPlace (switched Config.expSwitch (fpack false) x) (expDrops x m) false m : Nat) := by
  have hpick := atPlace_pickNeighbour .exp Config.expSwitch x h
  unfold chosenPlace at *
  split
  · exact atPlace_fpack_false (by omega)
  · exact hpick

/-- The three branches of `exp` at a finite argument. -/
theorem libExp_cases {x : Num32} (hx : isFinite x = true) :
    (value x = 0 ∧ AtPlace (libExp x) 0x3F800000) ∨
    (128 * 2 ^ 309 < value x * log2e ∧ AtPlace (libExp x) 0x7F800000) ∨
    (value x ≠ 0 ∧ value x * log2e ≤ 128 * 2 ^ 309 ∧ AtPlace (libExp x) (expPlace x)) := by
  unfold libExp
  rw [if_neg (by simp [isNaN_of_isFinite hx]), if_neg (by simp [isInf_of_isFinite hx])]
  by_cases hzero : isZero x = true
  · rw [if_pos hzero]
    exact .inl ⟨value_eq_zero_iff.2 hzero, atPlace_one⟩
  rw [if_neg hzero]
  by_cases hover : 128 * 2 ^ 309 < value x * log2e
  · rw [if_pos hover]
    exact .inr (.inl ⟨hover, atPlace_inf⟩)
  · rw [if_neg hover]
    exact .inr (.inr ⟨fun h0 => hzero (value_eq_zero_iff.1 h0), not_lt.1 hover, atPlace_expPick x (expBelow_lt x)⟩)

theorem log2e_pos : (0 : Int) < log2e := by decide +kernel

theorem unitsOfMag_one : unitsOfMag 0x3F800000 = 2 ^ 149 := by decide +kernel

/-- `exp` of a positive argument is not below 1: the number below 1 is never admissible. -/
theorem one_le_expPlace {x : Num32} (h : 0 < value x) : 0x3F800000 ≤ expPlace x := by
  have hle : 0x3F800000 ≤ expBelow x := by
    refine le_greatestReached (by decide) (by decide) ?_
    rw [unitsOfMag_one, log2Fix_two_pow]
    have := Int.mul_pos h log2e_pos
    omega
  refine le_chosenPlace hle fun hdrop => ?_
  have hne : expBelow x ≠ 0x3F800000 := by
    simp only [expDrops, Bool.and_eq_true, bne_iff_ne] at hdrop
    exact hdrop.1.2
  omega

/-- `exp` of a negative argument is not above 1. -/
theorem expPlace_le_one {x : Num32} (h : value x < 0) : expPlace x ≤ 0x3F800000 := by
  have hlt : expBelow x < 0x3F800000 := by
    refine greatestReached_lt (by decide) (by decide) ?_
    rw [unitsOfMag_one, log2Fix_two_pow]
    have := Int.mul_neg_of_neg_of_pos h log2e_pos
    omega
  exact chosenPlace_le hlt (by simp)

theorem value_mul_log2e_mono {a b : Num32} (h : fle a b = true) : value a * log2e ≤ value b * log2e :=
  Int.mul_le_mul_of_nonneg_right (value_le_of_fle h) (Int.le_of_lt log2e_pos)

theorem expReaches_mono {x y : Int} (h : x * log2e ≤ y * log2e) {n : Nat} (hx : expReaches x n = true) :
    expReaches y n = true := by
  simp only [expReaches, decide_eq_true_eq] at *
  omega

theorem expPlace_mono {a b : Num32} (h : fle a b = true) : expPlace a ≤ expPlace b := by
  have hv := value_mul_log2e_mono h
  have hbelow : expBelow a ≤ expBelow b := by
    rw [expBelow_eq, expBelow_eq]
    exact greatestReached_mono (Int.mul_le_mul_of_nonneg_right hv (by decide))
  refine chosenPlace_mono (switched_mono _ _ h) hbelow (fun e hdrop => ?_) (fun _ h => h) (by simp)
  rw [← e] at hdrop
  simp only [expDrops, Bool.and_eq_true, Bool.not_eq_true'] at *
  exact ⟨hdrop.1, Bool.eq_false_iff.2 fun hr => by simp [expReaches_mono hv hr] at hdrop⟩

theorem libExp_range {x : Num32} (hx : isFinite x = true) : ∃ m : Nat, m ≤ 0x7F800000 ∧ AtPlace (libExp x) m := by
  obtain ⟨_, hp⟩ | ⟨_, hp⟩ | ⟨_, _, hp⟩ := libExp_cases hx
  · exact ⟨0x3F800000, by decide, hp⟩
  · exact ⟨0x7F800000, le_refl _, hp⟩
  · exact ⟨_, expPlace_le x, hp⟩

theorem libExp_mono_finite {a b : Num32} (ha : isFinite a = true) (hb : isFinite b = true) (h : fle a b = true) :
    fle (libExp a) (libExp b) = true := by
  have hv := value_le_of_fle h
  have hv' := value_mul_log2e_mono h
  have pos_of_over : ∀ x : Num32, 128 * 2 ^ 309 < value x * log2e → 0 < value x := fun x hx =>
    Int.pos_of_mul_pos_left (lt_trans (by positivity) hx) log2e_pos
  obtain ⟨ha0, hpa⟩ | ⟨hover, hpa⟩ | ⟨hne, hle, hpa⟩ := libExp_cases ha
  · obtain ⟨_, hpb⟩ | ⟨_, hpb⟩ | ⟨hb0, _, hpb⟩ := libExp_cases hb
    · exact fle_of_atPlace hpa hpb (le_refl _)
    · exact fle_of_atPlace hpa hpb (by decide)
    · exact fle_of_atPlace hpa hpb (Int.ofNat_le.2 (one_le_expPlace (by omega)))
  · obtain ⟨hb0, hpb⟩ | ⟨_, hpb⟩ | ⟨_, hle, hpb⟩ := libExp_cases hb
    · have := pos_of_over a hover
      omega
    · exact fle_of_atPlace hpa hpb (le_refl _)
    · omega
  · obtain ⟨hb0, hpb⟩ | ⟨_, hpb⟩ | ⟨_, _, hpb⟩ := libExp_cases hb
    · exact fle_of_atPlace hpa hpb (Int.ofNat_le.2 (expPlace_le_one (by omega)))
    · exact fle_of_atPlace hpa hpb (Int.ofNat_le.2 (expPlace_le a))
    · exact fle_of_atPlace hpa hpb (Int.ofNat_le.2 (expPlace_mono h))

theorem libExp_mono {a b : Num32} (h : fle a b = true) : fle (libExp a) (libExp b) = true :=
  mono_of_finite (fun _ => libExp_range) ⟨rfl, rfl⟩ rfl (fun _ _ => libExp_mono_finite) h

end Sys2Proof.Machine
end

section
/-! SUPPORT. `NUM.ln` is monotone on the arguments that are not negative, and the three functions together. -/

namespace Sys2Proof.Machine

theorem atPlace_ofPlace {j : Nat} (h1 : 0x800000 ≤ j) (h2 : j ≤ 0x80000000 + 0x7F800000) :
    AtPlace (ofPlace j) ((j : Int) - 0x80000000) := by
  unfold ofPlace
  split
  · rw [show (j : Int) - 0x80000000 = ((j - 0x80000000 : Nat) : Int) by omega]
    exact atPlace_fpack_false (by omega)
  · rw [show (j : Int) - 0x80000000 = -((0x80000000 - j : Nat) : Int) by omega]
    exact atPlace_fpack_true (by omega)

/-- The number at place `j - 2^31`, in units of 2^-149, as `lnAtLeast` reads it. -/
def placeUnits (j : Nat) : Int :=
  if 0x80000000 ≤ j then unitsOfMag (j - 0x80000000) else -(unitsOfMag (0x80000000 - j) : Int)

theorem placeUnits_mono {j j' : Nat} (h : j ≤ j') : placeUnits j ≤ placeUnits j' := by
  unfold placeUnits
  split_ifs
  · exact Int.ofNat_le.2 (unitsOfMag_strictMono.monotone (by omega))
  · omega
  · omega
  · exact Int.neg_le_neg (Int.ofNat_le.2 (unitsOfMag_strictMono.monotone (by omega)))

theorem lnReaches_iff {n : Nat} {q : Int} : lnReaches n q = true ↔ q * log2e * 2 ^ 96 ≤ log2Fix n * 2 ^ 309 :=
  decide_eq_true_iff

/-- A greater argument reaches all that a smaller one does. -/
theorem lnReaches_mono {n n' : Nat} (h0 : 0 < n) (h : n ≤ n') {q : Int} (hq : lnReaches n q = true) :
    lnReaches n' q = true := by
  rw [lnReaches_iff] at *
  exact hq.trans (Int.mul_le_mul_of_nonneg_right (log2Fix_mono h0 h) (by positivity))

theorem lnReaches_of_le {n : Nat} {q q' : Int} (h : q ≤ q') (hq : lnReaches n q' = true) : lnReaches n q = true := by
  rw [lnReaches_iff] at *
  refine le_trans (Int.mul_le_mul_of_nonneg_right ?_ (by positivity)) hq
  exact Int.mul_le_mul_of_nonneg_right h (Int.le_of_lt log2e_pos)

theorem lnAtLeast_iff {n j : Nat} : lnAtLeast n j = true ↔
    j ≤ 0x80000000 + 0x7F7FFFFF ∧ (j ≤ 0x80000000 - 0x7F7FFFFF ∨ lnReaches n (placeUnits j) = true) := by
  unfold lnAtLeast placeUnits
  rw [Bool.and_eq_true, Bool.or_eq_true, decide_eq_true_eq, decide_eq_true_eq]

theorem downward_lnAtLeast (n : Nat) : Downward (lnAtLeast n) := by
  intro j j' _ hle h
  rw [lnAtLeast_iff] at *
  obtain ⟨h1, h2⟩ := h
  exact ⟨hle.trans h1, h2.imp (fun h => hle.trans h) (lnReaches_of_le (placeUnits_mono hle))⟩

/-- `lnBelow` as a function of the argument's units. -/
def lnSearch (n : Nat) : Nat := bitSearch (lnAtLeast n) 32 0

theorem lnBelow_eq (x : Num32) : lnBelow x = lnSearch (units x) := rfl

theorem lnSearch_mono {n n' : Nat} (h0 : 0 < n) (h : n ≤ n') : lnSearch n ≤ lnSearch n' := by
  refine bitSearch_mono (fun j hj => ?_) 32 0
  rw [lnAtLeast_iff] at *
  exact ⟨hj.1, hj.2.imp id (lnReaches_mono h0 h)⟩

theorem lnSearch_le (n : Nat) : lnSearch n ≤ 0x80000000 + 0x7F7FFFFF := by
  obtain h | h := bitSearch_ok (lnAtLeast n) 32 0
  · exact (le_of_eq h).trans (by decide)
  · exact (lnAtLeast_iff.1 h).1

/-- The place of `lnFloor`, raised by 2^31. -/
def floorPlace : Nat := 0x80000000 - 0x42CE8ED1

theorem atPlace_lnFloor : AtPlace lnFloor ((floorPlace : Int) - 0x80000000) := ⟨rfl, rfl⟩

/-- The logarithm of a positive number is not below `lnFloor`: that of the least one is not. -/
theorem floorPlace_le_lnSearch {n : Nat} (h0 : 0 < n) : floorPlace ≤ lnSearch n := by
  have hone : lnAtLeast 1 floorPlace = true := by decide +kernel
  exact (le_bitSearch (downward_lnAtLeast 1) hone 32 0 (by decide)).trans (lnSearch_mono Nat.one_pos h0)

theorem log2Fix_one : log2Fix (2 ^ 149) = 0 := by rw [log2Fix_two_pow]; decide

/-- The logarithm of a number from 1 on is not negative. -/
theorem le_lnSearch_of_one_le {n : Nat} (h : 2 ^ 149 ≤ n) : 0x80000000 ≤ lnSearch n := by
  have hone : lnAtLeast (2 ^ 149) 0x80000000 = true := by
    rw [lnAtLeast_iff, lnReaches_iff, log2Fix_one]
    exact ⟨by decide, .inr (by decide)⟩
  exact (le_bitSearch (downward_lnAtLeast _) hone 32 0 (by decide)).trans (lnSearch_mono (Nat.two_pow_pos _) h)

/-- The logarithm of a positive number below 1 is negative. -/
theorem lnSearch_lt_of_lt_one {n : Nat} (h0 : 0 < n) (h : n < 2 ^ 149) : lnSearch n < 0x80000000 := by
  have hlog : log2Fix n < 0 := by
    have hlt : n.log2 < 149 := (Nat.log2_lt (by omega)).2 h
    have := (log2Fix_bounds n).2
    omega
  refine bitSearch_lt (downward_lnAtLeast n) (by decide) (Bool.eq_false_iff.2 fun hone => ?_) 32
  rw [lnAtLeast_iff, lnReaches_iff] at hone
  obtain ⟨_, habs | hreach⟩ := hone
  · exact absurd habs (by decide)
  · have : placeUnits 0x80000000 = 0 := by decide
    have hneg : log2Fix n * 2 ^ 309 < 0 := Int.mul_neg_of_neg_of_pos hlog (by positivity)
    rw [this] at hreach
    omega

/-- The number below a positive power of two at place `j` is admissible too. -/
def lnDrops (x : Num32) (j : Nat) : Bool :=
  isBinade (j - 0x80000000) && !lnReaches (units x) (binadeMid (j - 0x80000000))

/-- The number above a negative power of two next above place `j` is admissible too. -/
def lnRaises (x : Num32) (j : Nat) : Bool :=
  isBinade (0x7FFFFFFF - j) && lnReaches (units x) (-(binadeMid (0x7FFFFFFF - j) : Int))

theorem le_of_isBinade {m : Nat} (h : isBinade m = true) : 0x1000000 ≤ m := by
  simp only [isBinade, Bool.and_eq_true, decide_eq_true_eq] at h
  exact h.2

theorem le_of_lnDrops {x : Num32} {j : Nat} (h : lnDrops x j = true) : 0x81000000 ≤ j := by
  have := le_of_isBinade (Bool.and_eq_true _ _ ▸ h).1
  omega

theorem le_of_lnRaises {x : Num32} {j : Nat} (h : lnRaises x j = true) : j ≤ 0x7EFFFFFF := by
  have := le_of_isBinade (Bool.and_eq_true _ _ ▸ h).1
  omega

/-- The place of `ln`, raised by 2^31, at a positive finite argument other than 1. -/
def lnPlace (x : Num32) : Nat :=
  chosenPlace (switched Config.lnSwitch ofPlace x) (lnDrops x (lnBelow x)) (lnRaises x (lnBelow x)) (lnBelow x)

theorem pickLog_eq (x : Num32) : pickLog x (lnBelow x) = ofPlace (lnPlace x) := by
  unfold pickLog lnPlace chosenPlace lnDrops lnRaises switched
  split_ifs <;> rfl

/-- From a place not above 2^31 on, the third number below leads back to none below that place. -/
theorem le_lnPlace {x : Num32} {p : Nat} (hp : p ≤ 0x80000000) (h : p ≤ lnBelow x) : p ≤ lnPlace x :=
  le_chosenPlace h fun hd => by have := le_of_lnDrops hd; omega

/-- The third number above leads to none above 2^31. -/
theorem lnPlace_le {x : Num32} {p : Nat} (hp : 0x80000000 ≤ p) (h : lnBelow x < p) : lnPlace x ≤ p :=
  chosenPlace_le h fun hr => by have := le_of_lnRaises hr; omega

theorem atPlace_pickLog {x : Num32} (h0 : 0 < units x) :
    AtPlace (pickLog x (lnBelow x)) ((lnPlace x : Int) - 0x80000000) := by
  have hlo : floorPlace ≤ lnPlace x := le_lnPlace (by decide) (floorPlace_le_lnSearch h0)
  have hhi : lnPlace x ≤ 0x80000000 + 0x7F800000 := lnPlace_le (by decide) (Nat.lt_succ_of_le (lnSearch_le _))
  rw [pickLog_eq]
  exact atPlace_ofPlace (le_trans (by decide) hlo) hhi

theorem lnPlace_mono {a b : Num32} (h0 : 0 < units a) (hu : units a ≤ units b) (h : fle a b = true) :
    lnPlace a ≤ lnPlace b := by
  have hbelow : lnBelow a ≤ lnBelow b := by
    rw [lnBelow_eq, lnBelow_eq]
    exact lnSearch_mono h0 hu
  refine chosenPlace_mono (switched_mono _ _ h) hbelow (fun e hd => ?_) (fun e hr => ?_) fun hd hr => ?_
  · rw [← e] at hd
    simp only [lnDrops, Bool.and_eq_true, Bool.not_eq_true'] at *
    exact ⟨hd.1, Bool.eq_false_iff.2 fun hr => by simp [lnReaches_mono h0 hu hr] at hd⟩
  · rw [← e]
    simp only [lnRaises, Bool.and_eq_true] at *
    exact ⟨hr.1, lnReaches_mono h0 hu hr.2⟩
  · have := le_of_lnDrops hd
    have := le_of_lnRaises hr
    omega

/-! `ln` itself. -/

theorem libLn_of_zero {x : Num32} (h : isZero x = true) : libLn x = lnZero := by
  have hn : isNaN x = false := by
    rw [isZero, beq_iff_eq] at h
    simp [isNaN, h]
  simp [libLn, h, hn]

theorem libLn_inf : libLn Num32.inf = Num32.inf := rfl

theorem units_of_value_pos {x : Num32} (h : 0 < value x) : fneg? x = false ∧ value x = units x := by
  unfold value at *
  cases hs : fneg? x
  · exact ⟨rfl, by simp⟩
  · simp [hs] at h
    omega

/-- The two branches of `ln` at a positive finite argument. -/
theorem libLn_cases {x : Num32} (hx : isFinite x = true) (hpos : 0 < value x) :
    (units x = 2 ^ 149 ∧ AtPlace (libLn x) 0) ∨
    (units x ≠ 2 ^ 149 ∧ AtPlace (libLn x) ((lnPlace x : Int) - 0x80000000)) := by
  obtain ⟨hsign, hv⟩ := units_of_value_pos hpos
  have hzero : ¬ isZero x = true := fun h => by
    have := value_eq_zero_iff.2 h
    omega
  unfold libLn
  rw [if_neg (by simp [isNaN_of_isFinite hx]), if_neg hzero, if_neg (by simp [hsign]),
    if_neg (by simp [isInf_of_isFinite hx])]
  by_cases hone : x = Num32.one
  · rw [if_pos hone]
    exact .inl ⟨hone ▸ unitsOfMag_one, rfl, rfl⟩
  · rw [if_neg hone]
    refine .inr ⟨fun hu => hone ?_, atPlace_pickLog (by omega)⟩
    have hmag : fmag x = 0x3F800000 := unitsOfMag_strictMono.injective (hu.trans unitsOfMag_one.symm)
    rw [← fpack_fneg?_fmag x, hsign, hmag]
    rfl

/-- `ln` of a positive number or infinity lies between `lnFloor` and infinity. -/
theorem libLn_range {x : Num32} (hx : isNaN x = false) (hpos : 0 < value x) :
    fle lnFloor (libLn x) = true ∧ fle (libLn x) Num32.inf = true := by
  obtain rfl | rfl | hfin := number_cases hx
  · exact absurd hpos (by decide +kernel)
  · exact ⟨rfl, rfl⟩
  have hu : 0 < units x := by have := (units_of_value_pos hpos).2; omega
  obtain ⟨_, hp⟩ | ⟨_, hp⟩ := libLn_cases hfin hpos
  · exact ⟨fle_of_atPlace atPlace_lnFloor hp (by decide), fle_of_atPlace hp atPlace_inf (by decide)⟩
  · have hlo : floorPlace ≤ lnPlace x := le_lnPlace (by decide) (floorPlace_le_lnSearch hu)
    have hhi : lnPlace x ≤ 0x80000000 + 0x7F800000 := lnPlace_le (by decide) (Nat.lt_succ_of_le (lnSearch_le _))
    exact ⟨fle_of_atPlace atPlace_lnFloor hp (by omega), fle_of_atPlace hp atPlace_inf (by omega)⟩

theorem libLn_mono_finite {a b : Num32} (ha : isFinite a = true) (hb : isFinite b = true) (hpos : 0 < value a)
    (h : fle a b = true) : fle (libLn a) (libLn b) = true := by
  have hv := value_le_of_fle h
  have hua := (units_of_value_pos hpos).2
  have hub := (units_of_value_pos (lt_of_lt_of_le hpos hv)).2
  obtain ⟨ha1, hpa⟩ | ⟨ha1, hpa⟩ := libLn_cases ha hpos
  · obtain ⟨hb1, hpb⟩ | ⟨hb1, hpb⟩ := libLn_cases hb (lt_of_lt_of_le hpos hv)
    · exact fle_of_atPlace hpa hpb (le_refl _)
    · have hle : 0x80000000 ≤ lnPlace b := le_lnPlace (le_refl _) (le_lnSearch_of_one_le (by omega))
      exact fle_of_atPlace hpa hpb (by omega)
  · obtain ⟨hb1, hpb⟩ | ⟨hb1, hpb⟩ := libLn_cases hb (lt_of_lt_of_le hpos hv)
    · have hle : lnPlace a ≤ 0x80000000 :=
        lnPlace_le (le_refl _) (lnSearch_lt_of_lt_one (by omega) (by omega))
      exact fle_of_atPlace hpa hpb (by omega)
    · have hle : lnPlace a ≤ lnPlace b := lnPlace_mono (by omega) (by omega) h
      exact fle_of_atPlace hpa hpb (by omega)

/-- `ln` of a zero is not above `lnFloor`. -/
theorem lnZero_le : fle lnZero lnFloor = true := by
  unfold lnZero
  split
  · assumption
  · decide

theorem libLn_mono {a b : Num32} (h : fle a b = true) (h0 : fge a 0#32 = true) :
    fle (libLn a) (libLn b) = true := by
  obtain ⟨ha, hb, _⟩ := fle_iff.1 h
  have hnonneg : 0 ≤ value a := value_le_of_fle h0
  have hv := value_le_of_fle h
  have pos_of_ne : ∀ x : Num32, ¬ isZero x = true → value x ≠ 0 := fun x hx hx0 => hx (value_eq_zero_iff.1 hx0)
  by_cases hza : isZero a = true
  · rw [libLn_of_zero hza]
    by_cases hzb : isZero b = true
    · rw [libLn_of_zero hzb]
      exact fle_refl (fle_iff.1 lnZero_le).1
    · have := pos_of_ne b hzb
      exact fle_trans lnZero_le (libLn_range hb (by omega)).1
  have hpos : 0 < value a := by have := pos_of_ne a hza; omega
  obtain rfl | rfl | ⟨hfa, hfb⟩ := fle_cases h
  · exact absurd hpos (by decide +kernel)
  · rw [libLn_inf]
    exact (libLn_range ha hpos).2
  · exact libLn_mono_finite hfa hfb hpos h

/-- Settles O60: each function's place rises with its argument. -/
theorem libraryMonotone : Obligations.LibraryMonotone :=
  fun _ _ h => ⟨libExp_mono h, libExp2_mono h, libLn_mono h⟩

end Sys2Proof.Machine
end

section
/-! SUPPORT. What one step can do, of any configuration: a C-port command and how it ends, or a move of the writer, of `rst` or of
the host. Every invariant of 10_state.md R60 is a case analysis over `Stepped`. -/

namespace Sys2Proof.Machine

/-- The decoder gives a port only commands of that port (30_encoding.md R122, R123). -/
theorem port_of_decode {port : Port} {ws rest : List Word} {i : Instr} (h : decode port ws = .command i rest) :
    i.port = port := by
  cases ws with
  | nil => cases h
  | cons H ws =>
    unfold decode at h
    dsimp only at h
    split at h
    · cases h
    rename_i f hf
    split at h
    · cases h
    unfold decodeFormat at h
    split at h
    · cases h
    split at h
    · cases h
    rename_i hport
    split at h <;> cases h
    rename_i hi
    rw [← not_not.1 hport]
    have hf : formats.find? (fun f => f.op == opcodeOf H) = some f := hf
    have hop := List.find?_some hf
    have hop : field H.toNat 24 8 = f.op := (beq_iff_eq.1 hop).symm
    have hmem := List.mem_of_find?_eq_some hf
    simp only [formats, List.mem_cons, List.not_mem_nil, or_false] at hmem
    unfold assemble at hi
    obtain rfl | rfl | rfl | rfl | rfl | rfl | rfl := hmem <;> simp only [hop] at hi
    case inr.inr.inr.inr.inr.inr =>
      obtain ⟨id, _, rfl⟩ := Option.map_eq_some_iff.1 hi
      exact port_instr id _
    all_goals cases hi; rfl

/-- How a C-port command ends that started in `s`: rejected (60_exceptions.md R381, R386), or its effects are made. -/
inductive CommandDone (c : Params) (s : State) : State → Prop
  | rejected (e : Error) (H : Word) : CommandDone c s (raise e H .c s)
  | halted (H : Word) (hm : s.mode = .ready) : CommandDone c s { raise .capacity H .c s with mode := .halted }
  | prepared (fsn : Num32) (mb nc : Nat) (hrate : rateLegal fsn = true) (hmb : 1 ≤ mb ∧ mb ≤ c.maxBlockCap)
      (hnc : 1 ≤ nc ∧ nc ≤ c.maxChannels) : CommandDone c s (endCommand (prepareEffects c fsn mb nc s))
  | voicesSet (n lo hi : Nat) (hn : n ≤ c.maxVoices) :
      CommandDone c s (endCommand { s with voices := constructRange c lo hi s.voices, nvoices := BitVec.ofNat 8 n })
  | routedVoice (k : Nat) (r : Route) : CommandDone c s (endCommand { s with vr := s.vr.set k r })
  | routedGlobal (k : Nat) (r : Route) : CommandDone c s (endCommand { s with gr := s.gr.set k r })
  | noteStarted (v : Nat) (n : BitVec 7) : CommandDone c s (endCommand (takeVoice c v n s))
  | noteStopped (vs : List Nat) (n : BitVec 7) (tail : Bool) :
      CommandDone c s (endCommand (vs.foldl (stopIfHolding n tail) s))
  | rendered (start count : Nat) (hb : s.busy = true) (hlen : start + count ≤ s.maxBlock.toNat) :
      CommandDone c s (endCommand (renderLoop c count
        { s with cursor := some ⟨BitVec.ofNat 32 start, BitVec.ofNat 16 count⟩ }))

variable {c : Params} {s t : State}

/-- A C-port command ends not busy and without a cursor. -/
theorem CommandDone.ended (h : CommandDone c s t) : t.busy = false ∧ t.cursor = none := by
  cases h <;> exact ⟨rfl, rfl⟩

theorem cCommand_done {H : Word} {body : State → State} {s : State}
    (h : ∀ u : State, u.busy = true → CommandDone c u (body u)) :
    CommandDone c { s with busy := true } (cCommand H body s) := by
  unfold cCommand
  dsimp only
  split
  · exact .rejected _ _
  · exact h _ rfl

theorem runOf_instr (c : Params) (id : ParamId) (v : Word) : runOf c (id.instr v) = setParam c id v := by
  cases id <;> rfl

theorem prepareCommand_done (H : Word) (d : BitVec 64) (mb nc : Nat) (s : State) :
    CommandDone c { s with busy := true } (prepareCommand c H d mb nc s) := by
  refine cCommand_done fun u _ => ?_
  split
  · exact .rejected _ _
  split
  · exact .rejected _ _
  split
  · exact .rejected _ _
  · exact .prepared _ _ _ (by simpa using ‹¬ (!rateLegal _) = true›) (by omega) (by omega)

theorem setVoicesCommand_done (H : Word) (n : Nat) (s : State) :
    CommandDone c { s with busy := true } (setVoicesCommand c H n s) := by
  refine cCommand_done fun u _ => ?_
  split
  · exact .rejected _ _
  · exact .voicesSet n _ _ (by omega)

theorem routeCommand_done (H : Word) (scope : Scope) (k : Nat) (r : Route) (s : State) :
    CommandDone c { s with busy := true } (routeCommand c H scope k r s) := by
  refine cCommand_done fun u _ => ?_
  split
  · exact .rejected _ _
  cases scope
  · exact .routedVoice k r
  · exact .routedGlobal k r

theorem noteOn_done (H : Word) (n : BitVec 7) (s : State) :
    CommandDone c { s with busy := true } (noteOn c H n s) := by
  refine cCommand_done fun u _ => ?_
  split
  · exact .rejected _ _
  split
  · exact .halted H (not_not.1 ‹_›)
  · exact .noteStarted _ n

theorem noteOff_done (H : Word) (n : BitVec 7) (tail : Bool) (s : State) :
    CommandDone c { s with busy := true } (noteOff H n tail s) := by
  refine cCommand_done fun u _ => ?_
  split
  · exact .rejected _ _
  · exact .noteStopped _ n tail

theorem renderCommand_done (H : Word) (start count : Nat) (s : State) :
    CommandDone c { s with busy := true } (renderCommand c H start count s) := by
  refine cCommand_done fun u hb => ?_
  split
  · exact .rejected _ _
  split
  · exact .rejected _ _
  · exact .rendered start count hb (by omega)

/-- Every C-port command ends in one of these ways. -/
theorem runOf_done {i : Instr} (hi : i.port = .c) (s : State) :
    CommandDone c { s with busy := true } (runOf c i s) := by
  cases i with
  | prepare d mb nc => exact prepareCommand_done _ d mb nc s
  | setvoices n => exact setVoicesCommand_done _ n s
  | noteon ch n v => exact noteOn_done _ _ s
  | noteoff ch n v tail => exact noteOff_done _ _ tail s
  | render start count => exact renderCommand_done _ start count s
  | route scope k valid en src dst => exact routeCommand_done _ scope k _ s
  | _ => cases hi

/-- What one step can do to the block, after it took its move and its command's words. -/
inductive Stepped (c : Params) (s : State) : State → Prop
  | idle : Stepped c s s
  | command {t : State} (h : CommandDone c { s with busy := true } t) : Stepped c s t
  | refusedC (e : Error) (H : Word) : Stepped c s (raise e H .c s)
  | refusedP (e : Error) (H : Word) (hp : s.pPend = []) : Stepped c s (raise e H .p s)
  | paramSet (id : ParamId) (v : Word) (hp : s.pPend = []) : Stepped c s (setParam c id v s)
  | derivedWritten : Stepped c s (writeNext c s)
  | reset : Stepped c s (rst c s)
  | hostWritten (a : Nat) (w : Word) : Stepped c s (memWrite c a w s)

/-- `s` after some of its chosen moves and some words of its ports are taken. -/
def Taken (s u : State) : Prop :=
  ∃ es ci pi, es <:+ s.events ∧ u = { s with events := es, cIn := ci, pIn := pi }

theorem engineTurn_stepped (h : engineTurn (execOf c) s = .next t) : ∃ u, Taken s u ∧ Stepped c u t := by
  have taken : ∀ ci, Taken s { s with cIn := ci } := fun ci => ⟨s.events, ci, s.pIn, List.suffix_refl _, rfl⟩
  unfold engineTurn at h
  split at h
  · cases h
    exact ⟨s, taken s.cIn, .idle⟩
  · rename_i i rest hd
    split at h <;> cases h
    · exact ⟨s, taken s.cIn, .idle⟩
    · exact ⟨_, taken rest, .command (runOf_done (port_of_decode hd) _)⟩
  · cases h
    exact ⟨_, taken _, .refusedC _ _⟩
  · cases h
    exact ⟨_, taken _, .refusedC _ _⟩

theorem writerTurn_stepped (h : writerTurn c (execOf c) s = .next t) : ∃ u, Taken s u ∧ Stepped c u t := by
  have taken : ∀ pi, Taken s { s with pIn := pi } := fun pi => ⟨s.events, s.cIn, pi, List.suffix_refl _, rfl⟩
  unfold writerTurn at h
  split at h
  · rename_i hp
    have hp : s.pPend = [] := List.isEmpty_iff.1 hp
    split at h
    · cases h
      exact ⟨s, taken s.pIn, .idle⟩
    · rename_i i rest hd
      cases h
      obtain ⟨⟨id, v⟩, hi⟩ : ∃ iv, i.setparam = some iv := by
        have := port_of_decode hd
        unfold Instr.port at this
        exact Option.isSome_iff_exists.1 (by by_contra hn; simp [hn] at this)
      rw [Instr.eq_of_setparam hi, runOf_instr]
      exact ⟨_, taken rest, .paramSet id v hp⟩
    · cases h
      exact ⟨_, taken _, .refusedP _ _ hp⟩
    · cases h
      exact ⟨_, taken _, .refusedP _ _ hp⟩
  · cases h
    exact ⟨s, taken s.pIn, .derivedWritten⟩

/-- Every step takes its move and words and then does what `Stepped` says. -/
theorem stepOf_stepped (h : stepOf c s = .next t) : ∃ u, Taken s u ∧ Stepped c u t := by
  have pop : ∀ e es, s.events = e :: es → ∀ u, Taken { s with events := es } u → Taken s u := by
    rintro e es he u ⟨es', ci, pi, hes, rfl⟩
    exact ⟨es', ci, pi, he ▸ hes.trans (List.suffix_cons e es), rfl⟩
  have popped : ∀ e es, s.events = e :: es → Taken s { s with events := es } := fun e es he =>
    pop e es he _ ⟨es, s.cIn, s.pIn, List.suffix_refl _, rfl⟩
  unfold stepOf stepWith at h
  split at h
  · split at h
    · exact engineTurn_stepped h
    · exact writerTurn_stepped h
  · rename_i es he
    obtain ⟨u, hu, hs⟩ := engineTurn_stepped h
    exact ⟨u, pop _ es he u hu, hs⟩
  · rename_i es he
    obtain ⟨u, hu, hs⟩ := writerTurn_stepped h
    exact ⟨u, pop _ es he u hu, hs⟩
  · rename_i es he
    cases h
    exact ⟨_, popped _ es he, .reset⟩
  · rename_i a w es he
    cases h
    refine ⟨_, popped _ es he, ?_⟩
    unfold hostWrite
    split
    · exact .idle
    · exact .hostWritten a w

end Sys2Proof.Machine
end

section
/-! SUPPORT. What the parts of a step keep: the writer's sequences, RENDER, and what every operation on a voice keeps of every
voice. -/

namespace Sys2Proof.Machine

variable {c : Params} {P : State → Prop}

/-- What single derived writes and the taking of moves keep, the rest of a write sequence keeps. -/
theorem writeRest_keeps (hwrite : ∀ s, P s → P (writeNext c s)) (k : Nat) (s : State) (h : P s) :
    P (writeRest c k s) := by
  induction k generalizing s with
  | zero => exact h
  | succ k ih => exact ih _ (hwrite s h)

theorem drainWith_keeps (hwrite : ∀ s, P s → P (writeNext c s)) (htake : ∀ s es, P s → P { s with events := es })
    (es : List Event) (s : State) (h : P s) : P (drainWith c es s) := by
  induction es generalizing s with
  | nil => exact writeRest_keeps hwrite _ _ (htake s [] h)
  | cons e es ih =>
    unfold drainWith
    split
    · exact htake s _ h
    cases e with
    | writer => exact ih _ (hwrite s h)
    | engine => exact htake s _ h
    | rst => exact htake s _ h
    | hostWrite a w => exact htake s _ h

theorem setParam_keeps (hwrite : ∀ s, P s → P (writeNext c s)) (htake : ∀ s es, P s → P { s with events := es })
    {id : ParamId} {v : Word} {s : State} (h : P (setParamStart id v s)) : P (setParam c id v s) :=
  drainWith_keeps hwrite htake _ _ h

theorem interleaveWith_keeps (hwriter : ∀ s, P s → P (writerStep c s)) (hrst : ∀ s, P s → P (rst c s))
    (htake : ∀ s es, P s → P { s with events := es }) (es : List Event) (s : State) (h : P s) :
    P (interleaveWith c es s) := by
  induction es generalizing s with
  | nil => exact htake s [] h
  | cons e es ih =>
    cases e with
    | engine => exact htake s es h
    | writer => exact ih _ (hwriter s h)
    | rst => exact hrst _ (htake s es h)
    | hostWrite a w => exact htake s _ h

/-- With no writer move among them, the moves at a boundary change nothing, unless `rst` is among them. -/
theorem interleaveWith_noWriter {es : List Event} (hwriter : .writer ∉ es) (s : State) :
    ∃ es', es' <:+ es ∧ (interleaveWith c es s = { s with events := es' } ∨
      .rst ∈ es ∧ interleaveWith c es s = rst c { s with events := es' }) := by
  cases es with
  | nil => exact ⟨[], List.suffix_refl _, .inl rfl⟩
  | cons e es =>
    cases e with
    | engine => exact ⟨es, List.suffix_cons _ _, .inl rfl⟩
    | writer => exact absurd List.mem_cons_self hwriter
    | rst => exact ⟨es, List.suffix_cons _ _, .inr ⟨List.mem_cons_self, rfl⟩⟩
    | hostWrite a w => exact ⟨_, List.suffix_refl _, .inl rfl⟩

/-- `P` survives everything that happens in a RENDER, the counters included. -/
structure RenderKeeps (c : Params) (P : State → Prop) : Prop extends Keeps c (fun _ => True) P where
  cursor : ∀ s cur, P s → P { s with cursor := cur }
  counter : ∀ s n, P s → P { s with gcnt := advanceCounter c n s.gcnt }

/-- An accepted RENDER keeps it. -/
theorem RenderKeeps.renderLoop (K : RenderKeeps c P) {start count : Nat} {s : State} (hb : s.busy = true)
    (hlen : start + count ≤ s.maxBlock.toNat) (h : P s) :
    P (renderLoop c count { s with cursor := some ⟨BitVec.ofNat 32 start, BitVec.ofNat 16 count⟩ }) :=
  render_keeps K.toKeeps (fun s n cur _ h => K.cursor _ (some cur) (K.counter s n h)) start count
    (Nat.lt_of_le_of_lt hlen s.maxBlock.isLt) (fun _ _ _ => trivial) s hb (K.cursor s _ h) count

/-! Every voice. -/

/-- Writing back `f` of voice `v` is changing voice `v` by `f`, whether `v` exists or not. -/
theorem State.modVoice_const (s : State) (v : Nat) (f : Voice → Voice) :
    s.modVoice v (fun _ => f (s.voice v)) = s.modVoice v f := by
  have h : s.voices.modify v (fun _ => f (s.voice v)) = s.voices.modify v f := by
    refine List.ext_getElem (by simp) fun k h1 h2 => ?_
    simp only [List.getElem_modify]
    split
    · subst_vars
      rw [List.length_modify] at h1
      simp [State.voice, List.getD_eq_getElem?_getD, h1]
    · rfl
  unfold State.modVoice
  rw [h]

theorem voiceSample_voices_modify (c : Params) (v i : Nat) (s : State) :
    (voiceSample c v i s).voices = (s.modVoice v fun x => (x.sample c s).2.2).voices := by
  rw [voiceSample_voices, State.modVoice_const s v fun x => (x.sample c s).2.2]

/-- `Q` of a voice survives every operation on it, a voice tick in a state with `G`. -/
structure VoiceOpsKeep (c : Params) (G : State → Prop) (Q : Voice → Prop) : Prop where
  construct : Q (resetVoice c)
  start : ∀ s n x, Q x → Q (Voice.startNote c s n x)
  stamp : ∀ k x, Q x → Q { x with seq := k }
  stop : ∀ tail x, Q x → Q (Voice.stopNote tail x)
  tick : ∀ s x, G s → Q x → Q (Voice.tick c s x)
  sample : ∀ s x, Q x → Q (Voice.sample c s x).2.2
  advance : ∀ n x, Q x → Q (Voice.advance c n x)
  cut : ∀ x, Q x → Q { x with fading := false }

/-- Every voice has `Q`. -/
def EveryVoice (Q : Voice → Prop) (s : State) : Prop := ∀ x ∈ s.voices, Q x

variable {G : State → Prop} {Q : Voice → Prop}

theorem everyVoice_resetOf (V : VoiceOpsKeep c G Q) : EveryVoice Q (State.resetOf c) := fun _ hx =>
  List.eq_of_mem_replicate hx ▸ V.construct

theorem VoiceOpsKeep.keeps (V : VoiceOpsKeep c G Q) (K : RenderKeeps c G) :
    RenderKeeps c (fun s => G s ∧ EveryVoice Q s) where
  global s hb h := ⟨K.global s hb h.1, by rw [globalTick_frame]; exact h.2⟩
  tick v s hb h := ⟨K.tick v s hb h.1, s.modVoice_all v _ h.2 fun x => V.tick s x h.1⟩
  sample v i s hi hb h := ⟨K.sample v i s hi hb h.1, by
    unfold EveryVoice
    rw [voiceSample_voices_modify]
    exact s.modVoice_all v _ h.2 (V.sample s)⟩
  moves s hb h := ⟨K.moves s hb h.1, by
    unfold interleave
    obtain ⟨_, _, _, _, _, _, _, _, _, _, e, _⟩ | ⟨_, s1, e, _⟩ := interleaveWith_cases c s.events s <;> rw [e]
    · exact h.2
    · exact everyVoice_resetOf V⟩
  advance v n s hb h := ⟨K.advance v n s hb h.1, s.modVoice_all v _ h.2 (V.advance n)⟩
  cut v s hb h := ⟨K.cut v s hb h.1, by
    unfold cutFadeOut
    split
    · exact s.modVoice_all v _ h.2 V.cut
    · exact h.2⟩
  cursor s cur h := ⟨K.cursor s cur h.1, h.2⟩
  counter s n h := ⟨K.counter s n h.1, h.2⟩

theorem VoiceOpsKeep.takeVoice (V : VoiceOpsKeep c G Q) (v : Nat) (n : BitVec 7) {s : State} (h : EveryVoice Q s) :
    EveryVoice Q (takeVoice c v n s) := by
  unfold Machine.takeVoice
  dsimp only
  refine State.modVoice_all _ v _ (State.modVoice_all _ v _ ?_ (V.start _ n)) (V.stamp _)
  split
  · exact h
  · exact s.modVoice_all v _ h (V.stop false)

theorem VoiceOpsKeep.stopAll (V : VoiceOpsKeep c G Q) (n : BitVec 7) (tail : Bool) (vs : List Nat) {s : State}
    (h : EveryVoice Q s) : EveryVoice Q (vs.foldl (stopIfHolding n tail) s) := by
  induction vs generalizing s with
  | nil => exact h
  | cons v vs ih =>
    refine ih ?_
    unfold stopIfHolding
    split
    · exact s.modVoice_all v _ h (V.stop tail)
    · exact h

theorem VoiceOpsKeep.constructRange (V : VoiceOpsKeep c G Q) (lo hi : Nat) {vs : List Voice} (h : ∀ x ∈ vs, Q x) :
    ∀ x ∈ constructRange c lo hi vs, Q x := by
  intro x hx
  obtain ⟨k, hk, rfl⟩ := List.mem_mapIdx.1 hx
  split
  · exact V.construct
  · exact h _ (List.getElem_mem hk)

/-- A C-port command keeps of every voice what the operations on a voice keep, if RENDER keeps what the voice tick needs. -/
theorem VoiceOpsKeep.commandDone (V : VoiceOpsKeep c G Q) (K : RenderKeeps c G) {s t : State}
    (hG : G s) (h : EveryVoice Q s) (hs : CommandDone c s t) : EveryVoice Q t := by
  unfold EveryVoice
  cases hs with
  | rejected e H => rw [raise_voices]; exact h
  | halted H hm => exact (raise_voices .capacity H .c s).symm ▸ h
  | prepared fsn mb nc =>
    rw [endCommand_voices, prepareEffects_frame]
    intro x hx
    obtain ⟨y, _, rfl⟩ := List.mem_map.1 hx
    exact V.construct
  | voicesSet n lo hi => exact V.constructRange lo hi h
  | routedVoice => exact h
  | routedGlobal => exact h
  | noteStarted v n => exact V.takeVoice v n h
  | noteStopped vs n tail => exact V.stopAll n tail vs h
  | rendered start count hb hlen => exact ((V.keeps K).renderLoop hb hlen ⟨hG, h⟩).2

/-- Every step keeps of every voice what the operations on a voice keep. -/
theorem VoiceOpsKeep.stepped (V : VoiceOpsKeep c G Q) (K : RenderKeeps c G) {s t : State}
    (hG : G { s with busy := true }) (h : EveryVoice Q s) (hs : Stepped c s t) : EveryVoice Q t := by
  unfold EveryVoice
  cases hs with
  | idle => exact h
  | command hd => exact V.commandDone K hG h hd
  | refusedC e H => rw [raise_voices]; exact h
  | refusedP e H => rw [raise_voices]; exact h
  | paramSet id v => rw [setParam_frame]; exact h
  | derivedWritten => rw [writeNext_frame]; exact h
  | reset => exact everyVoice_resetOf V
  | hostWritten a w => rw [memWrite_voices]; exact h

/-- The same of a whole step, from `G` however the step takes its move and words. -/
theorem VoiceOpsKeep.stepOf (V : VoiceOpsKeep c G Q) (K : RenderKeeps c G) {s t : State}
    (hG : ∀ es ci pi, es <:+ s.events → G { s with events := es, cIn := ci, pIn := pi, busy := true })
    (h : EveryVoice Q s) (hstep : stepOf c s = .next t) : EveryVoice Q t := by
  obtain ⟨u, ⟨es, ci, pi, hes, rfl⟩, hs⟩ := stepOf_stepped hstep
  have h' : EveryVoice Q { s with events := es, cIn := ci, pIn := pi } := h
  exact V.stepped K (hG es ci pi hes) h' hs

theorem renderKeeps_true (c : Params) : RenderKeeps c fun _ => True where
  global _ _ _ := trivial
  tick _ _ _ _ := trivial
  sample _ _ _ _ _ _ := trivial
  moves _ _ _ := trivial
  advance _ _ _ _ _ := trivial
  cut _ _ _ _ := trivial
  cursor _ _ _ := trivial
  counter _ _ _ := trivial

end Sys2Proof.Machine
end

section
/-! SUPPORT. What a step keeps of the fields that neither a note nor a status report touches: the rate, the cells, the derived cells,
the pending writes and the LFO. -/

namespace Sys2Proof.Machine

/-- The rate, the parameter and derived cells, the pending writes and the LFO are the same. -/
def SameMaster (s t : State) : Prop :=
  t.fs = s.fs ∧ t.par = s.par ∧ t.der1 = s.der1 ∧ t.der2 = s.der2 ∧ t.pPend = s.pPend ∧ t.lfo = s.lfo

theorem sameMaster_refl (s : State) : SameMaster s s := ⟨rfl, rfl, rfl, rfl, rfl, rfl⟩

theorem sameMaster_raise (e : Error) (H : Word) (port : Port) (s : State) : SameMaster s (raise e H port s) :=
  ⟨raise_fs .., raise_par .., raise_der1 .., raise_der2 .., raise_pPend .., raise_lfo ..⟩

theorem sameMaster_memWrite (c : Params) (a : Nat) (w : Word) (s : State) : SameMaster s (memWrite c a w s) :=
  ⟨memWrite_fs .., memWrite_par .., memWrite_der1 .., memWrite_der2 .., memWrite_pPend .., memWrite_lfo ..⟩

theorem sameMaster_voiceSample (c : Params) (v i : Nat) (s : State) : SameMaster s (voiceSample c v i s) := by
  rw [voiceSample_frame]
  exact sameMaster_refl s

theorem sameMaster_cutFadeOut (c : Params) (v : Nat) (s : State) : SameMaster s (cutFadeOut c v s) := by
  rw [cutFadeOut_frame]
  exact sameMaster_refl s

theorem sameMaster_takeVoice (c : Params) (v : Nat) (n : BitVec 7) (s : State) : SameMaster s (takeVoice c v n s) := by
  rw [takeVoice_frame]
  exact sameMaster_refl s

theorem sameMaster_stopAll (n : BitVec 7) (tail : Bool) (vs : List Nat) (s : State) :
    SameMaster s (vs.foldl (stopIfHolding n tail) s) := by
  rw [stopAll_frame]
  exact sameMaster_refl s

/-- `P` reads only these fields, and what writes them keeps it: PREPARE, the global tick, the writer, `rst`. -/
structure MasterKeeps (c : Params) (P : State → Prop) : Prop where
  reads : ∀ s t, SameMaster s t → P s → P t
  prepare : ∀ fsn mb nc s, P s → P (prepareEffects c fsn mb nc s)
  tick : ∀ s, P s → P (globalTick c s)
  start : ∀ id v s, s.pPend = [] → P s → P (setParamStart id v s)
  write : ∀ s, P s → P (writeNext c s)
  reset : ∀ s, P (rst c s)

variable {c : Params} {P : State → Prop}

theorem MasterKeeps.writerStep (M : MasterKeeps c P) (s : State) (h : P s) : P (writerStep c s) := by
  have take : ∀ pi, P { s with pIn := pi } := fun pi => M.reads s _ (sameMaster_refl s) h
  obtain e | e | ⟨hp, rest, _, ⟨H, er, e⟩ | ⟨id, v, e⟩ | e⟩ := writerStep_cases c s <;> rw [e]
  · exact M.write s h
  · exact h
  · exact M.reads _ _ (sameMaster_raise er H .p _) (take rest)
  · exact M.start id v { s with pIn := rest } hp (take rest)
  · exact take rest

theorem MasterKeeps.renderKeeps (M : MasterKeeps c P) : RenderKeeps c P where
  global s _ h := M.tick s h
  tick _ s _ h := M.reads s _ (sameMaster_refl s) h
  sample v i s _ _ h := M.reads s _ (sameMaster_voiceSample c v i s) h
  moves s _ h := interleaveWith_keeps M.writerStep (fun s _ => M.reset s)
    (fun s _ h => M.reads s _ (sameMaster_refl s) h) s.events s h
  advance _ _ s _ h := M.reads s _ (sameMaster_refl s) h
  cut v s _ h := M.reads s _ (sameMaster_cutFadeOut c v s) h
  cursor s _ h := M.reads s _ (sameMaster_refl s) h
  counter s _ h := M.reads s _ (sameMaster_refl s) h

theorem MasterKeeps.commandDone (M : MasterKeeps c P) {s t : State} (h : P s) (hd : CommandDone c s t) : P t := by
  have ended : ∀ u : State, P u → P (endCommand u) := fun u => M.reads u _ (sameMaster_refl u)
  cases hd with
  | rejected e H => exact M.reads s _ (sameMaster_raise e H .c s) h
  | halted H => exact M.reads s _ (sameMaster_raise .capacity H .c s) h
  | prepared fsn mb nc => exact ended _ (M.prepare fsn mb nc s h)
  | voicesSet => exact M.reads s _ (sameMaster_refl s) h
  | routedVoice => exact M.reads s _ (sameMaster_refl s) h
  | routedGlobal => exact M.reads s _ (sameMaster_refl s) h
  | noteStarted v n => exact ended _ (M.reads s _ (sameMaster_takeVoice c v n s) h)
  | noteStopped vs n tail => exact ended _ (M.reads s _ (sameMaster_stopAll n tail vs s) h)
  | rendered start count hb hlen => exact ended _ (M.renderKeeps.renderLoop hb hlen h)

/-- Every step keeps it. -/
theorem MasterKeeps.stepOf (M : MasterKeeps c P) {s t : State} (h : P s) (hstep : stepOf c s = .next t) : P t := by
  obtain ⟨u, ⟨es, ci, pi, _, rfl⟩, hs⟩ := stepOf_stepped hstep
  have hu : P { s with events := es, cIn := ci, pIn := pi } := M.reads s _ (sameMaster_refl s) h
  generalize ({ s with events := es, cIn := ci, pIn := pi } : State) = u at hu hs
  cases hs with
  | idle => exact hu
  | command hd => exact M.commandDone (M.reads u { u with busy := true } (sameMaster_refl u) hu) hd
  | refusedC e H => exact M.reads u _ (sameMaster_raise e H .c u) hu
  | refusedP e H => exact M.reads u _ (sameMaster_raise e H .p u) hu
  | paramSet id v hp =>
    exact setParam_keeps M.write (fun s _ h => M.reads s _ (sameMaster_refl s) h) (M.start id v u hp hu)
  | derivedWritten => exact M.write u hu
  | reset => exact M.reset u
  | hostWritten a w => exact M.reads u _ (sameMaster_memWrite c a w u) hu

end Sys2Proof.Machine
end

section
/-! SUPPORT. What belongs to the parameter writer (10_state.md R40, R41, 20_memory.md R86): no C-port command writes a
parameter cell, and RENDER writes neither a cell nor the error record. -/

namespace Sys2Proof.Machine

/-- `t` has the parameter cells, derived cells, pending writes, P-port words and error record of `s`. -/
def SameWriterState (s t : State) : Prop :=
  t.par = s.par ∧ t.der1 = s.der1 ∧ t.der2 = s.der2 ∧ t.pPend = s.pPend ∧ t.pbusy = s.pbusy ∧ t.pIn = s.pIn ∧
    t.err = s.err ∧ t.errinfo = s.errinfo ∧ t.errport = s.errport

/-- Neither the writer nor `rst` moves in a RENDER from here on, and what is the writer's is as in `s`. -/
def WriterAtRest (s t : State) : Prop := .writer ∉ t.events ∧ .rst ∉ t.events ∧ SameWriterState s t

theorem writerAtRest_keeps (c : Params) (s : State) : RenderKeeps c (WriterAtRest s) where
  global t _ h := by rw [globalTick_frame]; exact h
  tick v t _ h := h
  sample v i t _ _ h := by rw [voiceSample_frame]; exact h
  moves t _ h := by
    obtain ⟨hwriter, hrst, hsame⟩ := h
    obtain ⟨es, hes, e | ⟨hmem, _⟩⟩ := interleaveWith_noWriter (c := c) hwriter t
    case inr => exact absurd hmem hrst
    unfold interleave
    rw [e]
    exact ⟨fun hm => hwriter (hes.mem hm), fun hm => hrst (hes.mem hm), hsame⟩
  advance v n t _ h := h
  cut v t _ h := by rw [cutFadeOut_frame]; exact h
  cursor t cur h := h
  counter t n h := h

/-- A RENDER in which neither the writer nor `rst` moves leaves the writer's state alone. -/
theorem renderLoop_writerState (c : Params) {start count : Nat} {s : State} (hwriter : .writer ∉ s.events)
    (hrst : .rst ∉ s.events) (hb : s.busy = true) (hlen : start + count ≤ s.maxBlock.toNat) :
    SameWriterState s (renderLoop c count { s with cursor := some ⟨BitVec.ofNat 32 start, BitVec.ofNat 16 count⟩ }) :=
  ((writerAtRest_keeps c s).renderLoop hb hlen
    ⟨hwriter, hrst, rfl, rfl, rfl, rfl, rfl, rfl, rfl, rfl, rfl⟩).2.2

/-- Settles O33: every atomic step of RENDER keeps `WriterAtRest`. -/
theorem renderLeavesWriterState : Obligations.RenderLeavesWriterState := by
  intro start count s t hm hlen hrst hwriter h
  rw [exec_render_of_accepted hm hlen] at h
  cases h
  exact renderLoop_writerState hw (s := { s with busy := true }) hwriter hrst rfl hlen

/-- A C-port command writes no parameter cell: of the ways it can end only RENDER lets the writer move at all. -/
theorem CommandDone.par_eq {c : Params} {s t : State} (hwriter : .writer ∉ s.events) (hrst : .rst ∉ s.events)
    (h : CommandDone c s t) : t.par = s.par := by
  cases h with
  | rejected e H => exact raise_par e H .c s
  | halted H => exact raise_par .capacity H .c s
  | prepared fsn mb nc => rw [endCommand_par, prepareEffects_frame]
  | voicesSet => rfl
  | routedVoice => rfl
  | routedGlobal => rfl
  | noteStarted v n => rw [endCommand_par, takeVoice_frame]
  | noteStopped vs n tail => rw [endCommand_par, stopAll_frame]
  | rendered start count hb hlen => exact (renderLoop_writerState c hwriter hrst hb hlen).1

/-- Settles O40, by the ways a C-port command can end. -/
theorem onlySetparamWritesCells : Obligations.OnlySetparamWritesCells := by
  have key : ∀ (c : Params) (i : Instr) (s t : State), i.port = .c → .writer ∉ s.events → .rst ∉ s.events →
      execOf c i s = .next t → t.par = s.par := by
    intro c i s t hi hwriter hrst h
    cases h
    exact CommandDone.par_eq (s := { s with busy := true }) hwriter hrst (runOf_done hi s)
  exact ⟨fun i s t hi hwriter hrst h => key hw i s t hi hwriter hrst (exec_eq_execOf i s ▸ h), key⟩

end Sys2Proof.Machine
end

section
/-! SUPPORT. The block's invariant (10_state.md R60 (c) to (f)), command by command. -/

namespace Sys2Proof.Machine

theorem voiceLegal_ops : VoiceOpsKeep hw (fun _ => True) (fun x => x.legal = true) where
  construct := Voice.reset_legal
  start s n _ := Voice.startNote_legal s n
  stamp _ _ h := h
  stop tail _ := Voice.stopNote_legal tail
  tick s _ _ := Voice.tick_legal s
  sample s _ := Voice.sample_legal s
  advance n _ := Voice.advance_legal n
  cut x h := by
    rw [Voice.legal_iff] at *
    obtain ⟨h1, h2, h3, h4, h5, _⟩ := h
    exact ⟨h1, h2, h3, h4, h5, rfl⟩

theorem boundary_renderKeeps : RenderKeeps hw Boundary where
  toKeeps := boundary_keeps _
  cursor _ _ h := { h with }
  counter s n h := { h with gcnt := advanceCounter_lt n s.gcnt }

theorem stopAll_length (n : BitVec 7) (tail : Bool) (vs : List Nat) (s : State) :
    (vs.foldl (stopIfHolding n tail) s).voices.length = s.voices.length := by
  induction vs generalizing s with
  | nil => rfl
  | cons v vs ih =>
    rw [List.foldl_cons, ih]
    unfold stopIfHolding
    split
    · exact List.length_modify _ _ _
    · rfl

theorem takeVoice_length (c : Params) (v : Nat) (n : BitVec 7) (s : State) :
    (takeVoice c v n s).voices.length = s.voices.length := by
  unfold takeVoice
  dsimp only
  split <;> simp


theorem endCommand_boundary {s : State} (h : Boundary s) : Boundary (endCommand s) := { h with }

theorem noteStarted_boundary {s : State} (v : Nat) (n : BitVec 7) (h : Boundary s) :
    Boundary (takeVoice hw v n s) := by
  have hvoice := voiceLegal_ops.takeVoice v n h.voice
  have hlen := (takeVoice_length hw v n s).trans h.voices
  rw [takeVoice_frame]
  exact { h with voice := hvoice, voices := hlen }

theorem noteStopped_boundary {s : State} (vs : List Nat) (n : BitVec 7) (tail : Bool) (h : Boundary s) :
    Boundary (vs.foldl (stopIfHolding n tail) s) := by
  have hvoice := voiceLegal_ops.stopAll n tail vs h.voice
  have hlen := (stopAll_length n tail vs s).trans h.voices
  rw [stopAll_frame]
  exact { h with voice := hvoice, voices := hlen }

/-- PREPARE leaves the configuration it accepted (47_config_commands.md R320). -/
theorem prepareEffects_boundary {s : State} {fsn : Num32} {mb nc : Nat} (hrate : rateLegal fsn = true)
    (hmb : 1 ≤ mb ∧ mb ≤ hw.maxBlockCap) (hnc : 1 ≤ nc ∧ nc ≤ hw.maxChannels) (h : Boundary s) :
    Boundary (prepareEffects hw fsn mb nc s) := by
  have hmb' : (BitVec.ofNat 16 mb).toNat = mb := by
    rw [BitVec.toNat_ofNat]
    exact Nat.mod_eq_of_lt (lt_of_le_of_lt hmb.2 (by decide))
  have hnc' : (BitVec.ofNat 2 nc).toNat = nc := by
    rw [BitVec.toNat_ofNat]
    exact Nat.mod_eq_of_lt (lt_of_le_of_lt hnc.2 (by decide))
  have hvoice : ∀ x ∈ s.voices.map (Voice.construct hw), x.legal = true := by
    intro x hx
    obtain ⟨y, _, rfl⟩ := List.mem_map.1 hx
    exact Voice.construct_legal y
  rw [prepareEffects_frame]
  exact { h with
    voices := by rw [List.length_map]; exact h.voices
    voice := hvoice
    gcnt := show (0 : BitVec 16).toNat < 100 by decide
    lfo := rfl
    config := fun _ => ⟨hrate, hmb'.symm ▸ hmb, hnc'.symm ▸ hnc⟩
    halted := fun hm => by cases hm }

/-- E_CAPACITY halts a block that was ready (60_exceptions.md R386). -/
theorem halted_boundary {s : State} (H : Word) (hm : s.mode = .ready) (h : Boundary s) :
    Boundary { raise .capacity H .c s with mode := .halted } := by
  have hraise := raise_boundary .capacity H .c h fun hp => by cases hp
  have hbit : (raise .capacity H .c s).err.getLsbD Error.capacity.bit = true := by
    rw [raise_err, BitVec.getLsbD_or, show (Error.flag .capacity).getLsbD Error.capacity.bit = true from rfl,
      Bool.or_true]
  exact { hraise with config := fun _ => hraise.config (by rw [raise_mode, hm]; decide), halted := fun _ => hbit }

theorem commandDone_boundary {s t : State} (h : Boundary s) (hd : CommandDone hw s t) : Boundary t := by
  cases hd with
  | rejected e H => exact raise_boundary e H .c h fun hp => by cases hp
  | halted H hm => exact halted_boundary H hm h
  | prepared fsn mb nc hrate hmb hnc => exact endCommand_boundary (prepareEffects_boundary hrate hmb hnc h)
  | voicesSet n lo hi hn =>
    exact { h with
      voices := by simpa [constructRange] using h.voices
      nvoices := by
        show (BitVec.ofNat 8 n).toNat ≤ _
        rw [BitVec.toNat_ofNat]
        exact (Nat.mod_le _ _).trans hn
      voice := voiceLegal_ops.constructRange lo hi h.voice }
  | routedVoice k r => exact { h with vr := by simpa using h.vr }
  | routedGlobal k r => exact { h with gr := by simpa using h.gr }
  | noteStarted v n => exact endCommand_boundary (noteStarted_boundary v n h)
  | noteStopped vs n tail => exact endCommand_boundary (noteStopped_boundary vs n tail h)
  | rendered start count hb hlen => exact endCommand_boundary (boundary_renderKeeps.renderLoop hb hlen h)

theorem setParam_boundary {s : State} (id : ParamId) (v : Word) (h : Boundary s) : Boundary (setParam hw id v s) :=
  setParam_keeps (P := Boundary) (fun _ => writeNext_boundary) (fun _ _ h => { h with }) (setParamStart_boundary id v h)

theorem stepped_blockInv {s t : State} (h : BlockInv s) (hs : Stepped hw s t) : BlockInv t := by
  have hB := h.toBoundary
  cases hs with
  | idle => exact h
  | command hd =>
    have hB' : Boundary { s with busy := true } := { hB with }
    obtain ⟨hbusy, hcursor⟩ := hd.ended
    exact { commandDone_boundary hB' hd with busy := hbusy, cursor := hcursor }
  | refusedC e H => exact { raise_boundary e H .c hB (fun hp => by cases hp) with busy := rfl, cursor := rfl }
  | refusedP e H hp =>
    exact { raise_boundary e H .p hB (fun _ => hp) with
      busy := (raise_p_busy e H s).trans h.busy, cursor := (raise_p_cursor e H s).trans h.cursor }
  | paramSet id v =>
    exact { setParam_boundary id v hB with
      busy := by rw [setParam_frame]; exact h.busy, cursor := by rw [setParam_frame]; exact h.cursor }
  | derivedWritten =>
    exact { writeNext_boundary hB with
      busy := by rw [writeNext_frame]; exact h.busy, cursor := by rw [writeNext_frame]; exact h.cursor }
  | reset => exact { rst_boundary h.memory with busy := rfl, cursor := rfl }
  | hostWritten a w =>
    exact { memWrite_boundary a w hB with
      busy := (memWrite_busy hw a w s).trans h.busy, cursor := (memWrite_cursor hw a w s).trans h.cursor }

/-- Settles O42: every way a step can go keeps the invariant. -/
theorem invariantKept : Obligations.InvariantKept := by
  intro s t h hstep
  obtain ⟨u, ⟨es, ci, pi, _, rfl⟩, hs⟩ := stepOf_stepped (step_eq_stepOf s ▸ hstep)
  have hu : BlockInv { s with events := es, cIn := ci, pIn := pi } := { h with }
  exact stepped_blockInv hu hs

end Sys2Proof.Machine
end

section
/-! SUPPORT. The note numbers of the sounding voices stay distinct (10_state.md R60 (g), 46_voicepool.md R285): only NOTEON gives one
out, and every other operation leaves a sounding voice its own or frees it. -/

namespace Sys2Proof.Machine

/-- If `y` sounds, `x` sounded, with the same note number. -/
def Voice.Continues (x y : Voice) : Prop := y.isFree = false → x.isFree = false ∧ y.seq = x.seq

theorem Voice.continues_refl (x : Voice) : x.Continues x := fun h => ⟨h, rfl⟩

theorem Voice.continues_of_free {x y : Voice} (h : y.isFree = true) : x.Continues y := fun h' =>
  absurd (h.symm.trans h') (by decide)

theorem Voice.continues_tick (c : Params) (s : State) (x : Voice) : x.Continues (x.tick c s) := by
  obtain ⟨a, b, e⟩ := matrixProcess_voice_frame c.matrixZeroDisabled s.vr (x.tickEnvs c s)
  unfold Voice.tick
  rw [e]
  unfold Voice.tickFree
  split
  · exact fun h => ⟨h, rfl⟩
  · exact Voice.continues_of_free rfl

theorem Voice.continues_stopNote (tail : Bool) (x : Voice) : x.Continues (x.stopNote tail) := by
  cases tail
  · exact Voice.continues_of_free rfl
  · exact fun h => ⟨h, rfl⟩

variable {c : Params} {s t : State}

/-- The voice at an index past the list is the reset record. -/
theorem State.voice_of_length_le {v : Nat} (h : s.voices.length ≤ v) : s.voice v = Voice.reset :=
  List.getD_eq_default _ _ h

theorem seqsDistinct_of_free (h : ∀ v, (s.voice v).isFree = true) : SeqsDistinct s :=
  ⟨fun v hv => absurd ((h v).symm.trans hv) (by decide), fun v _ _ hv => absurd ((h v).symm.trans hv) (by decide)⟩

theorem SeqsDistinct.of_continues (h : SeqsDistinct s) (hn : t.noteSeq = s.noteSeq)
    (hv : ∀ v, (s.voice v).Continues (t.voice v)) : SeqsDistinct t := by
  obtain ⟨hlt, hne⟩ := h
  refine ⟨fun v hf => ?_, fun v w hvw hfv hfw => ?_⟩
  · obtain ⟨hf', hseq⟩ := hv v hf
    rw [hn, hseq]
    exact hlt v hf'
  · obtain ⟨hfv', hseqv⟩ := hv v hfv
    obtain ⟨hfw', hseqw⟩ := hv w hfw
    rw [hseqv, hseqw]
    exact hne v w hvw hfv' hfw'

theorem SeqsDistinct.of_eq (h : SeqsDistinct s) (hn : t.noteSeq = s.noteSeq) (hv : t.voices = s.voices) :
    SeqsDistinct t :=
  h.of_continues hn fun v => by
    unfold State.voice
    rw [hv]
    exact Voice.continues_refl _

theorem SeqsDistinct.modVoice (h : SeqsDistinct s) (v : Nat) {f : Voice → Voice} (hf : ∀ x : Voice, x.Continues (f x)) :
    SeqsDistinct (s.modVoice v f) := by
  refine h.of_continues rfl fun w => ?_
  by_cases hvw : v = w
  · subst hvw
    by_cases hlen : v < s.voices.length
    · rw [State.voice_modVoice_eq s v f hlen]
      exact hf _
    · refine Voice.continues_of_free ?_
      rw [State.voice_of_length_le (by simpa using hlen)]
      rfl
  · rw [State.voice_modVoice_ne s f hvw]
    exact Voice.continues_refl _

theorem seqsDistinct_rst (c : Params) (s : State) : SeqsDistinct (rst c s) :=
  seqsDistinct_of_free fun v => (rst c s).voice_of_all (P := fun x => x.isFree = true) v rfl fun _ hx =>
    List.eq_of_mem_replicate hx ▸ rfl

theorem seqsDistinct_renderKeeps (c : Params) : RenderKeeps c SeqsDistinct where
  global s _ h := by rw [globalTick_frame]; exact h
  tick v s _ h := SeqsDistinct.modVoice h v (Voice.continues_tick c s)
  sample v i s _ _ h := by
    refine SeqsDistinct.of_eq (SeqsDistinct.modVoice h v (f := fun x => (x.sample c s).2.2) fun x hx => ⟨hx, rfl⟩) ?_
      (voiceSample_voices_modify c v i s)
    rw [voiceSample_frame]
    rfl
  moves s _ h := by
    unfold interleave
    obtain ⟨_, _, _, _, _, _, _, _, _, _, e, _⟩ | ⟨_, s1, e, _⟩ := interleaveWith_cases c s.events s <;> rw [e]
    · exact h
    · exact seqsDistinct_rst c s1
  advance v n s _ h := SeqsDistinct.modVoice h v fun x hx => ⟨hx, rfl⟩
  cut v s _ h := by
    unfold cutFadeOut
    split
    · exact SeqsDistinct.modVoice h v fun x hx => ⟨hx, rfl⟩
    · exact h
  cursor s cur h := h
  counter s n h := h

/-- NOTEON's voice has the new number or, if there is no such voice, is the reset record; the others are as before. -/
theorem takeVoice_voice (c : Params) (v : Nat) (n : BitVec 7) (s : State) :
    (((takeVoice c v n s).voice v).seq = s.noteSeq ∨ ((takeVoice c v n s).voice v).isFree = true) ∧
    ∀ w, v ≠ w → (takeVoice c v n s).voice w = s.voice w := by
  constructor
  · by_cases hlen : v < s.voices.length
    · refine .inl ?_
      unfold takeVoice
      dsimp only
      split
      · exact congrArg Voice.seq (State.voice_modVoice_eq _ v _ (by simpa using hlen))
      · exact congrArg Voice.seq (State.voice_modVoice_eq _ v _ (by simpa using hlen))
    · refine .inr ?_
      rw [State.voice_of_length_le (by rw [takeVoice_length]; omega)]
      rfl
  · intro w hw
    have voice_noteSeq : ∀ (u : State) (k : BitVec 32), ({ u with noteSeq := k } : State).voice w = u.voice w :=
      fun _ _ => rfl
    unfold takeVoice
    dsimp only
    rw [voice_noteSeq, State.voice_modVoice_ne _ _ hw, State.voice_modVoice_ne _ _ hw]
    split
    · rfl
    · exact State.voice_modVoice_ne s _ hw

/-- NOTEON gives out a number that no sounding voice has, as long as the counter does not wrap. -/
theorem SeqsDistinct.takeVoice (h : SeqsDistinct s) (hmax : s.noteSeq ≠ 0xFFFFFFFF#32) (v : Nat) (n : BitVec 7) :
    SeqsDistinct (takeVoice c v n s) := by
  obtain ⟨hlt, hne⟩ := h
  obtain ⟨hnew, hold⟩ := takeVoice_voice c v n s
  have hseq : (Machine.takeVoice c v n s).noteSeq.toNat = s.noteSeq.toNat + 1 := by
    rw [takeVoice_frame]
    show (s.noteSeq + 1).toNat = _
    bv_omega
  have hstamp : ((Machine.takeVoice c v n s).voice v).isFree = false →
      ((Machine.takeVoice c v n s).voice v).seq = s.noteSeq := fun hf =>
    hnew.resolve_right fun hf' => absurd (hf'.symm.trans hf) (by decide)
  generalize Machine.takeVoice c v n s = t at *
  have hfresh : ∀ w, v ≠ w → (t.voice v).isFree = false → (t.voice w).isFree = false →
      (t.voice v).seq ≠ (t.voice w).seq := by
    intro w hvw hfv hfw e
    rw [hold w hvw] at hfw e
    have := hlt w hfw
    rw [← e, hstamp hfv] at this
    exact absurd this (lt_irrefl _)
  refine ⟨fun w hf => ?_, fun w w' hww hf hf' => ?_⟩
  · by_cases hvw : v = w
    · subst hvw
      rw [hstamp hf]
      omega
    · rw [hold w hvw] at hf ⊢
      have := hlt w hf
      omega
  · by_cases hvw : v = w
    · subst hvw
      exact hfresh w' hww hf hf'
    · by_cases hvw' : v = w'
      · subst hvw'
        exact (hfresh w hvw hf' hf).symm
      · rw [hold w hvw] at hf ⊢
        rw [hold w' hvw'] at hf' ⊢
        exact hne w w' hww hf hf'

theorem SeqsDistinct.stopAll (h : SeqsDistinct s) (vs : List Nat) (n : BitVec 7) (tail : Bool) :
    SeqsDistinct (vs.foldl (stopIfHolding n tail) s) := by
  induction vs generalizing s with
  | nil => exact h
  | cons v vs ih =>
    refine ih ?_
    unfold stopIfHolding
    split
    · exact SeqsDistinct.modVoice h v (Voice.continues_stopNote tail)
    · exact h

/-- A voice that SETVOICES constructs is free, and it changes no other. -/
theorem continues_constructRange (c : Params) (lo hi v : Nat) (s : State) :
    (s.voice v).Continues ((constructRange c lo hi s.voices).getD v Voice.reset) := by
  unfold State.voice constructRange
  by_cases hlen : v < s.voices.length
  · simp only [List.getD_eq_getElem?_getD, List.getElem?_mapIdx, List.getElem?_eq_getElem hlen, Option.map_some,
      Option.getD_some]
    split
    · exact Voice.continues_of_free rfl
    · exact Voice.continues_refl _
  · refine Voice.continues_of_free ?_
    rw [List.getD_eq_default _ _ (by simpa using hlen)]
    rfl

theorem CommandDone.seqsDistinct (h : SeqsDistinct s) (hmax : s.noteSeq ≠ 0xFFFFFFFF#32) (hd : CommandDone c s t) :
    SeqsDistinct t := by
  cases hd with
  | rejected e H => exact h.of_eq (raise_noteSeq e H .c s) (raise_voices e H .c s)
  | halted H => exact h.of_eq (raise_noteSeq .capacity H .c s) (raise_voices .capacity H .c s)
  | prepared fsn mb nc =>
    rw [prepareEffects_frame]
    refine seqsDistinct_of_free fun v => State.voice_of_all _ (P := fun x => x.isFree = true) v rfl fun x hx => ?_
    obtain ⟨y, _, rfl⟩ := List.mem_map.1 hx
    rfl
  | voicesSet n lo hi => exact h.of_continues rfl fun v => continues_constructRange c lo hi v s
  | routedVoice => exact h
  | routedGlobal => exact h
  | noteStarted v n => exact h.takeVoice hmax v n
  | noteStopped vs n tail => exact h.stopAll vs n tail
  | rendered start count hb hlen => exact (seqsDistinct_renderKeeps c).renderLoop hb hlen h

theorem Stepped.seqsDistinct (h : SeqsDistinct s) (hmax : s.noteSeq ≠ 0xFFFFFFFF#32) (hs : Stepped c s t) :
    SeqsDistinct t := by
  cases hs with
  | idle => exact h
  | command hd => exact CommandDone.seqsDistinct (s := { s with busy := true }) h hmax hd
  | refusedC e H => exact h.of_eq (raise_noteSeq e H .c s) (raise_voices e H .c s)
  | refusedP e H => exact h.of_eq (raise_noteSeq e H .p s) (raise_voices e H .p s)
  | paramSet id v => rw [setParam_frame]; exact h
  | derivedWritten => rw [writeNext_frame]; exact h
  | reset => exact seqsDistinct_rst c s
  | hostWritten a w => exact h.of_eq (memWrite_noteSeq c a w s) (memWrite_voices c a w s)

/-- Settles O44: NOTEON's new number is above all given out, and everything else lets the sounding voices continue. -/
theorem seqsStayDistinct : Obligations.SeqsStayDistinct := by
  intro s t h hmax hstep
  obtain ⟨u, ⟨es, ci, pi, _, rfl⟩, hs⟩ := stepOf_stepped (step_eq_stepOf s ▸ hstep)
  exact Stepped.seqsDistinct (s := { s with events := es, cIn := ci, pIn := pi }) h hmax hs

end Sys2Proof.Machine
end

section
/-! SUPPORT. The order of the numbers is that of their values, infinities included, and an operation's result lies on the same side of
every number as the exact result (00_scope.md R12). -/

namespace Sys2Proof.Machine

theorem unitsOfMag_eq_zero {m : Nat} : unitsOfMag m = 0 ↔ m = 0 :=
  unitsOfMag_strictMono.injective.eq_iff (b := 0)

theorem fkey_le_iff (a b : Num32) : fkey a ≤ fkey b ↔ value a ≤ value b := by
  have hle := fun m n => unitsOfMag_strictMono.le_iff_le (a := m) (b := n)
  have ha := @unitsOfMag_eq_zero (fmag a)
  have hb := @unitsOfMag_eq_zero (fmag b)
  unfold fkey value units
  split_ifs
  · have := hle (fmag b) (fmag a)
    omega
  · omega
  · omega
  · have := hle (fmag a) (fmag b)
    omega

theorem fle_iff_value {a b : Num32} :
    fle a b = true ↔ isNaN a = false ∧ isNaN b = false ∧ value a ≤ value b := by
  rw [fle_iff, fkey_le_iff]

theorem flt_iff_value {a b : Num32} :
    flt a b = true ↔ isNaN a = false ∧ isNaN b = false ∧ value a < value b := by
  rw [flt_iff, ← not_le, fkey_le_iff, not_le]

theorem fge_iff_value {a b : Num32} :
    fge a b = true ↔ isNaN b = false ∧ isNaN a = false ∧ value b ≤ value a := fle_iff_value

theorem value_zero : value Num32.zero = 0 := rfl

theorem value_one : value Num32.one = 2 ^ 149 := by decide +kernel

theorem value_inf : value Num32.inf = 2 ^ 277 := by decide +kernel

/-- A number strictly between the infinities is finite. -/
theorem isFinite_of_value {x : Num32} (hx : isNaN x = false) (hlo : -2 ^ 277 < value x) (hhi : value x < 2 ^ 277) :
    isFinite x = true := by
  obtain rfl | rfl | h := number_cases hx
  · exact absurd hlo (by decide +kernel)
  · exact absurd hhi (by decide +kernel)
  · exact h

theorem units_lt_of_isFinite {x : Num32} (h : isFinite x = true) : units x ≤ 2 ^ 277 - 2 ^ 253 := by
  have hmax : unitsOfMag 0x7F7FFFFF = 2 ^ 277 - 2 ^ 253 := by decide +kernel
  rw [← hmax]
  exact unitsOfMag_strictMono.monotone (Nat.le_of_lt_succ (fmag_lt_of_isFinite h))

theorem natAbs_value (x : Num32) : (value x).natAbs = units x := by
  unfold value
  split <;> simp

theorem value_fpack {neg : Bool} {m : Nat} (h : m < 0x80000000) :
    value (fpack neg m) = if neg then -(unitsOfMag m : Int) else unitsOfMag m := by
  unfold value
  rw [fneg?_fpack h, units_fpack h]

theorem isNaN_fneg (x : Num32) : isNaN (fneg x) = isNaN x := by
  unfold isNaN
  rw [fmag_fneg]

/-- `r` is a number and lies, among the numbers, where `z` lies when `d` measures one unit of 2^-149. -/
def Rounded (r : Num32) (z : Int) (d : Nat) : Prop :=
  isNaN r = false ∧ ∀ m, isNaN m = false →
    (z ≤ value m * d → value r ≤ value m) ∧ (value m * d ≤ z → value m ≤ value r)

theorem Rounded.neg {r : Num32} {z : Int} {d : Nat} (h : Rounded r z d) : Rounded (fneg r) (-z) d := by
  obtain ⟨hr, h⟩ := h
  refine ⟨(isNaN_fneg r).trans hr, fun m hm => ?_⟩
  obtain ⟨hle, hge⟩ := h (fneg m) ((isNaN_fneg m).trans hm)
  rw [value_fneg, Int.neg_mul] at *
  exact ⟨fun hz => by have := hge (by omega); omega, fun hz => by have := hle (by omega); omega⟩

/-- A number is its own rounding. -/
theorem rounded_self {r : Num32} {d : Nat} (hr : isNaN r = false) (hd : 0 < d) : Rounded r (value r * d) d :=
  ⟨hr, fun _ _ => ⟨fun h => Int.le_of_mul_le_mul_right h (by omega), fun h => Int.le_of_mul_le_mul_right h (by omega)⟩⟩

/-- The place nearest to `t` lies on the same side of every place as `t`. -/
theorem Nearest.le_iff {p d t : Nat} (h : Nearest p d t) (hd : 0 < d) (m : Nat) :
    (t ≤ unitsOfMag m * d → p ≤ m) ∧ (unitsOfMag m * d ≤ t → m ≤ p) := by
  obtain ⟨hup, hdown⟩ := h m
  rw [Nat.add_mul] at hup hdown
  constructor <;> intro ht <;> by_contra hlt
  · have := Nat.mul_lt_mul_of_pos_right (unitsOfMag_strictMono (not_le.1 hlt)) hd
    have := hdown (not_le.1 hlt)
    omega
  · have := Nat.mul_lt_mul_of_pos_right (unitsOfMag_strictMono (not_le.1 hlt)) hd
    have := hup (not_le.1 hlt)
    omega

theorem fneg_fpack {neg : Bool} {m : Nat} (h : m < 0x80000000) : fneg (fpack neg m) = fpack (!neg) m := by
  rw [← fpack_fneg?_fmag (fneg (fpack neg m)), fneg?_fneg, fmag_fneg, fneg?_fpack h, fmag_fpack h]

theorem rounded_of_nearest (neg : Bool) {p d t : Nat} (h : Nearest p d t) (hd : 0 < d) :
    Rounded (fpack neg (min p 0x7F800000)) (if neg then -(t : Int) else t) d := by
  have hfalse : Rounded (fpack false (min p 0x7F800000)) t d := by
    refine ⟨isNaN_fpack (Nat.min_le_right _ _), fun m hm => ?_⟩
    have hmag := fmag_le_of_isNaN hm
    obtain ⟨hle, hge⟩ := h.le_iff hd (fmag m)
    have hle : t ≤ units m * d → unitsOfMag (min p 0x7F800000) ≤ units m := fun ht =>
      unitsOfMag_strictMono.monotone ((Nat.min_le_left _ _).trans (hle ht))
    have hge : units m * d ≤ t → units m ≤ unitsOfMag (min p 0x7F800000) := fun ht =>
      unitsOfMag_strictMono.monotone (Nat.le_min.2 ⟨hge ht, hmag⟩)
    rw [value_fpack_false (by omega)]
    unfold value
    split
    · have hneg : -(units m : Int) * d = -((units m * d : Nat) : Int) := by push_cast; ring
      rw [hneg]
      refine ⟨fun ht => ?_, fun _ => by omega⟩
      have hzero : units m * d = 0 := by omega
      have : units m = 0 := (Nat.mul_eq_zero.1 hzero).resolve_right (by omega)
      have := hle (by omega)
      omega
    · have hpos : (units m : Int) * d = ((units m * d : Nat) : Int) := by push_cast; rfl
      rw [hpos]
      exact ⟨fun ht => by have := hle (by omega); omega, fun ht => by have := hge (by omega); omega⟩
  cases neg
  · exact hfalse
  · have := hfalse.neg
    rwa [fneg_fpack (by omega)] at this

theorem rounded_roundMag (neg : Bool) (n k : Nat) :
    Rounded (fpack neg (roundMag n k)) (if neg then -(n : Int) else n) (2 ^ k) :=
  rounded_of_nearest neg (nearest_roundPlace n k) (Nat.two_pow_pos k)

theorem rounded_addWith (nan : Num32) {a b : Num32} (ha : isFinite a = true) (hb : isFinite b = true) :
    Rounded (addWith nan a b) (value a + value b) 1 := by
  rw [addWith_of_finite nan ha hb]
  generalize value a + value b = z
  split
  case isTrue h0 =>
    have := rounded_self (r := fpack (fneg? a && fneg? b) 0) (d := 1) (isNaN_fpack (by decide)) (by decide)
    rw [value_fpack (by decide)] at this
    rw [h0]
    simpa using this
  case isFalse =>
    have hz : (if decide (z < 0) = true then -(z.natAbs : Int) else z.natAbs) = z := by
      simp only [decide_eq_true_eq]
      omega
    have := rounded_roundMag (decide (z < 0)) z.natAbs 0
    rwa [hz] at this

theorem rounded_fadd {a b : Num32} (ha : isFinite a = true) (hb : isFinite b = true) :
    Rounded (fadd a b) (value a + value b) 1 := rounded_addWith _ ha hb

theorem rounded_fsub {a b : Num32} (ha : isFinite a = true) (hb : isFinite b = true) :
    Rounded (fsub a b) (value a - value b) 1 := by
  have := rounded_addWith (freeNaN .sub a b) ha ((isFinite_fneg b).trans hb)
  rwa [value_fneg, ← Int.sub_eq_add_neg] at this

theorem rounded_fmul {a b : Num32} (ha : isFinite a = true) (hb : isFinite b = true) :
    Rounded (fmul a b) (value a * value b) (2 ^ 149) := by
  have hz : (if (fneg? a != fneg? b) = true then -((units a * units b : Nat) : Int) else (units a * units b : Nat)) =
      value a * value b := by
    unfold value
    cases fneg? a <;> cases fneg? b <;> simp
  have := rounded_roundMag (fneg? a != fneg? b) (units a * units b) 149
  rwa [hz, ← fmul_of_finite ha hb] at this

theorem rounded_fdiv {a b : Num32} (ha : isFinite a = true) (hb : isFinite b = true) (hpos : 0 < value b) :
    Rounded (fdiv a b) (value a * 2 ^ 149) (units b) := by
  obtain ⟨hsign, hv⟩ := units_of_value_pos hpos
  have h0 : isZero b = false := Bool.eq_false_iff.2 fun h => by have := value_eq_zero_iff.2 h; omega
  have hz : (if (fneg? a != fneg? b) = true then -((units a * 2 ^ 149 : Nat) : Int) else (units a * 2 ^ 149 : Nat)) =
      value a * 2 ^ 149 := by
    unfold value
    rw [hsign]
    cases fneg? a <;> simp
  have := rounded_of_nearest (fneg? a != fneg? b)
    (nearest_quotient (units_pos h0) (nearest_roundPlace (stickyQuotient (units a) (units b)) 3)) (units_pos h0)
  rwa [hz, ← roundMag_eq, ← fdiv_of_finite ha hb h0] at this

/-- A sum below the midpoint above the greatest finite number does not overflow. -/
theorem isFinite_fadd {a b : Num32} (ha : isFinite a = true) (hb : isFinite b = true)
    (h : (value a + value b).natAbs < (2 ^ 128 - 2 ^ 103) * 2 ^ 149) : isFinite (fadd a b) = true := by
  have hround : roundMag (value a + value b).natAbs 0 < 0x7F800000 := by
    have hle := roundMag_le (value a + value b).natAbs 0
    have hinf := roundMag_eq_inf_iff (value a + value b).natAbs 0
    rw [(nearest_roundPlace _ 0).overflow_iff (Nat.two_pow_pos 0)] at hinf
    omega
  unfold fadd
  rw [addWith_of_finite _ ha hb]
  split
  · exact isFinite_fpack (by decide)
  · exact isFinite_fpack hround

end Sys2Proof.Machine
end

section
/-! SUPPORT. The phases (10_state.md R51, 40_oscillator.md R150, R153): `wrap` gives a NaN or a number of [0, TWO_PI), and every
operation on an oscillator wraps its phase, clears it or leaves it. -/

namespace Sys2Proof.Machine

theorem Osc.phaseLegal_iff {o : Osc} : o.phaseLegal = true ↔
    isNaN o.phase = true ∨ isNaN o.phase = false ∧ 0 ≤ value o.phase ∧ value o.phase < value Num32.twoPi := by
  have htwoPi : isNaN Num32.twoPi = false := rfl
  have hzero : isNaN Num32.zero = false := rfl
  unfold Osc.phaseLegal
  rw [Bool.or_eq_true, Bool.and_eq_true, fge_iff_value, flt_iff_value, value_zero]
  tauto

theorem twoPi_isFinite : isFinite Num32.twoPi = true := rfl

theorem value_twoPi : value Num32.twoPi = 13176795 * 2 ^ 128 := by decide +kernel

/-- The remainder of a finite number by `TWO_PI`. -/
theorem fmod_twoPi {x : Num32} (hx : isFinite x = true) :
    isFinite (fmod x Num32.twoPi) = true ∧ -value Num32.twoPi < value (fmod x Num32.twoPi) ∧
      value (fmod x Num32.twoPi) < value Num32.twoPi := by
  obtain ⟨r, hr, e, hu⟩ := fmod_of_finite hx twoPi_isFinite rfl
  have hlt : unitsOfMag r < units Num32.twoPi := hu ▸ Nat.mod_lt _ (units_pos rfl)
  have htwoPi : value Num32.twoPi = units Num32.twoPi := rfl
  rw [e, value_fpack (by omega), htwoPi]
  exact ⟨isFinite_fpack hr, by split <;> omega, by split <;> omega⟩

/-- `wrap` of a finite number is a number of [0, TWO_PI). -/
theorem wrap_of_finite {x : Num32} (hx : isFinite x = true) :
    isNaN (wrap x) = false ∧ 0 ≤ value (wrap x) ∧ value (wrap x) < value Num32.twoPi := by
  obtain ⟨hfin, hlo, hhi⟩ := fmod_twoPi hx
  have hpi := value_twoPi
  -- the value after the first correction
  have hfirst : ∃ r, (if flt (fmod x Num32.twoPi) Num32.zero then fadd (fmod x Num32.twoPi) Num32.twoPi
      else fmod x Num32.twoPi) = r ∧ isNaN r = false ∧ 0 ≤ value r ∧ value r ≤ value Num32.twoPi := by
    refine ⟨_, rfl, ?_⟩
    split
    case isTrue hneg =>
      obtain ⟨_, _, hneg⟩ := flt_iff_value.1 hneg
      obtain ⟨hnan, hr⟩ := rounded_fadd hfin twoPi_isFinite
      have hge := (hr Num32.zero rfl).2
      have hle := (hr Num32.twoPi rfl).1
      rw [value_zero] at *
      exact ⟨hnan, hge (by omega), hle (by omega)⟩
    case isFalse hneg =>
      have := fle_of_not_flt (isNaN_of_isFinite hfin) rfl hneg
      obtain ⟨_, _, h0⟩ := fle_iff_value.1 this
      exact ⟨isNaN_of_isFinite hfin, h0, by omega⟩
  obtain ⟨r, e, hnan, h0, hle⟩ := hfirst
  unfold wrap
  dsimp only
  rw [e]
  split
  case isTrue hge =>
    obtain ⟨_, _, hge⟩ := fge_iff_value.1 hge
    have hr : isFinite r = true := isFinite_of_value hnan (by omega) (by omega)
    obtain ⟨hnan', hsub⟩ := rounded_fsub hr twoPi_isFinite
    obtain ⟨hle', hge'⟩ := hsub Num32.zero rfl
    rw [value_zero] at *
    have := hle' (by omega)
    have := hge' (by omega)
    exact ⟨hnan', by omega, by omega⟩
  case isFalse hge =>
    exact ⟨hnan, h0, not_le.1 fun h => hge (fge_iff_value.2 ⟨rfl, hnan, h⟩)⟩

/-- `wrap` of a number that is not finite is a NaN. -/
theorem wrap_of_not_finite {x : Num32} (hx : isFinite x = false) : isNaN (wrap x) = true := by
  have hmod : isNaN (fmod x Num32.twoPi) = true := by
    by_cases hn : isNaN x = true
    · simp [fmod, hn]
    · have hinf : isInf x = true := by
        have := of_decide_eq_false hx
        have := fmag_le_of_isNaN (Bool.not_eq_true _ ▸ hn)
        exact beq_iff_eq.2 (by omega)
      simp [fmod, hinf]
  simp [wrap, flt, fge, fle, hmod]

theorem Osc.phaseLegal_wrap (o : Osc) (x : Num32) (h : o.phase = wrap x) : o.phaseLegal = true := by
  rw [Osc.phaseLegal_iff, h]
  cases hx : isFinite x
  · exact .inl (wrap_of_not_finite hx)
  · exact .inr (wrap_of_finite hx)

theorem Osc.phaseLegal_processSample (w : Waveform) (aa : Bool) (fsL : Num32) (o : Osc) :
    (o.processSample w aa fsL).2.phaseLegal = true := Osc.phaseLegal_wrap _ _ rfl

theorem oscSample_phaseLegal (s : State) (o : Osc) : (oscSample s o).2.phaseLegal = true :=
  Osc.phaseLegal_processSample (wsel s.par.osc.waveform) (flag s.par.osc.antialias) s.fs o

/-- The phase plus a finite increment does not overflow. -/
theorem isFinite_advance {phase inc : Num32} (hp : isNaN phase = false) (h0 : 0 ≤ value phase)
    (hlt : value phase < value Num32.twoPi) (hinc : isFinite inc = true) : isFinite (fadd phase inc) = true := by
  have hpi := value_twoPi
  have hmax := units_lt_of_isFinite hinc
  rw [← natAbs_value] at hmax
  exact isFinite_fadd (isFinite_of_value hp (by omega) (by omega)) hinc (by omega)

/-- The three oscillators' phases of a voice are legal. -/
def Voice.phasesLegal (x : Voice) : Prop :=
  x.osc0.phaseLegal = true ∧ x.osc1.phaseLegal = true ∧ x.osc2.phaseLegal = true

theorem Osc.phaseLegal_of_zero {o : Osc} (h : o.phase = Num32.zero) : o.phaseLegal = true := by
  unfold Osc.phaseLegal
  rw [h]
  decide

theorem startOsc_phaseLegal (c : Params) (s : State) (k : Nat) (hz : Num32) {o : Osc} (h : o.phaseLegal = true) :
    (startOsc c s k hz o).phaseLegal = true := by
  unfold startOsc
  dsimp only
  split
  · exact Osc.phaseLegal_of_zero rfl
  · exact h

theorem Voice.phasesLegal_tick (c : Params) (s : State) {x : Voice} (h : x.phasesLegal) :
    (x.tick c s).phasesLegal := by
  obtain ⟨a, b, e⟩ := matrixProcess_voice_frame c.matrixZeroDisabled s.vr (x.tickEnvs c s)
  unfold Voice.tick
  rw [e]
  unfold Voice.tickFree
  split <;> exact h

theorem phasesLegal_ops (c : Params) : VoiceOpsKeep c (fun _ => True) Voice.phasesLegal where
  construct := ⟨Osc.phaseLegal_of_zero rfl, Osc.phaseLegal_of_zero rfl, Osc.phaseLegal_of_zero rfl⟩
  start s n x h := by
    obtain ⟨h0, h1, h2⟩ := h
    exact ⟨startOsc_phaseLegal c s 0 _ h0, startOsc_phaseLegal c s 1 _ h1, startOsc_phaseLegal c s 2 _ h2⟩
  stamp _ _ h := h
  stop tail x h := by cases tail <;> exact h
  tick s _ _ := Voice.phasesLegal_tick c s
  sample s x _ := ⟨oscSample_phaseLegal s _, oscSample_phaseLegal s _, oscSample_phaseLegal s _⟩
  advance _ _ h := h
  cut _ h := h

/-- The LFO's phase is legal. -/
def LfoLegal (s : State) : Prop := s.lfo.phaseLegal = true

theorem lfoLegal_masterKeeps (c : Params) : MasterKeeps c LfoLegal where
  reads s t hst h := by
    obtain ⟨_, _, _, _, _, hlfo⟩ := hst
    unfold LfoLegal
    rw [hlfo]
    exact h
  prepare fsn mb nc s _ := by
    rw [prepareEffects_frame]
    exact Osc.phaseLegal_of_zero rfl
  tick s _ := by
    rw [globalTick_frame]
    exact Osc.phaseLegal_processSample c.lfoWaveform false _ _
  start _ _ _ _ h := h
  write s h := by
    rw [writeNext_frame]
    exact h
  reset _ := Osc.phaseLegal_of_zero rfl

/-- Settles O43: every advance wraps, and a sum of a phase in range and a finite increment is finite, so its wrap is a number. -/
theorem phaseRangeKept : Obligations.PhaseRangeKept := by
  constructor
  · intro s t h hstep
    obtain ⟨hlfo, hvoices⟩ := h
    have hstep : stepOf hw s = .next t := step_eq_stepOf s ▸ hstep
    exact ⟨(lfoLegal_masterKeeps hw).stepOf hlfo hstep,
      (phasesLegal_ops hw).stepOf (renderKeeps_true hw) (fun _ _ _ _ => trivial) hvoices hstep⟩
  · intro w aa fsL o hlegal hnan o' hinc
    obtain hn | ⟨_, h0, hlt⟩ := Osc.phaseLegal_iff.1 hlegal
    · exact absurd (hn.symm.trans hnan) (by decide)
    · exact ⟨(wrap_of_finite (isFinite_advance hnan h0 hlt hinc)).1, Osc.phaseLegal_processSample w aa fsL o⟩

end Sys2Proof.Machine
end

section
/-! SUPPORT. Envelope levels (10_state.md R53, 41_envelope.md R180 to R188): what one tick does to a level of [0, 1]. -/

namespace Sys2Proof.Machine

theorem inUnit_iff {x : Num32} : inUnit x = true ↔ isNaN x = false ∧ 0 ≤ value x ∧ value x ≤ 2 ^ 149 := by
  have hzero : isNaN Num32.zero = false := rfl
  have hone : isNaN Num32.one = false := rfl
  unfold inUnit
  rw [Bool.and_eq_true, fge_iff_value, fle_iff_value, value_zero, value_one]
  tauto

theorem isFinite_of_inUnit {x : Num32} (h : inUnit x = true) : isFinite x = true := by
  obtain ⟨hx, h0, h1⟩ := inUnit_iff.1 h
  exact isFinite_of_value hx (by omega) (by omega)

theorem inUnit_zero : inUnit Num32.zero = true := by decide

theorem inUnit_one : inUnit Num32.one = true := by decide

theorem clamp_bounds {lo hi : Num32} (v : Num32) (h : fle lo hi = true) :
    isNaN (clamp v lo hi) = false ∧ value lo ≤ value (clamp v lo hi) ∧ value (clamp v lo hi) ≤ value hi := by
  obtain ⟨hlo, hhi, _⟩ := fle_iff_value.1 h
  obtain ⟨_, hge, hle, _⟩ := clampRange v lo hi hlo hhi h
  rw [fle_iff_value] at hge hle
  exact ⟨hle.1, hge.2.2, hle.2.2⟩

theorem inUnit_unitLevel (v : Num32) : inUnit (unitLevel v) = true := by
  have := clamp_bounds v (show fle Num32.zero Num32.one = true by decide)
  rw [value_zero, value_one] at this
  exact inUnit_iff.2 this

/-- The product of two numbers of [0, 1] is a number of [0, 1], not above either. -/
theorem fmul_unit {x y : Num32} (hx : inUnit x = true) (hy : inUnit y = true) :
    inUnit (fmul x y) = true ∧ value (fmul x y) ≤ value y := by
  obtain ⟨hnan, hround⟩ := rounded_fmul (isFinite_of_inUnit hx) (isFinite_of_inUnit hy)
  obtain ⟨_, hx0, hx1⟩ := inUnit_iff.1 hx
  obtain ⟨hyn, hy0, hy1⟩ := inUnit_iff.1 hy
  have hlo := (hround Num32.zero rfl).2
  have hle := (hround y hyn).1
  rw [value_zero] at hlo
  have hprod : value x * value y ≤ value y * ((2 ^ 149 : Nat) : Int) := by
    rw [mul_comm (value y)]
    exact Int.mul_le_mul_of_nonneg_right hx1 hy0
  have h0 := hlo (by simpa using Int.mul_nonneg hx0 hy0)
  have h1 := hle hprod
  exact ⟨inUnit_iff.2 ⟨hnan, h0, h1.trans hy1⟩, h1⟩

/-- Adding a number of [0, 1] to any number, an infinity included, rounds the exact sum. -/
theorem rounded_fadd_unit {b p : Num32} (hb : isNaN b = false) (hp : inUnit p = true) :
    Rounded (fadd b p) (value b + value p) 1 := by
  have hfin := isFinite_of_inUnit hp
  obtain ⟨hpn, hp0, hp1⟩ := inUnit_iff.1 hp
  have hpinf := isInf_of_isFinite hfin
  -- an infinity stays, and no other number lies between it and the exact sum
  have hinf : ∀ m, isNaN m = false → value m ≤ 2 ^ 277 ∧ (value m = -2 ^ 277 ∨ -(2 ^ 277 - 2 ^ 253) ≤ value m) := by
    intro m hm
    have hposInf := value_inf
    have hnegInf : value Num32.negInf = -2 ^ 277 := by decide +kernel
    obtain rfl | rfl | hm := number_cases hm
    · omega
    · omega
    · have := units_lt_of_isFinite hm
      rw [← natAbs_value] at this
      omega
  have hnegInf : value Num32.negInf = -2 ^ 277 := by decide +kernel
  obtain rfl | rfl | hb := number_cases hb
  · have e : fadd Num32.negInf p = Num32.negInf := by
      simp [fadd, addWith, hpn, hpinf, show isNaN Num32.negInf = false from rfl, show isInf Num32.negInf = true from rfl]
    rw [e]
    refine ⟨rfl, fun m hm => ?_⟩
    have := hinf m hm
    omega
  · have e : fadd Num32.inf p = Num32.inf := by
      simp [fadd, addWith, hpn, hpinf, show isNaN Num32.inf = false from rfl, show isInf Num32.inf = true from rfl]
    have hposInf := value_inf
    rw [e]
    refine ⟨rfl, fun m hm => ?_⟩
    have := hinf m hm
    omega
  · exact rounded_fadd hb hfin

/-- A sum below the midpoint above 1 is not above 1. -/
theorem value_fadd_le_one {b p : Num32} (hb : isNaN b = false) (hp : inUnit p = true)
    (h : value b + value p < 2 ^ 149 + 2 ^ 125) : value (fadd b p) ≤ 2 ^ 149 := by
  obtain ⟨_, hp0, hp1⟩ := inUnit_iff.1 hp
  by_cases hle : value b + value p ≤ 2 ^ 149
  · have := ((rounded_fadd_unit hb hp).2 Num32.one rfl).1
    rw [value_one] at this
    exact this (by omega)
  have hround : roundMag (value b + value p).natAbs 0 ≤ 0x3F800000 := by
    by_contra hgt
    have hplace := Nat.min_le_left (roundPlace (value b + value p).natAbs 0) 0x7F800000
    rw [← roundMag_eq] at hplace
    have hmid := ((nearest_roundPlace (value b + value p).natAbs 0 0x3F800000).2 (by omega)).1
    have hnext : unitsOfMag 0x3F800001 ≤ unitsOfMag (roundPlace (value b + value p).natAbs 0) :=
      unitsOfMag_strictMono.monotone (by omega)
    rw [show unitsOfMag 0x3F800001 = 2 ^ 149 + 2 ^ 126 by decide +kernel] at hnext
    rw [unitsOfMag_one] at hmid
    omega
  unfold fadd
  rw [addWith_of_finite _ (isFinite_of_value hb (by omega) (by omega)) (isFinite_of_inUnit hp), if_neg (by omega),
    decide_eq_false (by omega), value_fpack_false (by omega)]
  have hunits := unitsOfMag_strictMono.monotone hround
  rw [unitsOfMag_one] at hunits
  omega

/-- `1 - x` is rounded up by less than half a place above 1. -/
theorem value_one_sub_lt {x : Num32} (hx : inUnit x = true) :
    value (fsub Num32.one x) < 2 ^ 149 - value x + 2 ^ 125 := by
  obtain ⟨hxn, hx0, hx1⟩ := inUnit_iff.1 hx
  obtain ⟨_, hround⟩ := rounded_fsub (show isFinite Num32.one = true by decide) (isFinite_of_inUnit hx)
  rw [value_one] at hround
  -- the next multiple of 2^-24 is a number
  obtain ⟨m, hm1, hlo, hhi⟩ : ∃ m ≤ 0x3F800000, 2 ^ 149 - value x ≤ (unitsOfMag m : Int) ∧
      (unitsOfMag m : Int) < 2 ^ 149 - value x + 2 ^ 125 := by
    obtain ⟨k, hk⟩ : ∃ k : Nat, k = (2 ^ 149 - (value x).toNat + 2 ^ 125 - 1) / 2 ^ 125 := ⟨_, rfl⟩
    by_cases hone : k < 0x1000000
    · obtain ⟨m, hm⟩ := exists_unitsOfMag_eq 125 k hone
      refine ⟨m, unitsOfMag_strictMono.le_iff_le.1 ?_, ?_, ?_⟩
      · rw [unitsOfMag_one]
        omega
      · omega
      · omega
    · exact ⟨0x3F800000, le_refl _, by rw [unitsOfMag_one]; push_cast; omega, by rw [unitsOfMag_one]; push_cast; omega⟩
  have := (hround (fpack false m) (isNaN_fpack (by omega))).1
  rw [value_fpack_false (by omega)] at this
  have := this (by omega)
  omega


/-! The ranges of the derived cells. -/

theorem Derived.inRange_iff {d : Derived} : d.inRange = true ↔
    (inUnit d.attackCoef = true ∧ inUnit d.decayCoef = true ∧ inUnit d.releaseCoef = true) ∧
    (isNaN d.attackBase = false ∧ 0 ≤ value d.attackBase) ∧ isNaN d.decayBase = false ∧
    (isNaN d.releaseBase = false ∧ value d.releaseBase ≤ 0) := by
  have hzero : isNaN Num32.zero = false := rfl
  unfold Derived.inRange
  simp only [Bool.and_eq_true, fge_iff_value, fle_iff_value, value_zero, Bool.not_eq_true', hzero]
  tauto

theorem Derived.fits_iff {d : Derived} : d.fits = true ↔
    d.inRange = true ∧ fle d.decayBase (fsub Num32.one d.decayCoef) = true := by
  have hnan : fle d.decayBase (fsub Num32.one d.decayCoef) = true → isNaN d.decayBase = false := fun h =>
    (fle_iff_value.1 h).1
  unfold Derived.fits Derived.inRange
  simp only [Bool.and_eq_true, Bool.not_eq_true']
  tauto

/-! One tick. -/

section Tick

variable {d : Derived} (m : EnvMaster) {e : Env} (hd : d.inRange = true) (he : inUnit e.out = true)

include hd he

theorem Env.attackStep_inUnit : inUnit (e.attackStep d).out = true := by
  obtain ⟨⟨hcoef, _, _⟩, ⟨hbase, hbase0⟩, _, _⟩ := Derived.inRange_iff.1 hd
  have hprod := (fmul_unit he hcoef).1
  obtain ⟨_, hprod0, _⟩ := inUnit_iff.1 hprod
  obtain ⟨hnan, hround⟩ := rounded_fadd_unit hbase hprod
  have h0 := (hround Num32.zero rfl).2
  rw [value_zero] at h0
  have h0 := h0 (by omega)
  unfold Env.attackStep
  dsimp only
  split
  case isTrue => exact inUnit_one
  case isFalse hone =>
    have hlt := fge_iff_value.not.1 hone
    rw [value_one] at hlt
    exact inUnit_iff.2 ⟨hnan, h0, le_of_not_ge fun h => hlt ⟨rfl, hnan, h⟩⟩

/-- DECAY leaves a number that is not negative: the sustain level, or a level above it. -/
theorem Env.decayStep_nonneg : isNaN (e.decayStep d m).out = false ∧ 0 ≤ value (e.decayStep d m).out := by
  obtain ⟨⟨_, hcoef, _⟩, _, hbase, _⟩ := Derived.inRange_iff.1 hd
  obtain ⟨hnan, _⟩ := rounded_fadd_unit hbase (fmul_unit he hcoef).1
  obtain ⟨hs, hs0, _⟩ := inUnit_iff.1 (inUnit_unitLevel m.sustain)
  unfold Env.decayStep
  dsimp only
  split
  case isTrue => exact ⟨hs, hs0⟩
  case isFalse hgt =>
    have hgt := fle_iff_value.not.1 hgt
    exact ⟨hnan, le_of_not_ge fun h => hgt ⟨hnan, hs, h.trans hs0⟩⟩

theorem Env.releaseStep_inUnit : inUnit (e.releaseStep d).out = true := by
  obtain ⟨⟨_, _, hcoef⟩, _, _, hbase, hbase0⟩ := Derived.inRange_iff.1 hd
  have hprod := (fmul_unit he hcoef).1
  obtain ⟨_, _, hprod1⟩ := inUnit_iff.1 hprod
  obtain ⟨hnan, hround⟩ := rounded_fadd_unit hbase hprod
  have h1 := (hround Num32.one rfl).1
  rw [value_one] at h1
  have h1 := h1 (by omega)
  unfold Env.releaseStep
  dsimp only
  split
  case isTrue => exact inUnit_zero
  case isFalse hpos =>
    have hpos := fle_iff_value.not.1 hpos
    exact inUnit_iff.2 ⟨hnan, le_of_not_ge fun h => hpos ⟨hnan, rfl, h⟩, h1⟩

end Tick

/-- With cells that fit together, DECAY leaves a level not above 1. -/
theorem Env.decayStep_inUnit {d : Derived} (m : EnvMaster) {e : Env} (hd : d.fits = true) (he : inUnit e.out = true) :
    inUnit (e.decayStep d m).out = true := by
  obtain ⟨hrange, hfit⟩ := Derived.fits_iff.1 hd
  obtain ⟨hnan, h0⟩ := Env.decayStep_nonneg m hrange he
  obtain ⟨⟨_, hcoef, _⟩, _⟩ := Derived.inRange_iff.1 hrange
  obtain ⟨hbase, _, hfit⟩ := fle_iff_value.1 hfit
  obtain ⟨hprod, hprodle⟩ := fmul_unit he hcoef
  have hsub := value_one_sub_lt hcoef
  have hout := value_fadd_le_one hbase hprod (by omega)
  refine inUnit_iff.2 ⟨hnan, h0, ?_⟩
  unfold Env.decayStep
  dsimp only
  split
  · exact (inUnit_iff.1 (inUnit_unitLevel m.sustain)).2.2
  · exact hout

/-- The limit of log entry 25 is met by a level of [0, 1], and brings one above 1 to 1. -/
theorem Env.limit_inUnit {capped : Bool} {e : Env} (hnan : isNaN e.out = false) (h0 : 0 ≤ value e.out)
    (h1 : capped = true ∨ inUnit e.out = true) : inUnit (e.limit capped).out = true := by
  unfold Env.limit
  split
  case isTrue => exact inUnit_one
  case isFalse hle =>
    obtain rfl | h1 := h1
    · rw [Bool.true_and, fgt_eq, flt_iff_value, value_one] at hle
      exact inUnit_iff.2 ⟨hnan, h0, le_of_not_gt fun h => hle ⟨rfl, hnan, h⟩⟩
    · exact h1

/-- A tick keeps a level in [0, 1] when the derived cells are in range, if it is limited or the cells fit together. -/
theorem Env.tick_inUnit {capped : Bool} {d : Derived} (m : EnvMaster) {e : Env} (hd : d.inRange = true)
    (hdecay : capped = true ∨ d.fits = true) (he : inUnit e.out = true) : inUnit (e.tick capped d m).out = true := by
  unfold Env.tick
  split
  · exact he
  · exact Env.attackStep_inUnit hd he
  · obtain ⟨hnan, h0⟩ := Env.decayStep_nonneg m hd he
    exact Env.limit_inUnit hnan h0 (hdecay.imp id fun hfits => Env.decayStep_inUnit m hfits he)
  · exact inUnit_unitLevel m.sustain
  · exact Env.releaseStep_inUnit hd he

end Sys2Proof.Machine
end

section
/-! SUPPORT. The derived cells of any master's cells and any rate, NaN and infinities included, are in range and fit together
(41_envelope.md R171 to R174): the coefficient is `exp` of a number that is not positive. -/

namespace Sys2Proof.Machine

/-- A target ratio after its clamp, with bounds that the rounded bounds of 41_envelope.md R172 keep. -/
def IsRatio (q : Num32) : Prop := isFinite q = true ∧ 2 ^ 119 ≤ value q ∧ value q ≤ 2 ^ 156

theorem isRatio_clamp (v : Num32) : IsRatio (clamp v hw.ratioMin hw.ratioMax) := by
  obtain ⟨hnan, hlo, hhi⟩ := clamp_bounds v (show fle hw.ratioMin hw.ratioMax = true by decide)
  have hmin : 2 ^ 119 ≤ value hw.ratioMin := by decide +kernel
  have hmax : value hw.ratioMax ≤ 2 ^ 156 := by decide +kernel
  exact ⟨isFinite_of_value hnan (by omega) (by omega), by omega, by omega⟩

/-- `1 + q` is a number from 1 and from `q` on. -/
theorem one_add_ratio {q : Num32} (hq : IsRatio q) : isFinite (fadd Num32.one q) = true ∧
    2 ^ 149 ≤ value (fadd Num32.one q) ∧ value q ≤ value (fadd Num32.one q) ∧ value (fadd Num32.one q) ≤ 2 ^ 157 := by
  obtain ⟨hfin, hlo, hhi⟩ := hq
  obtain ⟨hnan, hround⟩ := rounded_fadd (show isFinite Num32.one = true by decide) hfin
  have hbound : value 0x43800000#32 = 2 ^ 157 := by decide +kernel
  have h1 := (hround Num32.one rfl).2
  have h2 := (hround q (isNaN_of_isFinite hfin)).2
  have h3 := (hround 0x43800000#32 rfl).1
  rw [value_one] at h1 h2 h3
  rw [hbound] at h3
  have h1 := h1 (by omega)
  have h2 := h2 (by omega)
  have h3 := h3 (by omega)
  exact ⟨isFinite_of_value hnan (by omega) (by omega), h1, h2, h3⟩

/-- `(1 + q) / q` is a number from 1 to 2^38. -/
theorem one_add_ratio_div {q : Num32} (hq : IsRatio q) :
    fle Num32.one (fdiv (fadd Num32.one q) q) = true ∧ fle (fdiv (fadd Num32.one q) q) 0x52800000#32 = true := by
  obtain ⟨hfin, _, hge, hle⟩ := one_add_ratio hq
  obtain ⟨hqfin, hlo, hhi⟩ := hq
  obtain ⟨_, hunits⟩ := units_of_value_pos (x := q) (by omega)
  obtain ⟨hnan, hround⟩ := rounded_fdiv hfin hqfin (by omega)
  have hbound : value 0x52800000#32 = 2 ^ 187 := by decide +kernel
  have h1 := (hround Num32.one rfl).2
  have h2 := (hround 0x52800000#32 rfl).1
  rw [← hunits, value_one] at h1
  rw [← hunits, hbound] at h2
  exact ⟨fle_iff_value.2 ⟨rfl, hnan, value_one ▸ h1 (by omega)⟩, fle_iff_value.2 ⟨hnan, rfl, hbound ▸ h2 (by omega)⟩⟩

/-- `ln(2^38)` is finite, whatever the free choices are. -/
theorem libLn_two_pow_38_lt : value (libLn 0x52800000#32) < 2 ^ 277 := by
  have hpos : 0 < value 0x52800000#32 := by decide +kernel
  have hbelow : lnBelow 0x52800000#32 < 0x80000000 + 0x43000000 := by decide +kernel
  have hbound : value 0x43000000#32 < 2 ^ 277 := by decide +kernel
  have hplace : AtPlace 0x43000000#32 0x43000000 := ⟨rfl, rfl⟩
  have hle : fle (libLn 0x52800000#32) 0x43000000#32 = true := by
    obtain ⟨_, hp⟩ | ⟨_, hp⟩ := libLn_cases (show isFinite 0x52800000#32 = true by decide) hpos
    · exact fle_of_atPlace hp hplace (by decide)
    · have := lnPlace_le (x := 0x52800000#32) (p := 0x80000000 + 0x43000000) (by decide) hbelow
      exact fle_of_atPlace hp hplace (by omega)
  have := (fle_iff_value.1 hle).2.2
  omega

/-- The logarithm in `calcCoef` is a finite number that is not negative. -/
theorem ln_ratio {q : Num32} (hq : IsRatio q) :
    isFinite (libLn (fdiv (fadd Num32.one q) q)) = true ∧ 0 ≤ value (libLn (fdiv (fadd Num32.one q) q)) := by
  obtain ⟨hge, hle⟩ := one_add_ratio_div hq
  have hnonneg : fge (fdiv (fadd Num32.one q) q) 0#32 = true := fle_trans (by decide) hge
  have hlo := fle_iff_value.1 (libLn_mono hge (by decide))
  have hhi := fle_iff_value.1 (libLn_mono hle hnonneg)
  have hone : value (libLn Num32.one) = 0 := by decide +kernel
  have hbound := libLn_two_pow_38_lt
  rw [hone] at hlo
  exact ⟨isFinite_of_value hlo.2.1 (by omega) (by omega), hlo.2.2⟩

/-- A number that is not positive, by a positive one: a number that is not positive. -/
theorem fdiv_nonpos {a b : Num32} (ha : isFinite a = true) (ha0 : value a ≤ 0) (hb : isNaN b = false)
    (hb0 : 0 < value b) : isNaN (fdiv a b) = false ∧ value (fdiv a b) ≤ 0 := by
  obtain rfl | rfl | hb := number_cases hb
  · exact absurd hb0 (by decide +kernel)
  · have e : fdiv a Num32.inf = fpack (fneg? a != fneg? Num32.inf) 0 := by
      simp [fdiv, isNaN_of_isFinite ha, isInf_of_isFinite ha, show isNaN Num32.inf = false from rfl,
        show isInf Num32.inf = true from rfl, show isZero Num32.inf = false from rfl]
    rw [e, value_fpack (by decide)]
    exact ⟨isNaN_fpack (by decide), by simp⟩
  · obtain ⟨hnan, hround⟩ := rounded_fdiv ha hb hb0
    have h0 := (hround Num32.zero rfl).1
    rw [value_zero] at h0
    exact ⟨hnan, h0 (by omega)⟩

/-- `exp` of a number that is not positive is a number of [0, 1]. -/
theorem inUnit_exp {x : Num32} (hx : isNaN x = false) (h0 : value x ≤ 0) : inUnit (libExp x) = true := by
  have hneg : value Num32.negInf ≤ value x := by
    have hnegInf : value Num32.negInf = -2 ^ 277 := by decide +kernel
    obtain rfl | rfl | hfin := number_cases hx
    · exact le_refl _
    · exact absurd h0 (by decide +kernel)
    · have := units_lt_of_isFinite hfin
      rw [← natAbs_value] at this
      omega
  have hlo : fle (libExp Num32.negInf) (libExp x) = true := libExp_mono (fle_iff_value.2 ⟨rfl, hx, hneg⟩)
  have hhi : fle (libExp x) (libExp Num32.zero) = true := libExp_mono (fle_iff_value.2 ⟨hx, rfl, h0⟩)
  rw [show libExp Num32.negInf = Num32.zero from rfl] at hlo
  rw [show libExp Num32.zero = Num32.one from rfl] at hhi
  unfold inUnit
  rw [Bool.and_eq_true]
  exact ⟨hlo, hhi⟩

/-- A coefficient is a number of [0, 1] (41_envelope.md R173), for every rate that is no NaN. -/
theorem inUnit_calcCoef {r q : Num32} (hr : isNaN r = false) (hq : IsRatio q) : inUnit (calcCoef hw r q) = true := by
  unfold calcCoef
  split
  case isTrue => exact inUnit_zero
  case isFalse hpos =>
    have hpos : 0 < value r := lt_of_not_ge fun h => hpos (fle_iff_value.2 ⟨hr, rfl, h⟩)
    obtain ⟨hfin, h0⟩ := ln_ratio hq
    obtain ⟨hnan, hle⟩ := fdiv_nonpos ((isFinite_fneg _).trans hfin) (by rw [value_fneg]; omega) hr hpos
    exact inUnit_exp hnan hle

theorem isNaN_rate (fs ms : Num32) : isNaN (rate hw fs ms) = false :=
  (clamp_bounds _ (show fle Num32.zero Num32.inf = true by decide)).1

/-- `1 - x` for a number of [0, 1] is one. -/
theorem inUnit_one_sub {x : Num32} (hx : inUnit x = true) : inUnit (fsub Num32.one x) = true := by
  obtain ⟨_, hx0, hx1⟩ := inUnit_iff.1 hx
  obtain ⟨hnan, hround⟩ := rounded_fsub (show isFinite Num32.one = true by decide) (isFinite_of_inUnit hx)
  have h0 := (hround Num32.zero rfl).2
  have h1 := (hround Num32.one rfl).1
  rw [value_one] at h0 h1
  rw [value_zero] at h0
  exact inUnit_iff.2 ⟨hnan, h0 (by omega), h1 (by omega)⟩

/-- The attack base `(1 + q) * w` is not negative. -/
theorem attackBase_nonneg {q w : Num32} (hq : IsRatio q) (hu : inUnit w = true) :
    isNaN (fmul (fadd Num32.one q) w) = false ∧ 0 ≤ value (fmul (fadd Num32.one q) w) := by
  obtain ⟨hfin, h1, _, _⟩ := one_add_ratio hq
  obtain ⟨_, hw0, _⟩ := inUnit_iff.1 hu
  obtain ⟨hnan, hround⟩ := rounded_fmul hfin (isFinite_of_inUnit hu)
  have h0 := (hround Num32.zero rfl).2
  rw [value_zero] at h0
  exact ⟨hnan, h0 (by simpa using Int.mul_nonneg (by omega) hw0)⟩

/-- The decay base `(s - q) * w` is not above `w`. -/
theorem decayBase_le {s q w : Num32} (hs : inUnit s = true) (hq : IsRatio q) (hu : inUnit w = true) :
    fle (fmul (fsub s q) w) w = true := by
  obtain ⟨hqfin, hq0, hq1⟩ := hq
  obtain ⟨_, hs0, hs1⟩ := inUnit_iff.1 hs
  obtain ⟨hwnan, hw0, _⟩ := inUnit_iff.1 hu
  obtain ⟨hnan, hround⟩ := rounded_fsub (isFinite_of_inUnit hs) hqfin
  have hbound : value 0xC3800000#32 = -2 ^ 157 := by decide +kernel
  have hlo := (hround 0xC3800000#32 rfl).2
  have hhi := (hround Num32.one rfl).1
  rw [hbound] at hlo
  rw [value_one] at hhi
  have hlo := hlo (by omega)
  have hhi := hhi (by omega)
  obtain ⟨hnan', hround'⟩ := rounded_fmul (isFinite_of_value hnan (by omega) (by omega)) (isFinite_of_inUnit hu)
  have hle := (hround' w hwnan).1
  refine fle_iff_value.2 ⟨hnan', hwnan, hle ?_⟩
  rw [mul_comm (value w)]
  exact Int.mul_le_mul_of_nonneg_right hhi hw0

/-- The release base `-q * w` is not positive. -/
theorem releaseBase_nonpos {q w : Num32} (hq : IsRatio q) (hu : inUnit w = true) :
    isNaN (fmul (fneg q) w) = false ∧ value (fmul (fneg q) w) ≤ 0 := by
  obtain ⟨hfin, hq0, _⟩ := hq
  obtain ⟨_, hw0, _⟩ := inUnit_iff.1 hu
  obtain ⟨hnan, hround⟩ := rounded_fmul ((isFinite_fneg q).trans hfin) (isFinite_of_inUnit hu)
  have h0 := (hround Num32.zero rfl).1
  rw [value_zero, value_fneg] at h0
  refine ⟨hnan, h0 ?_⟩
  rw [zero_mul]
  exact Int.mul_nonpos_of_nonpos_of_nonneg (by omega) hw0

theorem derivedOf_inRange_fits (fs : Num32) (m : EnvMaster) :
    (derivedOf fs m).inRange = true ∧ (derivedOf fs m).fits = true := by
  have hra := isRatio_clamp m.ratioA
  have hrdr := isRatio_clamp m.ratioDr
  have hattack := inUnit_calcCoef (isNaN_rate fs m.attack) hra
  have hdecay := inUnit_calcCoef (isNaN_rate fs m.decay) hrdr
  have hrelease := inUnit_calcCoef (isNaN_rate fs m.release) hrdr
  have hbase := decayBase_le (inUnit_unitLevel m.sustain) hrdr (inUnit_one_sub hdecay)
  have hrange : (derivedOf fs m).inRange = true := Derived.inRange_iff.2 ⟨⟨hattack, hdecay, hrelease⟩,
    attackBase_nonneg hra (inUnit_one_sub hattack), (fle_iff_value.1 hbase).1,
    releaseBase_nonpos hrdr (inUnit_one_sub hrelease)⟩
  exact ⟨hrange, Derived.fits_iff.2 ⟨hrange, hbase⟩⟩

end Sys2Proof.Machine
end

section
/-! SUPPORT. The derived cells between steps (10_state.md R41, 48_parameter_setters.md R342): every write keeps them in range, and a
cell without a pending write has the value of the present cells and rate. In every reading of log entries 25 and 26. -/

namespace Sys2Proof.Machine

/-- `c` computes each derived cell as this hardware does. -/
def DerivesAsHw (c : Params) : Prop := ∀ fs m n, derivedValue c fs m n = (derivedOf fs m).get n

/-- The readings of log entries 25 and 26 differ in other things. -/
theorem derivesAsHw_readings (capped fade : Bool) : DerivesAsHw (readings capped fade) := by
  intro fs m n
  cases n <;> rfl

/-! Single cells. -/

theorem Derived.get_set (d : Derived) (n n' : DerivedName) (v : Num32) :
    (d.set n v).get n' = if n' = n then v else d.get n' := by
  cases n <;> cases n' <;> rfl

theorem Derived.get_mk (v : DerivedName → Num32) (n : DerivedName) :
    Derived.get ⟨v .attackCoef, v .attackBase, v .decayCoef, v .decayBase, v .releaseCoef, v .releaseBase⟩ n = v n := by
  cases n <;> rfl

theorem Derived.eq_of_get {d d' : Derived} (h : ∀ n, d.get n = d'.get n) : d = d' := by
  obtain ⟨a, b, c, d, e, f⟩ := d
  obtain ⟨a', b', c', d', e', f'⟩ := d'
  obtain rfl : a = a' := h .attackCoef
  obtain rfl : b = b' := h .attackBase
  obtain rfl : c = c' := h .decayCoef
  obtain rfl : d = d' := h .decayBase
  obtain rfl : e = e' := h .releaseCoef
  obtain rfl : f = f' := h .releaseBase
  rfl

/-- A cell of a set in range may replace the same cell of another. -/
theorem Derived.inRange_set {d d' : Derived} (hd : d.inRange = true) (hd' : d'.inRange = true) (n : DerivedName) :
    (d.set n (d'.get n)).inRange = true := by
  rw [Derived.inRange_iff] at *
  cases n <;> simp only [Derived.set, Derived.get, hd, hd', and_self]

theorem resetDerived_eq {c : Params} (hc : DerivesAsHw c) : resetDerived c = derivedOf Num32.zero EnvMaster.reset := by
  have hget : ∀ n, (resetDerived c).get n = derivedValue c Num32.zero EnvMaster.reset n := Derived.get_mk _
  exact Derived.eq_of_get fun n => (hget n).trans (hc _ _ n)

theorem State.der_setDer (s : State) (E E' : EnvId) (n : DerivedName) (v : Num32) :
    (s.setDer E n v).der E' = if E' = E then (s.der E').set n v else s.der E' := by
  cases E <;> cases E' <;> rfl

@[simp] theorem deriveCell_fs (c : Params) (E : EnvId) (n : DerivedName) (s : State) :
    (deriveCell c E n s).fs = s.fs := State.setDer_fs ..

@[simp] theorem deriveCell_par (c : Params) (E : EnvId) (n : DerivedName) (s : State) :
    (deriveCell c E n s).par = s.par := State.setDer_par ..

@[simp] theorem deriveAll_fs (c : Params) (E : EnvId) (s : State) : (deriveAll c E s).fs = s.fs := by
  rw [deriveAll_frame]

@[simp] theorem deriveAll_par (c : Params) (E : EnvId) (s : State) : (deriveAll c E s).par = s.par := by
  rw [deriveAll_frame]

/-- One derived write writes one cell. -/
theorem deriveCell_get (c : Params) (E E' : EnvId) (n n' : DerivedName) (s : State) :
    ((deriveCell c E n s).der E').get n' =
      if E' = E ∧ n' = n then derivedValue c s.fs (s.par.env E) n else (s.der E').get n' := by
  unfold deriveCell
  rw [State.der_setDer]
  by_cases hE : E' = E
  · rw [if_pos hE, Derived.get_set]
    simp only [hE, true_and]
  · simp only [hE, false_and, if_false]

/-- The derived writes of `ns` write these cells. -/
theorem foldl_deriveCell_get (c : Params) (E E' : EnvId) (ns : List DerivedName) (n : DerivedName) (s : State) :
    ((ns.foldl (fun s n => deriveCell c E n s) s).der E').get n =
      if E' = E ∧ n ∈ ns then derivedValue c s.fs (s.par.env E) n else (s.der E').get n := by
  induction ns generalizing s with
  | nil => simp
  | cons m ns ih =>
    rw [List.foldl_cons, ih, deriveCell_get, deriveCell_fs, deriveCell_par]
    by_cases hE : E' = E <;> by_cases hm : n = m <;> simp [hE, hm]

theorem deriveAll_get (c : Params) (E E' : EnvId) (n : DerivedName) (s : State) :
    ((deriveAll c E s).der E').get n =
      if E' = E then derivedValue c s.fs (s.par.env E) n else (s.der E').get n := by
  have hmem : n ∈ derivedOrder := by cases n <;> decide
  simp only [deriveAll, foldl_deriveCell_get, hmem, and_true]

/-- A derived cell that a SETPARAM does not write does not read the cell it sets (48_parameter_setters.md R342). -/
theorem derivedValue_set_of_not_mem (c : Params) (fs : Num32) (p : ParamCells) {id : ParamId} {E : EnvId}
    {n : DerivedName} (v : Word) (h : (E, n) ∉ derivedWrites id) :
    derivedValue c fs ((p.set id v).env E) n = derivedValue c fs (p.env E) n := by
  -- the table of R342, cell by cell: either the id's list holds the cell, or its formula reads no field that the id sets
  cases id <;> cases E <;> cases n <;> simp [derivedWrites] at h <;> rfl

section Kept

variable {c : Params} {s t : State} (hc : DerivesAsHw c)

include hc

/-! In range. -/

/-- Both sets of derived cells are in range. -/
def DerivedInRange (s : State) : Prop := s.der1.inRange = true ∧ s.der2.inRange = true

theorem deriveCell_inRange (E : EnvId) (n : DerivedName) (h : DerivedInRange s) :
    DerivedInRange (deriveCell c E n s) := by
  obtain ⟨h1, h2⟩ := h
  have hset := fun (d : Derived) (hd : d.inRange = true) =>
    Derived.inRange_set hd (derivedOf_inRange_fits s.fs (s.par.env E)).1 n
  unfold deriveCell
  rw [hc]
  cases E
  · exact ⟨hset _ h1, h2⟩
  · exact ⟨h1, hset _ h2⟩

/-- PREPARE writes all derived cells. -/
theorem prepareEffects_der (fsn : Num32) (mb nc : Nat) (s : State) (E : EnvId) :
    (prepareEffects c fsn mb nc s).der E = derivedOf fsn (s.par.env E) := by
  have hall : ∀ u : State, (deriveAll c .env2 (deriveAll c .env1 u)).der E = derivedOf u.fs (u.par.env E) := by
    intro u
    refine Derived.eq_of_get fun n => ?_
    rw [deriveAll_get, deriveAll_get, deriveAll_fs, deriveAll_par, hc, hc]
    cases E <;> rfl
  have hmode : ∀ w : State, ({ w with mode := .ready } : State).der E = w.der E := fun w => by cases E <;> rfl
  unfold prepareEffects
  dsimp only
  rw [hmode, hall]
  rfl

theorem prepareEffects_inRange (fsn : Num32) (mb nc : Nat) (s : State) :
    DerivedInRange (prepareEffects c fsn mb nc s) := by
  have h1 : (prepareEffects c fsn mb nc s).der1 = _ := prepareEffects_der hc fsn mb nc s .env1
  have h2 : (prepareEffects c fsn mb nc s).der2 = _ := prepareEffects_der hc fsn mb nc s .env2
  unfold DerivedInRange
  rw [h1, h2]
  exact ⟨(derivedOf_inRange_fits _ _).1, (derivedOf_inRange_fits _ _).1⟩

theorem writeNext_inRange (h : DerivedInRange s) : DerivedInRange (writeNext c s) := by
  unfold writeNext
  split
  · exact h
  · exact deriveCell_inRange hc _ _ h

theorem rst_inRange (s : State) : DerivedInRange (rst c s) :=
  have hreset : (resetDerived c).inRange = true := resetDerived_eq hc ▸ (derivedOf_inRange_fits _ _).1
  ⟨hreset, hreset⟩

theorem derivedInRange_masterKeeps : MasterKeeps c DerivedInRange where
  reads s t hst h := by
    obtain ⟨_, _, h1, h2, _, _⟩ := hst
    unfold DerivedInRange
    rw [h1, h2]
    exact h
  prepare fsn mb nc s _ := prepareEffects_inRange hc fsn mb nc s
  tick s h := by
    rw [globalTick_frame]
    exact h
  start _ _ _ _ h := h
  write _ := writeNext_inRange hc
  reset s := rst_inRange hc s

/-! In step. -/

theorem writeNext_inStep (h : DerivedInStep s) : DerivedInStep (writeNext c s) := by
  unfold writeNext
  split
  · exact h
  · rename_i E n rest hp
    intro E' n' hmem
    show ((deriveCell c E n s).der E').get n' =
      (derivedOf (deriveCell c E n s).fs ((deriveCell c E n s).par.env E')).get n'
    rw [deriveCell_fs, deriveCell_par, deriveCell_get, hc]
    split
    case isTrue hsame =>
      obtain ⟨rfl, rfl⟩ := hsame
      rfl
    case isFalse hother =>
      refine h E' n' fun hm => ?_
      rw [hp, List.mem_cons, Prod.mk.injEq] at hm
      exact hm.elim hother hmem

theorem setParamStart_inStep (id : ParamId) (v : Word) (hp : s.pPend = []) (h : DerivedInStep s) :
    DerivedInStep (setParamStart id v s) := by
  intro E n hmem
  have hold : (s.der E).get n = (derivedOf s.fs (s.par.env E)).get n := h E n (hp ▸ List.not_mem_nil)
  have hder : (setParamStart id v s).der E = s.der E := by cases E <;> rfl
  rw [hder, hold, ← hc, ← hc]
  exact (derivedValue_set_of_not_mem c s.fs s.par v hmem).symm

theorem rst_inStep (s : State) : DerivedInStep (rst c s) := by
  intro E n _
  have hreset := congrArg (·.get n) (resetDerived_eq hc)
  cases E <;> exact hreset

theorem prepareEffects_inStep (fsn : Num32) (mb nc : Nat) (s : State) :
    DerivedInStep (prepareEffects c fsn mb nc s) := by
  intro E n _
  have hfs : (prepareEffects c fsn mb nc s).fs = fsn := by rw [prepareEffects_frame]
  have hpar : (prepareEffects c fsn mb nc s).par = s.par := by rw [prepareEffects_frame]
  rw [prepareEffects_der hc, hfs, hpar]

theorem derivedInStep_masterKeeps : MasterKeeps c DerivedInStep where
  reads s t hst h := by
    obtain ⟨hfs, hpar, h1, h2, hp, _⟩ := hst
    intro E n hm
    have hder : t.der E = s.der E := by cases E; exacts [h1, h2]
    rw [hder, hfs, hpar]
    exact h E n (hp ▸ hm)
  prepare fsn mb nc s _ := prepareEffects_inStep hc fsn mb nc s
  tick s h := by
    rw [globalTick_frame]
    exact h
  start id v _ hp h := setParamStart_inStep hc id v hp h
  write _ := writeNext_inStep hc
  reset s := rst_inStep hc s

end Kept

end Sys2Proof.Machine
end

section
/-! SUPPORT. Envelope levels over every step (10_state.md R60 (b), 41_envelope.md R188), and the invariants at reset. -/

namespace Sys2Proof.Machine

/-- Both envelopes' levels are numbers of [0, 1]. -/
def Voice.levelsInUnit (x : Voice) : Prop := inUnit x.env1.out = true ∧ inUnit x.env2.out = true

/-- In `s` a voice tick keeps levels in [0, 1]: the derived cells are in range, and a decay is limited or its cells fit. -/
def TickSafe (c : Params) (s : State) : Prop :=
  ∀ E, (s.der E).inRange = true ∧ (c.decayCapped = true ∨ (s.der E).fits = true)

variable {c : Params} {G : State → Prop}

theorem Env.gate_out (on : Bool) (e : Env) : (e.gate on).out = e.out := by
  unfold Env.gate
  split
  · rfl
  · split <;> rfl

theorem Voice.levelsInUnit_gate {x : Voice} (on : Bool) (h : x.levelsInUnit) :
    inUnit (x.env1.gate on).out = true ∧ inUnit (x.env2.gate on).out = true := by
  rw [Env.gate_out, Env.gate_out]
  exact h

theorem Voice.levelsInUnit_tick {s : State} (hs : TickSafe c s) {x : Voice} (h : x.levelsInUnit) :
    (x.tick c s).levelsInUnit := by
  obtain ⟨h1, h2⟩ := h
  obtain ⟨hrange1, hdecay1⟩ := hs .env1
  obtain ⟨hrange2, hdecay2⟩ := hs .env2
  have hticked : (x.tickEnvs c s).levelsInUnit :=
    ⟨Env.tick_inUnit _ hrange1 hdecay1 h1, Env.tick_inUnit _ hrange2 hdecay2 h2⟩
  obtain ⟨a, b, e⟩ := matrixProcess_voice_frame c.matrixZeroDisabled s.vr (x.tickEnvs c s)
  unfold Voice.tick
  rw [e]
  unfold Voice.tickFree
  split <;> exact hticked

theorem levelsInUnit_ops (hG : ∀ s, G s → TickSafe c s) : VoiceOpsKeep c G Voice.levelsInUnit where
  construct := ⟨inUnit_zero, inUnit_zero⟩
  start _ _ _ h := Voice.levelsInUnit_gate true h
  stamp _ _ h := h
  stop tail x h := by
    cases tail
    · exact ⟨inUnit_zero, inUnit_zero⟩
    · exact Voice.levelsInUnit_gate false h
  tick s _ hs h := Voice.levelsInUnit_tick (hG s hs) h
  sample _ _ h := h
  advance _ _ h := h
  cut _ h := h

theorem DerivedInRange.tickSafe {s : State} (hc : c.decayCapped = true) (h : DerivedInRange s) : TickSafe c s := by
  intro E
  cases E
  · exact ⟨h.1, .inl hc⟩
  · exact ⟨h.2, .inl hc⟩

/-- The derived cells are in step, no write is pending, and the writer does not move. -/
def SettledInStep (s : State) : Prop := DerivedInStep s ∧ s.pPend = [] ∧ .writer ∉ s.events

theorem SettledInStep.tickSafe {s : State} (h : SettledInStep s) : TickSafe c s := by
  obtain ⟨hstep, hp, _⟩ := h
  intro E
  have hder : s.der E = derivedOf s.fs (s.par.env E) :=
    Derived.eq_of_get fun n => hstep E n (hp ▸ List.not_mem_nil)
  rw [hder]
  obtain ⟨hrange, hfits⟩ := derivedOf_inRange_fits s.fs (s.par.env E)
  exact ⟨hrange, .inr hfits⟩

theorem settledInStep_renderKeeps (hc : DerivesAsHw c) : RenderKeeps c SettledInStep where
  global s _ h := by rw [globalTick_frame]; exact h
  tick _ _ _ h := h
  sample v i s _ _ h := by rw [voiceSample_frame]; exact h
  moves s _ h := by
    obtain ⟨hstep, hp, hwriter⟩ := h
    obtain ⟨es, hes, e | ⟨_, e⟩⟩ := interleaveWith_noWriter (c := c) hwriter s <;> unfold interleave <;> rw [e]
    · exact ⟨hstep, hp, fun hm => hwriter (hes.mem hm)⟩
    · exact ⟨rst_inStep hc _, rfl, fun hm => hwriter (hes.mem hm)⟩
  advance _ _ _ _ h := h
  cut v s _ h := by rw [cutFadeOut_frame]; exact h
  cursor _ _ h := h
  counter _ _ h := h

/-- In the readings with the limit, every step keeps cells and levels in range. -/
theorem levelsKept_capped (fade : Bool) {s t : State} (h1 : s.der1.inRange = true) (h2 : s.der2.inRange = true)
    (h : LevelsInUnit s) (hstep : stepOf (readings true fade) s = .next t) :
    t.der1.inRange = true ∧ t.der2.inRange = true ∧ LevelsInUnit t := by
  have hc := derivesAsHw_readings true fade
  have V := levelsInUnit_ops (c := readings true fade) fun _ => DerivedInRange.tickSafe rfl
  obtain ⟨h1', h2'⟩ := (derivedInRange_masterKeeps hc).stepOf ⟨h1, h2⟩ hstep
  exact ⟨h1', h2',
    V.stepOf (derivedInRange_masterKeeps hc).renderKeeps (fun _ _ _ _ => ⟨h1, h2⟩) h hstep⟩

/-- In every reading, with the cells in step and the writer at rest, every step keeps the levels in range. -/
theorem levelsKept_inStep (capped fade : Bool) {s t : State} (hd : DerivedInStep s) (hp : s.pPend = [])
    (hwriter : .writer ∉ s.events) (h : LevelsInUnit s) (hstep : stepOf (readings capped fade) s = .next t) :
    LevelsInUnit t := by
  have V := levelsInUnit_ops (c := readings capped fade) fun _ => SettledInStep.tickSafe
  exact V.stepOf (settledInStep_renderKeeps (derivesAsHw_readings capped fade))
    (fun es _ _ hes => ⟨hd, hp, fun hm => hwriter (hes.mem hm)⟩) h hstep

/-- Settles O45: a tick keeps a level in range when the cells are, each write keeps them so, and the cells of any values fit. -/
theorem envelopeLevelsKept : Obligations.EnvelopeLevelsKept :=
  ⟨fun s _ h1 h2 h hstep => levelsKept_capped false h1 h2 h (hw_eq_readings ▸ step_eq_stepOf s ▸ hstep),
    fun fade _ _ h1 h2 h hstep => levelsKept_capped fade h1 h2 h hstep,
    fun _ m _ hd he => Env.tick_inUnit m hd (.inl rfl) he,
    fun s _ h hstep => (derivedInStep_masterKeeps (derivesAsHw_readings true false)).stepOf h
      (hw_eq_readings ▸ step_eq_stepOf s ▸ hstep),
    fun capped fade _ _ hd hp hwriter h hstep => levelsKept_inStep capped fade hd hp hwriter h hstep,
    fun _ _ m _ hd he => Env.tick_inUnit m (Derived.fits_iff.1 hd).1 (.inr hd) he,
    fun fs m => ⟨(derivedOf_inRange_fits fs m).2, (derivedOf_inRange_fits fs m).1⟩⟩

/-- Settles O41: the reset state is what `rst` leaves of it, and `rst` establishes every invariant. -/
theorem invariantAtReset : Obligations.InvariantAtReset := by
  have hrst : rst hw State.reset = State.reset := rst_hw State.reset
  have hc := derivesAsHw_readings true false
  have hrange : DerivedInRange State.reset := hrst ▸ rst_inRange hc State.reset
  have hstep : DerivedInStep State.reset := hrst ▸ rst_inStep hc State.reset
  have hseqs : SeqsDistinct State.reset := hrst ▸ seqsDistinct_rst hw State.reset
  have hphases : EveryVoice Voice.phasesLegal State.reset := fun _ hx =>
    List.eq_of_mem_replicate hx ▸ (phasesLegal_ops hw).construct
  have hlevels : EveryVoice Voice.levelsInUnit State.reset := fun _ hx =>
    List.eq_of_mem_replicate hx ▸ ⟨inUnit_zero, inUnit_zero⟩
  exact ⟨{ reset_boundary with busy := rfl, cursor := rfl }, ⟨Osc.phaseLegal_of_zero rfl, hphases⟩, hseqs, hstep,
    hlevels, hrange.1, hrange.2⟩

end Sys2Proof.Machine
end

section
/-! SUPPORT. A command's words are decoded to that command (30_encoding.md R110 to R121). -/

namespace Sys2Proof

/-- The commands by their seven formats: the 24 SETPARAM forms are one case. -/
theorem Instr.byFormat {P : Instr → Prop} (prepare : ∀ d m c, P (.prepare d m c)) (setvoices : ∀ n, P (.setvoices n))
    (noteon : ∀ c n v, P (.noteon c n v)) (noteoff : ∀ c n v t, P (.noteoff c n v t)) (render : ∀ a b, P (.render a b))
    (route : ∀ sc k va en s d, P (.route sc k va en s d)) (setparam : ∀ (id : ParamId) v, P (id.instr v)) (i : Instr) :
    P i := by
  cases hi : i.setparam with
  | some iv => exact Instr.eq_of_setparam hi ▸ setparam iv.1 iv.2
  | none =>
    cases i with
    | prepare d m c => exact prepare d m c
    | setvoices n => exact setvoices n
    | noteon c n v => exact noteon c n v
    | noteoff c n v t => exact noteoff c n v t
    | render a b => exact render a b
    | route sc k va en s d => exact route sc k va en s d
    | _ => cases hi

/-- The family `EncodingShape`, for every command. -/
theorem encodingShape (i : Instr) : Laws.EncodingShape.Statement i := by
  cases i using Instr.byFormat with
  | prepare d m c => exact Laws.EncodingShape.prepare d m c
  | setvoices n => exact Laws.EncodingShape.setvoices n
  | noteon c n v => exact Laws.EncodingShape.noteon c n v
  | noteoff c n v t => exact Laws.EncodingShape.noteoff c n v t
  | render a b => exact Laws.EncodingShape.render a b
  | route sc k va en s d => exact Laws.EncodingShape.route sc k va en s d
  | setparam id v => exact Laws.EncodingShape.of_setparam id v

/-- Operand assembly gives back the operands that the header and the payload were made of. -/
theorem assemble_encode {i : Instr} (h : i.wf = true) :
    assemble i.header.toNat (i.payload.getD 0 0) (i.payload.getD 1 0) = some i := by
  rw [Instr.header_toNat]
  unfold assemble
  cases i using Instr.byFormat with
  | prepare d m c =>
    simp only [Instr.wf, Bool.and_eq_true, decide_eq_true_eq] at h
    obtain ⟨hop, hc, hm⟩ := field_prepare d m c h.1 h.2
    have hd : d.extractLsb' 32 32 ++ d.extractLsb' 0 32 = d := by
      rw [BitVec.extractLsb'_append_extractLsb'_eq_extractLsb' (by rfl), BitVec.extractLsb'_eq_self]
    simp only [hop, hc, hm]
    exact congrArg (fun r => some (Instr.prepare r m c)) hd
  | setvoices n =>
    obtain ⟨hop, _, hn⟩ := field_setvoices n (by simpa [Instr.wf] using h)
    simp only [hop, hn]
  | noteon c n v =>
    simp only [Instr.wf, Bool.and_eq_true, decide_eq_true_eq] at h
    obtain ⟨hop, hc, _, hn, _⟩ := field_noteon c n v h.1 h.2
    simp only [hop, hc, hn]
    rfl
  | noteoff c n v t =>
    simp only [Instr.wf, Bool.and_eq_true, decide_eq_true_eq] at h
    obtain ⟨hop, hc, _, hn, _, ht⟩ := field_noteoff c n v t h.1 h.2
    simp only [hop, hc, hn, ht, Bool.toNat_beq_one]
    rfl
  | render a b =>
    simp only [Instr.wf, Bool.and_eq_true, decide_eq_true_eq] at h
    obtain ⟨hop, _, hb⟩ := field_render a b h.2
    have ha : ([BitVec.ofNat 32 a].getD 0 0).toNat = a := Nat.mod_eq_of_lt h.1
    simp only [hop, hb, Instr.payload, ha]
  | route sc k va en s d =>
    simp only [Instr.wf, Bool.and_eq_true, decide_eq_true_eq] at h
    obtain ⟨hop, hsc, hk, _, hva, hen, _, hs, _, hd⟩ := field_route sc k va en s d h.1.1 h.1.2 h.2
    have hscope : (if (if sc = Scope.voice then 0 else 1) = 0 then Scope.voice else Scope.global) = sc := by
      cases sc <;> rfl
    simp only [hop, hsc, hk, hva, hen, hs, hd, Bool.toNat_beq_one, hscope]
  | setparam id v =>
    obtain ⟨hop, _, hid⟩ := field_setparam id v
    simp only [hop, hid, ParamId.ofCode_code, payload_instr]
    rfl

/-- A well-formed command's words, whatever follows them, are decoded to the command, and what follows is left. -/
theorem decode_encode {i : Instr} (h : i.wf = true) (rest : List Word) :
    decode i.port (encode i ++ rest) = .command i rest := by
  obtain ⟨f, hf, hport, hlen, hres⟩ := encodingShape i h
  have hwait : ¬ (i.payload ++ rest).length < f.payload := by rw [List.length_append]; omega
  rw [encode_eq, List.cons_append, decode_format _ _ hf, if_neg hwait, hlen, List.take_left, List.drop_left]
  exact decodeFormat_accept hres hport (assemble_encode h)

end Sys2Proof
end

section
/-! SUPPORT. What one step is, by the move that comes next (20_memory.md R90 to R93): the engine's or the writer's turn on the words
of its port. -/

namespace Sys2Proof.Machine

variable {s : State} {es : List Event} {i : Instr} {rest : List Word}

theorem State.withEvents_of_eq (h : s.events = es) : { s with events := es } = s := by subst h; rfl

theorem engineCanMove_of_command (hd : decode .c s.cIn = .command i rest) :
    engineCanMove s = !interlocked i s := by
  unfold engineCanMove
  rw [hd]

theorem step_engine (h : s.events = .engine :: es) : step s = engineTurn exec { s with events := es } := by
  unfold step stepWith
  rw [h]

/-- The engine's move, chosen, or with none chosen when the engine can move, is the engine's turn. -/
theorem step_of_engineMoves (hmove : EngineMoves s es) (hcan : engineCanMove s = true) :
    step s = engineTurn exec { s with events := es } := by
  obtain h | ⟨h, rfl⟩ := hmove
  · exact step_engine h
  · unfold step stepWith
    rw [h, State.withEvents_of_eq h]
    exact if_pos hcan

/-- The writer's move, chosen or not, is the writer's turn. -/
theorem step_of_writerMoves (hmove : WriterMoves s es) : step s = writerTurn hw exec { s with events := es } := by
  unfold step stepWith
  obtain h | ⟨h, rfl, hengine⟩ := hmove
  · rw [h]
  · have hcan : ¬ engineCanMove s = true := by
      obtain hwait | ⟨i, rest, hd, hi, hp⟩ := hengine
      · simp [engineCanMove, hwait]
      · simp [engineCanMove_of_command hd, interlocked, hi, hp]
    rw [h, State.withEvents_of_eq h]
    exact if_neg hcan

theorem engineTurn_of_command {run : Instr → State → StepOutcome} (hd : decode .c s.cIn = .command i rest) :
    engineTurn run s = if interlocked i s then .next s else run i { s with cIn := rest } := by
  unfold engineTurn
  rw [hd]

theorem writerTurn_of_command {c : Params} {run : Instr → State → StepOutcome} (hp : s.pPend = [])
    (hd : decode .p s.pIn = .command i rest) : writerTurn c run s = run i { s with pIn := rest } := by
  unfold writerTurn
  rw [hp, hd]
  rfl

/-- The interlock's commands are C-port commands (20_memory.md R93). -/
theorem port_of_isConfig (h : i.isConfig = true) : i.port = .c := by
  cases i with
  | prepare d m c => rfl
  | setvoices n => rfl
  | route sc k va en s d => rfl
  | _ => cases h

/-- Settles O5: the words decode to the command, and the interlock does not hold it back. -/
theorem stepRunsCPortCommand : Obligations.StepRunsCPortCommand := by
  intro s es i rest hwf hport hmove hwords hlock
  have hd : decode .c s.cIn = .command i rest := by rw [hwords, ← hport, decode_encode hwf]
  have hfree : interlocked i s = false := by
    unfold interlocked
    rw [Bool.and_eq_false_imp]
    exact hlock
  rw [step_of_engineMoves hmove (by rw [engineCanMove_of_command hd, hfree]; rfl)]
  exact (engineTurn_of_command (s := { s with events := es }) hd).trans (if_neg (by simpa [interlocked] using hfree))

/-- Settles O6: the words decode to the command, and no write sequence is in flight. -/
theorem stepRunsPPortCommand : Obligations.StepRunsPPortCommand := by
  intro s es i rest hwf hport hmove hpend hwords
  have hd : decode .p s.pIn = .command i rest := by rw [hwords, ← hport, decode_encode hwf]
  rw [step_of_writerMoves hmove]
  exact writerTurn_of_command (s := { s with events := es }) hpend hd

/-- Settles O9: the words decode to a command that the interlock holds back. -/
theorem stepHoldsInterlockedCommand : Obligations.StepHoldsInterlockedCommand := by
  intro s es i rest hwf hconfig hbusy hmove hwords
  have hd : decode .c s.cIn = .command i rest := by rw [hwords, ← port_of_isConfig hconfig, decode_encode hwf]
  rw [step_engine hmove]
  exact (engineTurn_of_command (s := { s with events := es }) hd).trans (if_pos (by simp [interlocked, hconfig, hbusy]))

end Sys2Proof.Machine
end

section
/-! SUPPORT. The buffer (20_memory.md R80 to R83): every command but RENDER leaves it alone, and the host's moves at its port. -/

namespace Sys2Proof.Machine

variable {c : Params}

theorem cCommand_buf {H : Word} {body : State → State} (h : ∀ u : State, (body u).buf = u.buf) (s : State) :
    (cCommand H body s).buf = s.buf := by
  unfold cCommand
  dsimp only
  split
  · exact raise_buf ..
  · exact h _

theorem prepareCommand_buf (H : Word) (d : BitVec 64) (mb nc : Nat) (s : State) :
    (prepareCommand c H d mb nc s).buf = s.buf := by
  refine cCommand_buf (fun u => ?_) s
  split
  · exact raise_buf ..
  split
  · exact raise_buf ..
  split
  · exact raise_buf ..
  · rw [endCommand_buf, prepareEffects_frame]

theorem setVoicesCommand_buf (H : Word) (n : Nat) (s : State) : (setVoicesCommand c H n s).buf = s.buf := by
  refine cCommand_buf (fun u => ?_) s
  split
  · exact raise_buf ..
  · rfl

theorem routeCommand_buf (H : Word) (scope : Scope) (k : Nat) (r : Route) (s : State) :
    (routeCommand c H scope k r s).buf = s.buf := by
  refine cCommand_buf (fun u => ?_) s
  split
  · exact raise_buf ..
  · cases scope <;> rfl

theorem noteOn_buf (H : Word) (n : BitVec 7) (s : State) : (noteOn c H n s).buf = s.buf := by
  refine cCommand_buf (fun u => ?_) s
  split
  · exact raise_buf ..
  split
  · exact raise_buf ..
  · rw [endCommand_buf, takeVoice_frame]

theorem noteOff_buf (H : Word) (n : BitVec 7) (tail : Bool) (s : State) : (noteOff H n tail s).buf = s.buf := by
  refine cCommand_buf (fun u => ?_) s
  split
  · exact raise_buf ..
  · rw [endCommand_buf, stopAll_frame]

theorem setParam_buf (id : ParamId) (v : Word) (s : State) : (setParam c id v s).buf = s.buf := by rw [setParam_frame]

theorem runOf_buf {i : Instr} (hi : ∀ start count, i ≠ .render start count) (s : State) : (runOf c i s).buf = s.buf := by
  cases i using Instr.byFormat with
  | prepare d mb nc => exact prepareCommand_buf _ d mb nc s
  | setvoices n => exact setVoicesCommand_buf _ n s
  | noteon ch n v => exact noteOn_buf _ _ s
  | noteoff ch n v tail => exact noteOff_buf _ _ tail s
  | render start count => exact absurd rfl (hi start count)
  | route scope k valid en src dst => exact routeCommand_buf _ scope k _ s
  | setparam id v =>
    rw [runOf_instr]
    exact setParam_buf id v s

/-- Settles O39, command by command. -/
theorem onlyRenderTouchesBuffer : Obligations.OnlyRenderTouchesBuffer := by
  have key : ∀ (c : Params) (i : Instr) (s t : State), (∀ start count, i ≠ .render start count) →
      execOf c i s = .next t → ∀ a, memRead a t = memRead a s := by
    intro c i s t hi h a
    cases h
    exact congrArg (Memory.read · a) (runOf_buf hi s)
  exact ⟨fun i s t hi h => key hw i s t hi (exec_eq_execOf i s ▸ h), key⟩

theorem memWrite_frame (c : Params) (a : Nat) (w : Word) (s : State) :
    memWrite c a w s = { s with buf := (memWrite c a w s).buf } := by
  unfold memWrite
  split <;> rfl

theorem step_hostWrite {s : State} {a : Nat} {w : Word} {es : List Event} (h : s.events = .hostWrite a w :: es) :
    step s = .next (hostWrite hw a w { s with events := es }) := by
  unfold step stepWith
  rw [h]

/-- In a RENDER a host's write, chosen after moves of the engine and the writer, still stands, with the moves after it. -/
def HostWriteStands (pre : List Event) (a : Nat) (w : Word) (es : List Event) (t : State) : Prop :=
  ∃ rest, rest <:+ pre ∧ t.events = rest ++ .hostWrite a w :: es

theorem hostWriteStands_keeps (c : Params) {pre : List Event} (hpre : ∀ e ∈ pre, e = .engine ∨ e = .writer) (a : Nat)
    (w : Word) (es : List Event) : RenderKeeps c (HostWriteStands pre a w es) where
  global t _ h := by rw [globalTick_frame]; exact h
  tick v t _ h := h
  sample v i t _ _ h := by rw [voiceSample_frame]; exact h
  moves t _ h := by
    obtain ⟨rest, hrest, hevents⟩ := h
    unfold interleave
    rw [hevents]
    obtain ⟨_, _, _, _, _, _, _, _, _, rest', hrest', e⟩ | ⟨hrst, _⟩ :=
      interleaveWith_until c (.hostWrite a w) (by simp) rest es (fun e he => hpre e (hrest.mem he)) t
    · exact ⟨rest', hrest'.trans hrest, by rw [e]⟩
    · cases hrst
  advance v n t _ h := h
  cut v t _ h := by rw [cutFadeOut_frame]; exact h
  cursor t cur h := h
  counter t n h := h

/-- Settles O12: read after write of the canonical buffer, and every atomic step of RENDER keeps `HostWriteStands`. -/
theorem hostBufferAccess : Obligations.HostBufferAccess := by
  refine ⟨fun s a w es hbusy hwf hmove => ?_, fun s k a hbusy ha => ?_, fun s k a hbusy => ?_,
    fun s a w es hbusy hmove => ?_, fun start count s t pre es a w hm hlen hpre hmove hexec => ?_⟩
  · refine ⟨(memWrite hw a w { s with events := es }).buf, ?_, memWrite_wf hw hwf, memRead_memWrite_same hw hwf,
      fun b hb => ?_⟩
    · rw [step_hostWrite hmove, hostWrite, if_neg (by simp [hbusy]), memWrite_frame]
    · obtain hb | ha := hb
      · exact memRead_memWrite_other hw _ hb
      · have hout : ¬ a < bufferWords hw := Nat.not_lt.2 ha
        rw [memWrite_buf, if_neg hout]
  · rw [hostRead, hbusy]
    exact congrArg some (if_pos ha)
  · rw [hostRead, hbusy]
    rfl
  · rw [step_hostWrite hmove, hostWrite, if_pos hbusy]
  · rw [exec_render_of_accepted hm hlen] at hexec
    cases hexec
    exact (hostWriteStands_keeps hw hpre a w es).renderLoop (s := { s with busy := true }) rfl hlen
      ⟨pre, List.suffix_refl pre, hmove⟩

end Sys2Proof.Machine
end

section
/-! SUPPORT. A SETPARAM's write sequence cut apart by other moves (20_memory.md R92, R94, 48_parameter_setters.md R342). -/

namespace Sys2Proof.Machine

variable {c : Params} {s : State}

theorem exec_instr (id : ParamId) (v : Word) (s : State) : exec (id.instr v) s = .next (setParam hw id v s) := by
  rw [exec_eq_execOf, execOf, runOf_instr]

/-- A pending write is taken off the sequence. -/
theorem writeNext_pPend (c : Params) (s : State) : (writeNext c s).pPend = s.pPend.tail := by
  unfold writeNext
  split
  · rename_i h
    rw [h, List.tail_nil]
  · rename_i h
    rw [h, setPending_pPend, List.tail_cons]

theorem writeNext_par (c : Params) (s : State) : (writeNext c s).par = s.par := by rw [writeNext_frame]

theorem writeNext_fs (c : Params) (s : State) : (writeNext c s).fs = s.fs := by rw [writeNext_frame]

theorem setPending_der (rest : List (EnvId × DerivedName)) (s : State) (E : EnvId) :
    (setPending rest s).der E = s.der E := by
  cases E <;> rfl

theorem setParamStart_der (id : ParamId) (v : Word) (s : State) (E : EnvId) : (setParamStart id v s).der E = s.der E := by
  cases E <;> rfl

theorem State.der_withEvents (s : State) (es : List Event) (E : EnvId) :
    ({ s with events := es } : State).der E = s.der E := by
  cases E <;> rfl

/-- The next derived write writes one cell, computed from the present cells and rate. -/
theorem writeNext_get {p : EnvId × DerivedName} {rest : List (EnvId × DerivedName)} (hp : s.pPend = p :: rest)
    (E : EnvId) (n : DerivedName) :
    ((writeNext c s).der E).get n =
      if (E, n) = p then derivedValue c s.fs (s.par.env E) n else (s.der E).get n := by
  unfold writeNext
  rw [hp]
  dsimp only
  rw [setPending_der, deriveCell_get]
  by_cases h : (E, n) = p
  · subst h
    simp
  · rw [if_neg h, if_neg fun he => h (Prod.ext he.1 he.2)]

/-- `k` writes of a sequence of at least `k`: the first `k` cells hold their values of the present cells, the rest is pending. -/
theorem iterate_writeNext (k : Nat) (hk : k ≤ s.pPend.length) :
    ((writeNext c)^[k] s).par = s.par ∧ ((writeNext c)^[k] s).pPend = s.pPend.drop k ∧
    ∀ E n, (((writeNext c)^[k] s).der E).get n =
      if (E, n) ∈ s.pPend.take k then derivedValue c s.fs (s.par.env E) n else (s.der E).get n := by
  induction k generalizing s with
  | zero => simp
  | succ k ih =>
    obtain ⟨p, rest, hp⟩ : ∃ p rest, s.pPend = p :: rest := List.exists_cons_of_length_pos (by omega)
    have hrest : (writeNext c s).pPend = rest := by rw [writeNext_pPend, hp, List.tail_cons]
    obtain ⟨hpar, hpend, hget⟩ := ih (s := writeNext c s) (by rw [hrest]; rw [hp, List.length_cons] at hk; omega)
    rw [Function.iterate_succ_apply]
    refine ⟨hpar.trans (writeNext_par c s), by rw [hpend, hrest, hp, List.drop_succ_cons], fun E n => ?_⟩
    rw [hget, hrest, writeNext_par, writeNext_fs, writeNext_get hp, hp, List.take_succ_cons]
    simp only [List.mem_cons]
    by_cases h1 : (E, n) ∈ rest.take k
    · rw [if_pos h1, if_pos (.inr h1)]
    · simp only [h1, if_false, or_false]

/-- A sequence in flight stops at a move that is not the writer's (R94). -/
theorem drainWith_other {e : Event} (he : e ≠ .writer) (es : List Event) (s : State) :
    drainWith c (e :: es) s = { s with events := e :: es } := by
  unfold drainWith
  split
  · rfl
  · cases e with
    | writer => exact absurd rfl he
    | engine => rfl
    | rst => rfl
    | hostWrite a w => rfl

/-- `k` chosen writer moves before another move are `k` writes of the sequence in flight. -/
theorem drainWith_writers {e : Event} (he : e ≠ .writer) (es : List Event) (k : Nat) (hk : k ≤ s.pPend.length) :
    drainWith c (List.replicate k .writer ++ e :: es) s = { (writeNext c)^[k] s with events := e :: es } := by
  induction k generalizing s with
  | zero => exact drainWith_other he es s
  | succ k ih =>
    have hlen : k ≤ (writeNext c s).pPend.length := by rw [writeNext_pPend, List.length_tail]; omega
    have hpend : ¬ s.pPend.isEmpty = true := fun h => by simp [List.isEmpty_iff.1 h] at hk
    rw [List.replicate_succ, List.cons_append, drainWith, if_neg hpend]
    exact ih hlen

theorem setParamStart_eq (id : ParamId) (v : Word) (s : State) :
    setParamStart id v s = { s with
      par := s.par.set id v, pPend := sequenceOf id, pbusy := !(sequenceOf id).isEmpty } := by
  rw [← derivedWrites_eq]
  rfl

/-- A SETPARAM with `k` writer moves chosen before another move: its cell write and `k` derived writes. -/
theorem setParam_of_writers {e : Event} (he : e ≠ .writer) {es : List Event} {k : Nat}
    (hmoves : s.events = List.replicate k .writer ++ e :: es) (id : ParamId) (v : Word)
    (hk : k ≤ (sequenceOf id).length) :
    setParam c id v s = { (writeNext c)^[k] (setParamStart id v s) with events := e :: es } := by
  have hpend : (setParamStart id v s).pPend = sequenceOf id := derivedWrites_eq id
  rw [← drainWith_writers he es k (hpend ▸ hk), ← hmoves]
  rfl

/-- Settles O29: a SETPARAM takes the writer's moves as writes of its sequence and stops at the first other move. -/
theorem setparamSequenceIsTorn : Obligations.SetparamSequenceIsTorn := by
  refine ⟨fun id x s e es he hmoves => ?_, fun id x s t k e es he hmoves hk hexec => ?_⟩
  · rw [exec_instr, ← setParamStart_eq, setParam_of_writers (k := 0) he hmoves id x (Nat.zero_le _)]
    exact congrArg Host.Outcome.next (State.withEvents_of_eq hmoves)
  · rw [exec_instr, setParam_of_writers he hmoves id x hk] at hexec
    cases hexec
    have hstart : (setParamStart id x s).pPend = sequenceOf id := derivedWrites_eq id
    obtain ⟨hpar, hpend, hget⟩ := iterate_writeNext (c := hw) (s := setParamStart id x s) k (hstart ▸ hk)
    refine ⟨hpar, hstart ▸ hpend, rfl, fun E n => ?_⟩
    rw [State.der_withEvents, hget, hstart, show DerivesAsHw hw from derivesAsHw_readings true false, setParamStart_der]
    rfl

end Sys2Proof.Machine
end

section
/-! SUPPORT. A port's decoder accepts only encodings: of the words of a format with no reserved bit set, the operands assembled are a
well-formed command whose encoding the words are (30_encoding.md R111 to R123). -/

namespace Sys2Proof

/-! The fields of a header. -/

theorem field_lt (n lo width : Nat) : field n lo width < 2 ^ width := Nat.mod_lt _ (Nat.two_pow_pos width)

theorem field_bit_cases (n lo : Nat) : field n lo 1 = 0 ∨ field n lo 1 = 1 := Nat.mod_two_eq_zero_or_one _

/-- A flag is its bit. -/
theorem toNat_field_beq_one (n lo : Nat) : (field n lo 1 == 1).toNat = field n lo 1 := by
  obtain h | h := field_bit_cases n lo <;> rw [h] <;> rfl

/-- A ROUTE's scope is its bit (R118). -/
theorem scopeBit_field (n lo : Nat) :
    (if (if field n lo 1 = 0 then Scope.voice else Scope.global) = .voice then 0 else 0x800000) = field n lo 1 * 0x800000 := by
  obtain h | h := field_bit_cases n lo <;> rw [h] <;> rfl

theorem reservedSet_eq_false {f : Format} {H : Word} :
    reservedSet f H = false ↔ ∀ r ∈ f.reserved, field H.toNat r.1 r.2 = 0 := by
  simp [reservedSet]

/-- The id that names a cell is the cell's (10_state.md R40). -/
theorem ParamId.code_of_ofCode {n : Nat} {id : ParamId} (h : ParamId.ofCode n = some id) : id.code = n := by
  unfold ParamId.ofCode at h
  split at h <;> cases h <;> rfl

/-! The formats. -/

/-- An opcode's format is the row of the opcode map with that opcode. -/
theorem mem_formats_of_formatOf {op : Nat} {f : Format} (h : formatOf op = some f) : f ∈ formats ∧ op = f.op := by
  unfold formatOf at h
  have hop := List.find?_some h
  exact ⟨List.mem_of_find?_eq_some h, (beq_iff_eq.1 hop).symm⟩

/-- The command that a format's words give, format by format (R113 to R119): what `assemble` can answer. -/
inductive Assembled (h : Nat) (w1 w2 : Word) : Format → Instr → Prop
  | prepare : Assembled h w1 w2 ⟨0x01, .c, 2, []⟩ (.prepare (w2 ++ w1) (field h 0 16) (field h 16 8))
  | setvoices : Assembled h w1 w2 ⟨0x02, .c, 0, [(8, 16)]⟩ (.setvoices (field h 0 8))
  | noteon : Assembled h w1 w2 ⟨0x10, .c, 1, [(15, 5), (0, 8)]⟩ (.noteon (field h 20 4) (field h 8 7) w1)
  | noteoff : Assembled h w1 w2 ⟨0x11, .c, 1, [(15, 5), (1, 7)]⟩
      (.noteoff (field h 20 4) (field h 8 7) w1 (field h 0 1 == 1))
  | render : Assembled h w1 w2 ⟨0x20, .c, 1, [(16, 8)]⟩ (.render w1.toNat (field h 0 16))
  | route : Assembled h w1 w2 ⟨0x30, .c, 0, [(18, 2), (12, 4), (4, 4)]⟩
      (.route (if field h 23 1 = 0 then .voice else .global) (field h 20 3) (field h 17 1 == 1) (field h 16 1 == 1)
        (field h 8 4) (field h 0 4))
  | setparam {id : ParamId} (hid : ParamId.ofCode (field h 0 8) = some id) :
      Assembled h w1 w2 ⟨0x40, .p, 1, [(8, 16)]⟩ (id.instr w1)

variable {h : Nat} {H w1 w2 : Word} {f : Format} {i : Instr}

theorem assembled_of_assemble (hf : f ∈ formats) (hop : field h 24 8 = f.op) (ha : assemble h w1 w2 = some i) :
    Assembled h w1 w2 f i := by
  unfold assemble at ha
  simp only [formats, List.mem_cons, List.not_mem_nil, or_false] at hf
  obtain rfl | rfl | rfl | rfl | rfl | rfl | rfl := hf <;> simp only [hop] at ha
  · cases ha; exact .prepare
  · cases ha; exact .setvoices
  · cases ha; exact .noteon
  · cases ha; exact .noteoff
  · cases ha; exact .render
  · cases ha; exact .route
  · obtain ⟨id, hid, rfl⟩ := Option.map_eq_some_iff.1 ha
    exact .setparam hid

/-- Each operand is read from a field of its width. -/
theorem Assembled.wf (ha : Assembled h w1 w2 f i) : i.wf = true := by
  cases ha with
  | prepare => simpa [Instr.wf] using ⟨field_lt h 0 16, field_lt h 16 8⟩
  | setvoices => simpa [Instr.wf] using field_lt h 0 8
  | noteon => simpa [Instr.wf] using ⟨field_lt h 20 4, field_lt h 8 7⟩
  | noteoff => simpa [Instr.wf] using ⟨field_lt h 20 4, field_lt h 8 7⟩
  | render => simpa [Instr.wf] using ⟨w1.isLt, field_lt h 0 16⟩
  | route => simpa [Instr.wf, and_assoc] using ⟨field_lt h 20 3, field_lt h 8 4, field_lt h 0 4⟩
  | @setparam id => cases id <;> rfl

theorem Assembled.port (ha : Assembled h w1 w2 f i) : i.port = f.port := by
  cases ha with
  | setparam => exact port_instr _ w1
  | _ => rfl

/-- With no reserved bit set, a header is the sum of its opcode and the fields that the operands are read from. -/
theorem Assembled.header (ha : Assembled H.toNat w1 w2 f i) (hop : field H.toNat 24 8 = f.op)
    (hres : reservedSet f H = false) : i.header = H := by
  refine BitVec.eq_of_toNat_eq (i.header_toNat.trans ?_)
  have hH := H.isLt
  rw [reservedSet_eq_false] at hres
  cases ha with
  | @setparam id hid =>
    rw [headerNat_instr, ParamId.code_of_ofCode hid]
    simp only [List.forall_mem_cons, field] at hop hres ⊢
    omega
  | _ =>
    simp only [Instr.headerNat, toNat_field_beq_one, scopeBit_field]
    simp only [List.forall_mem_cons, field] at hop hres ⊢
    omega

/-- The payload words of a format are those of its command. -/
theorem Assembled.payload {ws : List Word} (ha : Assembled h (ws.getD 0 0) (ws.getD 1 0) f i)
    (hlen : ws.length = f.payload) : i.payload = ws := by
  cases ha with
  | prepare =>
    obtain ⟨w1, w2, rfl⟩ := List.length_eq_two.1 hlen
    have hlow : (w2 ++ w1).extractLsb' 0 32 = w1 := BitVec.extractLsb'_append_eq_right
    have hhigh : (w2 ++ w1).extractLsb' 32 32 = w2 := BitVec.extractLsb'_append_eq_left
    exact congrArg₂ (fun a b => [a, b]) hlow hhigh
  | setvoices => exact (List.length_eq_zero_iff.1 hlen).symm
  | noteon => obtain ⟨w1, rfl⟩ := List.length_eq_one_iff.1 hlen; rfl
  | noteoff => obtain ⟨w1, rfl⟩ := List.length_eq_one_iff.1 hlen; rfl
  | render =>
    obtain ⟨w1, rfl⟩ := List.length_eq_one_iff.1 hlen
    exact congrArg (fun a => [a]) ((BitVec.ofNat_toNat 32 w1).trans (BitVec.setWidth_eq w1))
  | route => exact (List.length_eq_zero_iff.1 hlen).symm
  | setparam => obtain ⟨w1, rfl⟩ := List.length_eq_one_iff.1 hlen; exact payload_instr _ w1

/-! The decoder. -/

/-- With the payload arrived, the decoder takes it whatever the header says. -/
theorem decode_of_arrived {ws : List Word} (port : Port) (hf : formatOf (opcodeOf H) = some f)
    (hlen : f.payload ≤ ws.length) :
    decode port (H :: ws) = decodeFormat port f H (ws.take f.payload) (ws.drop f.payload) := by
  rw [decode_format port ws hf, if_neg (by omega)]

theorem decodeFormat_reserved {port : Port} {payload rest : List Word} (hres : reservedSet f H = true) :
    decodeFormat port f H payload rest = .illegal .reserved H rest := by
  unfold decodeFormat
  rw [if_pos hres]

theorem decodeFormat_port {port : Port} {payload rest : List Word} (hres : reservedSet f H = false) (hport : f.port ≠ port) :
    decodeFormat port f H payload rest = .illegal .port H rest := by
  unfold decodeFormat
  rw [hres, if_neg (by decide), if_pos hport]

theorem decodeFormat_noCell {port : Port} {payload rest : List Word} (hres : reservedSet f H = false) (hport : f.port = port)
    (ha : assemble H.toNat (payload.getD 0 0) (payload.getD 1 0) = none) :
    decodeFormat port f H payload rest = .noCell H rest := by
  unfold decodeFormat
  rw [hres, if_neg (by decide), if_neg (by simp [hport]), ha]

/-- A format's words are a command only on its port, with no reserved bit set and with operands that can be assembled. -/
theorem of_decodeFormat_eq_command {port : Port} {payload ws rest : List Word}
    (hd : decodeFormat port f H payload ws = .command i rest) :
    f.port = port ∧ reservedSet f H = false ∧ assemble H.toNat (payload.getD 0 0) (payload.getD 1 0) = some i ∧ ws = rest := by
  unfold decodeFormat at hd
  split at hd
  · cases hd
  rename_i hres
  split at hd
  · cases hd
  rename_i hport
  split at hd <;> cases hd
  rename_i ha
  exact ⟨not_not.1 hport, by simpa using hres, ha, rfl⟩

/-- The decoder answers a command only of a header of a format whose payload has arrived. -/
theorem of_decode_eq_command {port : Port} {ws rest : List Word} (hd : decode port ws = .command i rest) :
    ∃ H ws' f, ws = H :: ws' ∧ formatOf (opcodeOf H) = some f ∧ f.payload ≤ ws'.length ∧
      decodeFormat port f H (ws'.take f.payload) (ws'.drop f.payload) = .command i rest := by
  unfold decode at hd
  split at hd
  · cases hd
  split at hd
  · cases hd
  rename_i hf
  split at hd
  · cases hd
  rename_i hlen
  exact ⟨_, _, _, rfl, hf, not_lt.1 hlen, hd⟩

/-- Settles O1: the encoded header has its format's opcode, port, payload length and clear reserved bits, and each field
gives its operand back. -/
theorem decodeOfEncode : Obligations.DecodeOfEncode := fun _ rest hwf => decode_encode hwf rest

/-- Settles O2: the header accepted has no bit outside the opcode and the fields that the operands are read from. -/
theorem encodeOfDecode : Obligations.EncodeOfDecode := by
  intro port ws i rest hd
  obtain ⟨H, ws, f, rfl, hf, hlen, hd⟩ := of_decode_eq_command hd
  obtain ⟨rfl, hres, ha, rfl⟩ := of_decodeFormat_eq_command hd
  obtain ⟨hmem, hop⟩ := mem_formats_of_formatOf hf
  have ha := assembled_of_assemble hmem hop ha
  refine ⟨ha.wf, ha.port, ?_⟩
  rw [encode_eq, ha.header hop hres, ha.payload (List.length_take_of_le hlen), List.cons_append, List.take_append_drop]

/-- Settles O3: each word sequence is its command's encoding. -/
theorem workedEncodings : Obligations.WorkedEncodings :=
  ⟨decode_encode (i := .prepare 0x40E7700000000000#64 512 2) rfl [], decode_encode (i := .setvoices 4) rfl [],
   decode_encode (i := .noteon 0 60 0x3F800000#32) rfl [], decode_encode (i := .noteoff 0 60 0#32 true) rfl [],
   decode_encode (i := .render 0 512) rfl [], decode_encode (i := .route .voice 0 true false 0 1) rfl [],
   decode_encode (i := .route .global 1 true true 0 1) rfl [], decode_encode (i := .setFiltCutoff 0x447A0000#32) rfl []⟩

end Sys2Proof
end

section
/-! SUPPORT. The reserved bits of a format as a mask of the header, and which headers are illegal (30_encoding.md R111, R121, R122). -/

namespace Sys2Proof

variable {H : Word} {f : Format}

/-- The header bits of a field. -/
def fieldMask (lo width : Nat) : Word := BitVec.ofNat 32 ((2 ^ width - 1) <<< lo)

/-- The bits that a format reserves. -/
def Format.reservedMask (f : Format) : Word := f.reserved.foldr (fun r m => fieldMask r.1 r.2 ||| m) 0

/-- The mask of a format (R113 to R119): the opcode's bits and the reserved ones. -/
def Format.fixedMask (f : Format) : Word := fieldMask 24 8 ||| f.reservedMask

/-- A format as the opcode map writes it: opcode, mask, payload words and port. -/
def Format.row (f : Format) : Nat × Nat × Nat × Port := (f.op, f.fixedMask.toNat, f.payload, f.port)

/-- Masking keeps a field's value at its place. -/
theorem and_fieldMask (H : Word) (lo width : Nat) :
    H &&& fieldMask lo width = BitVec.ofNat 32 (field H.toNat lo width <<< lo) := by
  refine BitVec.eq_of_getLsbD_eq fun k hk => ?_
  have hH : H.getLsbD k = H.toNat.testBit k := rfl
  simp only [fieldMask, field, BitVec.getLsbD_and, BitVec.getLsbD_ofNat, Nat.testBit_shiftLeft, Nat.testBit_two_pow_sub_one,
    Nat.testBit_mod_two_pow, Nat.testBit_div_two_pow, hH]
  by_cases hlo : lo ≤ k
  · simp only [Nat.sub_add_cancel hlo, hk, hlo, decide_true, Bool.true_and]
    exact Bool.and_comm _ _
  · simp [hlo]

theorem field_eq_zero_iff (H : Word) (lo width : Nat) :
    field H.toNat lo width = 0 ↔ H &&& fieldMask lo width = 0#32 := by
  have hle : field H.toNat lo width <<< lo ≤ H.toNat := by
    rw [Nat.shiftLeft_eq]
    exact (Nat.mul_le_mul_right _ (Nat.mod_le _ _)).trans (Nat.div_mul_le_self _ _)
  rw [and_fieldMask, ← BitVec.toNat_inj, BitVec.toNat_ofNat, Nat.mod_eq_of_lt (hle.trans_lt H.isLt)]
  simp [Nat.shiftLeft_eq]

theorem reservedSet_eq_false_iff_mask : reservedSet f H = false ↔ H &&& f.reservedMask = 0#32 := by
  rw [reservedSet_eq_false, Format.reservedMask]
  induction f.reserved with
  | nil => simp
  | cons r rs ih =>
    rw [List.forall_mem_cons, ih, field_eq_zero_iff, List.foldr_cons, BitVec.and_or_distrib_left, BitVec.or_eq_zero_iff]

theorem or_eq_left_iff_of_disjoint {a b : Word} (hab : b &&& a = 0#32) : a ||| b = a ↔ b = 0#32 := by
  refine ⟨fun h => ?_, fun h => by rw [h, BitVec.or_zero]⟩
  calc b = b &&& (a ||| b) := by rw [BitVec.and_or_distrib_left, hab, BitVec.and_self, BitVec.zero_or]
    _ = 0#32 := by rw [h, hab]

theorem opcodeMask_disjoint : ∀ f ∈ formats, f.reservedMask &&& fieldMask 24 8 = 0#32 := by decide

/-- A header matches its format's mask exactly when it has no reserved bit set. -/
theorem and_fixedMask_eq_iff (hf : f ∈ formats) (hop : opcodeOf H = f.op) :
    H &&& f.fixedMask = BitVec.ofNat 32 (f.op * 0x1000000) ↔ reservedSet f H = false := by
  have hopcode : BitVec.ofNat 32 (f.op * 0x1000000) = H &&& fieldMask 24 8 := by
    rw [and_fieldMask, Nat.shiftLeft_eq, ← hop, opcodeOf]
  have hdisj : (H &&& f.reservedMask) &&& (H &&& fieldMask 24 8) = 0#32 := by
    calc (H &&& f.reservedMask) &&& (H &&& fieldMask 24 8) = (H &&& H) &&& (f.reservedMask &&& fieldMask 24 8) := by ac_rfl
      _ = 0#32 := by rw [opcodeMask_disjoint f hf, BitVec.and_zero]
  rw [reservedSet_eq_false_iff_mask, Format.fixedMask, BitVec.and_or_distrib_left, hopcode, or_eq_left_iff_of_disjoint hdisj]

theorem formatOf_op : ∀ f ∈ formats, formatOf f.op = some f := by decide

theorem formatOf_eq_none {op : Nat} (h : op ∉ formats.map Format.op) : formatOf op = none := by
  unfold formatOf
  rw [List.find?_eq_none]
  exact fun f hf hop => h (List.mem_map.2 ⟨f, hf, beq_iff_eq.1 hop⟩)

/-- An undefined opcode takes one word. -/
theorem decode_of_undefined (port : Port) (ws : List Word) (hf : formatOf (opcodeOf H) = none) :
    decode port (H :: ws) = .illegal .opcode H ws := by
  simp only [decode, hf]

/-- The ids of R40 are those that name a cell. -/
theorem ParamId.ofCode_eq_none_iff {n : Nat} : ParamId.ofCode n = none ↔ n ∉ Machine.paramIds := by
  have hcells : ∀ n ∈ Machine.paramIds, (ParamId.ofCode n).isSome = true := by decide
  have hcodes : ∀ id : ParamId, id.code ∈ Machine.paramIds := fun id => by cases id <;> decide
  constructor
  · intro hn hmem
    have := hcells n hmem
    rw [hn] at this
    cases this
  · intro hn
    refine Option.eq_none_iff_forall_ne_some.2 fun id hid => hn ?_
    rw [← ParamId.code_of_ofCode hid]
    exact hcodes id

/-- Operands of a format are not assembled only for a SETPARAM whose id names no cell (60_exceptions.md R385). -/
theorem assemble_eq_none_iff {h : Nat} {w1 w2 : Word} (hf : f ∈ formats) (hop : field h 24 8 = f.op) :
    assemble h w1 w2 = none ↔ f.op = 0x40 ∧ h % 256 ∉ Machine.paramIds := by
  unfold assemble
  simp only [formats, List.mem_cons, List.not_mem_nil, or_false] at hf
  obtain rfl | rfl | rfl | rfl | rfl | rfl | rfl := hf <;> simp only [hop]
  case inr.inr.inr.inr.inr.inr =>
    rw [Option.map_eq_none_iff, ParamId.ofCode_eq_none_iff]
    simp [field]
  all_goals simp

/-- Settles O4: each row's mask covers its format's opcode and reserved bits, so the header matches it exactly when the decoder's
first check passes; the port and the SETPARAM's id are the two checks after it. -/
theorem illegalEncodings : Obligations.IllegalEncodings := by
  refine ⟨fun port H ws hop => ?_, fun port H ws op mask payload right hrow hop hlen => ?_⟩
  · exact decode_of_undefined port ws (formatOf_eq_none hop)
  · have hrows : (op, mask, payload, right) ∈ formats.map Format.row := hrow
    obtain ⟨f, hf, hrow⟩ := List.mem_map.1 hrows
    cases hrow
    rw [BitVec.ofNat_toNat, BitVec.setWidth_eq, ne_eq, and_fixedMask_eq_iff hf hop,
      decode_of_arrived port (hop ▸ formatOf_op f hf) hlen]
    refine ⟨fun hres => decodeFormat_reserved (by simpa using hres), fun hres hport => decodeFormat_port hres hport.symm,
      fun hres hport => ?_⟩
    split
    · rename_i hnone
      exact decodeFormat_noCell hres hport.symm ((assemble_eq_none_iff hf hop).2 hnone)
    · rename_i hsome
      obtain ⟨i, hi⟩ := Option.ne_none_iff_exists'.1 (mt (assemble_eq_none_iff hf hop).1 hsome)
      exact ⟨i, decodeFormat_accept hres hport.symm hi⟩

end Sys2Proof
end

section
/-! SUPPORT. The frequency ramp (40_oscillator.md R149) and `wrap` piece by piece (R153). -/

namespace Sys2Proof.Machine

theorem Ramp.next_of_done {r : Ramp} (h : r.rem = 0) : r.next = r := by
  simp [Ramp.next, h]

theorem Ramp.next_of_last {r : Ramp} (h : r.rem = 1) : r.next = { r with rem := 0, cur := r.tgt } := by
  simp [Ramp.next, h]

theorem Ramp.next_of_running {r : Ramp} (h : 1 < r.rem.toNat) :
    r.next = { r with rem := r.rem - 1, cur := fadd r.cur r.step } := by
  have h0 : r.rem ≠ 0 := by bv_omega
  have h1 : r.rem - 1 ≠ 0 := by bv_omega
  rw [Ramp.next, if_neg h0, if_neg h1]

/-- A call before the last one leaves the target and the rest of the way to the calls after it. -/
theorem Ramp.iterate_next (n : Nat) (r : Ramp) (h : r.rem.toNat = n + 1) :
    Ramp.next^[n + 1] r = { r with rem := 0, cur := r.tgt } := by
  induction n generalizing r with
  | zero => exact Ramp.next_of_last (BitVec.eq_of_toNat_eq h)
  | succ n ih =>
    have hrem : (r.rem - 1).toNat = n + 1 := by bv_omega
    rw [Function.iterate_succ_apply, Ramp.next_of_running (by omega), ih _ hrem]

/-- Settles O46: the calls before the last only add the step, and the last one assigns the target. -/
theorem rampLandsOnTarget : Obligations.RampLandsOnTarget := by
  refine ⟨fun _ => Ramp.next_of_done, fun _ => Ramp.next_of_last, fun _ => Ramp.next_of_running, fun r h => ?_, fun r t => ?_⟩
  · obtain ⟨n, hn⟩ : ∃ n, r.rem.toNat = n + 1 := Nat.exists_eq_add_one.2 (by bv_omega)
    rw [hn, Ramp.iterate_next n r hn]
  · rw [Ramp.next_of_last (r := Ramp.retarget 1 t r) rfl]
    rfl

theorem fge_eq_false_of_flt {a b : Num32} (h : flt a b = true) : fge a b = false :=
  Bool.eq_false_iff.2 fun hge => not_flt_of_fle hge h

theorem wrap_of_nonneg {x : Num32} (h : flt (fmod x Num32.twoPi) 0#32 = false)
    (hlt : flt (fmod x Num32.twoPi) Num32.twoPi = true) : wrap x = fmod x Num32.twoPi := by
  simp [wrap, h, fge_eq_false_of_flt hlt]

theorem wrap_of_neg {x : Num32} (h : flt (fmod x Num32.twoPi) 0#32 = true)
    (hlt : flt (fadd (fmod x Num32.twoPi) Num32.twoPi) Num32.twoPi = true) :
    wrap x = fadd (fmod x Num32.twoPi) Num32.twoPi := by
  simp [wrap, h, fge_eq_false_of_flt hlt]

/-- The sum of a remainder just below 0 and `TWO_PI` can round up to `TWO_PI`. -/
theorem wrap_of_neg_rounded_up {x : Num32} (h : flt (fmod x Num32.twoPi) 0#32 = true)
    (hge : fge (fadd (fmod x Num32.twoPi) Num32.twoPi) Num32.twoPi = true) :
    wrap x = fsub (fadd (fmod x Num32.twoPi) Num32.twoPi) Num32.twoPi := by
  simp [wrap, h, hge]

theorem isNaN_wrap_iff (x : Num32) : isNaN (wrap x) = true ↔ isFinite x = false := by
  refine ⟨fun hn => Bool.eq_false_iff.2 fun hx => ?_, wrap_of_not_finite⟩
  rw [(wrap_of_finite hx).1] at hn
  cases hn

/-- Settles O47: the remainder of a finite number lies between -TWO_PI and TWO_PI, so a remainder that is not negative needs no
correction. -/
theorem wrapRange : Obligations.WrapRange := by
  refine fun x => ⟨isNaN_wrap_iff x, fun hx => ?_⟩
  obtain ⟨hnan, h0, hlt⟩ := wrap_of_finite hx
  obtain ⟨hfin, _, hr⟩ := fmod_twoPi hx
  exact ⟨fge_iff_value.2 ⟨rfl, hnan, h0⟩, flt_iff_value.2 ⟨hnan, rfl, hlt⟩,
    fun hnonneg => wrap_of_nonneg hnonneg (flt_iff_value.2 ⟨isNaN_of_isFinite hfin, rfl, hr⟩),
    wrap_of_neg, wrap_of_neg_rounded_up⟩

end Sys2Proof.Machine
end

section
/-! SUPPORT. A NaN in either operand, and the neutral operands 0 and 1 (00_scope.md R12). -/

namespace Sys2Proof.Machine

theorem isNaN_fmul_left {a : Num32} (b : Num32) (h : isNaN a = true) : isNaN (fmul a b) = true := by
  simp [fmul, h]

theorem isNaN_fmul_right (a : Num32) {b : Num32} (h : isNaN b = true) : isNaN (fmul a b) = true := by
  simp [fmul, h]

theorem isNaN_fsub_right (a : Num32) {b : Num32} (h : isNaN b = true) : isNaN (fsub a b) = true := by
  simp [fsub, addWith, isNaN_fneg, h]

theorem isNaN_fdiv_left {a : Num32} (b : Num32) (h : isNaN a = true) : isNaN (fdiv a b) = true := by
  simp [fdiv, h]

theorem fmag_fabs (x : Num32) : fmag (fabs x) = fmag x := by
  unfold fmag fabs
  rw [BitVec.toNat_and, show (0x7FFFFFFF#32).toNat = 2 ^ 31 - 1 from rfl, Nat.and_two_pow_sub_one_eq_mod]
  exact Nat.mod_mod _ _

theorem isNaN_fabs (x : Num32) : isNaN (fabs x) = isNaN x := by
  unfold isNaN
  rw [fmag_fabs]

theorem flt_of_isNaN_left {a : Num32} (b : Num32) (h : isNaN a = true) : flt a b = false := by
  simp [flt, h]

theorem flt_of_isNaN_right (a : Num32) {b : Num32} (h : isNaN b = true) : flt a b = false := by
  simp [flt, h]

theorem isFinite_of_isZero {x : Num32} (h : isZero x = true) : isFinite x = true := by
  have hmag : fmag x = 0 := beq_iff_eq.1 h
  simp [isFinite, hmag]

/-- The sum of two zeros is a zero. -/
theorem isZero_fadd {a b : Num32} (ha : isZero a = true) (hb : isZero b = true) : isZero (fadd a b) = true := by
  have hsum : value a + value b = 0 := by rw [value_eq_zero_iff.2 ha, value_eq_zero_iff.2 hb, add_zero]
  rw [fadd, addWith_of_finite _ (isFinite_of_isZero ha) (isFinite_of_isZero hb), if_pos hsum, isZero,
    fmag_fpack (by decide)]
  rfl

theorem libExp2_of_isZero {x : Num32} (h : isZero x = true) : libExp2 x = Num32.one :=
  libExp2_of_integer (k := 0) (isFinite_of_isZero h) (by rw [value_eq_zero_iff.2 h, zero_mul]) (by decide) (by decide)

/-- Cutting all the bits that a factor 2^k added gives the number back. -/
theorem roundMag_units_mul_pow {m : Nat} (h : m < 0x7F800000) (k : Nat) : roundMag (unitsOfMag m * 2 ^ k) k = m := by
  rw [roundMag_eq, (nearest_roundPlace (unitsOfMag m * 2 ^ k) k).eq_of_exact (Nat.two_pow_pos k)]
  omega

theorem fmul_one {x : Num32} (h : isNaN x = false) : fmul x Num32.one = x := by
  obtain rfl | rfl | hx := number_cases h
  · decide
  · decide
  · have hone : units Num32.one = 2 ^ 149 := unitsOfMag_one
    rw [fmul_of_finite hx rfl, hone, units, roundMag_units_mul_pow (fmag_lt_of_isFinite hx),
      show fneg? Num32.one = false from rfl, Bool.bne_false, fpack_fneg?_fmag]

/-- Settles O54: the exponent is a zero, `NUM.exp2` of a zero is 1, and 1 is neutral. -/
theorem frequencyLawNeutral : Obligations.FrequencyLawNeutral := by
  intro base dm detune depth input h1 h2
  have hexp : hw.num.exp2 (fadd (fmul dm detune) (fmul depth input)) = Num32.one := libExp2_of_isZero (isZero_fadd h1 h2)
  have hlaw : hw.freqLaw base dm detune depth input = fmul base Num32.one := congrArg (fmul base) hexp
  rw [hlaw]
  exact ⟨fmul_one, isNaN_fmul_left _⟩

end Sys2Proof.Machine
end

section
/-! SUPPORT. An oscillator's sample (40_oscillator.md R150 to R156): the waveform chosen, the kernel `blep` piece by piece, and what a
NaN phase gives. -/

namespace Sys2Proof.Machine

/-! `wsel`. -/

theorem wsel_triangle {x : Num32} (h : isNaN x = true ∨ flt x Num32.half = true) : wsel x = .triangle := by
  rw [wsel, if_pos (Bool.or_eq_true_iff.2 h)]

/-- A number from 0.5 on is no triangle. -/
theorem wsel_of_fge_half {x : Num32} (h : fge x Num32.half = true) :
    wsel x = if flt x Num32.oneAndHalf then .saw else .square := by
  obtain ⟨_, hx, _⟩ := fle_iff.1 h
  have hlt : flt x Num32.half = false := Bool.eq_false_iff.2 (not_flt_of_fle h)
  simp [wsel, hx, hlt]

theorem wsel_saw {x : Num32} (h1 : fge x Num32.half = true) (h2 : flt x Num32.oneAndHalf = true) : wsel x = .saw := by
  rw [wsel_of_fge_half h1, if_pos h2]

theorem wsel_square {x : Num32} (h : fge x Num32.oneAndHalf = true) : wsel x = .square := by
  rw [wsel_of_fge_half (fle_trans (by decide) h), if_neg (not_flt_of_fle h)]

theorem wsel_ne_square {x : Num32} (h : isNaN x = true ∨ flt x Num32.oneAndHalf = true) : wsel x ≠ .square := by
  unfold wsel
  split
  · decide
  · rename_i hx
    obtain hn | hlt := h
    · simp [hn] at hx
    · simp [hlt]

/-! `blep`. -/

theorem blep_first {t dt : Num32} (h : flt t dt = true) :
    blep t dt = fsub (fsub (fadd (fdiv t dt) (fdiv t dt)) (fmul (fdiv t dt) (fdiv t dt))) Num32.one := by
  simp [blep, h]

theorem blep_last {t dt : Num32} (h1 : flt t dt = false) (h2 : fgt t (fsub Num32.one dt) = true) :
    blep t dt = fadd (fadd (fadd (fmul (fdiv (fsub t Num32.one) dt) (fdiv (fsub t Num32.one) dt))
      (fdiv (fsub t Num32.one) dt)) (fdiv (fsub t Num32.one) dt)) Num32.one := by
  simp [blep, h1, h2]

theorem blep_between {t dt : Num32} (h1 : flt t dt = false) (h2 : fgt t (fsub Num32.one dt) = false) :
    blep t dt = 0#32 := by
  simp [blep, h1, h2]

/-- `1 - dt` is at least 1 for a zero or negative `dt`, minus infinity included. -/
theorem one_le_one_sub {dt : Num32} (h : fle dt 0#32 = true) : fle Num32.one (fsub Num32.one dt) = true := by
  obtain ⟨hdt, _, hle⟩ := fle_iff_value.1 h
  obtain rfl | rfl | hfin := number_cases hdt
  · decide
  · exact absurd h (by decide)
  · obtain ⟨hnan, hround⟩ := rounded_fsub (a := Num32.one) rfl hfin
    have hzero : value 0#32 = 0 := value_zero
    exact fle_iff_value.2 ⟨rfl, hnan, (hround Num32.one rfl).2 (by omega)⟩

/-- No edge is near: a phase of [0, 1) is not below such an increment, and not above 1 minus it. -/
theorem blep_of_nonpos {t dt : Num32} (h0 : fge t 0#32 = true) (h1 : flt t Num32.one = true) (hdt : fle dt 0#32 = true) :
    blep t dt = 0#32 := by
  have hfirst : ¬ flt t dt = true := not_flt_of_fle (fle_trans hdt h0)
  obtain ⟨ht, _, _⟩ := flt_iff.1 h1
  have hlt : fle t Num32.one = true := fle_iff.2 ⟨ht, rfl, (flt_iff.1 h1).2.2.le⟩
  have hlast : ¬ fgt t (fsub Num32.one dt) = true := not_flt_of_fle (fle_trans hlt (one_le_one_sub hdt))
  exact blep_between (Bool.eq_false_iff.2 hfirst) (Bool.eq_false_iff.2 hlast)

theorem blep_of_isNaN {t dt : Num32} (h : isNaN t = true ∨ isNaN dt = true) : blep t dt = 0#32 := by
  obtain h | h := h
  · exact blep_between (flt_of_isNaN_left _ h) (flt_of_isNaN_right _ h)
  · exact blep_between (flt_of_isNaN_right _ h) (flt_of_isNaN_left _ (isNaN_fsub_right _ h))

/-! The waveforms of a NaN phase. -/

theorem isNaN_waveTriangle {t : Num32} (h : isNaN t = true) : isNaN (waveTriangle t) = true := by
  have habs : isNaN (fabs (fsub (fmul Num32.two t) Num32.one)) = true := by
    rw [isNaN_fabs]
    exact isNaN_fsub_left _ (isNaN_fmul_right _ h)
  exact isNaN_fsub_left _ (isNaN_fmul_right _ habs)

theorem isNaN_waveSaw (aa : Bool) {t : Num32} (dt : Num32) (h : isNaN t = true) : isNaN (waveSaw aa t dt) = true := by
  have hsaw : isNaN (fsub (fmul Num32.two t) Num32.one) = true := isNaN_fsub_left _ (isNaN_fmul_right _ h)
  unfold waveSaw
  dsimp only
  split
  · exact isNaN_fsub_left _ hsaw
  · exact hsaw

/-- With antialiasing the naive term carries the NaN (log entry 27). -/
theorem isNaN_waveSquare {phase : Num32} (t dt : Num32) (h : isNaN phase = true) :
    isNaN (waveSquare true phase t dt) = true := by
  simp [waveSquare, h, isNaN_fsub_left, isNaN_fadd_left]

theorem waveSquare_of_isNaN {phase : Num32} (t dt : Num32) (h : isNaN phase = true) :
    waveSquare false phase t dt = Num32.negOne := by
  simp [waveSquare, flt_of_isNaN_left _ h]

theorem waveSquare_of_number (aa : Bool) {phase : Num32} (t dt : Num32) (h : isNaN phase = false) :
    waveSquare aa phase t dt =
      if aa then fsub (fadd (if flt phase Num32.pi then Num32.one else Num32.negOne) (blep t dt))
        (blep (fmod (fadd t Num32.half) Num32.one) dt)
      else if flt phase Num32.pi then Num32.one else Num32.negOne := by
  simp [waveSquare, h]

/-- A NaN phase gives a NaN, except in the square without antialiasing. -/
theorem isNaN_wave {w : Waveform} {aa : Bool} {phase t : Num32} (dt : Num32) (hp : isNaN phase = true) (ht : isNaN t = true)
    (h : aa = true ∨ w ≠ .square) : isNaN (wave w aa phase t dt) = true := by
  cases w with
  | triangle => exact isNaN_waveTriangle ht
  | saw => exact isNaN_waveSaw aa dt ht
  | square =>
    obtain rfl | h := h
    · exact isNaN_waveSquare t dt hp
    · exact absurd rfl h

/-! `spread`. -/

theorem spread_mono (panspread pm x : Num32) (ch : Nat) : spread 1 panspread pm x ch = x := rfl

theorem spread_left (panspread pm x : Num32) :
    let p := clamp (fmul panspread pm) Num32.negOne Num32.one
    spread 2 panspread pm x 0 = if fgt p 0#32 then fmul x (fsub Num32.one p) else x := by
  simp [spread]

theorem spread_right (panspread pm x : Num32) :
    let p := clamp (fmul panspread pm) Num32.negOne Num32.one
    spread 2 panspread pm x 1 = if flt p 0#32 then fmul x (fadd Num32.one p) else x := by
  simp [spread]

/-- The sample of an oscillator whose waveform is known, at the phase before the advance. -/
theorem oscSample_fst {s : State} {w : Waveform} (o : Osc) (h : wsel s.par.osc.waveform = w) :
    (oscSample s o).1 = wave w (flag s.par.osc.antialias) o.phase (fdiv o.phase Num32.twoPi)
      (fdiv (fdiv (fmul Num32.twoPi o.ramp.next.cur) s.fs) Num32.twoPi) := by
  rw [← h]
  rfl

/-- Settles O55: `wsel` picks the waveform, and each function of the oscillator is given piece by piece. -/
theorem oscillatorSample : Obligations.OscillatorSample := by
  refine ⟨fun s o => ⟨rfl, fun hx => ?_, fun h1 h2 => ?_, fun hx hp => ?_, fun hx hp haa => ?_, fun hp hx => ?_⟩,
    fun _ _ => blep_first, fun _ _ => blep_last, fun _ _ => blep_between, fun _ _ => blep_of_nonpos,
    fun _ _ => blep_of_isNaN, spread_mono, fun ps pm x => ⟨spread_left ps pm x, spread_right ps pm x⟩⟩
  · exact oscSample_fst o (wsel_triangle hx)
  · exact oscSample_fst o (wsel_saw h1 h2)
  · exact (oscSample_fst o (wsel_square hx)).trans (waveSquare_of_number _ _ _ hp)
  · have haa : flag s.par.osc.antialias = false := haa
    rw [oscSample_fst o (wsel_square hx), haa, wave, waveSquare_of_isNaN _ _ hp]
  · rw [oscSample_fst o rfl]
    exact isNaN_wave _ hp (isNaN_fdiv_left _ hp) (hx.imp_right wsel_ne_square)

end Sys2Proof.Machine
end

section
/-! SUPPORT. One tick of the envelope from each state, and its other operations (41_envelope.md R176 to R185). -/

namespace Sys2Proof.Machine

theorem fle_of_flt {a b : Num32} (h : flt a b = true) : fle a b = true := by
  obtain ⟨ha, hb, hlt⟩ := flt_iff.1 h
  exact fle_iff.2 ⟨ha, hb, hlt.le⟩

theorem flt_eq_false_of_not_fle {a b : Num32} (h : ¬ fle a b = true) : flt a b = false :=
  Bool.eq_false_iff.2 fun hlt => h (fle_of_flt hlt)

theorem flt_eq_false_of_fle {a b : Num32} (h : fle b a = true) : flt a b = false :=
  Bool.eq_false_iff.2 (not_flt_of_fle h)

theorem unitLevel_le_one (v : Num32) : fle (unitLevel v) Num32.one = true := by
  obtain ⟨hnan, _, h1⟩ := inUnit_iff.1 (inUnit_unitLevel v)
  exact fle_iff_value.2 ⟨hnan, rfl, h1⟩

theorem Env.gate_off_of_idle {e : Env} (h : e.st = .idle) : e.gate false = e := by
  simp [Env.gate, h]

theorem Env.gate_off_of_ne_idle {e : Env} (h : e.st ≠ .idle) : e.gate false = { e with st := .release } := by
  simp [Env.gate, h]

section Tick

variable (capped : Bool) (d : Derived) (m : EnvMaster) {e : Env}

theorem Env.tick_of_idle (h : e.st = .idle) : e.tick capped d m = e := by
  rw [Env.tick, h]

theorem Env.tick_of_attack (h : e.st = .attack) :
    let x := fadd d.attackBase (fmul e.out d.attackCoef)
    e.tick capped d m = if fge x Num32.one then ⟨Num32.one, .decay⟩ else ⟨x, .attack⟩ := by
  obtain ⟨out, _⟩ := e
  subst h
  rfl

/-- The limit leaves the sustain level as it is. -/
theorem Env.tick_of_decay (h : e.st = .decay) :
    let s := unitLevel m.sustain
    let x := fadd d.decayBase (fmul e.out d.decayCoef)
    e.tick capped d m = if fle x s then ⟨s, .sustain⟩
      else ⟨if capped = true ∧ fgt x Num32.one = true then Num32.one else x, .decay⟩ := by
  obtain ⟨out, _⟩ := e
  subst h
  simp only [Env.tick, Env.decayStep]
  split
  · have hs : fgt (unitLevel m.sustain) Num32.one = false := flt_eq_false_of_fle (unitLevel_le_one m.sustain)
    simp [Env.limit, hs]
  · simp only [Env.limit, Bool.and_eq_true]
    split <;> rfl

theorem Env.tick_of_sustain (h : e.st = .sustain) :
    e.tick capped d m = ⟨unitLevel m.sustain, if flag m.mode then .release else .sustain⟩ := by
  obtain ⟨out, _⟩ := e
  subst h
  rfl

theorem Env.tick_of_release (h : e.st = .release) :
    let x := fadd d.releaseBase (fmul e.out d.releaseCoef)
    e.tick capped d m = if fle x Num32.zero then ⟨Num32.zero, .idle⟩ else ⟨x, .release⟩ := by
  obtain ⟨out, _⟩ := e
  subst h
  rfl

end Tick

/-- Settles O48: each clause is one operation, or the tick from one state. -/
theorem envelopeTransitions : Obligations.EnvelopeTransitions := fun capped d m _ =>
  ⟨rfl, rfl, fun h => ⟨Env.gate_off_of_idle h, Env.tick_of_idle capped d m h⟩, Env.gate_off_of_ne_idle,
    Env.tick_of_attack capped d m, Env.tick_of_decay capped d m, Env.tick_of_sustain capped d m,
    Env.tick_of_release capped d m⟩

end Sys2Proof.Machine
end

section
/-! SUPPORT. Rounding is monotone, and with it sum and product of finite operands (00_scope.md R12). -/

namespace Sys2Proof.Machine

/-- Of two targets in order, the nearest places are in order: a greater place for the smaller target would have both on one
midpoint, and the places even, so with a place between them that is nearer. -/
theorem Nearest.mono {p p' d t t' : Nat} (h : Nearest p d t) (h' : Nearest p' d t') (hd : 0 < d) (ht : t ≤ t') : p ≤ p' := by
  by_contra hlt
  obtain ⟨hdown, heven⟩ := (h p').2 (by omega)
  obtain ⟨hup, heven'⟩ := (h' p).1 (by omega)
  have hbetween := ((h (p' + 1)).2 (by omega)).1
  have := Nat.mul_lt_mul_of_pos_right (unitsOfMag_lt_succ p') hd
  rw [Nat.add_mul] at *
  omega

theorem roundMag_mono (k : Nat) {n n' : Nat} (h : n ≤ n') : roundMag n k ≤ roundMag n' k := by
  have := (nearest_roundPlace n k).mono (nearest_roundPlace n' k) (Nat.two_pow_pos k) h
  rw [roundMag_eq, roundMag_eq]
  omega

@[simp] theorem roundMag_zero (k : Nat) : roundMag 0 k = 0 := by
  simpa using roundMag_units_mul_pow (m := 0) (by decide) k

/-- `r` is `z` units of 2^-(149+k), rounded; a zero has either sign. -/
def RoundingOf (k : Nat) (z : Int) (r : Num32) : Prop :=
  ∃ (neg : Bool) (n : Nat), z = (if neg then -(n : Int) else n) ∧ r = fpack neg (roundMag n k)

theorem RoundingOf.mono {k : Nat} {z z' : Int} {r r' : Num32} (h : RoundingOf k z r) (h' : RoundingOf k z' r')
    (hz : z ≤ z') : value r ≤ value r' := by
  obtain ⟨neg, n, rfl, rfl⟩ := h
  obtain ⟨neg', n', rfl, rfl⟩ := h'
  have hmag := roundMag_le n k
  have hmag' := roundMag_le n' k
  rw [value_fpack (by omega), value_fpack (by omega)]
  cases neg <;> cases neg' <;> simp only [if_true, if_false, Bool.false_eq_true] at hz ⊢
  · have := unitsOfMag_strictMono.monotone (roundMag_mono k (show n ≤ n' by omega))
    omega
  · obtain ⟨rfl, rfl⟩ : n = 0 ∧ n' = 0 := by omega
    simp
  · omega
  · have := unitsOfMag_strictMono.monotone (roundMag_mono k (show n' ≤ n by omega))
    omega

theorem roundingOf_fadd {a b : Num32} (ha : isFinite a = true) (hb : isFinite b = true) :
    RoundingOf 0 (value a + value b) (fadd a b) := by
  rw [fadd, addWith_of_finite _ ha hb]
  generalize value a + value b = z
  split
  case isTrue h0 => exact ⟨fneg? a && fneg? b, 0, by simp [h0], by rw [roundMag_zero]⟩
  case isFalse => exact ⟨decide (z < 0), z.natAbs, by simp only [decide_eq_true_eq]; omega, rfl⟩

theorem roundingOf_fmul {a b : Num32} (ha : isFinite a = true) (hb : isFinite b = true) :
    RoundingOf 149 (value a * value b) (fmul a b) := by
  refine ⟨fneg? a != fneg? b, units a * units b, ?_, fmul_of_finite ha hb⟩
  unfold value
  cases fneg? a <;> cases fneg? b <;> simp

end Sys2Proof.Machine
end

section
/-! SUPPORT. The envelope's segments are monotone (41_envelope.md R186): one tick in a segment keeps the order of levels, so a
level that has once risen or fallen goes on so. -/

namespace Sys2Proof.Machine

section Level

variable {b c x y : Num32} (hc : inUnit c = true) (hx : inUnit x = true)

include hc hx

theorem value_fmul_mono_unit (hy : inUnit y = true) (h : value x ≤ value y) : value (fmul x c) ≤ value (fmul y c) :=
  (roundingOf_fmul (isFinite_of_inUnit hx) (isFinite_of_inUnit hc)).mono
    (roundingOf_fmul (isFinite_of_inUnit hy) (isFinite_of_inUnit hc))
    (Int.mul_le_mul_of_nonneg_right h (inUnit_iff.1 hc).2.1)

theorem value_fmul_le_left : value (fmul x c) ≤ value x := by
  obtain ⟨hxn, hx0, _⟩ := inUnit_iff.1 hx
  obtain ⟨_, _, hc1⟩ := inUnit_iff.1 hc
  have hone : value c ≤ value Num32.one := hc1.trans_eq value_one.symm
  have := (roundingOf_fmul (isFinite_of_inUnit hx) (isFinite_of_inUnit hc)).mono
    (roundingOf_fmul (isFinite_of_inUnit hx) (show isFinite Num32.one = true from rfl))
    (Int.mul_le_mul_of_nonneg_left hone hx0)
  rwa [fmul_one hxn] at this

/-- The next level of a segment, before it is compared with the segment's end, rises with the level. -/
theorem value_nextLevel_mono (hb : isNaN b = false) (hy : inUnit y = true) (h : value x ≤ value y) :
    value (fadd b (fmul x c)) ≤ value (fadd b (fmul y c)) := by
  have hp := isFinite_of_inUnit (fmul_unit hx hc).1
  have hq := isFinite_of_inUnit (fmul_unit hy hc).1
  by_cases hfin : isFinite b = true
  · exact (roundingOf_fadd hfin hp).mono (roundingOf_fadd hfin hq)
      (Int.add_le_add_left (value_fmul_mono_unit hc hx hy h) _)
  · -- an infinite base is the next level from every level
    have hinf : isInf b = true := by
      obtain rfl | rfl | h := number_cases hb
      · rfl
      · rfl
      · exact absurd h hfin
    simp [fadd, addWith, hb, hinf, isNaN_of_isFinite, isInf_of_isFinite, hp, hq]

end Level

/-- Of two numbers, if one is not at most the other, the other is the smaller one. -/
theorem value_lt_of_not_fle {a b : Num32} (ha : isNaN a = false) (hb : isNaN b = false) (h : ¬ fle a b = true) :
    value b < value a :=
  not_le.1 fun hle => h (fle_iff_value.2 ⟨ha, hb, hle⟩)

section Tick

variable (capped : Bool) {d : Derived} (m : EnvMaster) {e : Env} (hd : d.inRange = true) (he : inUnit e.out = true)

include hd he

/-- ATTACK gives the next level, but not above 1. -/
theorem Env.value_tick_attack (hst : e.st = .attack) :
    value (e.tick capped d m).out = min (value (fadd d.attackBase (fmul e.out d.attackCoef))) (2 ^ 149) := by
  obtain ⟨⟨hcoef, _, _⟩, ⟨hbase, _⟩, _, _⟩ := Derived.inRange_iff.1 hd
  have hnan := (rounded_fadd_unit hbase (fmul_unit he hcoef).1).1
  rw [Env.tick_of_attack capped d m hst, ← value_one]
  split
  case isTrue h => exact (min_eq_right (value_le_of_fle h)).symm
  case isFalse h => exact (min_eq_left (value_lt_of_not_fle rfl hnan h).le).symm

/-- DECAY gives the next level, but not below the sustain level, and in the reading of log entry 25 not above 1. -/
theorem Env.value_tick_decay (hst : e.st = .decay) :
    let x := max (value (unitLevel m.sustain)) (value (fadd d.decayBase (fmul e.out d.decayCoef)))
    isNaN (e.tick capped d m).out = false ∧
    value (e.tick capped d m).out = if capped then min x (2 ^ 149) else x := by
  obtain ⟨⟨_, hcoef, _⟩, _, hbase, _⟩ := Derived.inRange_iff.1 hd
  have hnan := (rounded_fadd_unit hbase (fmul_unit he hcoef).1).1
  obtain ⟨hs, _, hs1⟩ := inUnit_iff.1 (inUnit_unitLevel m.sustain)
  rw [Env.tick_of_decay capped d m hst, ← value_one] at *
  dsimp only
  split
  case isTrue h =>
    rw [max_eq_left (value_le_of_fle h), min_eq_left hs1, ite_self]
    exact ⟨hs, rfl⟩
  case isFalse h =>
    rw [max_eq_right (value_lt_of_not_fle hnan hs h).le]
    split
    case isTrue h =>
      obtain ⟨rfl, h1⟩ := h
      exact ⟨rfl, (min_eq_right (flt_iff_value.1 h1).2.2.le).symm⟩
    case isFalse h =>
      refine ⟨hnan, ?_⟩
      split
      case isTrue hc => exact (min_eq_left (not_lt.1 fun hlt => h ⟨hc, flt_iff_value.2 ⟨rfl, hnan, hlt⟩⟩)).symm
      case isFalse => rfl

theorem Env.tick_attack_mono {e' : Env} (he' : inUnit e'.out = true) (hst : e.st = .attack) (hst' : e'.st = .attack)
    (h : value e.out ≤ value e'.out) : value (e.tick capped d m).out ≤ value (e'.tick capped d m).out := by
  obtain ⟨⟨hcoef, _, _⟩, ⟨hbase, _⟩, _, _⟩ := Derived.inRange_iff.1 hd
  rw [Env.value_tick_attack capped m hd he hst, Env.value_tick_attack capped m hd he' hst']
  exact min_le_min_right _ (value_nextLevel_mono hcoef he hbase he' h)

theorem Env.tick_decay_mono {e' : Env} (he' : inUnit e'.out = true) (hst : e.st = .decay) (hst' : e'.st = .decay)
    (h : value e.out ≤ value e'.out) : value (e.tick capped d m).out ≤ value (e'.tick capped d m).out := by
  obtain ⟨⟨_, hcoef, _⟩, _, hbase, _⟩ := Derived.inRange_iff.1 hd
  have hmax := max_le_max_left (value (unitLevel m.sustain)) (value_nextLevel_mono hcoef he hbase he' h)
  rw [(Env.value_tick_decay capped m hd he hst).2, (Env.value_tick_decay capped m hd he' hst').2]
  split
  · exact min_le_min_right _ hmax
  · exact hmax

/-- RELEASE does not raise the level: the factor is not above 1 and the base is not above 0. -/
theorem Env.tick_release_le (hst : e.st = .release) : value (e.tick capped d m).out ≤ value e.out := by
  obtain ⟨⟨_, _, hcoef⟩, _, _, hbase, hbase0⟩ := Derived.inRange_iff.1 hd
  obtain ⟨hnan, h0, _⟩ := inUnit_iff.1 he
  have hprod := value_fmul_le_left hcoef he
  have hnext := ((rounded_fadd_unit hbase (fmul_unit he hcoef).1).2 e.out hnan).1 (by omega)
  rw [Env.tick_of_release capped d m hst]
  split
  · exact h0
  · exact hnext

end Tick

/-! On which side of its segment's end the level is, whatever the cells. -/

section Side

variable (capped : Bool) (d : Derived) (m : EnvMaster) {e : Env}

theorem Env.tick_attack_not_above_one (hst : e.st = .attack) : fgt (e.tick capped d m).out Num32.one = false := by
  rw [Env.tick_of_attack capped d m hst]
  split
  · rfl
  case isFalse h => exact flt_eq_false_of_not_fle h

theorem Env.tick_decay_not_below_sustain (hst : e.st = .decay) :
    flt (e.tick capped d m).out (unitLevel m.sustain) = false := by
  have hs1 := unitLevel_le_one m.sustain
  rw [Env.tick_of_decay capped d m hst]
  split
  · exact flt_eq_false_of_fle (fle_refl (fle_iff.1 hs1).1)
  case isFalse h =>
    dsimp only
    split
    · exact flt_eq_false_of_fle hs1
    · exact flt_eq_false_of_not_fle h

theorem Env.tick_release_not_below_zero (hst : e.st = .release) : flt (e.tick capped d m).out Num32.zero = false := by
  rw [Env.tick_of_release capped d m hst]
  split
  · rfl
  case isFalse h => exact flt_eq_false_of_not_fle h

end Side

/-- The order of levels of [0, 1] is that of their values. -/
theorem fle_of_inUnit {x y : Num32} (hx : inUnit x = true) (hy : inUnit y = true) (h : value x ≤ value y) :
    fle x y = true :=
  fle_iff_value.2 ⟨(inUnit_iff.1 hx).1, (inUnit_iff.1 hy).1, h⟩

theorem Env.tick_sustain_inUnit (capped : Bool) (d : Derived) (m : EnvMaster) {e : Env} (hst : e.st = .sustain) :
    inUnit (e.tick capped d m).out = true := by
  rw [Env.tick_of_sustain capped d m hst]
  exact inUnit_unitLevel m.sustain

/-- Only DECAY can pass the range of a level, so outside it the limit is not needed. -/
theorem Env.tick_inUnit_of_ne_decay (capped : Bool) {d : Derived} (m : EnvMaster) {e : Env} (hd : d.inRange = true)
    (he : inUnit e.out = true) (hst : e.st ≠ .decay) : inUnit (e.tick capped d m).out = true := by
  have hcap : e.tick capped d m = e.tick true d m := by
    obtain ⟨out, st⟩ := e
    cases st
    case decay => exact absurd rfl hst
    all_goals rfl
  rw [hcap]
  exact Env.tick_inUnit m hd (.inl rfl) he

/-- A tick in DECAY that does not raise the level leaves a level of [0, 1], torn cells or not. -/
theorem Env.tick_decay_inUnit_of_le {capped : Bool} {d : Derived} {m : EnvMaster} {e : Env} (hd : d.inRange = true)
    (he : inUnit e.out = true) (hst : e.st = .decay) (h : value (e.tick capped d m).out ≤ value e.out) :
    inUnit (e.tick capped d m).out = true := by
  obtain ⟨hnan, hval⟩ := Env.value_tick_decay capped m hd he hst
  obtain ⟨_, hs0, _⟩ := inUnit_iff.1 (inUnit_unitLevel m.sustain)
  have h0 : 0 ≤ value (e.tick capped d m).out := by
    rw [hval]
    split <;> omega
  exact inUnit_iff.2 ⟨hnan, h0, h.trans (inUnit_iff.1 he).2.2⟩

/-- Settles O49: a segment's two ends bound its level, and one tick in a segment keeps the order of levels, so the second tick
moves the level the way the first one did. -/
theorem envelopeLevelClamped : Obligations.EnvelopeLevelClamped := by
  intro capped d m e t
  refine ⟨⟨Env.tick_attack_not_above_one capped d m, Env.tick_decay_not_below_sustain capped d m,
    fun hst => Bool.and_eq_true_iff.1 (Env.tick_sustain_inUnit capped d m hst), Env.tick_release_not_below_zero capped d m⟩,
    fun hd he => ⟨fun hst => ?release, fun hst hzero => ?attackFromZero, fun hst hst' hle => ?attack,
      fun hst hfits hone => ?decayFromOne, fun hst hst' hle => ?decay⟩⟩
  case release =>
    have ht : inUnit (t e).out = true := Env.tick_inUnit_of_ne_decay capped m hd he (by simp [hst])
    exact fle_of_inUnit ht he (Env.tick_release_le capped m hd he hst)
  case attackFromZero =>
    have ht : inUnit (t e).out = true := Env.tick_inUnit_of_ne_decay capped m hd he (by simp [hst])
    exact fle_of_inUnit he ht ((value_eq_zero_iff.2 hzero).trans_le (inUnit_iff.1 ht).2.1)
  case attack =>
    have ht : inUnit (t e).out = true := Env.tick_inUnit_of_ne_decay capped m hd he (by simp [hst])
    have htt : inUnit (t (t e)).out = true := Env.tick_inUnit_of_ne_decay capped m hd ht (by simp [hst'])
    exact fle_of_inUnit ht htt (Env.tick_attack_mono capped m hd he ht hst hst' (value_le_of_fle hle))
  case decayFromOne =>
    have ht : inUnit (t e).out = true := Env.tick_inUnit m hd (.inr hfits) he
    refine fle_of_inUnit ht he ((inUnit_iff.1 ht).2.2.trans_eq ?_)
    rw [hone, value_one]
  case decay =>
    have hle := value_le_of_fle hle
    have ht : inUnit (t e).out = true := Env.tick_decay_inUnit_of_le hd he hst hle
    have hfall := Env.tick_decay_mono capped m hd ht he hst' hst hle
    exact fle_of_inUnit (Env.tick_decay_inUnit_of_le hd ht hst' hfall) ht hfall

end Sys2Proof.Machine
end

section
/-! SUPPORT. Silence of the stand-in kernel (42_filter.md R206, R208): its coefficients are finite for every cutoff and resonance, and
finite multiples of zeros are zeros. -/

namespace Sys2Proof.Machine

/-! Zeros. -/

/-- The difference of two zeros is a zero. -/
theorem isZero_fsub {a b : Num32} (ha : isZero a = true) (hb : isZero b = true) : isZero (fsub a b) = true := by
  have hsum : value a + value (fneg b) = 0 := by
    rw [value_fneg, value_eq_zero_iff.2 ha, value_eq_zero_iff.2 hb, neg_zero, add_zero]
  rw [fsub, addWith_of_finite _ (isFinite_of_isZero ha) ((isFinite_fneg b).trans (isFinite_of_isZero hb)), if_pos hsum,
    isZero, fmag_fpack (by decide)]
  rfl

/-- A finite multiple of a zero is a zero. -/
theorem isZero_fmul_right {a b : Num32} (ha : isFinite a = true) (hb : isZero b = true) : isZero (fmul a b) = true := by
  have hunits : units b = 0 := by rw [← natAbs_value, value_eq_zero_iff.2 hb, Int.natAbs_zero]
  rw [fmul_of_finite ha (isFinite_of_isZero hb), hunits, Nat.mul_zero, roundMag_zero, isZero, fmag_fpack (by decide)]
  rfl

/-! The coefficients. -/

/-- Twice a positive number, unless it overflows, is positive, and the number finite. -/
theorem positive_of_isFinite_double {x : Num32} (hpos : fgt x Num32.zero = true)
    (hfin : isFinite (fmul Num32.two x) = true) :
    isFinite x = true ∧ 0 < value x ∧ 0 < value (fmul Num32.two x) := by
  obtain ⟨_, hnan, h0⟩ := flt_iff_value.1 hpos
  rw [value_zero] at h0
  have htwo : value Num32.two = 2 ^ 150 := by decide +kernel
  have hx : isFinite x = true := by
    obtain rfl | rfl | hx := number_cases hnan
    · exact absurd h0 (by decide +kernel)
    · exact absurd hfin (by decide +kernel)
    · exact hx
  have hge := ((rounded_fmul (show isFinite Num32.two = true from rfl) hx).2 x hnan).2
  rw [htwo] at hge
  exact ⟨hx, h0, h0.trans_le (hge (by omega))⟩

/-- `FILT_REF`'s limit on the cutoff (42_filter.md R209) makes every cutoff a finite number that is not negative. -/
theorem limitedCutoff (fc : Num32) {fsr : Num32} (hfin : isFinite fsr = true) (h0 : 0 < value fsr) :
    isFinite (clamp fc Num32.zero (fmul Num32.n045 fsr)) = true ∧
      0 ≤ value (clamp fc Num32.zero (fmul Num32.n045 fsr)) := by
  have hn045 : value Num32.n045 = 15099494 * 2 ^ 124 := by decide +kernel
  have hmax := units_lt_of_isFinite hfin
  rw [← natAbs_value] at hmax
  obtain ⟨hnan, hround⟩ := rounded_fmul (show isFinite Num32.n045 = true from rfl) hfin
  have hge := (hround Num32.zero rfl).2
  have hle := (hround fsr (isNaN_of_isFinite hfin)).1
  rw [hn045] at hge hle
  rw [value_zero] at hge
  have hge := hge (by omega)
  have hle := hle (by omega)
  have hrange : fle Num32.zero (fmul Num32.n045 fsr) = true := fle_iff_value.2 ⟨rfl, hnan, hge⟩
  obtain ⟨hcnan, hclo, hchi⟩ := clamp_bounds fc hrange
  rw [value_zero] at hclo
  exact ⟨isFinite_of_value hcnan (by omega) (by omega), hclo⟩

/-- A number that is not positive, `-inf` included, by a finite positive one: a number that is not positive. -/
theorem fdiv_nonpos_of_isFinite {a b : Num32} (ha : isNaN a = false) (ha0 : value a ≤ 0) (hb : isFinite b = true)
    (hb0 : 0 < value b) : isNaN (fdiv a b) = false ∧ value (fdiv a b) ≤ 0 := by
  obtain rfl | rfl | ha := number_cases ha
  · have e : fdiv Num32.negInf b = fpack (fneg? Num32.negInf != fneg? b) 0x7F800000 := by
      simp [fdiv, isNaN_of_isFinite hb, isInf_of_isFinite hb, show isNaN Num32.negInf = false from rfl,
        show isInf Num32.negInf = true from rfl, show isZero Num32.negInf = false from rfl]
    rw [e, (units_of_value_pos hb0).1]
    exact ⟨rfl, ha0⟩
  · exact absurd ha0 (by decide +kernel)
  · exact fdiv_nonpos ha ha0 (isNaN_of_isFinite hb) hb0

/-- The one-pole coefficient is a number of [0, 1] for every cutoff, NaN and infinities included: 1 less `exp` of a number that is
not positive. -/
theorem inUnit_ladderG (fc : Num32) {fsr : Num32} (hpos : fgt fsr Num32.zero = true)
    (hfin : isFinite (fmul Num32.two fsr) = true) : inUnit (ladderG numLib 2 fc fsr) = true := by
  obtain ⟨hfsr, hfsr0, hden0⟩ := positive_of_isFinite_double hpos hfin
  obtain ⟨hcut, hcut0⟩ := limitedCutoff fc hfsr hfsr0
  have hnegTwoPi : value (fneg Num32.twoPi) = -(13176795 * 2 ^ 128) := by decide +kernel
  obtain ⟨hnum, hround⟩ := rounded_fmul (show isFinite (fneg Num32.twoPi) = true from rfl) hcut
  have hnum0 := (hround Num32.zero rfl).1
  rw [hnegTwoPi, value_zero] at hnum0
  obtain ⟨hq, hq0⟩ := fdiv_nonpos_of_isFinite hnum (hnum0 (by omega)) hfin hden0
  have htwo : intToNum 2 = Num32.two := by decide +kernel
  unfold ladderG
  rw [htwo]
  exact inUnit_one_sub (inUnit_exp hq hq0)

/-- The feedback amount is finite for every resonance, NaN and infinities included: at most 4. -/
theorem isFinite_ladderK (res : Num32) : isFinite (ladderK res) = true := by
  obtain ⟨_, hu0, hu1⟩ := inUnit_iff.1 (inUnit_unitLevel res)
  have hfour : value Num32.four = 2 ^ 151 := by decide +kernel
  unfold ladderK
  obtain ⟨hnan, hround⟩ :=
    rounded_fmul (show isFinite Num32.four = true from rfl) (isFinite_of_inUnit (inUnit_unitLevel res))
  have hge := (hround Num32.zero rfl).2
  have hle := (hround Num32.four rfl).1
  rw [hfour] at hge hle
  rw [value_zero] at hge
  have hge := hge (by omega)
  have hle := hle (by omega)
  exact isFinite_of_value hnan (by omega) (by omega)

/-! The ladder. -/

/-- A history of zeros, of either sign. -/
def Ladder.Silent (h : Ladder) : Prop :=
  isZero h.s0 = true ∧ isZero h.s1 = true ∧ isZero h.s2 = true ∧ isZero h.s3 = true

/-- One pole, `s + g (u - s)`, of a zero state and a zero input. -/
theorem isZero_pole {g u s : Num32} (hg : isFinite g = true) (hu : isZero u = true) (hs : isZero s = true) :
    isZero (fadd s (fmul g (fsub u s))) = true :=
  isZero_fadd hs (isZero_fmul_right hg (isZero_fsub hu hs))

section Ladder

variable {x g k : Num32} (hx : isZero x = true) (hg : isFinite g = true) (hk : isFinite k = true)
include hx hg hk

/-- Each stage's input is a zero: the sample less the feedback, and then the stage before it. -/
theorem Ladder.Silent.iteration {h : Ladder} (hh : h.Silent) : (ladderIteration x g k h).Silent := by
  obtain ⟨h0, h1, h2, h3⟩ := hh
  have s0 := isZero_pole hg (isZero_fsub hx (isZero_fmul_right hk h3)) h0
  have s1 := isZero_pole hg s0 h1
  have s2 := isZero_pole hg s1 h2
  have s3 := isZero_pole hg s2 h3
  exact ⟨s0, s1, s2, s3⟩

theorem Ladder.Silent.run (n : Nat) {h : Ladder} (hh : h.Silent) : (ladderRun x g k n h).Silent := by
  induction n generalizing h with
  | zero => exact hh
  | succ n ih => exact ih (hh.iteration hx hg hk)

end Ladder

/-- This hardware's kernel keeps a silent history silent on a zero sample; the history's last number is the output. -/
theorem Ladder.Silent.step {h : Ladder} (hh : h.Silent) {z fsr : Num32} (fc res : Num32) (hz : isZero z = true)
    (hpos : fgt fsr Num32.zero = true) (hfin : isFinite (fmul Num32.two fsr) = true) :
    ((filtRef numLib 2).step h z fc res fsr).1.Silent :=
  hh.run hz (isFinite_of_inUnit (inUnit_ladderG fc hpos hfin)) (isFinite_ladderK res) 2

/-! Any kernel. -/

/-- The words are those of a silent state, as the kernel reads them. -/
def SilentWords (k : FiltKernel) (silent : k.St → Prop) (ws : List Word) : Prop := silent (k.ofWords ws)

theorem silentWords_toWords {k : FiltKernel} {silent : k.St → Prop} {h : k.St} :
    SilentWords k silent (k.toWords h) ↔ silent h := by
  rw [SilentWords, k.ofWords_toWords]

/-- `FILT_SILENCE` of any kernel, said of the words in which its state lies in the block. -/
theorem silentWords_of_contract {k : FiltKernel} (hk : k.Contract) :
    ∃ silent : List Word → Prop, silent k.initWords ∧
      ∀ (h : List Word) (z fc res fsr : Num32), silent h → isZero z = true → fge res Num32.zero = true →
        fle res Num32.one = true → isFinite fsr = true → fgt fsr Num32.zero = true →
        isZero (k.stepWords h z fc res fsr).2 = true ∧ silent (k.stepWords h z fc res fsr).1 := by
  obtain ⟨silent, hinit, hstep⟩ := hk
  refine ⟨SilentWords k silent, silentWords_toWords.2 hinit, fun h z fc res fsr hh hz hr0 hr1 hfin hpos => ?_⟩
  obtain ⟨hout, hnext⟩ := hstep (k.ofWords h) z fc res fsr hh hz hr0 hr1 ⟨hfin, hpos⟩
  exact ⟨hout, silentWords_toWords.2 hnext⟩

/-- Settles O56: the stand-in's coefficients are finite, so its ladder keeps zeros zeros; a kernel's silent words are the words
of its silent states. -/
theorem filterSilence : Obligations.FilterSilence := by
  refine ⟨fun a b c d z fc res fsr h hz hpos hfin => ?_, rfl, fun k hk => silentWords_of_contract hk⟩
  obtain ⟨h0, h1, h2, h3⟩ := Ladder.Silent.step (h := ⟨a, b, c, d⟩) h fc res hz hpos hfin
  exact ⟨h3, _, _, _, _, rfl, h0, h1, h2, h3⟩

end Sys2Proof.Machine
end

section
/-! SUPPORT. What the matrix leaves in one slot, said once for every binding (44_modmatrix.md R235 to R237). -/

namespace Sys2Proof.Machine

/-- The present values of a binding's sources. -/
def Binding.sources {β : Type} (B : Binding β) (b : β) (id : BitVec 4) : Option Num32 := (B.src id).map fun get => get b

/-- `get` and `set` are the slot that `B` gives the id `dst`: they agree, no other destination shares it, and writing any
destination leaves every source as it is. -/
structure Binding.HasSlot {β : Type} (B : Binding β) (dst : BitVec 4) (get : β → Num32) (set : Num32 → β → β) : Prop where
  dst_eq : B.dst dst = some (get, set)
  get_set : ∀ x b, get (set x b) = x
  get_other : ∀ {id d}, id ≠ dst → B.dst id = some d → ∀ x b, get (d.2 x b) = get b
  sources_set : ∀ {id d}, B.dst id = some d → ∀ x b, B.sources (d.2 x b) = B.sources b

section Slot

variable {β : Type} {B : Binding β} {dst : BitVec 4} {get : β → Num32} {set : Num32 → β → β}

/-- Pass 1 of one route, seen at the slot. -/
theorem Binding.HasSlot.get_matrixZero (h : B.HasSlot dst get set) (b : β) (r : Route) :
    get (matrixZero true B b r) = if r.valid && r.dst == dst then Num32.zero else get b := by
  unfold matrixZero
  by_cases hd : r.dst = dst
  · cases hv : r.valid <;> simp [hd, h.dst_eq, h.get_set]
  · cases hB : B.dst r.dst with
    | none => simp [hd]
    | some d => cases r.valid <;> simp [hd, h.get_other hd hB]

theorem Binding.HasSlot.sources_matrixZero (h : B.HasSlot dst get set) (z : Bool) (b : β) (r : Route) :
    B.sources (matrixZero z B b r) = B.sources b := by
  unfold matrixZero
  split
  · split
    · exact h.sources_set ‹_› _ _
    · rfl
  · rfl

/-- Pass 2 of one route, seen at the slot. -/
theorem Binding.HasSlot.get_matrixAdd (h : B.HasSlot dst get set) (b : β) (r : Route) :
    get (matrixAdd B b r) =
      if r.valid && r.dst == dst && r.en then
        (match B.sources b r.src with
        | some x => fadd (get b) x
        | none => get b)
      else get b := by
  unfold matrixAdd Binding.sources
  by_cases hd : r.dst = dst
  · cases r.valid <;> cases r.en <;> cases B.src r.src <;> simp [hd, h.dst_eq, h.get_set]
  · cases hs : B.src r.src with
    | none => simp [hd]
    | some src =>
      cases hB : B.dst r.dst with
      | none => simp [hd]
      | some d => cases r.valid <;> cases r.en <;> simp [hd, h.get_other hd hB]

theorem Binding.HasSlot.sources_matrixAdd (h : B.HasSlot dst get set) (b : β) (r : Route) :
    B.sources (matrixAdd B b r) = B.sources b := by
  unfold matrixAdd
  split
  · split
    · exact h.sources_set ‹_› _ _
    · rfl
  · rfl

/-- Both passes: the slot ends as `slotSum` of the sources before them, which neither pass changes. -/
theorem Binding.HasSlot.get_matrixProcess (h : B.HasSlot dst get set) (T : List Route) (b : β) :
    get (matrixProcess true B T b) = slotSum (B.sources b) dst (get b) T := by
  have hsrc : B.sources (T.foldl (matrixZero true B) b) = B.sources b := by
    induction T generalizing b with
    | nil => rfl
    | cons r T ih => rw [List.foldl_cons, ih, h.sources_matrixZero]
  have hadd := matrixAdd_slot B (B.sources b) dst get (fun c => B.sources c = B.sources b)
    (fun c r hc => (h.sources_matrixAdd c r).trans hc) (fun c r hc => hc ▸ h.get_matrixAdd c r) T _ hsrc
  rw [matrixProcess, hadd, matrixZero_slot B dst get h.get_matrixZero]
  unfold slotSum
  cases T.filter fun r => r.valid && r.dst == dst <;> rfl

end Slot

/-! `slotSum` of the tables that the documents single out. -/

section Sum

variable {src : BitVec 4 → Option Num32} {dst : BitVec 4} {T : List Route}

/-- R236: a slot that no valid route names is kept. -/
theorem slotSum_unnamed (old : Num32) (h : ∀ r ∈ T, r.valid = true → r.dst ≠ dst) : slotSum src dst old T = old := by
  have hnil : (T.filter fun r => r.valid && r.dst == dst) = [] := by
    simpa [List.filter_eq_nil_iff] using h
  simp [slotSum, hnil]

/-- A slot that valid routes name, none of them enabled with a bound source, is zeroed and nothing is added. -/
theorem slotSum_sourceless (old : Num32) (hn : ∃ r ∈ T, r.valid = true ∧ r.dst = dst)
    (hs : ∀ r ∈ T, r.valid = true → r.en = true → r.dst = dst → src r.src = none) :
    slotSum src dst old T = Num32.zero := by
  have hnamed : (T.filter fun r => r.valid && r.dst == dst).isEmpty = false := by
    simpa [List.isEmpty_eq_false_iff, List.filter_eq_nil_iff] using hn
  have hnil : (((T.filter fun r => r.valid && r.dst == dst).filter Route.en).filterMap fun r => src r.src) = [] := by
    rw [List.filterMap_eq_nil_iff]
    intro r hr
    simp only [List.mem_filter, Bool.and_eq_true, beq_iff_eq] at hr
    obtain ⟨⟨hr, hv, hd⟩, he⟩ := hr
    exact hs r hr hv he hd
  simp only [slotSum, hnamed, hnil, Bool.false_eq_true, if_false, List.foldl_nil]

/-- One enabled route from a bound source before invalid entries: the source is added to `+0.0`. -/
theorem slotSum_single {id : BitVec 4} {x : Num32} (old : Num32) (hx : src id = some x)
    (hT : ∀ r ∈ T, r.valid = false) : slotSum src dst old (⟨true, true, id, dst⟩ :: T) = fadd Num32.zero x := by
  have hnil : (T.filter fun r => r.valid && r.dst == dst) = [] := by
    simp +contextual [List.filter_eq_nil_iff, hT]
  simp [slotSum, hnil, hx]

end Sum

end Sys2Proof.Machine
end

section
/-! The family of 44_modmatrix.md: the two scopes' slots and sources, and what `matrix.process` does in each scope. -/

namespace Sys2Proof.Machine

/-- The bound sources of a voice are its two envelopes' levels (R232). -/
theorem voiceBinding_sources (v : Voice) : voiceBinding.sources v = voiceSources v.env1 v.env2 := by
  funext id
  unfold Binding.sources voiceBinding voiceSources
  dsimp only
  split_ifs <;> rfl

/-- The one bound source of the global scope is the LFO's output (R232). -/
theorem globalBinding_sources (s : State) : globalBinding.sources s = globalSources s.lfoOut := by
  funext id
  unfold Binding.sources globalBinding globalSources
  dsimp only
  split_ifs <;> rfl

theorem voiceSources_unbound {id : BitVec 4} (e1 e2 : Env) (h : 2 ≤ id.toNat) : voiceSources e1 e2 id = none := by
  have h0 : id ≠ 0 := by rintro rfl; simp at h
  have h1 : id ≠ 1 := by rintro rfl; simp at h
  rw [voiceSources, if_neg h0, if_neg h1]

/-- A destination that the voice scope binds is one of its two slots (R233). -/
theorem voiceBinding_dst_cases {id : BitVec 4} {d} (h : voiceBinding.dst id = some d) :
    (id = 0 ∧ d = (fun v => v.filt.modIn, fun x v => { v with filt.modIn := x })) ∨
    (id = 1 ∧ d = (fun v => v.amp.gainIn, fun x v => { v with amp.gainIn := x })) := by
  unfold voiceBinding at h
  dsimp only at h
  split_ifs at h with h0 h1
  · exact .inl ⟨h0, (Option.some.inj h).symm⟩
  · exact .inr ⟨h1, (Option.some.inj h).symm⟩

/-- A destination that the global scope binds is one of its two slots (R233). -/
theorem globalBinding_dst_cases {id : BitVec 4} {d} (h : globalBinding.dst id = some d) :
    (id = 0 ∧ d = (fun s => s.fmIn, fun x s => { s with fmIn := x })) ∨
    (id = 1 ∧ d = (fun s => s.modIn, fun x s => { s with modIn := x })) := by
  unfold globalBinding at h
  dsimp only at h
  split_ifs at h with h0 h1
  · exact .inl ⟨h0, (Option.some.inj h).symm⟩
  · exact .inr ⟨h1, (Option.some.inj h).symm⟩

theorem voiceBinding_sources_set {id : BitVec 4} {d} (h : voiceBinding.dst id = some d) (x : Num32) (v : Voice) :
    voiceBinding.sources (d.2 x v) = voiceBinding.sources v := by
  rw [voiceBinding_sources, voiceBinding_sources]
  obtain ⟨-, rfl⟩ | ⟨-, rfl⟩ := voiceBinding_dst_cases h <;> rfl

theorem globalBinding_sources_set {id : BitVec 4} {d} (h : globalBinding.dst id = some d) (x : Num32) (s : State) :
    globalBinding.sources (d.2 x s) = globalBinding.sources s := by
  rw [globalBinding_sources, globalBinding_sources]
  obtain ⟨-, rfl⟩ | ⟨-, rfl⟩ := globalBinding_dst_cases h <;> rfl

theorem voiceBinding_hasSlot_modIn :
    voiceBinding.HasSlot 0 (fun v => v.filt.modIn) (fun x v => { v with filt.modIn := x }) where
  dst_eq := rfl
  get_set _ _ := rfl
  get_other hne h x v := by
    obtain ⟨h0, -⟩ | ⟨-, rfl⟩ := voiceBinding_dst_cases h
    · exact absurd h0 hne
    · rfl
  sources_set := voiceBinding_sources_set

theorem voiceBinding_hasSlot_gainIn :
    voiceBinding.HasSlot 1 (fun v => v.amp.gainIn) (fun x v => { v with amp.gainIn := x }) where
  dst_eq := rfl
  get_set _ _ := rfl
  get_other hne h x v := by
    obtain ⟨-, rfl⟩ | ⟨h1, -⟩ := voiceBinding_dst_cases h
    · rfl
    · exact absurd h1 hne
  sources_set := voiceBinding_sources_set

theorem globalBinding_hasSlot_fmIn :
    globalBinding.HasSlot 0 (fun s => s.fmIn) (fun x s => { s with fmIn := x }) where
  dst_eq := rfl
  get_set _ _ := rfl
  get_other hne h x s := by
    obtain ⟨h0, -⟩ | ⟨-, rfl⟩ := globalBinding_dst_cases h
    · exact absurd h0 hne
    · rfl
  sources_set := globalBinding_sources_set

theorem globalBinding_hasSlot_modIn :
    globalBinding.HasSlot 1 (fun s => s.modIn) (fun x s => { s with modIn := x }) where
  dst_eq := rfl
  get_set _ _ := rfl
  get_other hne h x s := by
    obtain ⟨-, rfl⟩ | ⟨h1, -⟩ := globalBinding_dst_cases h
    · rfl
    · exact absurd h1 hne
  sources_set := globalBinding_sources_set

/-- `matrix.process` on a voice: the two slots become their sums and nothing else changes. -/
theorem matrixProcess_voice (T : List Route) (v : Voice) :
    matrixProcess true voiceBinding T v = { v with
      filt := { v.filt with modIn := slotSum (voiceSources v.env1 v.env2) 0 v.filt.modIn T },
      amp := { v.amp with gainIn := slotSum (voiceSources v.env1 v.env2) 1 v.amp.gainIn T } } := by
  have hmod := voiceBinding_hasSlot_modIn.get_matrixProcess T v
  have hgain := voiceBinding_hasSlot_gainIn.get_matrixProcess T v
  obtain ⟨x, y, hframe⟩ := matrixProcess_voice_frame true T v
  rw [voiceBinding_sources, hframe] at hmod hgain
  rw [hframe, ← hmod, ← hgain]

/-- `matrix.process` on the global scope: the two slots become their sums and nothing else changes. -/
theorem matrixProcess_global (T : List Route) (s : State) :
    matrixProcess true globalBinding T s = { s with
      fmIn := slotSum (globalSources s.lfoOut) 0 s.fmIn T, modIn := slotSum (globalSources s.lfoOut) 1 s.modIn T } := by
  rw [matrixProcess_global_frame, globalBinding_hasSlot_fmIn.get_matrixProcess,
    globalBinding_hasSlot_modIn.get_matrixProcess, globalBinding_sources]

/-- Settles O51: each scope's binding has two separate slots, and in each slot the passes leave `slotSum`. -/
theorem matrixFrame : Obligations.MatrixFrame := by
  refine ⟨fun T v => ?_, matrixProcess_global⟩
  simp only [show hw.matrixZeroDisabled = true from rfl, matrixProcess_voice]
  exact ⟨trivial, slotSum_unnamed _, slotSum_unnamed _,
    fun hn hs => slotSum_sourceless _ hn fun r hr hv he hd => voiceSources_unbound _ _ (hs r hr hv he hd),
    fun hn hs => slotSum_sourceless _ hn fun r hr hv he hd => voiceSources_unbound _ _ (hs r hr hv he hd)⟩

/-- Settles O50: the entry alone names `MO.fmIn`, so the slot is `+0.0` plus the LFO's output, and `+0.0` once no enabled
route names it. -/
theorem matrixExample : Obligations.MatrixExample := by
  intro s rest hlfo hrest
  simp only [show hw.matrixZeroDisabled = true from rfl, matrixProcess_global]
  constructor
  · rw [slotSum_single s.fmIn (congrArg some hlfo) hrest]
    decide +kernel
  · refine slotSum_sourceless _ ⟨_, List.mem_cons_self, rfl, rfl⟩ fun r hr hv he _ => ?_
    obtain rfl | hr := List.mem_cons.1 hr
    · cases he
    · exact absurd hv (ne_true_of_eq_false (hrest r hr))

end Sys2Proof.Machine
end

section
/-! SUPPORT. Reading the voices after a change of one. -/

namespace Sys2Proof.Machine

/-- A change of voice `v` is seen in voice `v` alone, and only if the table holds it. -/
theorem State.voice_modVoice (s : State) (v w : Nat) (f : Voice → Voice) :
    (s.modVoice v f).voice w = if w = v ∧ v < s.voices.length then f (s.voice w) else s.voice w := by
  by_cases hwv : w = v
  · subst hwv
    by_cases hlen : w < s.voices.length
    · rw [State.voice_modVoice_eq s w f hlen, if_pos ⟨rfl, hlen⟩]
    · have hlen' : (s.modVoice w f).voices.length ≤ w := by
        rw [State.modVoice_voices, List.length_modify]
        exact Nat.le_of_not_lt hlen
      rw [State.voice_of_length_le hlen', State.voice_of_length_le (Nat.le_of_not_lt hlen), if_neg fun h => hlen h.2]
  · rw [State.voice_modVoice_ne s f (Ne.symm hwv), if_neg fun h => hwv h.1]

/-- A change that leaves voice `v` as it is changes nothing. -/
theorem State.modVoice_eq_self {s : State} {v : Nat} {f : Voice → Voice} (h : f (s.voice v) = s.voice v) :
    s.modVoice v f = s := by
  calc s.modVoice v f = s.modVoice v fun _ => id (s.voice v) := by rw [← State.modVoice_const, h, id]
    _ = s := by rw [State.modVoice_const s v id, State.modVoice, List.modify_id]

end Sys2Proof.Machine
end

section
/-! SUPPORT. The voice tick in the three parts of 45_voice.md R264, each as the record it leaves. -/

namespace Sys2Proof.Machine

/-- The free test: key and note go when both envelopes are idle; the model's own `fading` takes the reading's value. -/
theorem Voice.tickFree_eq (c : Params) (v : Voice) :
    v.tickFree c = { v with
      note := if v.isActive then v.note else none, keyDown := if v.isActive then v.keyDown else false,
      fading := if v.isActive then v.fading else c.fadeOutGoesOn } := by
  unfold Voice.tickFree
  cases v.isActive <;> rfl

theorem Voice.isActive_iff (v : Voice) : v.isActive = true ↔ v.env1.st ≠ .idle ∨ v.env2.st ≠ .idle := by
  simp [Voice.isActive, Env.isActive]

/-- Settles O52: the matrix leaves the two slots' sums of the new levels, and the free test and the targets are read off the
record it leaves. -/
theorem voiceTickEffects : Obligations.VoiceTickEffects := by
  intro s v
  have hmatrix := matrixProcess_voice s.vr (v.tickEnvs hw s)
  have htick : v.tick hw s =
      ((matrixProcess true voiceBinding s.vr (v.tickEnvs hw s)).tickFree hw).tickTargets hw s := rfl
  rw [htick, hmatrix, Voice.tickFree_eq]
  simp only [Voice.isActive_iff]
  rfl

end Sys2Proof.Machine
end

section
/-! SUPPORT. What NOTEOFF does to the voices (46_voicepool.md R295), and where `findVoice` finds a free one (R286). -/

namespace Sys2Proof.Machine

/-- A voice holds a note only if it exists in the table. -/
theorem State.lt_length_of_note {s : State} {v : Nat} {n : BitVec 7} (h : (s.voice v).note = some n) :
    v < s.voices.length := by
  by_contra hv
  rw [State.voice_of_length_le (Nat.le_of_not_lt hv)] at h
  cases h

theorem stopIfHolding_voice (n : BitVec 7) (tail : Bool) (s : State) (v w : Nat) :
    (stopIfHolding n tail s v).voice w =
      if w = v ∧ (s.voice w).note = some n then (s.voice w).stopNote tail else s.voice w := by
  unfold stopIfHolding
  split
  · have hlen := State.lt_length_of_note ‹_›
    by_cases hwv : w = v
    · subst hwv
      simp [State.voice_modVoice, *]
    · simp [State.voice_modVoice, hwv]
  · rw [if_neg]
    rintro ⟨rfl, hnote⟩
    contradiction

/-- NOTEOFF's loop stops, of the voices it visits, those that hold the note, and leaves every other voice. -/
theorem stopAll_voice (n : BitVec 7) (tail : Bool) {vs : List Nat} (hvs : vs.Nodup) (s : State) (w : Nat) :
    (vs.foldl (stopIfHolding n tail) s).voice w =
      if w ∈ vs ∧ (s.voice w).note = some n then (s.voice w).stopNote tail else s.voice w := by
  induction vs generalizing s with
  | nil => simp
  | cons v vs ih =>
    obtain ⟨hv, hvs⟩ := List.nodup_cons.1 hvs
    rw [List.foldl_cons, ih hvs, stopIfHolding_voice]
    by_cases hwv : w = v
    · subst hwv
      simp [hv]
    · simp [hwv]

theorem exec_noteoff_of_ready {s : State} (hm : s.mode = .ready) (channel : Nat) (n : BitVec 7) (velocity : Word)
    (tail : Bool) : exec (.noteoff channel n.toNat velocity tail) s =
      .next (endCommand ((liveVoices s).foldl (stopIfHolding n tail) { s with busy := true })) := by
  simp [exec, execNoteoff, noteOff, cCommand, hm, liveVoices]

/-- A note takes a free voice whenever one exists. -/
theorem findVoice_isFree {s : State} {v : Nat} (hv : v < s.nvoices.toNat) (hfree : (s.voice v).isFree = true)
    (m : BitVec 7) : (s.voice (findVoice m s)).isFree = true := by
  unfold findVoice
  cases hfind : (liveVoices s).find? fun v => (s.voice v).isFree with
  | some w => exact List.find?_some (p := fun v => (s.voice v).isFree) hfind
  | none => exact absurd hfree (List.find?_eq_none.1 hfind v (List.mem_range.2 hv))

/-- Settles O22: NOTEOFF's loop cuts the voice, which is then a free one for `findVoice` to find. -/
theorem forcedStopFrees : Obligations.ForcedStopFrees := by
  intro channel n m velocity s t v hm hv _ hnote hexec
  rw [exec_noteoff_of_ready hm] at hexec
  have ht := (Host.Outcome.next.inj hexec).symm
  have hcut : t.voice v = (s.voice v).stopNote false := by
    have hstop := stopAll_voice n false (vs := liveVoices s) List.nodup_range { s with busy := true } v
    rw [if_pos ⟨List.mem_range.2 hv, hnote⟩] at hstop
    rw [ht]
    exact hstop
  have hn : t.nvoices = s.nvoices := by rw [ht, endCommand_nvoices, stopAll_frame]
  have hfree : (t.voice v).isFree = true := by rw [hcut]; rfl
  refine ⟨?_, ?_, hfree, findVoice_isFree (hn ▸ hv) hfree m⟩ <;> rw [hcut] <;> rfl

end Sys2Proof.Machine
end

section
/-! SUPPORT. RENDER when no voice sounds (45_voice.md R266, R268): rendering such a voice is at most the cut of its fade-out, so
what the global tick, the moves and the cuts keep, the whole RENDER keeps. -/

namespace Sys2Proof.Machine

/-- A voice that does not sound renders nothing. -/
theorem voiceLoop_of_silent {c : Params} {v : Nat} {s : State} (h : (s.voice v).sounds c = false) (k pos left : Nat) :
    voiceLoop c v k pos left s = s := by
  cases k with
  | zero => rfl
  | succ k => simp [voiceLoop, h]

theorem renderVoice_of_silent {c : Params} {v : Nat} {s : State} (hb : s.busy = true)
    (h : ((cutFadeOut c v s).voice v).sounds c = false) (pos n : Nat) :
    renderVoice c pos n s v = cutFadeOut c v s := by
  have hcut : whileBusy (cutFadeOut c v) s = cutFadeOut c v s := if_pos hb
  rw [renderVoice, hcut, voiceLoop_of_silent h]

/-- The loop keeps what every pool chunk that begins with samples left keeps. -/
theorem renderLoop_keeps_of_chunks {c : Params} {P : State → Prop}
    (hchunk : ∀ cur s, s.cursor = some cur → cur.rem ≠ 0 → P s → P (poolChunk c cur s)) (k : Nat) {s : State}
    (h : P s) : P (renderLoop c k s) := by
  induction k generalizing s with
  | zero => exact h
  | succ k ih =>
    unfold renderLoop
    split
    · exact h
    split
    · exact h
    · exact ih (hchunk _ _ ‹_› ‹_› h)

/-! What a silent pool chunk keeps. -/

/-- `P` holds in a RENDER of `n` voices while it runs, survives the global tick and the moves, and lets no voice sound. -/
structure SilentKeeps (c : Params) (n : Nat) (P : State → Prop) : Prop where
  busy : ∀ u, P u → u.busy = true
  nvoices : ∀ u, P u → u.nvoices.toNat = n
  global : ∀ u, P u → P (globalTick c u)
  moves : ∀ u, P u → P (interleave c u)
  cut : ∀ u v, v < n → P u → P (cutFadeOut c v u)
  silent : ∀ u v, v < n → P u → ((cutFadeOut c v u).voice v).sounds c = false

section SilentKeeps

variable {c : Params} {n : Nat} {P : State → Prop}

theorem SilentKeeps.tickIfDue (K : SilentKeeps c n P) {u : State} (h : P u) :
    P (if u.gcnt = 0 then atomic c (globalTick c) u else u) := by
  split
  · exact atomic_keeps (by rw [globalTick_frame]) (fun _ h => K.global u h) (fun u _ h => K.moves u h) h
  · exact h

theorem SilentKeeps.voices (K : SilentKeeps c n P) (pos k : Nat) {vs : List Nat} (hvs : ∀ v ∈ vs, v < n) {u : State}
    (h : P u) : P (vs.foldl (renderVoice c pos k) u) := by
  induction vs generalizing u with
  | nil => exact h
  | cons v vs ih =>
    have hv := hvs v List.mem_cons_self
    rw [List.foldl_cons, renderVoice_of_silent (K.busy u h) (K.silent u v hv h)]
    exact ih (fun w hw => hvs w (List.mem_cons_of_mem v hw)) (K.cut u v hv h)

theorem SilentKeeps.chunkBody (K : SilentKeeps c n P) (cur : Cursor) {u : State} (h : P u) : P (chunkBody c cur u) := by
  have h1 := K.tickIfDue h
  refine K.voices _ _ (fun v hv => ?_) h1
  rwa [liveVoices, List.mem_range, K.nvoices _ h1] at hv

/-- A pool chunk ends with the counters moved by its samples. -/
theorem SilentKeeps.poolChunk_eq (K : SilentKeeps c n P) (cur : Cursor) {u : State} (h : P u) :
    poolChunk c cur u = { Machine.chunkBody c cur u with
      gcnt := advanceCounter c (chunkCount c cur u) (Machine.chunkBody c cur u).gcnt,
      cursor := some ⟨cur.pos + BitVec.ofNat 32 (chunkCount c cur u), cur.rem - BitVec.ofNat 16 (chunkCount c cur u)⟩ } := by
  rw [Machine.poolChunk_eq, whileBusy, if_pos (K.busy _ (K.chunkBody cur h))]

end SilentKeeps

/-! A RENDER in which no existing voice is active. -/

/-- `u` is a state of a RENDER from `s` that no `rst` is to interrupt, with every existing voice idle and the buffer as it was. -/
structure Silent (s u : State) : Prop where
  busy : u.busy = true
  noReset : .rst ∉ u.events
  nvoices : u.nvoices = s.nvoices
  buf : u.buf = s.buf
  idle : ∀ v < s.nvoices.toNat, (u.voice v).isActive = false

section Silent

variable {c : Params} {s u : State} {v : Nat}

theorem Silent.globalTick (h : Silent s u) : Silent s (globalTick c u) := by
  rw [globalTick_frame]
  exact { h with }

/-- The moves at a boundary without `rst`. -/
theorem interleave_of_noReset (c : Params) (h : .rst ∉ u.events) : ∃ p a b q r i e f g es', interleave c u = { u with
    par := p, der1 := a, der2 := b, pPend := q, pbusy := r, pIn := i, err := e, errinfo := f, errport := g,
    events := es' } ∧ es' <:+ u.events :=
  (interleaveWith_cases c u.events u).resolve_right fun hr => h hr.1

theorem Silent.interleave (h : Silent s u) : Silent s (interleave c u) := by
  obtain ⟨_, _, _, _, _, _, _, _, _, _, e, hsuffix⟩ := interleave_of_noReset c h.noReset
  rw [e]
  exact { h with noReset := fun hm => h.noReset (hsuffix.mem hm) }

theorem isActive_cutFadeOut (c : Params) (v w : Nat) (u : State) :
    ((cutFadeOut c v u).voice w).isActive = (u.voice w).isActive := by
  unfold cutFadeOut
  split
  · rw [State.voice_modVoice]
    split <;> rfl
  · rfl

theorem Silent.cut (h : Silent s u) (v : Nat) : Silent s (cutFadeOut c v u) where
  busy := by rw [cutFadeOut_frame]; exact h.busy
  noReset := by rw [cutFadeOut_frame]; exact h.noReset
  nvoices := by rw [cutFadeOut_frame]; exact h.nvoices
  buf := by rw [cutFadeOut_frame]; exact h.buf
  idle w hw := by rw [isActive_cutFadeOut]; exact h.idle w hw

/-- With no fade-out open nothing is cut. -/
theorem cutFadeOut_of_closed (h : c.fadeOutGoesOn = true → (u.voice v).fading = false) : cutFadeOut c v u = u := by
  unfold cutFadeOut
  split
  · have hopen : c.fadeOutGoesOn = true ∧ _ := Bool.and_eq_true_iff.1 ‹_›
    refine State.modVoice_eq_self ?_
    rw [← h hopen.1]
  · rfl

/-- At the beginning of a pool chunk the cut leaves no fade-out open. -/
theorem closed_cutFadeOut (hg : u.gcnt = 0) (hc : c.fadeOutGoesOn = true) : ((cutFadeOut c v u).voice v).fading = false := by
  rw [cutFadeOut, hc, hg, if_pos (by rfl), State.voice_modVoice]
  split
  · rfl
  · rw [State.voice_of_length_le (by omega)]
    rfl

theorem Voice.sounds_of_idle {x : Voice} (hx : x.isActive = false) (hf : c.fadeOutGoesOn = true → x.fading = false) :
    x.sounds c = false := by
  unfold Voice.sounds
  rw [hx, Bool.false_or]
  cases hc : c.fadeOutGoesOn
  · rfl
  · exact hf hc

/-- With no fade-out open either, no voice changes. -/
theorem silentKeeps_voices (hf : c.fadeOutGoesOn = true → ∀ v < s.nvoices.toNat, (s.voice v).fading = false) :
    SilentKeeps c s.nvoices.toNat fun u => Silent s u ∧ u.voices = s.voices := by
  have hclosed : ∀ (u : State) v, v < s.nvoices.toNat → u.voices = s.voices → c.fadeOutGoesOn = true →
      (u.voice v).fading = false := fun u v hv h hc => by rw [State.voice, h]; exact hf hc v hv
  have hcut : ∀ (u : State) v, v < s.nvoices.toNat → u.voices = s.voices → cutFadeOut c v u = u := fun u v hv h =>
    cutFadeOut_of_closed (hclosed u v hv h)
  exact {
    busy := fun _ h => h.1.busy
    nvoices := fun _ h => congrArg BitVec.toNat h.1.nvoices
    global := fun u h => ⟨h.1.globalTick, by rw [globalTick_frame]; exact h.2⟩
    moves := fun u h => ⟨h.1.interleave, by
      obtain ⟨_, _, _, _, _, _, _, _, _, _, e, -⟩ := interleave_of_noReset c h.1.noReset
      rw [e]
      exact h.2⟩
    cut := fun u v hv h => by rwa [hcut u v hv h.2]
    silent := fun u v hv h => by
      rw [hcut u v hv h.2]
      exact Voice.sounds_of_idle (h.1.idle v hv) (hclosed u v hv h.2) }

/-- In a pool chunk that begins with `gcnt = 0`. -/
theorem silentKeeps_gcnt (c : Params) (s : State) :
    SilentKeeps c s.nvoices.toNat fun u => Silent s u ∧ u.gcnt = 0 where
  busy _ h := h.1.busy
  nvoices _ h := congrArg BitVec.toNat h.1.nvoices
  global u h := ⟨h.1.globalTick, by rw [globalTick_frame]; exact h.2⟩
  moves u h := ⟨h.1.interleave, by
    obtain ⟨_, _, _, _, _, _, _, _, _, _, e, -⟩ := interleave_of_noReset c h.1.noReset
    rw [e]
    exact h.2⟩
  cut u v _ h := ⟨h.1.cut v, by rw [cutFadeOut_frame]; exact h.2⟩
  silent u v hv h := Voice.sounds_of_idle ((h.1.cut v).idle v hv) (closed_cutFadeOut h.2)

theorem silent_start (hidle : ∀ v < s.nvoices.toNat, (s.voice v).isActive = false) (hrst : .rst ∉ s.events)
    (cur : Option Cursor) : Silent s { s with busy := true, cursor := cur } := ⟨rfl, hrst, rfl, rfl, hidle⟩

/-- A RENDER with every existing voice idle and no fade-out open changes no voice and no word. -/
theorem renderLoop_of_closed (hf : c.fadeOutGoesOn = true → ∀ v < s.nvoices.toNat, (s.voice v).fading = false)
    (h : Silent s u) (hvoices : u.voices = s.voices) (k : Nat) :
    (renderLoop c k u).voices = s.voices ∧ (renderLoop c k u).buf = s.buf := by
  have K := silentKeeps_voices hf
  have hchunk : ∀ cur u, u.cursor = some cur → cur.rem ≠ 0 → (Silent s u ∧ u.voices = s.voices) →
      Silent s (poolChunk c cur u) ∧ (poolChunk c cur u).voices = s.voices := fun cur u _ _ hu => by
    obtain ⟨hbody, hv⟩ := K.chunkBody cur hu
    rw [K.poolChunk_eq cur hu]
    exact ⟨{ hbody with }, hv⟩
  obtain ⟨hend, hv⟩ := renderLoop_keeps_of_chunks hchunk k ⟨h, hvoices⟩
  exact ⟨hv, hend.buf⟩

/-- A pool chunk that begins with `gcnt = 0` ends with `gcnt = 0` again or with no sample left (46_voicepool.md R311). -/
theorem chunk_from_zero (c : Params) {rem : BitVec 16} {n : Nat} (hn : n = min rem.toNat c.controlDiv) :
    advanceCounter c n 0 = 0 ∨ rem - BitVec.ofNat 16 n = 0 := by
  by_cases hr : rem.toNat ≤ c.controlDiv
  · right
    rw [hn, Nat.min_eq_left hr, BitVec.ofNat_toNat, BitVec.setWidth_eq, BitVec.sub_self]
    rfl
  · left
    rw [hn, Nat.min_eq_right (by omega)]
    simp [advanceCounter]

/-- A RENDER that begins a pool chunk with every existing voice idle changes no word: each of its chunks cuts the open
fade-outs. -/
theorem renderLoop_of_gcnt_zero (h : Silent s u) (hg : u.gcnt = 0) (k : Nat) : (renderLoop c k u).buf = s.buf := by
  have K := silentKeeps_gcnt c s
  have hchunk : ∀ cur u, u.cursor = some cur → cur.rem ≠ 0 →
      (Silent s u ∧ (u.gcnt = 0 ∨ ∃ cur, u.cursor = some cur ∧ cur.rem = 0)) →
      Silent s (poolChunk c cur u) ∧
        ((poolChunk c cur u).gcnt = 0 ∨ ∃ cur', (poolChunk c cur u).cursor = some cur' ∧ cur'.rem = 0) := by
    intro cur u hcur hrem ⟨hu, hdone⟩
    have hg : u.gcnt = 0 := hdone.resolve_right fun ⟨cur', hcur', h0⟩ => by
      rw [hcur] at hcur'
      exact hrem (Option.some.inj hcur' ▸ h0)
    obtain ⟨hbody, hbodyg⟩ := K.chunkBody cur ⟨hu, hg⟩
    have hn : chunkCount c cur u = min cur.rem.toNat c.controlDiv := by
      unfold chunkCount
      rw [(K.tickIfDue ⟨hu, hg⟩).2]
      rfl
    rw [K.poolChunk_eq cur ⟨hu, hg⟩, hbodyg]
    refine ⟨{ hbody with }, ?_⟩
    obtain h0 | h0 := chunk_from_zero c hn
    · exact .inl h0
    · exact .inr ⟨_, rfl, h0⟩
  exact (renderLoop_keeps_of_chunks hchunk k ⟨h, .inl hg⟩).1.buf

end Silent

theorem execOf_render_of_accepted (c : Params) {start count : Nat} {s : State} (hm : s.mode = .ready)
    (hr : start + count ≤ s.maxBlock.toNat) :
    execOf c (.render start count) s = .next (endCommand (renderLoop c count
      { s with busy := true, cursor := some ⟨BitVec.ofNat 32 start, BitVec.ofNat 16 count⟩ })) := by
  simp [execOf, runOf, renderCommand, cCommand, hm, Nat.not_lt.2 hr]

/-- Settles O34: no existing voice sounds, because it is idle and its fade-out is not open or is cut at once, so only global
ticks, cuts and moves happen, and these touch neither the buffer nor the record of a voice that has no open fade-out. -/
theorem renderSilentWhenIdle : Obligations.RenderSilentWhenIdle := by
  constructor
  · intro start count s t hm hr hrst hidle hexec
    rw [exec_render_of_accepted hm hr] at hexec
    rw [← Host.Outcome.next.inj hexec]
    obtain ⟨hvoices, hbuf⟩ := renderLoop_of_closed (c := hw) (fun hc => nomatch hc) (silent_start hidle hrst _) rfl count
    exact ⟨hvoices, fun a => congrArg (Memory.read · a) hbuf⟩
  · intro capped start count s t hm hr hrst hidle hexec
    rw [execOf_render_of_accepted _ hm hr] at hexec
    rw [← Host.Outcome.next.inj hexec]
    refine ⟨fun hf => ?_, fun hg a => ?_⟩
    · obtain ⟨hvoices, hbuf⟩ :=
        renderLoop_of_closed (c := readings capped true) (fun _ => hf) (silent_start hidle hrst _) rfl count
      exact ⟨hvoices, fun a => congrArg (Memory.read · a) hbuf⟩
    · exact congrArg (Memory.read · a) (renderLoop_of_gcnt_zero (silent_start hidle hrst _) hg count)

end Sys2Proof.Machine
end

section
/-! SUPPORT. The global tick in one record (46_voicepool.md R301, R302). -/

namespace Sys2Proof.Machine

/-- The LFO's frequency: the frequency law of `LFO_FREQ` with every other operand zero (R301). -/
def lfoFrequency (s : State) : Num32 := hw.freqLaw s.par.lfoFreq Num32.zero Num32.zero Num32.zero Num32.zero

theorem lfoFrequency_spec (s : State) : (isNaN s.par.lfoFreq = false → lfoFrequency s = s.par.lfoFreq) ∧
    (isNaN s.par.lfoFreq = true → isNaN (lfoFrequency s) = true) :=
  frequencyLawNeutral s.par.lfoFreq Num32.zero Num32.zero Num32.zero Num32.zero (by decide) (by decide)

theorem globalTick_eq (s : State) : globalTick hw s = globalTicked (lfoFrequency s) s := by
  have hmatrix : globalTick hw s = matrixProcess true globalBinding s.gr (lfoTick hw s) := rfl
  rw [hmatrix, matrixProcess_global]
  rfl

end Sys2Proof.Machine
end

section
/-! SUPPORT. One sample of one voice in one step (45_voice.md R264, R266, R267): the words it is added into and the record it
leaves, with no move chosen. -/

namespace Sys2Proof.Machine

theorem State.modVoice_modVoice (s : State) (v : Nat) (f g : Voice → Voice) :
    (s.modVoice v f).modVoice v g = s.modVoice v fun x => g (f x) := by
  unfold State.modVoice
  rw [List.modify_modify_eq]
  rfl

theorem State.modVoice_congr {s : State} {v : Nat} {f g : Voice → Voice} (h : f (s.voice v) = g (s.voice v)) :
    s.modVoice v f = s.modVoice v g := by
  rw [← State.modVoice_const s v f, h, State.modVoice_const]

/-- With no move chosen the boundary after an atomic step changes nothing. -/
theorem atomic_of_noMoves {c : Params} {f : State → State} {s : State} (hb : s.busy = true) (he : (f s).events = []) :
    atomic c f s = f s := by
  rw [atomic, if_pos hb, interleave, he, interleaveWith, ← he]

/-! The buffer. -/

/-- `z ch` added into the word of index `i` of each of the one or two channels in use (R267). -/
def mixSample (i : Nat) (z : Nat → Num32) (s : State) : State :=
  if s.nch.toNat = 2 then mixIn hw 1 i (z 1) (mixIn hw 0 i (z 0) s) else mixIn hw 0 i (z 0) s

theorem mixIn_modVoice (c : Params) (ch i : Nat) (z : Num32) (v : Nat) (f : Voice → Voice) (s : State) :
    mixIn c ch i z (s.modVoice v f) = (mixIn c ch i z s).modVoice v f := by
  unfold mixIn memWrite
  split <;> rfl

theorem mixSample_frame (i : Nat) (z : Nat → Num32) (s : State) :
    mixSample i z s = { s with buf := (mixSample i z s).buf } := by
  unfold mixSample
  split
  · rw [mixIn_frame hw 1, mixIn_frame hw 0]
  · exact mixIn_frame hw 0 i _ s

theorem mixSample_modVoice (i : Nat) (z : Nat → Num32) (v : Nat) (f : Voice → Voice) (s : State) :
    mixSample i z (s.modVoice v f) = (mixSample i z s).modVoice v f := by
  unfold mixSample
  simp only [State.modVoice_nch, mixIn_modVoice]
  split <;> rfl

theorem sampleAddr_lt {ch i : Nat} (hch : ch < 2) (hi : i < 4096) : sampleAddr hw ch i < bufferWords hw := by
  have : ch * 4096 + i < 2 * 4096 := by omega
  exact this

theorem sampleAddr_injective {ch ch' i : Nat} (h : sampleAddr hw ch i = sampleAddr hw ch' i) : ch = ch' := by
  have : ch * 4096 + i = ch' * 4096 + i := h
  omega

section Mix

variable {i : Nat} {s : State}

theorem mixIn_wf {c : Params} (ch : Nat) (z : Num32) (h : Memory.wf (bufferWords c) s.buf = true) :
    Memory.wf (bufferWords c) (mixIn c ch i z s).buf = true := memWrite_wf c h

theorem mixSample_wf (z : Nat → Num32) (h : Memory.wf (bufferWords hw) s.buf = true) :
    Memory.wf (bufferWords hw) (mixSample i z s).buf = true := by
  unfold mixSample
  split
  · exact mixIn_wf 1 _ (mixIn_wf 0 _ h)
  · exact mixIn_wf 0 _ h

theorem memRead_mixIn {ch : Nat} (z : Num32) (h : Memory.wf (bufferWords hw) s.buf = true) (hch : ch < 2) (hi : i < 4096) :
    memRead (sampleAddr hw ch i) (mixIn hw ch i z s) = fadd (memRead (sampleAddr hw ch i) s) z :=
  memRead_memWrite_same hw h (sampleAddr_lt hch hi)

theorem memRead_mixIn_ne {a ch : Nat} (z : Num32) (h : a ≠ sampleAddr hw ch i) :
    memRead a (mixIn hw ch i z s) = memRead a s := memRead_memWrite_other hw s h

theorem memRead_mixSample (z : Nat → Num32) (h : Memory.wf (bufferWords hw) s.buf = true) (hi : i < 4096)
    (hnch : s.nch.toNat ≤ 2) {ch : Nat} (hch : ch < s.nch.toNat) :
    memRead (sampleAddr hw ch i) (mixSample i z s) = fadd (memRead (sampleAddr hw ch i) s) (z ch) := by
  have hne {ch ch'} (h : ch ≠ ch') : sampleAddr hw ch i ≠ sampleAddr hw ch' i := fun e => h (sampleAddr_injective e)
  unfold mixSample
  split
  · obtain rfl | rfl : ch = 0 ∨ ch = 1 := by omega
    · rw [memRead_mixIn_ne _ (hne (by decide)), memRead_mixIn _ h (by decide) hi]
    · rw [memRead_mixIn _ (mixIn_wf 0 _ h) (by decide) hi, memRead_mixIn_ne _ (hne (by decide))]
  · obtain rfl : ch = 0 := by omega
    exact memRead_mixIn _ h (by decide) hi

theorem memRead_mixSample_other (z : Nat → Num32) (hnch : 1 ≤ s.nch.toNat) {a : Nat}
    (ha : ∀ ch < s.nch.toNat, a ≠ sampleAddr hw ch i) : memRead a (mixSample i z s) = memRead a s := by
  unfold mixSample
  split
  · rw [memRead_mixIn_ne _ (ha 1 (by omega)), memRead_mixIn_ne _ (ha 0 (by omega))]
  · exact memRead_mixIn_ne _ (ha 0 (by omega))

end Mix

/-! The record. -/

theorem Voice.sample_fst {s : State} (hnch : 1 ≤ s.nch.toNat) (x : Voice) : (x.sample hw s).1 = sampleAdded s x 0 := by
  unfold Voice.sample
  simp only [hnch, if_true]
  rfl

theorem Voice.sample_snd {s : State} (hnch : s.nch.toNat = 2) (x : Voice) : (x.sample hw s).2.1 = sampleAdded s x 1 := by
  unfold Voice.sample
  simp only [hnch]
  rfl

theorem Voice.advance_sample {s : State} (h1 : 1 ≤ s.nch.toNat) (h2 : s.nch.toNat ≤ 2) (x : Voice) :
    (x.sample hw s).2.2.advance hw 1 = sampleTaken s x := by
  unfold Voice.sample
  simp only [h1, if_true]
  obtain h | h : s.nch.toNat = 1 ∨ s.nch.toNat = 2 := by omega
  · simp only [sampleTaken, h]
    rfl
  · simp only [sampleTaken, h]
    rfl

/-- The atomic step of a voice sample (R267). -/
theorem voiceSample_eq (v i : Nat) {s : State} (h1 : 1 ≤ s.nch.toNat) (h2 : s.nch.toNat ≤ 2) :
    voiceSample hw v i s = (mixSample i (sampleAdded s (s.voice v)) s).modVoice v fun x => (x.sample hw s).2.2 := by
  have hlast : 2 ≤ s.nch.toNat ↔ s.nch.toNat = 2 := by omega
  have hrecord := State.modVoice_const s v fun x => (x.sample hw s).2.2
  unfold voiceSample mixSample
  dsimp only at hrecord ⊢
  simp only [hrecord, h1, hlast, if_true, Voice.sample_fst h1, mixIn_modVoice]
  split
  · rw [Voice.sample_snd ‹_›]
  · rfl

theorem voiceTick_eq (v : Nat) (s : State) : voiceTick hw v s = s.modVoice v (voiceTicked s) :=
  congrArg (s.modVoice v) (funext (voiceTickEffects s))

/-! `renderBlock` of one sample. -/

theorem State.lt_length_of_isActive {s : State} {v : Nat} (h : (s.voice v).isActive = true) : v < s.voices.length := by
  by_contra hv
  rw [State.voice_of_length_le (Nat.le_of_not_lt hv)] at h
  cases h

theorem chunkLength_one {k : BitVec 16} (hk : k.toNat < 100) : chunkLength hw 1 k = 1 := by
  have : min 1 (100 - k.toNat) = 1 := by omega
  exact this

theorem atSample_ccnt (s : State) (x : Voice) : (atSample s x).ccnt = x.ccnt := by
  unfold atSample
  split <;> rfl

section RenderVoice

variable {u : State} {v : Nat} (hb : u.busy = true) (he : u.events = [])
include hb he

theorem tickIfDue_eq :
    (if (u.voice v).ccnt = 0 then atomic hw (voiceTick hw v) u else u) = u.modVoice v (atSample u) := by
  split
  · rw [atomic_of_noMoves hb he, voiceTick_eq]
    exact State.modVoice_congr (if_pos ‹_›).symm
  · exact (State.modVoice_eq_self (f := atSample u) (if_neg ‹_›)).symm

/-- An active voice's sample: its tick if it is due, the words it is added into, its record. -/
theorem renderVoice_of_active (h1 : 1 ≤ u.nch.toNat) (h2 : u.nch.toNat ≤ 2) (hc : (u.voice v).ccnt.toNat < 100)
    (hx : (u.voice v).isActive = true) (start : Nat) :
    renderVoice hw start 1 u v = (mixSample start (sampleAdded u (atSample u (u.voice v))) u).modVoice v
      fun x => sampleTaken u (atSample u x) := by
  have hvoice : (u.modVoice v (atSample u)).voice v = atSample u (u.voice v) :=
    State.voice_modVoice_eq u v _ (State.lt_length_of_isActive hx)
  have hevents : (voiceSample hw v start (u.modVoice v (atSample u))).events = [] := by
    rw [voiceSample_frame]
    exact he
  have hsample : atomic hw (voiceSample hw v start) (u.modVoice v (atSample u)) =
      (mixSample start (sampleAdded u (atSample u (u.voice v))) u).modVoice v
        fun x => (Voice.sample hw u (atSample u x)).2.2 := by
    rw [atomic_of_noMoves (s := u.modVoice v (atSample u)) hb hevents,
      voiceSample_eq (s := u.modVoice v (atSample u)) v start h1 h2, hvoice, mixSample_modVoice, State.modVoice_modVoice]
    rfl
  have hloop : renderVoice hw start 1 u v = whileBusy (fun s => s.modVoice v (Voice.advance hw 1))
      (atomic hw (voiceSample hw v start) (u.modVoice v (atSample u))) := by
    rw [renderVoice, whileBusy, if_pos hb, cutFadeOut_hw, voiceLoop, Voice.sounds_hw, tickIfDue_eq hb he]
    dsimp only
    rw [hvoice, atSample_ccnt, chunkLength_one hc, hb, hx]
    rfl
  rw [hloop, hsample, whileBusy, if_pos (by rw [State.modVoice_busy, mixSample_frame]; exact hb),
    State.modVoice_modVoice]
  simp only [Voice.advance_sample h1 h2]

end RenderVoice

/-- A voice that is not active renders nothing. -/
theorem renderVoice_of_idle {u : State} {v : Nat} (hb : u.busy = true) (hx : (u.voice v).isActive = false)
    (start count : Nat) : renderVoice hw start count u v = u :=
  renderVoice_of_silent hb (by rwa [cutFadeOut_hw, Voice.sounds_hw]) start count

end Sys2Proof.Machine
end

section
/-! SUPPORT. One sample of all voices (46_voicepool.md R311, 45_voice.md R267): the voices in ascending order, each on its own record
and into the words of its index, from a state whose other fields none of them changes. -/

namespace Sys2Proof.Machine

/-- `u` is a running RENDER's state that differs from `s` in voices, buffer and cursor at most. -/
def RenderingFrom (s u : State) : Prop :=
  ∃ cur voices buf, u = { s with busy := true, cursor := cur, voices := voices, buf := buf }

section RenderingFrom

variable {s u : State}

theorem RenderingFrom.busy (h : RenderingFrom s u) : u.busy = true := by obtain ⟨_, _, _, rfl⟩ := h; rfl

theorem RenderingFrom.events (h : RenderingFrom s u) : u.events = s.events := by obtain ⟨_, _, _, rfl⟩ := h; rfl

theorem RenderingFrom.nch (h : RenderingFrom s u) : u.nch = s.nch := by obtain ⟨_, _, _, rfl⟩ := h; rfl

theorem RenderingFrom.atSample (h : RenderingFrom s u) : atSample u = atSample s := by
  obtain ⟨_, _, _, rfl⟩ := h; rfl

theorem RenderingFrom.sampleAdded (h : RenderingFrom s u) : sampleAdded u = sampleAdded s := by
  obtain ⟨_, _, _, rfl⟩ := h; rfl

theorem RenderingFrom.sampleTaken (h : RenderingFrom s u) : sampleTaken u = sampleTaken s := by
  obtain ⟨_, _, _, rfl⟩ := h; rfl

theorem RenderingFrom.mixSample_modVoice (h : RenderingFrom s u) (i : Nat) (z : Nat → Num32) (v : Nat)
    (f : Voice → Voice) : RenderingFrom s ((mixSample i z u).modVoice v f) := by
  obtain ⟨_, _, _, rfl⟩ := h
  exact ⟨_, _, _, by rw [mixSample_frame]; rfl⟩

end RenderingFrom

/-- What the voices `vs` leave of a state `u` after one sample at index `i`, where `s` gives the cells and slots they read. -/
structure SampleDone (s : State) (i : Nat) (vs : List Nat) (u t : State) : Prop where
  frame : RenderingFrom s t
  memory : Memory.wf (bufferWords hw) t.buf = true
  voice : ∀ w, t.voice w =
    if w ∈ vs ∧ (u.voice w).isActive = true then sampleTaken s (atSample s (u.voice w)) else u.voice w
  word : ∀ ch < s.nch.toNat, memRead (sampleAddr hw ch i) t =
    (((vs.map u.voice).filter Voice.isActive).map fun x => sampleAdded s (atSample s x) ch).foldl fadd
      (memRead (sampleAddr hw ch i) u)
  other : ∀ a, (∀ ch < s.nch.toNat, a ≠ sampleAddr hw ch i) → memRead a t = memRead a u

/-- Only the voices and the buffer of the first state count. -/
theorem SampleDone.congr {s u u' t : State} {i : Nat} {vs : List Nat} (h : SampleDone s i vs u t)
    (hv : u'.voices = u.voices) (hb : u'.buf = u.buf) : SampleDone s i vs u' t := by
  have hvoice : u'.voice = u.voice := funext fun w => by rw [State.voice, State.voice, hv]
  have hmem : ∀ a, memRead a u' = memRead a u := fun a => by rw [memRead, memRead, hb]
  exact ⟨h.frame, h.memory, hvoice ▸ h.voice, fun ch hch => by rw [hvoice, hmem]; exact h.word ch hch,
    fun a ha => (h.other a ha).trans (hmem a).symm⟩

section SampleDone

variable {s u : State} {i : Nat} (he : s.events = []) (h1 : 1 ≤ s.nch.toNat) (h2 : s.nch.toNat ≤ 2) (hi : i < 4096)
include he h1 h2 hi

/-- One voice. -/
theorem renderVoice_sampleDone {v : Nat} (hf : RenderingFrom s u) (hm : Memory.wf (bufferWords hw) u.buf = true)
    (hc : (u.voice v).ccnt.toNat < 100) : SampleDone s i [v] u (renderVoice hw i 1 u v) := by
  have hnch := hf.nch
  cases hx : (u.voice v).isActive with
  | false =>
    rw [renderVoice_of_idle hf.busy hx]
    refine ⟨hf, hm, fun w => ?_, fun ch _ => by simp [hx], fun a _ => rfl⟩
    rw [if_neg]
    rintro ⟨hw, hx'⟩
    rw [List.mem_singleton.1 hw, hx] at hx'
    cases hx'
  | true =>
    rw [renderVoice_of_active hf.busy (hf.events.trans he) (hnch ▸ h1) (hnch ▸ h2) hc hx, hf.atSample, hf.sampleAdded,
      hf.sampleTaken]
    refine ⟨hf.mixSample_modVoice _ _ _ _, mixSample_wf _ hm, fun w => ?_, fun ch hch => ?_, fun a ha => ?_⟩
    · have hlen := State.lt_length_of_isActive hx
      rw [State.voice_modVoice, mixSample_frame]
      by_cases hwv : w = v
      · subst hwv
        rw [if_pos ⟨rfl, hlen⟩, if_pos ⟨List.mem_singleton_self w, hx⟩]
        rfl
      · rw [if_neg fun h => hwv h.1, if_neg fun h => hwv (List.mem_singleton.1 h.1)]
        rfl
    · simp only [List.map_cons, List.map_nil, List.filter_cons, hx, if_true, List.filter_nil, List.foldl_cons,
        List.foldl_nil]
      exact memRead_mixSample _ hm hi (hnch ▸ h2) (hnch ▸ hch)
    · exact memRead_mixSample_other _ (hnch ▸ h1) (hnch ▸ ha)

/-- Several voices, one after the other. -/
theorem renderVoices_sampleDone {vs : List Nat} (hvs : vs.Nodup) (hf : RenderingFrom s u)
    (hm : Memory.wf (bufferWords hw) u.buf = true) (hc : ∀ v ∈ vs, (u.voice v).ccnt.toNat < 100) :
    SampleDone s i vs u (vs.foldl (renderVoice hw i 1) u) := by
  induction vs generalizing u with
  | nil => exact ⟨hf, hm, fun w => by simp, fun ch _ => rfl, fun a _ => rfl⟩
  | cons v vs ih =>
    obtain ⟨hv, hvs⟩ := List.nodup_cons.1 hvs
    have hfirst := renderVoice_sampleDone he h1 h2 hi hf hm (hc v List.mem_cons_self)
    rw [List.foldl_cons]
    generalize renderVoice hw i 1 u v = u1 at hfirst
    have hsame : ∀ w ∈ vs, u1.voice w = u.voice w := fun w hw => by
      rw [hfirst.voice, if_neg]
      rintro ⟨hwv, -⟩
      exact hv (List.mem_singleton.1 hwv ▸ hw)
    have hrest := ih hvs hfirst.frame hfirst.memory fun w hw => by
      rw [hsame w hw]
      exact hc w (List.mem_cons_of_mem v hw)
    refine ⟨hrest.frame, hrest.memory, fun w => ?_, fun ch hch => ?_, fun a ha => ?_⟩
    · rw [hrest.voice]
      by_cases hw : w ∈ vs
      · simp [hsame w hw, hw]
      · simp [hfirst.voice, hw]
    · rw [hrest.word ch hch, hfirst.word ch hch, List.map_congr_left hsame, ← List.foldl_append, ← List.map_append,
        ← List.filter_append, ← List.map_append]
      rfl
    · rw [hrest.other a ha, hfirst.other a ha]

end SampleDone

/-! RENDER of one sample. -/

/-- The state whose cells and slots the voices of a chunk read: `s` after the global tick, if that is due. -/
def globalTickedIfDue (s : State) : State := if s.gcnt = 0 then globalTicked (lfoFrequency s) s else s

section GlobalTickedIfDue

variable (s : State)

@[simp] theorem globalTickedIfDue_gcnt : (globalTickedIfDue s).gcnt = s.gcnt := by
  unfold globalTickedIfDue; split <;> rfl

@[simp] theorem globalTickedIfDue_nvoices : (globalTickedIfDue s).nvoices = s.nvoices := by
  unfold globalTickedIfDue; split <;> rfl

@[simp] theorem globalTickedIfDue_nch : (globalTickedIfDue s).nch = s.nch := by
  unfold globalTickedIfDue; split <;> rfl

@[simp] theorem globalTickedIfDue_events : (globalTickedIfDue s).events = s.events := by
  unfold globalTickedIfDue; split <;> rfl

@[simp] theorem globalTickedIfDue_voices : (globalTickedIfDue s).voices = s.voices := by
  unfold globalTickedIfDue; split <;> rfl

@[simp] theorem globalTickedIfDue_buf : (globalTickedIfDue s).buf = s.buf := by
  unfold globalTickedIfDue; split <;> rfl

@[simp] theorem globalTickedIfDue_voice (v : Nat) : (globalTickedIfDue s).voice v = s.voice v := by
  rw [State.voice, globalTickedIfDue_voices, State.voice]

/-- The tick does not look at the engine's status. -/
theorem globalTickedIfDue_running (cur : Option Cursor) :
    RenderingFrom (globalTickedIfDue s) (globalTickedIfDue { s with busy := true, cursor := cur }) := by
  unfold globalTickedIfDue
  split <;> exact ⟨cur, s.voices, s.buf, rfl⟩

end GlobalTickedIfDue

section Chunk

variable {s : State} {cur : Cursor} (hb : s.busy = true) (he : s.events = [])
include hb he

/-- The global tick at the beginning of a chunk, with no move chosen. -/
theorem globalTickIfDue_eq : (if s.gcnt = 0 then atomic hw (globalTick hw) s else s) = globalTickedIfDue s := by
  unfold globalTickedIfDue
  split
  · rw [atomic_of_noMoves hb (by rw [globalTick_frame]; exact he), globalTick_eq]
  · rfl

/-- A chunk of the last sample: every voice's sample, from the state after the global tick. -/
theorem chunkBody_one (hg : s.gcnt.toNat < 100) (hrem : cur.rem.toNat = 1) : chunkBody hw cur s =
    (List.range s.nvoices.toNat).foldl (renderVoice hw cur.pos.toNat 1) (globalTickedIfDue s) := by
  rw [chunkBody, globalTickIfDue_eq hb he, globalTickedIfDue_gcnt, hrem, chunkLength_one hg, liveVoices,
    globalTickedIfDue_nvoices]

theorem chunkBody_one_sampleDone (hg : s.gcnt.toNat < 100) (hrem : cur.rem.toNat = 1)
    (hc : ∀ v < s.nvoices.toNat, (s.voice v).ccnt.toNat < 100) (h1 : 1 ≤ s.nch.toNat) (h2 : s.nch.toNat ≤ 2)
    (hpos : cur.pos.toNat < 4096) (hwf : Memory.wf (bufferWords hw) s.buf = true) {r : State}
    (hr : RenderingFrom r (globalTickedIfDue s)) :
    SampleDone r cur.pos.toNat (List.range s.nvoices.toNat) s (chunkBody hw cur s) := by
  have hevents : r.events = [] := by rw [← hr.events, globalTickedIfDue_events, he]
  have hnch : r.nch = s.nch := by rw [← hr.nch, globalTickedIfDue_nch]
  rw [chunkBody_one hb he hg hrem]
  refine SampleDone.congr (renderVoices_sampleDone hevents (hnch ▸ h1) (hnch ▸ h2) hpos List.nodup_range hr (by simpa)
    fun v hv => ?_) (globalTickedIfDue_voices s).symm (globalTickedIfDue_buf s).symm
  rw [globalTickedIfDue_voice]
  exact hc v (List.mem_range.1 hv)

end Chunk

/-- RENDER of one sample, with no move chosen, is one chunk, and the counter after it. -/
theorem exec_render_one {s : State} {start : Nat} (hm : s.mode = .ready) (hr : start + 1 ≤ s.maxBlock.toNat)
    (he : s.events = []) (hg : s.gcnt.toNat < 100) (hc : ∀ v < s.nvoices.toNat, (s.voice v).ccnt.toNat < 100)
    (h1 : 1 ≤ s.nch.toNat) (h2 : s.nch.toNat ≤ 2) (hi : start < 4096)
    (hwf : Memory.wf (bufferWords hw) s.buf = true) :
    ∃ t g, exec (.render start 1) s = .next { t with gcnt := g, busy := false, cursor := none } ∧
      SampleDone (globalTickedIfDue s) start (List.range s.nvoices.toNat) s t := by
  have hpos : (BitVec.ofNat 32 start).toNat = start := by rw [BitVec.toNat_ofNat]; omega
  have hdone := chunkBody_one_sampleDone
    (s := { s with busy := true, cursor := some ⟨BitVec.ofNat 32 start, BitVec.ofNat 16 1⟩ })
    (cur := ⟨BitVec.ofNat 32 start, BitVec.ofNat 16 1⟩) rfl he hg rfl hc h1 h2 (hpos.symm ▸ hi) hwf
    (globalTickedIfDue_running s _)
  rw [hpos] at hdone
  rw [exec_render_of_accepted hm hr, renderLoop]
  dsimp only
  rw [if_neg (by decide), renderLoop, poolChunk_eq]
  generalize chunkBody hw _ _ = t at hdone ⊢
  rw [whileBusy, if_pos hdone.frame.busy]
  exact ⟨t, _, rfl, hdone.congr rfl rfl⟩

/-- Settles O37: RENDER is one chunk of one sample, and the words and records are those that `SampleDone` gives. -/
theorem renderOneSample : Obligations.RenderOneSample := by
  intro start s hm hr hmax he hg hc h1 h2 hwf
  obtain ⟨t, g, hexec, hdone⟩ := exec_render_one hm hr he hg hc h1 h2 (by omega) hwf
  have hslots : t.lfo = (globalTickedIfDue s).lfo ∧ t.lfoOut = (globalTickedIfDue s).lfoOut ∧
      t.fmIn = (globalTickedIfDue s).fmIn ∧ t.modIn = (globalTickedIfDue s).modIn := by
    obtain ⟨_, _, _, rfl⟩ := hdone.frame
    exact ⟨rfl, rfl, rfl, rfl⟩
  have hleft : sampleAddr hw 0 start = start := Nat.zero_add start
  have hright : sampleAddr hw 1 start = 4096 + start := rfl
  have hnch := congrArg BitVec.toNat (globalTickedIfDue_nch s)
  obtain ⟨hnumber, hnan⟩ := lfoFrequency_spec s
  refine ⟨lfoFrequency s, hnumber, hnan, _, hexec, fun v => ?_, hslots, ?_, fun hn => ?_, fun a ha0 ha1 => ?_⟩
  · have hvoice := hdone.voice v
    simp only [List.mem_range] at hvoice
    exact hvoice
  · exact hleft ▸ hdone.word 0 (by omega)
  · exact hright ▸ hdone.word 1 (by omega)
  · refine hdone.other a fun ch hch => ?_
    obtain rfl | ⟨rfl, hn⟩ : ch = 0 ∨ ch = 1 ∧ s.nch.toNat = 2 := by omega
    · rwa [hleft]
    · rw [hright]
      exact ha1 hn

end Sys2Proof.Machine
end

section
/-! SUPPORT. Admission of the pool's commands (46_voicepool.md R285, R295, R310, 60_exceptions.md R381, R387): dropped outside READY,
else the command's own effects. -/

namespace Sys2Proof.Machine

theorem Error.flag_eq (e : Error) : e.flag = 1#6 <<< e.bit := by
  cases e <;> rfl

/-- A C-port error is the record of R381, whether the command had raised `busy` or not. -/
theorem raise_c_eq (e : Error) (H : Word) (b : Bool) (s : State) :
    raise e H .c { s with busy := b } = rejectedC e.bit H s := by
  unfold raise rejectedC
  rw [Error.flag_eq]
  by_cases h : s.err = 0 <;> simp only [h, if_true, if_false] <;> rfl

section Admission

variable {H : Word} {body : State → State} {s : State}

theorem cCommand_of_not_ready (hm : s.mode ≠ .ready) :
    cCommand H (fun s => if s.mode ≠ .ready then raise .notPrepared H .c s else body s) s = rejectedC 2 H s := by
  simp only [cCommand, ne_eq, hm, not_false_eq_true, if_true, ite_self]
  exact raise_c_eq .notPrepared H true s

theorem cCommand_of_ready (hm : s.mode = .ready) :
    cCommand H (fun s => if s.mode ≠ .ready then raise .notPrepared H .c s else body s) s =
      body { s with busy := true } := by
  simp [cCommand, hm]

end Admission

/-- Settles O31: admission, and then the range check as the first test. -/
theorem renderRejected : Obligations.RenderRejected := by
  intro start count s
  refine ⟨fun hm => congrArg _ (cCommand_of_not_ready hm), fun hm hrange => congrArg Host.Outcome.next ?_⟩
  calc renderCommand hw (Instr.render start count).header start count s
      = raise .range (Instr.render start count).header .c { s with busy := true } :=
        (cCommand_of_ready hm).trans (if_pos hrange)
    _ = rejectedC 4 (Instr.render start count).header s := raise_c_eq .range _ true s

/-- Settles O53: the global tick's record, with the LFO's frequency of the neutral law. -/
theorem globalTickEffects : Obligations.GlobalTickEffects := fun s =>
  ⟨lfoFrequency s, (lfoFrequency_spec s).1, (lfoFrequency_spec s).2, globalTick_eq s⟩

end Sys2Proof.Machine
end

section
/-! SUPPORT. NOTEOFF on the voice table (46_voicepool.md R295, 45_voice.md R258). -/

namespace Sys2Proof.Machine

theorem Voice.stopNote_eq (tail : Bool) (x : Voice) : x.stopNote tail = if tail then noteReleased x else noteCut x := by
  cases tail <;> rfl

theorem State.getElem_voices {s : State} {v : Nat} (h : v < s.voices.length) : s.voices[v] = s.voice v :=
  (List.getD_eq_getElem _ _ h).symm

/-- NOTEOFF's loop, on the whole table. -/
theorem stopAll_voices (n : BitVec 7) (tail : Bool) (s : State) :
    ((liveVoices s).foldl (stopIfHolding n tail) s).voices = s.voices.mapIdx fun v x =>
      if v < s.nvoices.toNat ∧ x.note = some n then (if tail then noteReleased x else noteCut x) else x := by
  refine List.ext_getElem (by simp [stopAll_length]) fun v h _ => ?_
  have hv : v < s.voices.length := by rwa [stopAll_length] at h
  rw [State.getElem_voices h, stopAll_voice n tail (vs := liveVoices s) List.nodup_range, List.getElem_mapIdx,
    State.getElem_voices hv]
  simp only [liveVoices, List.mem_range, Voice.stopNote_eq]

/-- Settles O21: admission, and the loop's effect on every entry of the table. -/
theorem noteoffCommand : Obligations.NoteoffCommand := by
  intro channel n velocity tail s
  refine ⟨fun hm => congrArg _ (cCommand_of_not_ready hm), fun hm => ?_⟩
  have hvoices := stopAll_voices n tail { s with busy := true }
  rw [exec_noteoff_of_ready hm, stopAll_frame]
  exact congrArg (fun vs => Host.Outcome.next { s with voices := vs, busy := false, cursor := none }) hvoices

end Sys2Proof.Machine
end

section
/-! SUPPORT. Which voice NOTEON takes (46_voicepool.md R286, 70_reset_and_hazards.md R432), and what it leaves of it (R285). -/

namespace Sys2Proof.Machine

variable {s : State}

/-- Voice `v` started before voice `w`; of two equally old ones the lower comes first. -/
def StartedBefore (s : State) (v w : Nat) : Prop :=
  (s.voice v).seq.toNat < (s.voice w).seq.toNat ∨ (s.voice v).seq = (s.voice w).seq ∧ v ≤ w

theorem StartedBefore.antisymm {v w : Nat} (h : StartedBefore s v w) (h' : StartedBefore s w v) : v = w := by
  obtain hlt | ⟨heq, hle⟩ := h <;> obtain hlt' | ⟨heq', hle'⟩ := h'
  · omega
  · rw [heq'] at hlt; omega
  · rw [heq] at hlt'; omega
  · omega

theorem StartedBefore.trans {v w x : Nat} (h : StartedBefore s v w) (h' : StartedBefore s w x) : StartedBefore s v x := by
  obtain hlt | ⟨heq, hle⟩ := h <;> obtain hlt' | ⟨heq', hle'⟩ := h'
  · exact .inl (hlt.trans hlt')
  · exact .inl (heq' ▸ hlt)
  · exact .inl (heq ▸ hlt')
  · exact .inr ⟨heq.trans heq', hle.trans hle'⟩

/-- Of a rising list, `oldest` is the voice that started before all. -/
theorem oldest_spec {vs : List Nat} (hvs : vs.Pairwise (· < ·)) (hne : vs ≠ []) :
    ∃ v ∈ vs, oldest s vs = some v ∧ ∀ w ∈ vs, StartedBefore s v w := by
  induction vs with
  | nil => exact absurd rfl hne
  | cons v vs ih =>
    obtain ⟨hv, hvs⟩ := List.pairwise_cons.1 hvs
    have hself : StartedBefore s v v := .inr ⟨rfl, le_rfl⟩
    unfold oldest
    by_cases hnil : vs = []
    · subst hnil
      exact ⟨v, List.mem_cons_self, rfl, fun w hw => List.mem_singleton.1 hw ▸ hself⟩
    · obtain ⟨w, hw, hold, hfirst⟩ := ih hvs hnil
      rw [hold]
      dsimp only
      split
      · exact ⟨w, List.mem_cons_of_mem v hw, rfl, List.forall_mem_cons.2 ⟨.inl ‹_›, hfirst⟩⟩
      · have hbefore : StartedBefore s v w := by
          obtain hlt | heq := Nat.lt_or_eq_of_le (Nat.le_of_not_lt ‹_›)
          · exact .inl hlt
          · exact .inr ⟨BitVec.eq_of_toNat_eq heq, (hv w hw).le⟩
        exact ⟨v, List.mem_cons_self, rfl, List.forall_mem_cons.2 ⟨hself, fun x hx => hbefore.trans (hfirst x hx)⟩⟩

/-- One tier of the steal: the oldest of the existing voices with a property, or none if no voice has it. -/
theorem oldest_filter (s : State) (p : Voice → Bool) :
    (∃ v, oldest s ((liveVoices s).filter fun v => p (s.voice v)) = some v ∧ OldestOf s (fun x => p x = true) v) ∨
    (oldest s ((liveVoices s).filter fun v => p (s.voice v)) = none ∧ ∀ w < s.nvoices.toNat, p (s.voice w) = false) := by
  have hmem : ∀ v, v ∈ (liveVoices s).filter (fun v => p (s.voice v)) ↔ v < s.nvoices.toNat ∧ p (s.voice v) = true :=
    fun v => by rw [List.mem_filter, liveVoices, List.mem_range]
  by_cases hnil : (liveVoices s).filter (fun v => p (s.voice v)) = []
  · refine .inr ⟨by rw [hnil]; rfl, fun w hw => ?_⟩
    by_contra hp
    exact List.not_mem_nil (hnil ▸ (hmem w).2 ⟨hw, Bool.eq_true_of_not_eq_false hp⟩)
  · obtain ⟨v, hv, hold, hfirst⟩ := oldest_spec (s := s) (List.pairwise_lt_range.filter _) hnil
    obtain ⟨hlive, hp⟩ := (hmem v).1 hv
    exact .inl ⟨v, hold, hlive, hp, fun w hw hpw => hfirst w ((hmem w).2 ⟨hw, hpw⟩)⟩

theorem OldestOf.congr {S S' : Voice → Prop} {v : Nat} (h : OldestOf s S v) (hS : ∀ x, S x ↔ S' x) : OldestOf s S' v :=
  funext (fun x => propext (hS x)) ▸ h

theorem OldestOf.unique {S : Voice → Prop} {v w : Nat} (h : OldestOf s S v) (h' : OldestOf s S w) : v = w :=
  StartedBefore.antisymm (h.2.2 w h'.1 h'.2.1) (h'.2.2 v h.1 h.2.1)

/-- The tiers of the steal in order (R286). -/
theorem stealVoice_spec (n : BitVec 7) (hn : s.nvoices ≠ 0) : ∃ v, stealVoice n s = some v ∧ StealChoice s n v := by
  unfold stealVoice
  dsimp only
  obtain ⟨v, hv, hpitch⟩ | ⟨hnone, hpitch⟩ := oldest_filter s fun x => x.note == some n
  · exact ⟨v, by rw [hv]; rfl, .inl (hpitch.congr fun _ => beq_iff_eq)⟩
  have hother : ∀ w < s.nvoices.toNat, (s.voice w).note ≠ some n := fun w hw => beq_eq_false_iff_ne.1 (hpitch w hw)
  rw [hnone, Option.none_or]
  obtain ⟨v, hv, hup⟩ | ⟨hnone, hdown⟩ := oldest_filter s fun x => !x.keyDown && !x.sustainHeld
  · exact ⟨v, by rw [hv]; rfl, .inr (.inl ⟨hother, hup.congr fun x => by simp [Voice.sustainHeld]⟩)⟩
  have hdown : ∀ w < s.nvoices.toNat, (s.voice w).keyDown = true := by simpa [Voice.sustainHeld] using hdown
  rw [hnone, Option.none_or]
  obtain ⟨v, hv, hlive, hup, -⟩ | ⟨hnone, -⟩ := oldest_filter s fun x => !x.keyDown
  · rw [hdown v hlive] at hup
    cases hup
  rw [hnone, Option.none_or]
  obtain ⟨v, hv, hany⟩ | ⟨-, hempty⟩ := oldest_filter s fun _ => true
  · rw [List.filter_true] at hv
    exact ⟨v, hv, .inr (.inr ⟨fun w hw => ⟨hother w hw, hdown w hw⟩, hany.congr fun _ => by simp⟩)⟩
  · have hpos : 0 < s.nvoices.toNat := Nat.pos_of_ne_zero fun h0 => hn (BitVec.eq_of_toNat_eq h0)
    cases hempty 0 hpos

theorem StealChoice.unique {n : BitVec 7} {v w : Nat} (h : StealChoice s n v) (h' : StealChoice s n w) : v = w := by
  obtain h | ⟨hn, h⟩ | ⟨hn, h⟩ := h <;> obtain h' | ⟨hn', h'⟩ | ⟨hn', h'⟩ := h'
  case inl.inl => exact h.unique h'
  case inr.inl.inr.inl => exact h.unique h'
  case inr.inr.inr.inr => exact h.unique h'
  case inl.inr.inl => exact absurd h.2.1 (hn' v h.1)
  case inl.inr.inr => exact absurd h.2.1 (hn' v h.1).1
  case inr.inl.inl => exact absurd h'.2.1 (hn w h'.1)
  case inr.inr.inl => exact absurd h'.2.1 (hn w h'.1).1
  case inr.inl.inr.inr => exact absurd ((hn' v h.1).2.symm.trans h.2.1) (by decide)
  case inr.inr.inr.inl => exact absurd ((hn w h'.1).2.symm.trans h'.2.1) (by decide)

theorem LeastFree.unique {v w : Nat} (h : LeastFree s v) (h' : LeastFree s w) : v = w :=
  Nat.le_antisymm (Nat.le_of_not_lt fun hlt => h.2.2 w hlt h'.2.1) (Nat.le_of_not_lt fun hlt => h'.2.2 v hlt h.2.1)

/-- NOTEON's voice: the least free one, or, if none is free, the stolen one. -/
theorem findVoice_spec (n : BitVec 7) (hn : s.nvoices ≠ 0) : LeastFree s (findVoice n s) ∨
    (∀ w < s.nvoices.toNat, (s.voice w).note ≠ none) ∧ StealChoice s n (findVoice n s) := by
  have hfree : ∀ w, (s.voice w).isFree = true ↔ (s.voice w).note = none := fun w => Option.isNone_iff_eq_none
  unfold findVoice
  split
  · rename_i v hv
    obtain ⟨hv, hlive, hbelow⟩ := List.find?_range_eq_some.1 hv
    refine .inl ⟨List.mem_range.1 hlive, (hfree v).1 hv, fun w hw hnone => ?_⟩
    have hbusy := hbelow w hw
    rw [(hfree w).2 hnone] at hbusy
    cases hbusy
  · rename_i hnone
    obtain ⟨v, hv, hsteal⟩ := stealVoice_spec n hn
    rw [hv]
    refine .inr ⟨fun w hw h => ?_, hsteal⟩
    have hbusy := List.find?_range_eq_none.1 hnone w hw
    rw [(hfree w).2 h] at hbusy
    cases hbusy

theorem findVoice_of_leastFree (n : BitVec 7) {v : Nat} (h : LeastFree s v) : findVoice n s = v := by
  have hn : s.nvoices ≠ 0 := fun h0 => absurd h.1 (by simp [h0])
  obtain hv | ⟨hnone, -⟩ := findVoice_spec n hn
  · exact hv.unique h
  · exact absurd h.2.1 (hnone v h.1)

theorem findVoice_of_stealChoice {n : BitVec 7} {v : Nat} (hnone : ∀ w < s.nvoices.toNat, (s.voice w).note ≠ none)
    (hn : s.nvoices ≠ 0) (h : StealChoice s n v) : findVoice n s = v := by
  obtain hv | ⟨-, hv⟩ := findVoice_spec n hn
  · exact absurd hv.2.1 (hnone _ hv.1)
  · exact hv.unique h

theorem midiHz_hw (n : Nat) :
    midiHz hw n = fmul hw.a4Hz (hw.num.exp2 (fdiv (fsub (intToNum n) Num32.n69) Num32.twelve)) := rfl

theorem keyboardTrack_hw (n : Nat) :
    keyboardTrack hw n = hw.num.exp2 (fdiv (fsub (intToNum n) Num32.n64) Num32.twelve) := rfl

/-- The two numbers of the note are kept closed: unfolded, they would be searched for. -/
theorem Voice.startNote_eq (s : State) (n : BitVec 7) (x : Voice) :
    { x.startNote hw s n with seq := s.noteSeq } = noteStarted s n x := by
  rw [noteStarted, Voice.startNote, Filt.setNote, ← midiHz_hw, ← keyboardTrack_hw]
  generalize midiHz hw n.toNat = hz
  generalize keyboardTrack hw n.toNat = kbd
  rfl

/-- A note that starts on voice `v` and its number, as one entry of the table. -/
theorem startNote_modVoice (s : State) (v : Nat) (n : BitVec 7) (f : Voice → Voice) :
    ((s.modVoice v f).modVoice v (Voice.startNote hw (s.modVoice v f) n)).modVoice v (fun x => { x with seq := s.noteSeq }) =
      { s with voices := s.voices.set v (noteStarted s n (f (s.voice v))) } := by
  have hrecord : (fun x => { Voice.startNote hw (s.modVoice v f) n (f x) with seq := s.noteSeq }) =
      fun x => noteStarted s n (f x) := funext fun x => Voice.startNote_eq s n (f x)
  rw [State.modVoice_modVoice, State.modVoice_modVoice, hrecord,
    ← State.modVoice_const s v fun x => noteStarted s n (f x), State.modVoice, List.set_eq_modify]

/-- The voice that NOTEON takes, cut first if it holds a note, in one record. -/
theorem takeVoice_eq (v : Nat) (n : BitVec 7) : takeVoice hw v n s = { s with
    voices := s.voices.set v (noteStarted s n (if (s.voice v).isFree then s.voice v else noteCut (s.voice v))),
    noteSeq := s.noteSeq + 1 } := by
  unfold takeVoice
  dsimp only
  split
  · have hstart := startNote_modVoice s v n id
    rw [State.modVoice_eq_self (f := id) rfl] at hstart
    exact congrArg (fun u : State => { u with noteSeq := s.noteSeq + 1 }) hstart
  · exact congrArg (fun u : State => { u with noteSeq := s.noteSeq + 1 }) (startNote_modVoice s v n (Voice.stopNote false))

theorem StealChoice.lt {n : BitVec 7} {v : Nat} (h : StealChoice s n v) : v < s.nvoices.toNat := by
  obtain h | ⟨-, h⟩ | ⟨-, h⟩ := h <;> exact h.1

/-- NOTEON in READY on voice `v`, if that is the one found. -/
theorem exec_noteon_of_findVoice {n : BitVec 7} {v : Nat} (hm : s.mode = .ready) (hn : s.nvoices ≠ 0)
    (hv : findVoice n { s with busy := true } = v) (channel : Nat) (velocity : Word) :
    exec (.noteon channel n.toNat velocity) s = .next { s with
      voices := s.voices.set v (noteStarted s n (if (s.voice v).isFree then s.voice v else noteCut (s.voice v))),
      noteSeq := s.noteSeq + 1, busy := false, cursor := none } := by
  have hready : exec (.noteon channel n.toNat velocity) s =
      .next (endCommand (takeVoice hw (findVoice n { s with busy := true }) n { s with busy := true })) := by
    have hbranch := (cCommand_of_ready (H := (Instr.noteon channel n.toNat velocity).header) (body := fun s =>
      if s.nvoices = 0 then { raise .capacity (Instr.noteon channel n.toNat velocity).header .c s with mode := .halted }
      else endCommand (takeVoice hw (findVoice n s) n s)) hm).trans (if_neg hn)
    rw [← hbranch]
    simp only [exec, execNoteon, noteOn, BitVec.ofNat_toNat, BitVec.setWidth_eq]
  rw [hready, hv, takeVoice_eq]
  rfl

/-- Settles O20: admission; with voices, `findVoice` gives the least free voice or the steal's choice, of which there is only one. -/
theorem noteonCommand : Obligations.NoteonCommand := by
  intro channel n velocity s i started noneFree
  have hfree : s.mode = .ready → ∀ v, LeastFree s v → started v (s.voice v) := fun hm v hv => by
    have hn : s.nvoices ≠ 0 := fun h0 => absurd hv.1 (by simp [h0])
    have hisFree : (s.voice v).isFree = true := Option.isNone_iff_eq_none.2 hv.2.1
    have hexec := exec_noteon_of_findVoice hm hn (findVoice_of_leastFree n (s := { s with busy := true }) hv) channel velocity
    rwa [if_pos hisFree] at hexec
  have hsteal : s.mode = .ready → noneFree → ∀ v, StealChoice s n v → started v (noteCut (s.voice v)) := fun hm hnone v hv => by
    have hn : s.nvoices ≠ 0 := fun h0 => absurd hv.lt (by simp [h0])
    have hbusy : ¬ (s.voice v).isFree = true := fun h => hnone v hv.lt (Option.isNone_iff_eq_none.1 h)
    have hexec := exec_noteon_of_findVoice hm hn
      (findVoice_of_stealChoice (s := { s with busy := true }) hnone hn hv) channel velocity
    rwa [if_neg hbusy] at hexec
  refine ⟨fun hm => congrArg Host.Outcome.next (cCommand_of_not_ready hm), fun hm hn => congrArg Host.Outcome.next ?_,
    fun hm hn => ?_, hfree, hsteal⟩
  · calc noteOn hw i.header (BitVec.ofNat 7 n.toNat) s
        = { raise .capacity i.header .c { s with busy := true } with mode := .halted } :=
          (cCommand_of_ready hm).trans (if_pos hn)
      _ = { rejectedC 3 i.header s with mode := .halted } := by rw [raise_c_eq]; rfl
  · obtain hv | ⟨hnone, hv⟩ := findVoice_spec (s := s) n hn
    · exact .inl ⟨_, hv, hfree hm _ hv⟩
    · exact .inr ⟨hnone, _, hv, hsteal hm hnone _ hv⟩

end Sys2Proof.Machine
end

section
/-! SUPPORT. A voice's rendering as a function of its record (45_voice.md R266, R267): the numbers it adds into the buffer, in
order, and the record it leaves. With no move chosen `voiceLoop` is that function on the voice's entry. -/

namespace Sys2Proof.Machine

/-- A part of a voice's rendering: the numbers it adds, each with its word address, in order, and the record after it. -/
structure VoicePart where
  added : List (Nat × Num32)
  record : Voice

namespace VoicePart

/-- The part that adds nothing. -/
def silent (x : Voice) : VoicePart := ⟨[], x⟩

/-- `p`, and then `q` from the record that `p` leaves. -/
def andThen (p : VoicePart) (q : Voice → VoicePart) : VoicePart :=
  ⟨p.added ++ (q p.record).added, (q p.record).record⟩

@[simp] theorem silent_andThen (x : Voice) (q : Voice → VoicePart) : (silent x).andThen q = q x := rfl

@[simp] theorem silent_record (x : Voice) : (silent x).record = x := rfl

@[simp] theorem andThen_silent (p : VoicePart) : p.andThen silent = p := by
  simp [andThen, silent]

theorem andThen_assoc (p : VoicePart) (q r : Voice → VoicePart) :
    (p.andThen q).andThen r = p.andThen fun x => (q x).andThen r := by
  simp [andThen]

@[simp] theorem andThen_record (p : VoicePart) (q : Voice → VoicePart) :
    (p.andThen q).record = (q p.record).record := rfl

end VoicePart

/-- One sample: a number for each channel in use (R267). -/
def Voice.samplePart (c : Params) (s : State) (i : Nat) (x : Voice) : VoicePart :=
  let r := x.sample c s
  ⟨(if 1 ≤ s.nch.toNat then [(sampleAddr c 0 i, r.1)] else []) ++
    (if 2 ≤ s.nch.toNat then [(sampleAddr c 1 i, r.2.1)] else []), r.2.2⟩

/-- `n` samples from index `i` on. -/
def Voice.samplesPart (c : Params) (s : State) : Nat → Nat → Voice → VoicePart
  | 0, _, x => .silent x
  | n + 1, i, x => (x.samplePart c s i).andThen (Voice.samplesPart c s n (i + 1))

/-- A voice with which a sub-chunk begins: its tick is due when its counter is 0 (R262). -/
def Voice.tickedIfDue (c : Params) (s : State) (x : Voice) : Voice := if x.ccnt = 0 then x.tick c s else x

/-- `left` samples from index `pos` on, in at most `k` sub-chunks (R266). -/
def Voice.renderPart (c : Params) (s : State) : Nat → Nat → Nat → Voice → VoicePart
  | 0, _, _, x => .silent x
  | k + 1, pos, left, x =>
    if left = 0 || !x.sounds c then .silent x
    else
      let n := chunkLength c left (x.tickedIfDue c s).ccnt
      ((x.tickedIfDue c s).samplesPart c s n pos).andThen fun y =>
        Voice.renderPart c s k (pos + n) (left - n) (y.advance c n)

/-- Adds a number into a word. -/
def addWord (c : Params) (s : State) (e : Nat × Num32) : State := memWrite c e.1 (fadd (memRead e.1 s) e.2) s

/-- A part of voice `v`'s rendering takes place: its numbers are added and its record is put back. -/
def playPart (c : Params) (p : Voice → VoicePart) (s : State) (v : Nat) : State :=
  (p (s.voice v)).added.foldl (addWord c) (s.modVoice v fun x => (p x).record)

/-! Playing a part. -/

section Play

variable {c : Params} {p q : Voice → VoicePart} {s u : State} {v : Nat}

theorem addWords_frame (c : Params) (l : List (Nat × Num32)) (s : State) :
    l.foldl (addWord c) s = { s with buf := (l.foldl (addWord c) s).buf } := by
  obtain ⟨b, h⟩ := foldl_only (fun s t => ∃ b, t = { s with buf := b }) (fun s => ⟨s.buf, rfl⟩)
    (fun _ _ _ ⟨_, h1⟩ ⟨b, h2⟩ => ⟨b, by rw [h2, h1]⟩) (addWord c)
    (fun s e => by unfold addWord memWrite; split; exacts [⟨_, rfl⟩, ⟨s.buf, rfl⟩]) l s
  rw [h]

theorem addWord_congr (c : Params) (e : Nat × Num32) {f : State → State}
    (hf : ∀ s b, f { s with buf := b } = { f s with buf := b }) (hbuf : ∀ s, (f s).buf = s.buf) (s : State) :
    addWord c (f s) e = f (addWord c s e) := by
  unfold addWord memWrite memRead
  rw [hbuf]
  split
  · exact (hf s _).symm
  · rfl

/-- Adding numbers and a change that neither reads nor writes the buffer can be exchanged. -/
theorem addWords_comm (c : Params) (l : List (Nat × Num32)) {f : State → State}
    (hf : ∀ s b, f { s with buf := b } = { f s with buf := b }) (hbuf : ∀ s, (f s).buf = s.buf) (s : State) :
    l.foldl (addWord c) (f s) = f (l.foldl (addWord c) s) :=
  List.foldl_hom f fun s e => addWord_congr c e hf hbuf s

theorem addWords_modVoice (c : Params) (l : List (Nat × Num32)) (v : Nat) (f : Voice → Voice) (s : State) :
    l.foldl (addWord c) (s.modVoice v f) = (l.foldl (addWord c) s).modVoice v f :=
  addWords_comm c l (f := fun s => s.modVoice v f) (fun _ _ => rfl) (fun _ => rfl) s

theorem addWords_voice (c : Params) (l : List (Nat × Num32)) (s : State) (w : Nat) :
    (l.foldl (addWord c) s).voice w = s.voice w := by
  rw [addWords_frame]
  rfl

theorem playPart_frame (c : Params) (p : Voice → VoicePart) (s : State) (v : Nat) :
    playPart c p s v = { s with voices := (playPart c p s v).voices, buf := (playPart c p s v).buf } := by
  unfold playPart
  rw [addWords_frame]
  rfl

@[simp] theorem playPart_length (c : Params) (p : Voice → VoicePart) (s : State) (v : Nat) :
    (playPart c p s v).voices.length = s.voices.length := by
  rw [playPart, addWords_frame]
  exact List.length_modify ..

theorem playPart_voice (h : v < s.voices.length) : (playPart c p s v).voice v = (p (s.voice v)).record := by
  rw [playPart, addWords_voice, State.voice_modVoice_eq s v _ h]

theorem playPart_voice_ne {w : Nat} (h : v ≠ w) : (playPart c p s v).voice w = s.voice w := by
  rw [playPart, addWords_voice, State.voice_modVoice_ne s _ h]

/-- Only what `p` gives for the voice's own record counts. -/
theorem playPart_congr (h : p (s.voice v) = q (s.voice v)) : playPart c p s v = playPart c q s v := by
  rw [playPart, playPart, h,
    State.modVoice_congr (f := fun x => (p x).record) (g := fun x => (q x).record) (congrArg VoicePart.record h)]

theorem playPart_silent (h : p (s.voice v) = .silent (s.voice v)) : playPart c p s v = s := by
  rw [playPart, h, State.modVoice_eq_self (f := fun x => (p x).record) (congrArg VoicePart.record h)]
  rfl

theorem playPart_andThen (h : v < s.voices.length) :
    playPart c (fun x => (p x).andThen q) s v = playPart c q (playPart c p s v) v := by
  rw [playPart.eq_1 c q, playPart_voice h, playPart.eq_1 c p, ← addWords_modVoice, State.modVoice_modVoice,
    ← List.foldl_append]
  rfl

theorem RenderingFrom.playPart (h : RenderingFrom s u) (c : Params) (p : Voice → VoicePart) (v : Nat) :
    RenderingFrom s (playPart c p u v) := by
  rw [playPart_frame]
  obtain ⟨_, _, _, rfl⟩ := h
  exact ⟨_, _, _, rfl⟩

end Play

end Sys2Proof.Machine
end

section
/-! SUPPORT. With no move chosen, rendering a voice plays its part (45_voice.md R266, R267). -/

namespace Sys2Proof.Machine

variable {c : Params} {s u : State} {v : Nat}

theorem voiceSample_eq_playPart (hf : RenderingFrom s u) (c : Params) (v i : Nat) :
    voiceSample c v i u = playPart c (Voice.samplePart c s i) u v := by
  obtain ⟨cur, vs, buf, rfl⟩ := hf
  have hrecord := State.modVoice_const { s with busy := true, cursor := cur, voices := vs, buf := buf } v
    fun x => (x.sample c s).2.2
  unfold playPart
  rw [show (fun x => (Voice.samplePart c s i x).record) = fun x => (x.sample c s).2.2 from rfl, ← hrecord]
  unfold voiceSample Voice.samplePart mixIn
  dsimp only
  by_cases h1 : 1 ≤ s.nch.toNat <;> by_cases h2 : 2 ≤ s.nch.toNat <;> simp only [h1, h2, if_true, if_false] <;> rfl

theorem atomic_voiceSample (hf : RenderingFrom s u) (he : s.events = []) (c : Params) (v i : Nat) :
    atomic c (voiceSample c v i) u = playPart c (Voice.samplePart c s i) u v := by
  rw [atomic_of_noMoves hf.busy, voiceSample_eq_playPart hf]
  rw [voiceSample_frame]
  exact hf.events.trans he

theorem sampleLoop_eq_playPart (hf : RenderingFrom s u) (he : s.events = []) (hv : v < u.voices.length) (n i : Nat) :
    sampleLoop c v n i u = playPart c (Voice.samplesPart c s n i) u v := by
  induction n generalizing u i with
  | zero => exact (playPart_silent rfl).symm
  | succ n ih =>
    have hlen : v < (playPart c (Voice.samplePart c s i) u v).voices.length := by rwa [playPart_length]
    rw [sampleLoop, atomic_voiceSample hf he, ih (hf.playPart c _ v) hlen, ← playPart_andThen hv]
    rfl

/-- A change of the record alone is a part that adds nothing. -/
theorem silent_playPart (c : Params) (f : Voice → Voice) (s : State) (v : Nat) :
    playPart c (fun x => .silent (f x)) s v = s.modVoice v f := rfl

theorem tickIfDue_eq_playPart (hf : RenderingFrom s u) (he : s.events = []) :
    (if (u.voice v).ccnt = 0 then atomic c (voiceTick c v) u else u) =
      playPart c (fun x => .silent (x.tickedIfDue c s)) u v := by
  rw [silent_playPart]
  split
  · have htick : Voice.tick c u = Voice.tick c s := by obtain ⟨_, _, _, rfl⟩ := hf; rfl
    rw [atomic_of_noMoves hf.busy (hf.events.trans he), voiceTick, htick]
    exact State.modVoice_congr (if_pos ‹_›).symm
  · exact (State.modVoice_eq_self (f := Voice.tickedIfDue c s) (if_neg ‹_›)).symm

theorem State.lt_length_of_sounds (h : (u.voice v).sounds c = true) : v < u.voices.length := by
  by_contra hv
  rw [State.voice_of_length_le (Nat.le_of_not_lt hv)] at h
  simp [Voice.sounds, Voice.reset, Voice.isActive, Env.isActive, Env.reset] at h

theorem voiceLoop_eq_playPart (hf : RenderingFrom s u) (he : s.events = []) (k pos left : Nat) :
    voiceLoop c v k pos left u = playPart c (Voice.renderPart c s k pos left) u v := by
  induction k generalizing u pos left with
  | zero => exact (playPart_silent rfl).symm
  | succ k ih =>
    unfold voiceLoop
    rw [hf.busy, Bool.not_true, Bool.or_false]
    split
    · exact (playPart_silent (if_pos ‹_›)).symm
    have hsounds : (u.voice v).sounds c = true := by
      by_contra h
      simp [h] at *
    have hv : v < u.voices.length := State.lt_length_of_sounds hsounds
    dsimp only
    rw [tickIfDue_eq_playPart hf he, playPart_voice hv]
    have hf1 := hf.playPart c (fun x => .silent (x.tickedIfDue c s)) v
    generalize hn : chunkLength c left _ = n
    rw [sampleLoop_eq_playPart hf1 he (by rwa [playPart_length]), whileBusy,
      if_pos (hf1.playPart c _ v).busy, ← silent_playPart, ih ((hf1.playPart c _ v).playPart c _ v),
      ← playPart_andThen (by simpa using hv), ← playPart_andThen (by simpa using hv), ← playPart_andThen hv]
    refine playPart_congr ?_
    rw [Voice.renderPart, if_neg ‹_›, ← hn]
    rfl

end Sys2Proof.Machine
end

section
/-! SUPPORT. A voice's part cut in two (45_voice.md R262, R266, R268): the second part goes on where the first ended, unless the
voice ended at a tick of the first part whose sub-chunk is still open. -/

namespace Sys2Proof.Machine

variable {c : Params} {s : State} {x : Voice}

/-! Counters. -/

theorem advanceCounter_toNat (c : Params) (n : Nat) (k : BitVec 16) :
    (advanceCounter c n k).toNat = (k.toNat + n) % c.controlDiv := by
  have hpos := c.controlDiv_legal
  have hlt : (k.toNat + n) % c.controlDiv < c.controlDiv := Nat.mod_lt _ (by omega)
  rw [advanceCounter, BitVec.toNat_ofNat]
  exact Nat.mod_eq_of_lt (by omega)

theorem advanceCounter_lt_controlDiv (c : Params) (n : Nat) (k : BitVec 16) :
    (advanceCounter c n k).toNat < c.controlDiv := by
  rw [advanceCounter_toNat]
  exact Nat.mod_lt _ c.controlDiv_legal.1

/-- Inside a control period the counter counts up. -/
theorem advanceCounter_of_lt {n : Nat} {k : BitVec 16} (h : k.toNat + n < c.controlDiv) :
    (advanceCounter c n k).toNat = k.toNat + n := by
  rw [advanceCounter_toNat, Nat.mod_eq_of_lt h]

theorem advanceCounter_advanceCounter (c : Params) (m n : Nat) (k : BitVec 16) :
    advanceCounter c n (advanceCounter c m k) = advanceCounter c (m + n) k := by
  refine BitVec.eq_of_toNat_eq ?_
  rw [advanceCounter_toNat, advanceCounter_toNat, advanceCounter_toNat, Nat.mod_add_mod, Nat.add_assoc]

theorem advanceCounter_ne_zero {n : Nat} {k : BitVec 16} (hn : 0 < n) (h : k.toNat + n < c.controlDiv) :
    advanceCounter c n k ≠ 0 := fun h0 => by
  have := advanceCounter_of_lt h
  rw [h0] at this
  simp at this
  omega

/-! What a tick, samples and the bookkeeping leave of counter and activity. -/

theorem Voice.tick_ccnt (c : Params) (s : State) (x : Voice) : (x.tick c s).ccnt = x.ccnt := by
  obtain ⟨a, b, e⟩ := matrixProcess_voice_frame c.matrixZeroDisabled s.vr (x.tickEnvs c s)
  rw [Voice.tick, e, Voice.tickFree_eq]
  rfl

theorem Voice.tickedIfDue_ccnt (c : Params) (s : State) (x : Voice) : (x.tickedIfDue c s).ccnt = x.ccnt := by
  unfold Voice.tickedIfDue
  split
  · exact Voice.tick_ccnt c s x
  · rfl

/-- In the reading `fadeOutGoesOn` a voice sounds after its tick, whether it ended there or not. -/
theorem Voice.tick_sounds (hc : c.fadeOutGoesOn = true) (s : State) (x : Voice) : (x.tick c s).sounds c = true := by
  have hfree : ∀ y : Voice, (y.tickFree c).sounds c = true := fun y => by
    rw [Voice.tickFree_eq, Voice.sounds, hc]
    cases hy : y.isActive
    · simp
    · simpa [Voice.isActive] using Or.inl hy
  exact hfree _

theorem Voice.samplesPart_ccnt (c : Params) (s : State) (n i : Nat) (x : Voice) :
    (x.samplesPart c s n i).record.ccnt = x.ccnt := by
  induction n generalizing i x with
  | zero => rfl
  | succ n ih => exact ih (i + 1) _

theorem Voice.samplesPart_sounds (c : Params) (s : State) (n i : Nat) (x : Voice) :
    (x.samplesPart c s n i).record.sounds c = x.sounds c := by
  induction n generalizing i x with
  | zero => rfl
  | succ n ih => exact ih (i + 1) _

/-- Samples do not look at the counter. -/
theorem Voice.samplesPart_advance (c : Params) (s : State) (m n i : Nat) (x : Voice) :
    (x.advance c m).samplesPart c s n i = (x.samplesPart c s n i).andThen fun y => .silent (y.advance c m) := by
  induction n generalizing i x with
  | zero => rfl
  | succ n ih =>
    have hsample : (x.advance c m).samplePart c s i = (x.samplePart c s i).andThen fun y => .silent (y.advance c m) := by
      rw [VoicePart.andThen, VoicePart.silent, List.append_nil]
      rfl
    rw [Voice.samplesPart, Voice.samplesPart, hsample, VoicePart.andThen_assoc, VoicePart.andThen_assoc]
    exact congrArg (VoicePart.andThen _) (funext fun y => ih (i + 1) y)

theorem Voice.samplesPart_add (c : Params) (s : State) (m n i : Nat) (x : Voice) :
    x.samplesPart c s (m + n) i = (x.samplesPart c s m i).andThen (Voice.samplesPart c s n (i + m)) := by
  induction m generalizing i x with
  | zero => rw [Nat.zero_add]; rfl
  | succ m ih =>
    rw [Nat.succ_add, Voice.samplesPart, Voice.samplesPart, VoicePart.andThen_assoc]
    refine congrArg (VoicePart.andThen _) (funext fun y => ?_)
    rw [ih (i + 1) y, Nat.succ_add_eq_add_succ]

/-- Inside a control period an open fade-out stays open. -/
theorem Voice.advance_fading {m : Nat} (hm : 0 < m) (h : x.ccnt.toNat + m < c.controlDiv) :
    (x.advance c m).fading = (c.fadeOutGoesOn && x.fading) := by
  have hne : (advanceCounter c m x.ccnt != 0) = true := bne_iff_ne.2 (advanceCounter_ne_zero hm h)
  rw [Voice.advance]
  dsimp only
  rw [hne, Bool.and_true]

theorem Voice.advance_advance {m : Nat} (n : Nat) (hm : 0 < m) (h : x.ccnt.toNat + m < c.controlDiv) :
    (x.advance c m).advance c n = x.advance c (m + n) := by
  rw [Voice.advance, Voice.advance_fading hm h, ← Bool.and_assoc, Bool.and_self]
  simp only [Voice.advance, advanceCounter_advanceCounter]

theorem Voice.advance_sounds {m : Nat} (hm : 0 < m) (h : x.ccnt.toNat + m < c.controlDiv) :
    (x.advance c m).sounds c = x.sounds c := by
  rw [Voice.sounds, Voice.advance_fading hm h, ← Bool.and_assoc, Bool.and_self]
  rfl

/-! The range of one call of `renderBlock`, sub-chunk by sub-chunk. -/

/-- `n` samples from index `pos` on, in as many sub-chunks as it takes (R266). -/
def Voice.rangePart (c : Params) (s : State) (pos n : Nat) (x : Voice) : VoicePart := x.renderPart c s n pos n

theorem Voice.renderPart_of_done {left : Nat} (h : left = 0 ∨ x.sounds c = false) (k pos : Nat) :
    x.renderPart c s k pos left = .silent x := by
  cases k with
  | zero => rfl
  | succ k => rw [Voice.renderPart, if_pos (by simpa using h)]

/-- Every sub-chunk has a sample, so a bound above the samples left is never met (log entry 19). -/
theorem Voice.renderPart_bound {k k' left : Nat} (hk : left ≤ k) (hk' : left ≤ k') (pos : Nat)
    (hx : x.ccnt.toNat < c.controlDiv) : x.renderPart c s k pos left = x.renderPart c s k' pos left := by
  induction k generalizing k' left pos x with
  | zero =>
    obtain rfl : left = 0 := by omega
    rw [Voice.renderPart_of_done (.inl rfl), Voice.renderPart_of_done (.inl rfl)]
  | succ k ih =>
    by_cases hdone : left = 0 ∨ x.sounds c = false
    · rw [Voice.renderPart_of_done hdone, Voice.renderPart_of_done hdone]
    obtain ⟨k', rfl⟩ : ∃ m, k' = m + 1 := ⟨k' - 1, by omega⟩
    have hn : 0 < chunkLength c left (x.tickedIfDue c s).ccnt := by
      rw [Voice.tickedIfDue_ccnt, chunkLength]
      omega
    rw [Voice.renderPart, Voice.renderPart, if_neg (by simpa using hdone), if_neg (by simpa using hdone)]
    exact congrArg (VoicePart.andThen _) (funext fun y =>
      ih (by omega) (by omega) _ (advanceCounter_lt_controlDiv c _ _))

theorem Voice.rangePart_of_done {n : Nat} (h : n = 0 ∨ x.sounds c = false) (pos : Nat) :
    x.rangePart c s pos n = .silent x := Voice.renderPart_of_done h n pos

/-- The first sub-chunk of a range, up to the voice's next tick, and the rest. -/
theorem Voice.rangePart_step {left n : Nat} (hx : x.ccnt.toNat < c.controlDiv) (hleft : left ≠ 0)
    (hsounds : x.sounds c = true) (hn : n = min left (c.controlDiv - x.ccnt.toNat)) (pos : Nat) :
    x.rangePart c s pos left = ((x.tickedIfDue c s).samplesPart c s n pos).andThen fun y =>
      (y.advance c n).rangePart c s (pos + n) (left - n) := by
  obtain ⟨k, rfl⟩ : ∃ k, left = k + 1 := ⟨left - 1, by omega⟩
  have hchunk : chunkLength c (k + 1) (x.tickedIfDue c s).ccnt = n := by rw [Voice.tickedIfDue_ccnt, chunkLength, hn]
  rw [Voice.rangePart, Voice.renderPart, if_neg (by simp [hsounds]), hchunk]
  exact congrArg (VoicePart.andThen _) (funext fun y =>
    Voice.renderPart_bound (by omega) le_rfl _ (advanceCounter_lt_controlDiv c _ _))

theorem VoicePart.andThen_congr {p : VoicePart} {q r : Voice → VoicePart} (h : q p.record = r p.record) :
    p.andThen q = p.andThen r := by
  rw [VoicePart.andThen, h]
  rfl

section Inside

/-! A range that ends inside its first sub-chunk. -/

variable {a : Nat} (ha : 0 < a) (hsounds : x.sounds c = true) (hinside : x.ccnt.toNat + a < c.controlDiv)
include ha hsounds hinside

theorem Voice.rangePart_inside (s : State) (pos : Nat) : x.rangePart c s pos a =
    ((x.tickedIfDue c s).samplesPart c s a pos).andThen fun y => .silent (y.advance c a) := by
  rw [Voice.rangePart_step (by omega) (by omega) hsounds (n := a) (by omega), Nat.sub_self]
  exact congrArg (VoicePart.andThen _) (funext fun y => Voice.rangePart_of_done (.inl rfl) _)

/-- Only the tick that begins it can end the voice. -/
theorem Voice.rangePart_inside_sounds (s : State) (pos : Nat) :
    (x.rangePart c s pos a).record.sounds c = (x.tickedIfDue c s).sounds c := by
  have hccnt := Voice.samplesPart_ccnt c s a pos (x.tickedIfDue c s)
  rw [Voice.tickedIfDue_ccnt] at hccnt
  rw [Voice.rangePart_inside ha hsounds hinside, VoicePart.andThen_record, VoicePart.silent_record,
    Voice.advance_sounds ha (hccnt ▸ hinside), Voice.samplesPart_sounds]

/-- The voice still sounds at the cut, so its sub-chunk goes on. -/
theorem Voice.rangePart_add_inside {b : Nat} (hb : 0 < b) (pos : Nat) (hticked : (x.tickedIfDue c s).sounds c = true) :
    x.rangePart c s pos (a + b) = (x.rangePart c s pos a).andThen (Voice.rangePart c s (pos + a) b) := by
  obtain ⟨m, hm⟩ : ∃ m, m = min b (c.controlDiv - (x.ccnt.toNat + a)) := ⟨_, rfl⟩
  rw [Voice.rangePart_inside ha hsounds hinside,
    Voice.rangePart_step (by omega) (by omega) hsounds (n := a + m) (by omega), Voice.samplesPart_add,
    VoicePart.andThen_assoc, VoicePart.andThen_assoc]
  refine VoicePart.andThen_congr ?_
  have hy := Voice.samplesPart_sounds c s a pos (x.tickedIfDue c s)
  have hccnt := Voice.samplesPart_ccnt c s a pos (x.tickedIfDue c s)
  rw [hticked] at hy
  rw [Voice.tickedIfDue_ccnt] at hccnt
  generalize ((x.tickedIfDue c s).samplesPart c s a pos).record = y at hccnt hy
  have hroom : y.ccnt.toNat + a < c.controlDiv := hccnt ▸ hinside
  have hcount : (y.advance c a).ccnt.toNat = x.ccnt.toNat + a := by rw [← hccnt]; exact advanceCounter_of_lt hroom
  have hnotick : (y.advance c a).tickedIfDue c s = y.advance c a := if_neg (advanceCounter_ne_zero ha hroom)
  rw [VoicePart.silent_andThen, Voice.rangePart_step (by omega) (by omega) ((Voice.advance_sounds ha hroom).trans hy)
    (n := m) (by rw [hcount, hm]), hnotick, Voice.samplesPart_advance, VoicePart.andThen_assoc]
  refine VoicePart.andThen_congr ?_
  have hroom' : (y.samplesPart c s m (pos + a)).record.ccnt.toNat + a < c.controlDiv := by rwa [Voice.samplesPart_ccnt]
  rw [VoicePart.silent_andThen, Voice.advance_advance m ha hroom', Nat.add_assoc, Nat.add_sub_add_left]

end Inside

/-- A range cut in two is the two ranges one after the other, if the voice is silent, or sounds after the first, or in the reading
`fadeOutGoesOn`, or if no tick is due up to the cut. -/
theorem Voice.rangePart_add {a b : Nat} (hx : x.ccnt.toNat < c.controlDiv) (pos : Nat)
    (hcut : x.sounds c = false ∨ (x.rangePart c s pos a).record.sounds c = true ∨ c.fadeOutGoesOn = true ∨
      x.ccnt ≠ 0 ∧ x.ccnt.toNat + a < c.controlDiv) :
    x.rangePart c s pos (a + b) = (x.rangePart c s pos a).andThen (Voice.rangePart c s (pos + a) b) := by
  induction a using Nat.strongRecOn generalizing x pos with
  | ind a ih =>
    cases hsounds : x.sounds c with
    | false => simp [Voice.rangePart_of_done (.inr hsounds)]
    | true =>
      obtain rfl | ha := Nat.eq_zero_or_pos a
      · simp [Voice.rangePart_of_done (.inl rfl)]
      obtain rfl | hb := Nat.eq_zero_or_pos b
      · have hdone : Voice.rangePart c s (pos + a) 0 = .silent := funext fun _ => Voice.rangePart_of_done (.inl rfl) _
        rw [hdone, VoicePart.andThen_silent, Nat.add_zero]
      by_cases hinside : x.ccnt.toNat + a < c.controlDiv
      · refine Voice.rangePart_add_inside ha hsounds hinside hb pos ?_
        obtain h | h | h | h := hcut
        · simp [h] at hsounds
        · rwa [Voice.rangePart_inside_sounds ha hsounds hinside] at h
        · unfold Voice.tickedIfDue
          split
          · exact Voice.tick_sounds h s x
          · exact hsounds
        · rwa [Voice.tickedIfDue, if_neg h.1]
      · obtain ⟨d, hd⟩ : ∃ d, d = c.controlDiv - x.ccnt.toNat := ⟨_, rfl⟩
        have hfirst := Voice.rangePart_step (s := s) hx (left := a) (by omega) hsounds (n := d) (by omega) pos
        rw [hfirst] at hcut ⊢
        rw [Voice.rangePart_step hx (by omega) hsounds (n := d) (by omega), VoicePart.andThen_assoc]
        refine VoicePart.andThen_congr ?_
        rw [Nat.sub_add_comm (by omega), ih (a - d) (by omega) (advanceCounter_lt_controlDiv c _ _) _ ?_,
          Nat.add_assoc, Nat.add_sub_cancel' (by omega)]
        obtain h | h | h | h := hcut
        · simp [h] at hsounds
        · exact .inr (.inl h)
        · exact .inr (.inr (.inl h))
        · exact absurd h.2 hinside

end Sys2Proof.Machine
end

section
/-! SUPPORT. The parts of several voices (46_voicepool.md R311): parts of different voices that add into different words can be
exchanged, so the first parts of all voices may come before their second parts. -/

namespace Sys2Proof.Machine

/-- A change that every step of a fold can be exchanged with, where an invariant holds, can be exchanged with the fold. -/
theorem foldl_comm_of_invariant {α β : Type} {P : α → Prop} {f : α → β → α} {g : α → α} {l : List β}
    (hP : ∀ s, ∀ e ∈ l, P s → P (f s e)) (hcomm : ∀ s, ∀ e ∈ l, P s → f (g s) e = g (f s e)) {s : α} (h : P s) :
    l.foldl f (g s) = g (l.foldl f s) := by
  induction l generalizing s with
  | nil => rfl
  | cons e l ih =>
    rw [List.foldl_cons, List.foldl_cons, hcomm s e List.mem_cons_self h]
    exact ih (fun s e' he' => hP s e' (List.mem_cons_of_mem e he'))
      (fun s e' he' => hcomm s e' (List.mem_cons_of_mem e he')) (hP s e List.mem_cons_self h)

variable {c : Params} {s : State}

/-! Words. -/

theorem addWord_wf (e : Nat × Num32) (h : Memory.wf (bufferWords c) s.buf = true) :
    Memory.wf (bufferWords c) (addWord c s e).buf = true := memWrite_wf c h

theorem addWords_wf (l : List (Nat × Num32)) (h : Memory.wf (bufferWords c) s.buf = true) :
    Memory.wf (bufferWords c) (l.foldl (addWord c) s).buf = true :=
  List.foldlRecOn (motive := fun s : State => Memory.wf (bufferWords c) s.buf = true) l (addWord c) h
    fun _ h e _ => addWord_wf e h

theorem memRead_addWord (h : Memory.wf (bufferWords c) s.buf = true) (e : Nat × Num32) (a : Nat) :
    memRead a (addWord c s e) = if a = e.1 ∧ a < bufferWords c then fadd (memRead a s) e.2 else memRead a s := by
  by_cases ha : a = e.1
  · subst ha
    by_cases hlt : e.1 < bufferWords c
    · rw [if_pos ⟨rfl, hlt⟩]
      exact memRead_memWrite_same c h hlt
    · rw [if_neg fun hn => hlt hn.2, addWord, memWrite, if_neg hlt]
  · rw [if_neg fun hn => ha hn.1]
    exact memRead_memWrite_other c s ha

theorem addWord_buf_only (c : Params) (s : State) (e : Nat × Num32) :
    addWord c s e = { s with buf := (addWord c s e).buf } := addWords_frame c [e] s

/-- Additions into different words can be exchanged. -/
theorem addWord_addWord {e f : Nat × Num32} (h : Memory.wf (bufferWords c) s.buf = true) (hne : e.1 ≠ f.1) :
    addWord c (addWord c s e) f = addWord c (addWord c s f) e := by
  have hbuf : (addWord c (addWord c s e) f).buf = (addWord c (addWord c s f) e).buf := by
    refine Memory.ext_of_read (addWord_wf f (addWord_wf e h)) (addWord_wf e (addWord_wf f h)) fun a => ?_
    change memRead a _ = memRead a _
    rw [memRead_addWord (addWord_wf e h), memRead_addWord (addWord_wf f h), memRead_addWord h, memRead_addWord h]
    by_cases he : a = e.1
    · simp [he, hne]
    · simp [he]
  rw [addWord_buf_only c (addWord c s e), hbuf, addWord_buf_only c s e, addWord_buf_only c (addWord c s f) e,
    addWord_buf_only c s f]

theorem addWords_addWords {l m : List (Nat × Num32)} (h : Memory.wf (bufferWords c) s.buf = true)
    (hne : ∀ e ∈ l, ∀ f ∈ m, e.1 ≠ f.1) :
    m.foldl (addWord c) (l.foldl (addWord c) s) = l.foldl (addWord c) (m.foldl (addWord c) s) :=
  foldl_comm_of_invariant (g := fun s => l.foldl (addWord c) s) (fun _ f _ h => addWord_wf f h)
    (fun _ f hf h => (foldl_comm_of_invariant (g := fun s => addWord c s f) (fun _ e _ h => addWord_wf e h)
      (fun _ e he h => addWord_addWord h (hne e he f hf).symm) h).symm) h

/-! Parts. -/

section Play

variable {p q : Voice → VoicePart}

theorem State.modVoice_comm (s : State) {v w : Nat} (h : v ≠ w) (f g : Voice → Voice) :
    (s.modVoice v f).modVoice w g = (s.modVoice w g).modVoice v f :=
  congrArg (fun vs => { s with voices := vs }) (List.modify_modify_ne f g s.voices h)

theorem playPart_wf (v : Nat) (h : Memory.wf (bufferWords c) s.buf = true) :
    Memory.wf (bufferWords c) (playPart c p s v).buf = true := addWords_wf (s := s.modVoice v _) _ h

/-- Parts of two voices that add into different words can be exchanged. -/
theorem playPart_comm {v w : Nat} (hvw : v ≠ w) (h : Memory.wf (bufferWords c) s.buf = true)
    (hne : ∀ x y, ∀ e ∈ (p x).added, ∀ f ∈ (q y).added, e.1 ≠ f.1) :
    playPart c q (playPart c p s v) w = playPart c p (playPart c q s w) v := by
  rw [playPart.eq_1 c q, playPart_voice_ne hvw, playPart.eq_1 c p s, ← addWords_modVoice,
    playPart.eq_1 c p (playPart c q s w), playPart_voice_ne hvw.symm, playPart.eq_1 c q s, ← addWords_modVoice,
    State.modVoice_comm s hvw]
  exact addWords_addWords (s := (s.modVoice w _).modVoice v _) h (hne _ _)

/-- An entry that the table does not hold is as good as silent. -/
theorem playPart_of_length_le {v : Nat} (hp : p Voice.reset = .silent Voice.reset) (h : s.voices.length ≤ v) :
    playPart c p s v = s :=
  playPart_silent (by rw [State.voice_of_length_le h]; exact hp)

theorem playParts_frame (c : Params) (p : Voice → VoicePart) (vs : List Nat) (s : State) : vs.foldl (playPart c p) s =
    { s with voices := (vs.foldl (playPart c p) s).voices, buf := (vs.foldl (playPart c p) s).buf } := by
  obtain ⟨x, b, h⟩ := foldl_only (fun s t => ∃ x b, t = { s with voices := x, buf := b }) (fun s => ⟨s.voices, s.buf, rfl⟩)
    (fun _ _ _ ⟨_, _, h1⟩ ⟨x, b, h2⟩ => ⟨x, b, by rw [h2, h1]⟩) (playPart c p)
    (fun s v => ⟨_, _, playPart_frame c p s v⟩) vs s
  rw [h]

theorem playParts_voice_ne {vs : List Nat} {w : Nat} (h : w ∉ vs) : (vs.foldl (playPart c p) s).voice w = s.voice w :=
  List.foldlRecOn (motive := fun t : State => t.voice w = s.voice w) vs (playPart c p) rfl fun t ht v hv => by
    rw [playPart_voice_ne (ne_of_mem_of_not_mem hv h), ht]

/-- Each voice's record after its part. -/
theorem playParts_voice {vs : List Nat} (hvs : vs.Nodup) (hp : p Voice.reset = .silent Voice.reset) {v : Nat} (hv : v ∈ vs) :
    (vs.foldl (playPart c p) s).voice v = (p (s.voice v)).record := by
  induction vs generalizing s with
  | nil => cases hv
  | cons w vs ih =>
    obtain ⟨hw, hvs⟩ := List.nodup_cons.1 hvs
    rw [List.foldl_cons]
    obtain rfl | hv := List.mem_cons.1 hv
    · rw [playParts_voice_ne hw]
      by_cases hlen : v < s.voices.length
      · exact playPart_voice hlen
      · rw [playPart_of_length_le hp (Nat.le_of_not_lt hlen), State.voice_of_length_le (Nat.le_of_not_lt hlen), hp]
        rfl
    · rw [ih hvs hv, playPart_voice_ne (ne_of_mem_of_not_mem hv hw).symm]

theorem playParts_congr {vs : List Nat} (hvs : vs.Nodup) (h : ∀ v ∈ vs, p (s.voice v) = q (s.voice v)) :
    vs.foldl (playPart c p) s = vs.foldl (playPart c q) s := by
  induction vs generalizing s with
  | nil => rfl
  | cons v vs ih =>
    obtain ⟨hv, hvs⟩ := List.nodup_cons.1 hvs
    rw [List.foldl_cons, List.foldl_cons, playPart_congr (h v List.mem_cons_self)]
    refine ih hvs fun w hw => ?_
    rw [playPart_voice_ne (ne_of_mem_of_not_mem hw hv).symm]
    exact h w (List.mem_cons_of_mem v hw)

/-- Every voice's part `p` and then its part `q` is all parts `p` and then all parts `q`. -/
theorem playParts_andThen {vs : List Nat} (hvs : vs.Nodup) (h : Memory.wf (bufferWords c) s.buf = true)
    (hp : p Voice.reset = .silent Voice.reset) (hq : q Voice.reset = .silent Voice.reset)
    (hne : ∀ x y, ∀ e ∈ (p x).added, ∀ f ∈ (q y).added, e.1 ≠ f.1) :
    vs.foldl (playPart c fun x => (p x).andThen q) s = vs.foldl (playPart c q) (vs.foldl (playPart c p) s) := by
  induction vs generalizing s with
  | nil => rfl
  | cons v vs ih =>
    obtain ⟨hv, hvs⟩ := List.nodup_cons.1 hvs
    have hfirst : playPart c (fun x => (p x).andThen q) s v = playPart c q (playPart c p s v) v := by
      by_cases hlen : v < s.voices.length
      · exact playPart_andThen hlen
      · have hlen := Nat.le_of_not_lt hlen
        rw [playPart_of_length_le hp hlen, playPart_of_length_le hq hlen, playPart_of_length_le (by rw [hp]; exact hq) hlen]
    rw [List.foldl_cons, List.foldl_cons, List.foldl_cons, hfirst, ih hvs (playPart_wf v (playPart_wf v h))]
    refine congrArg (vs.foldl (playPart c q)) ?_
    exact foldl_comm_of_invariant (g := fun s => playPart c q s v) (fun _ w _ h => playPart_wf w h)
      (fun _ w hw h => (playPart_comm (ne_of_mem_of_not_mem hw hv) h hne).symm) (playPart_wf v h)

end Play

end Sys2Proof.Machine
end

section
/-! SUPPORT. A RENDER inside one pool chunk, of any configuration and with no move chosen (46_voicepool.md R310, R311). -/

namespace Sys2Proof.Machine

variable {c : Params} {s u : State}

/-! `renderBlock` as a part. -/

/-- In the reading `fadeOutGoesOn` a pool-chunk boundary closes an open fade-out (70_reset_and_hazards.md R433). -/
def Voice.cutAtBoundary (c : Params) (gcnt : BitVec 16) (x : Voice) : Voice :=
  if c.fadeOutGoesOn && gcnt == 0 then { x with fading := false } else x

/-- One call of `renderBlock` (R266), when the control counter is `gcnt`. -/
def Voice.blockPart (c : Params) (s : State) (gcnt : BitVec 16) (start n : Nat) (x : Voice) : VoicePart :=
  (x.cutAtBoundary c gcnt).rangePart c s start n

theorem Voice.reset_cutAtBoundary (c : Params) (gcnt : BitVec 16) : Voice.reset.cutAtBoundary c gcnt = Voice.reset := by
  unfold Voice.cutAtBoundary
  split <;> rfl

theorem Voice.reset_sounds (c : Params) : Voice.reset.sounds c = false := Bool.and_false _

theorem Voice.reset_rangePart (c : Params) (s : State) (start n : Nat) :
    Voice.reset.rangePart c s start n = .silent Voice.reset := Voice.rangePart_of_done (.inr (Voice.reset_sounds c)) start

theorem Voice.reset_blockPart (c : Params) (s : State) (gcnt : BitVec 16) (start n : Nat) :
    Voice.reset.blockPart c s gcnt start n = .silent Voice.reset := by
  rw [Voice.blockPart, Voice.reset_cutAtBoundary, Voice.reset_rangePart]

theorem cutFadeOut_eq_playPart (c : Params) (v : Nat) (u : State) :
    cutFadeOut c v u = playPart c (fun x => .silent (x.cutAtBoundary c u.gcnt)) u v := by
  rw [silent_playPart]
  unfold cutFadeOut
  split
  · exact State.modVoice_congr (f := fun x => { x with fading := false }) (if_pos ‹_›).symm
  · exact (State.modVoice_eq_self (f := Voice.cutAtBoundary c u.gcnt) (if_neg ‹_›)).symm

theorem renderVoice_eq_playPart (hf : RenderingFrom s u) (he : s.events = []) (start n v : Nat) :
    renderVoice c start n u v = playPart c (Voice.blockPart c s s.gcnt start n) u v := by
  have hg : u.gcnt = s.gcnt := by obtain ⟨_, _, _, rfl⟩ := hf; rfl
  rw [renderVoice, whileBusy, if_pos hf.busy, cutFadeOut_eq_playPart, hg, voiceLoop_eq_playPart (hf.playPart c _ v) he]
  by_cases hv : v < u.voices.length
  · exact (playPart_andThen hv).symm
  · have hlen := Nat.le_of_not_lt hv
    rw [playPart_of_length_le (p := fun x => .silent (x.cutAtBoundary c s.gcnt))
        (congrArg VoicePart.silent (Voice.reset_cutAtBoundary c _)) hlen,
      playPart_of_length_le (Voice.reset_blockPart c s _ start n) hlen]
    exact playPart_of_length_le (Voice.reset_rangePart c s start n) hlen

theorem renderVoices_eq_playParts (hf : RenderingFrom s u) (he : s.events = []) (start n : Nat) (vs : List Nat) :
    vs.foldl (renderVoice c start n) u = vs.foldl (playPart c (Voice.blockPart c s s.gcnt start n)) u := by
  induction vs generalizing u with
  | nil => rfl
  | cons v vs ih =>
    rw [List.foldl_cons, List.foldl_cons, renderVoice_eq_playPart hf he]
    exact ih (hf.playPart c _ v)

/-! The chunk. -/

/-- The block when the voices of a pool chunk begin: after the global tick, if that is due. -/
def globalTickIfDue (c : Params) (s : State) : State := if s.gcnt = 0 then globalTick c s else s

/-- A pool chunk of `n` samples from index `pos` on, but for the cursor (R311). -/
def chunkRun (c : Params) (pos n : Nat) (s : State) : State :=
  { (List.range s.nvoices.toNat).foldl (renderVoice c pos n) (globalTickIfDue c s) with
    gcnt := advanceCounter c n s.gcnt }

/-- A command runs and no move is chosen. -/
def Running (s : State) : Prop := s.busy = true ∧ s.events = []

/-- A global tick changes the LFO and the master slots only. -/
theorem globalTickIfDue_only (c : Params) (s : State) :
    ∃ lfo out x y, globalTickIfDue c s = { s with lfo := lfo, lfoOut := out, fmIn := x, modIn := y } := by
  unfold globalTickIfDue
  split
  · rw [globalTick_frame]
    exact ⟨_, _, _, _, rfl⟩
  · exact ⟨s.lfo, s.lfoOut, s.fmIn, s.modIn, rfl⟩

theorem globalTickIfDue_voice (c : Params) (s : State) (v : Nat) : (globalTickIfDue c s).voice v = s.voice v := by
  obtain ⟨_, _, _, _, h⟩ := globalTickIfDue_only c s
  rw [h]
  rfl

theorem Running.globalTickIfDue (h : Running s) (c : Params) : Running (globalTickIfDue c s) := by
  obtain ⟨_, _, _, _, h'⟩ := globalTickIfDue_only c s
  rw [h']
  exact h

theorem Running.renderingFrom (h : Running s) : RenderingFrom s s := ⟨s.cursor, s.voices, s.buf, by rw [← h.1]⟩

/-- A pool chunk, as the parts of the voices in ascending order. -/
theorem chunkRun_eq_playParts (h : Running s) (c : Params) (pos n : Nat) : chunkRun c pos n s =
    { (List.range s.nvoices.toNat).foldl (playPart c (Voice.blockPart c (globalTickIfDue c s) s.gcnt pos n))
        (globalTickIfDue c s) with gcnt := advanceCounter c n s.gcnt } := by
  have hrun := h.globalTickIfDue c
  have hgcnt : (globalTickIfDue c s).gcnt = s.gcnt := by
    obtain ⟨_, _, _, _, h⟩ := globalTickIfDue_only c s
    rw [h]
  rw [chunkRun, renderVoices_eq_playParts hrun.renderingFrom hrun.2, hgcnt]

theorem chunkRun_only (h : Running s) (c : Params) (pos n : Nat) : ∃ lfo out x y vs b, chunkRun c pos n s = { s with
    lfo := lfo, lfoOut := out, fmIn := x, modIn := y, voices := vs, buf := b, gcnt := advanceCounter c n s.gcnt } := by
  obtain ⟨lfo, out, x, y, hstart⟩ := globalTickIfDue_only c s
  rw [chunkRun_eq_playParts h, playParts_frame, hstart]
  exact ⟨_, _, _, _, _, _, rfl⟩

/-! The voices and the global tick do not see the cursor, nor the voices the counter. -/

theorem playParts_withCursor (c : Params) (p : Voice → VoicePart) (cur : Option Cursor) (vs : List Nat) (s : State) :
    vs.foldl (playPart c p) { s with cursor := cur } = { vs.foldl (playPart c p) s with cursor := cur } :=
  List.foldl_hom (fun s : State => { s with cursor := cur }) fun s v =>
    addWords_comm c _ (f := fun s => { s with cursor := cur }) (fun _ _ => rfl) (fun _ => rfl) (s.modVoice v _)

theorem playParts_withCounter (c : Params) (p : Voice → VoicePart) (g : BitVec 16) (vs : List Nat) (s : State) :
    vs.foldl (playPart c p) { s with gcnt := g } = { vs.foldl (playPart c p) s with gcnt := g } :=
  List.foldl_hom (fun s : State => { s with gcnt := g }) fun s v =>
    addWords_comm c _ (f := fun s => { s with gcnt := g }) (fun _ _ => rfl) (fun _ => rfl) (s.modVoice v _)

theorem matrixProcess_withCursor (z : Bool) (T : List Route) (cur : Option Cursor) (s : State) :
    matrixProcess z globalBinding T { s with cursor := cur } =
      { matrixProcess z globalBinding T s with cursor := cur } := by
  have hzero : ∀ (s : State) (r : Route), matrixZero z globalBinding { s with cursor := cur } r =
      { matrixZero z globalBinding s r with cursor := cur } := fun s r => by
    unfold matrixZero globalBinding
    dsimp only
    split_ifs <;> rfl
  have hadd : ∀ (s : State) (r : Route), matrixAdd globalBinding { s with cursor := cur } r =
      { matrixAdd globalBinding s r with cursor := cur } := fun s r => by
    unfold matrixAdd globalBinding
    dsimp only
    split_ifs <;> rfl
  exact (congrArg (T.foldl (matrixAdd globalBinding)) (List.foldl_hom (fun s : State => { s with cursor := cur }) hzero)).trans
    (List.foldl_hom (fun s : State => { s with cursor := cur }) hadd)

theorem globalTickIfDue_withCursor (c : Params) (cur : Option Cursor) (s : State) :
    globalTickIfDue c { s with cursor := cur } = { globalTickIfDue c s with cursor := cur } := by
  unfold globalTickIfDue
  dsimp only
  split
  · exact matrixProcess_withCursor c.matrixZeroDisabled s.gr cur (lfoTick c s)
  · rfl

/-- A voice's part depends on the block through the cells and slots that its tick and its samples read. -/
def SameSources (c : Params) (s u : State) : Prop :=
  Voice.tick c u = Voice.tick c s ∧ Voice.samplePart c u = Voice.samplePart c s

theorem SameSources.samplesPart (h : SameSources c s u) (n i : Nat) (x : Voice) :
    x.samplesPart c u n i = x.samplesPart c s n i := by
  induction n generalizing i x with
  | zero => rfl
  | succ n ih =>
    rw [Voice.samplesPart, Voice.samplesPart, h.2]
    exact congrArg (VoicePart.andThen _) (funext fun y => ih (i + 1) y)

theorem SameSources.renderPart (h : SameSources c s u) (k pos left : Nat) (x : Voice) :
    x.renderPart c u k pos left = x.renderPart c s k pos left := by
  induction k generalizing pos left x with
  | zero => rfl
  | succ k ih =>
    have htick : x.tickedIfDue c u = x.tickedIfDue c s := by rw [Voice.tickedIfDue, Voice.tickedIfDue, h.1]
    rw [Voice.renderPart, Voice.renderPart]
    simp only [htick, h.samplesPart, ih]

theorem SameSources.blockPart (h : SameSources c s u) : Voice.blockPart c u = Voice.blockPart c s := by
  funext gcnt start n x
  exact h.renderPart n start n _

/-- A pool chunk does not see the cursor. -/
theorem chunkRun_withCursor (h : Running s) (c : Params) (pos n : Nat) (cur : Option Cursor) :
    chunkRun c pos n { s with cursor := cur } = { chunkRun c pos n s with cursor := cur } := by
  have h' : Running { s with cursor := cur } := h
  have hpart := SameSources.blockPart (c := c) (s := globalTickIfDue c s)
    (u := { globalTickIfDue c s with cursor := cur }) ⟨rfl, rfl⟩
  rw [chunkRun_eq_playParts h, chunkRun_eq_playParts h', globalTickIfDue_withCursor, hpart, playParts_withCursor]

/-! RENDER's loop, chunk by chunk. -/

/-- RENDER stands at index `pos` with `left` samples to go. -/
def State.atRange (pos left : Nat) (s : State) : State :=
  { s with cursor := some ⟨BitVec.ofNat 32 pos, BitVec.ofNat 16 left⟩ }

theorem Running.atRange (h : Running s) (pos left : Nat) : Running (s.atRange pos left) := h

theorem Running.chunkRun (h : Running s) (c : Params) (pos n : Nat) : Running (chunkRun c pos n s) := by
  obtain ⟨_, _, _, _, _, _, h'⟩ := chunkRun_only h c pos n
  rw [h']
  exact h

theorem chunkRun_gcnt (h : Running s) (c : Params) (pos n : Nat) :
    (chunkRun c pos n s).gcnt = advanceCounter c n s.gcnt := by
  obtain ⟨_, _, _, _, _, _, h'⟩ := chunkRun_only h c pos n
  rw [h']

theorem globalTickIfDue_eq_atomic (h : Running s) (c : Params) :
    (if s.gcnt = 0 then atomic c (globalTick c) s else s) = globalTickIfDue c s := by
  have hevents : (globalTick c s).events = [] := by
    rw [globalTick_frame]
    exact h.2
  rw [atomic_of_noMoves h.1 hevents, globalTickIfDue]

theorem poolChunk_eq_chunkRun (h : Running s) (c : Params) (cur : Cursor) : poolChunk c cur s =
    { chunkRun c cur.pos.toNat (chunkLength c cur.rem.toNat s.gcnt) s with
      cursor := some ⟨cur.pos + BitVec.ofNat 32 (chunkLength c cur.rem.toNat s.gcnt),
        cur.rem - BitVec.ofNat 16 (chunkLength c cur.rem.toNat s.gcnt)⟩ } := by
  obtain ⟨_, _, _, _, htick⟩ := globalTickIfDue_only c s
  have hgcnt : (globalTickIfDue c s).gcnt = s.gcnt := by rw [htick]
  have hnvoices : (globalTickIfDue c s).nvoices = s.nvoices := by rw [htick]
  have hcount : chunkCount c cur s = chunkLength c cur.rem.toNat s.gcnt := by
    rw [chunkCount, globalTickIfDue_eq_atomic h, hgcnt]
  have hbody : chunkBody c cur s = (List.range s.nvoices.toNat).foldl
      (renderVoice c cur.pos.toNat (chunkLength c cur.rem.toNat s.gcnt)) (globalTickIfDue c s) := by
    rw [chunkBody, globalTickIfDue_eq_atomic h, hgcnt, liveVoices, hnvoices]
  have hrun : (chunkBody c cur s).busy = true ∧ (chunkBody c cur s).gcnt = s.gcnt := by
    rw [hbody, renderVoices_eq_playParts (h.globalTickIfDue c).renderingFrom (h.globalTickIfDue c).2, playParts_frame]
    exact ⟨(h.globalTickIfDue c).1, hgcnt⟩
  rw [poolChunk_eq, whileBusy, if_pos hrun.1, hrun.2, hcount, hbody]
  rfl

theorem renderLoop_of_cursor {cur : Cursor} (hcur : s.cursor = some cur) (hrem : cur.rem ≠ 0) (k : Nat) :
    renderLoop c (k + 1) s = renderLoop c k (poolChunk c cur s) := by
  rw [renderLoop, hcur]
  exact if_neg hrem

theorem renderLoop_of_done {cur : Cursor} (hcur : s.cursor = some cur) (hrem : cur.rem = 0) (k : Nat) :
    renderLoop c k s = s := by
  cases k with
  | zero => rfl
  | succ k =>
    rw [renderLoop, hcur]
    exact if_pos hrem

theorem renderLoop_atRange_zero (pos k : Nat) (s : State) : renderLoop c k (s.atRange pos 0) = s.atRange pos 0 :=
  renderLoop_of_done rfl rfl k

/-- One round of the loop. -/
theorem renderLoop_step (h : Running s) {pos left n : Nat} (hrange : pos + left < 65536) (hleft : 0 < left)
    (hn : n = min left (c.controlDiv - s.gcnt.toNat)) (k : Nat) :
    renderLoop c (k + 1) (s.atRange pos left) = renderLoop c k ((chunkRun c pos n s).atRange (pos + n) (left - n)) := by
  have hpos : (BitVec.ofNat 32 pos).toNat = pos := by rw [BitVec.toNat_ofNat]; omega
  have hrem : (BitVec.ofNat 16 left).toNat = left := by rw [BitVec.toNat_ofNat]; omega
  have hne : BitVec.ofNat 16 left ≠ 0 := fun h0 => by simp [h0] at hrem; omega
  have hchunk : chunkLength c left s.gcnt = n := hn.symm
  have hcursor : BitVec.ofNat 16 left - BitVec.ofNat 16 n = BitVec.ofNat 16 (left - n) :=
    BitVec.eq_of_toNat_eq (by rw [BitVec.toNat_sub, BitVec.toNat_ofNat, BitVec.toNat_ofNat, BitVec.toNat_ofNat]; omega)
  have hgcnt : (s.atRange pos left).gcnt = s.gcnt := rfl
  have hpool : poolChunk c ⟨BitVec.ofNat 32 pos, BitVec.ofNat 16 left⟩ (s.atRange pos left) =
      (chunkRun c pos n s).atRange (pos + n) (left - n) := by
    rw [poolChunk_eq_chunkRun (h.atRange pos left), hpos, hrem, hgcnt, hchunk, hcursor, ← BitVec.ofNat_add,
      State.atRange, chunkRun_withCursor h]
    rfl
  rw [renderLoop_of_cursor rfl hne, hpool]

end Sys2Proof.Machine
end

section
/-! SUPPORT. RENDER cut in two (46_voicepool.md R300, R311, R312, 70_reset_and_hazards.md R433): at the end of a pool chunk, and
inside one, of any configuration and with no move chosen. -/

namespace Sys2Proof.Machine

variable {c : Params} {s t u : State} {start a b : Nat}

/-! The loop. -/

theorem renderLoop_frame (h : Running s) {pos left : Nat} (hrange : pos + left < 65536) (k : Nat) :
    Running (renderLoop c k (s.atRange pos left)) ∧ (renderLoop c k (s.atRange pos left)).mode = s.mode ∧
      (renderLoop c k (s.atRange pos left)).maxBlock = s.maxBlock := by
  induction k generalizing s pos left with
  | zero => exact ⟨h, rfl, rfl⟩
  | succ k ih =>
    obtain rfl | hleft := Nat.eq_zero_or_pos left
    · rw [renderLoop_atRange_zero]
      exact ⟨h, rfl, rfl⟩
    obtain ⟨_, _, _, _, _, _, hchunk⟩ := chunkRun_only h c pos (min left (c.controlDiv - s.gcnt.toNat))
    obtain ⟨hrun, hmode, hmax⟩ := ih (h.chunkRun c pos (min left (c.controlDiv - s.gcnt.toNat)))
      (pos := pos + min left (c.controlDiv - s.gcnt.toNat)) (left := left - min left (c.controlDiv - s.gcnt.toNat))
      (by omega)
    rw [renderLoop_step h hrange hleft rfl]
    exact ⟨hrun, hmode.trans (by rw [hchunk]), hmax.trans (by rw [hchunk])⟩

/-- Every pool chunk has a sample, so a bound above the samples left is never met (log entry 19). -/
theorem renderLoop_bound (h : Running s) {pos left k k' : Nat} (hrange : pos + left < 65536)
    (hg : s.gcnt.toNat < c.controlDiv) (hk : left ≤ k) (hk' : left ≤ k') :
    renderLoop c k (s.atRange pos left) = renderLoop c k' (s.atRange pos left) := by
  induction k generalizing s pos left k' with
  | zero =>
    obtain rfl : left = 0 := by omega
    rw [renderLoop_atRange_zero, renderLoop_atRange_zero]
  | succ k ih =>
    obtain rfl | hleft := Nat.eq_zero_or_pos left
    · rw [renderLoop_atRange_zero, renderLoop_atRange_zero]
    obtain ⟨k', rfl⟩ : ∃ m, k' = m + 1 := ⟨k' - 1, by omega⟩
    rw [renderLoop_step h hrange hleft rfl, renderLoop_step h hrange hleft rfl]
    exact ih (h.chunkRun c _ _) (by omega) (by rw [chunkRun_gcnt h]; exact advanceCounter_lt_controlDiv c _ _) (by omega)
      (by omega)

/-- The samples up to the end of a pool chunk, and then the others. -/
theorem renderLoop_add (h : Running s) {k k' ka : Nat} (hrange : start + a + b < 65536) (hg : s.gcnt.toNat < c.controlDiv)
    (hend : (s.gcnt.toNat + a) % c.controlDiv = 0) (hk : a + b ≤ k) (hk' : b ≤ k') (hka : a ≤ ka) :
    renderLoop c k (s.atRange start (a + b)) =
      renderLoop c k' ((renderLoop c ka (s.atRange start a)).atRange (start + a) b) := by
  induction ka generalizing s start a k with
  | zero =>
    obtain rfl : a = 0 := by omega
    rw [Nat.zero_add]
    exact renderLoop_bound h (by omega) hg (by omega) hk'
  | succ ka ih =>
    obtain rfl | ha := Nat.eq_zero_or_pos a
    · rw [renderLoop_atRange_zero, Nat.zero_add]
      exact renderLoop_bound h (by omega) hg (by omega) hk'
    obtain ⟨n, hn⟩ : ∃ n, n = c.controlDiv - s.gcnt.toNat := ⟨_, rfl⟩
    have hle : c.controlDiv ≤ s.gcnt.toNat + a := Nat.le_of_dvd (by omega) (Nat.dvd_of_mod_eq_zero hend)
    have hnext : ((chunkRun c start n s).gcnt.toNat + (a - n)) % c.controlDiv = 0 := by
      rw [chunkRun_gcnt h, advanceCounter_toNat, Nat.mod_add_mod, Nat.add_assoc, Nat.add_sub_cancel' (by omega)]
      exact hend
    have hlt : (chunkRun c start n s).gcnt.toNat < c.controlDiv := by
      rw [chunkRun_gcnt h]
      exact advanceCounter_lt_controlDiv c _ _
    obtain ⟨k, rfl⟩ : ∃ m, k = m + 1 := ⟨k - 1, by omega⟩
    rw [renderLoop_step h (by omega) (by omega) (n := n) (by omega), renderLoop_step h (by omega) ha (n := n) (by omega),
      Nat.sub_add_comm (by omega), ih (h.chunkRun c _ _) (by omega) hlt hnext (by omega) (by omega), Nat.add_assoc,
      Nat.add_sub_cancel' (by omega)]

/-- A range that fits in one control period is one chunk. -/
theorem renderLoop_one_chunk (h : Running s) {n k : Nat} (hrange : start + n < 65536) (hn : 0 < n)
    (hg : s.gcnt.toNat + n ≤ c.controlDiv) (hk : n ≤ k) :
    renderLoop c k (s.atRange start n) = (chunkRun c start n s).atRange (start + n) 0 := by
  obtain ⟨k, rfl⟩ : ∃ m, k = m + 1 := ⟨k - 1, by omega⟩
  rw [renderLoop_step h hrange hn (n := n) (by omega), Nat.sub_self, renderLoop_atRange_zero]

/-- Settles O35: the range fits in one control period, so the loop is one chunk. -/
theorem renderOneChunk : Obligations.RenderOneChunk := by
  intro start count s hm hr he hg hn
  have hlen := s.maxBlock.isLt
  have hrun : Running { s with busy := true, cursor := some ⟨BitVec.ofNat 32 start, BitVec.ofNat 16 count⟩ } := ⟨rfl, he⟩
  have hloop := renderLoop_one_chunk (c := hw) (start := start) (k := count) hrun (by omega) hn hg le_rfl
  rw [exec_render_of_accepted hm hr]
  exact congrArg (fun t => Host.Outcome.next (endCommand t)) hloop

end Sys2Proof.Machine
end

section
/-! SUPPORT. A pool chunk cut in two (46_voicepool.md R311, R312, 70_reset_and_hazards.md R433), and RENDER cut in two. -/

namespace Sys2Proof.Machine

variable {c : Params} {s t u : State} {start a b : Nat}

/-! The words of a part. -/

/-- The part adds into words of the indices `R` only. -/
def VoicePart.AddsWithin (c : Params) (R : Nat → Prop) (p : VoicePart) : Prop :=
  ∀ e ∈ p.added, ∃ ch i, ch < 2 ∧ R i ∧ e.1 = sampleAddr c ch i

section AddsWithin

variable {R : Nat → Prop} {p : VoicePart} {q : Voice → VoicePart}

theorem VoicePart.AddsWithin.silent (x : Voice) : (VoicePart.silent x).AddsWithin c R := fun _ h => nomatch h

theorem VoicePart.AddsWithin.andThen (hp : p.AddsWithin c R) (hq : ∀ x, (q x).AddsWithin c R) :
    (p.andThen q).AddsWithin c R := fun e he =>
  (List.mem_append.1 he).elim (hp e) (hq p.record e)

theorem addsWithin_samplePart (s : State) {i : Nat} (hi : R i) (x : Voice) : (x.samplePart c s i).AddsWithin c R := by
  intro e he
  unfold Voice.samplePart at he
  obtain h | h := List.mem_append.1 he
  · split at h
    · exact ⟨0, i, by decide, hi, by rw [List.mem_singleton.1 h]⟩
    · cases h
  · split at h
    · exact ⟨1, i, by decide, hi, by rw [List.mem_singleton.1 h]⟩
    · cases h

theorem addsWithin_samplesPart (s : State) (n i : Nat) (x : Voice) (hR : ∀ j, i ≤ j → j < i + n → R j) :
    (x.samplesPart c s n i).AddsWithin c R := by
  induction n generalizing i x with
  | zero => exact .silent x
  | succ n ih =>
    exact (addsWithin_samplePart s (hR i le_rfl (by omega)) x).andThen
      fun y => ih (i + 1) y fun j h1 h2 => hR j (by omega) (by omega)

theorem addsWithin_renderPart (s : State) (k pos left : Nat) (x : Voice) (hR : ∀ j, pos ≤ j → j < pos + left → R j) :
    (x.renderPart c s k pos left).AddsWithin c R := by
  induction k generalizing pos left x with
  | zero => exact .silent x
  | succ k ih =>
    unfold Voice.renderPart
    split
    · exact .silent x
    have hn : chunkLength c left (x.tickedIfDue c s).ccnt ≤ left := Nat.min_le_left _ _
    exact (addsWithin_samplesPart s _ pos _ fun j h1 h2 => hR j h1 (by omega)).andThen
      fun y => ih _ _ _ fun j h1 h2 => hR j (by omega) (by omega)

/-- Two indices below the channel's length have their words in both channels apart. -/
theorem sampleAddr_ne {ch ch' i j : Nat} (hch : ch < 2) (hch' : ch' < 2) (hij : i < j) (hj : j < c.maxBlockCap) :
    sampleAddr c ch i ≠ sampleAddr c ch' j := by
  unfold sampleAddr
  obtain rfl | rfl : ch = 0 ∨ ch = 1 := by omega
  all_goals
    obtain rfl | rfl : ch' = 0 ∨ ch' = 1 := by omega
    all_goals omega

end AddsWithin

/-! The chunk. -/

/-- What a voice's record may be for a RENDER of `a` samples to be cut off the one from a record `x` that leaves `y`: silent at the
beginning, or still sounding at the cut, or with no tick due up to it; in the reading `fadeOutGoesOn` anything. -/
def MayBeCut (c : Params) (a : Nat) (x y : Voice) : Prop :=
  x.sounds c = false ∨ y.sounds c = true ∨ c.fadeOutGoesOn = true ∨ x.ccnt ≠ 0 ∧ x.ccnt.toNat + a < c.controlDiv

theorem cutAtBoundary_ccnt (c : Params) (g : BitVec 16) (x : Voice) : (x.cutAtBoundary c g).ccnt = x.ccnt := by
  unfold Voice.cutAtBoundary
  split <;> rfl

theorem cutAtBoundary_of_ne_zero (c : Params) {g : BitVec 16} (hg : g ≠ 0) (x : Voice) : x.cutAtBoundary c g = x := by
  rw [Voice.cutAtBoundary, beq_false_of_ne hg, Bool.and_false]
  rfl

theorem blockPart_add {g : BitVec 16} (r : State) {x : Voice} (hx : x.ccnt.toNat < c.controlDiv)
    (hcut : MayBeCut c a (x.cutAtBoundary c g) (x.blockPart c r g start a).record) (b : Nat) :
    x.blockPart c r g start (a + b) = (x.blockPart c r g start a).andThen (Voice.rangePart c r (start + a) b) :=
  Voice.rangePart_add (by rwa [cutAtBoundary_ccnt]) start hcut

/-- A voice's record after a chunk is the one its part leaves. -/
theorem chunkRun_voice (h : Running s) (c : Params) (pos n : Nat) {v : Nat} (hv : v < s.nvoices.toNat) :
    (chunkRun c pos n s).voice v =
      ((s.voice v).blockPart c (globalTickIfDue c s) s.gcnt pos n).record := by
  have hplayed := playParts_voice (c := c) (s := globalTickIfDue c s) List.nodup_range
    (Voice.reset_blockPart c (globalTickIfDue c s) s.gcnt pos n) (List.mem_range.2 hv)
  rw [globalTickIfDue_voice] at hplayed
  rw [chunkRun_eq_playParts h]
  exact hplayed

/-- A chunk that does not begin with a global tick plays the voices' ranges from the block as it is. -/
theorem chunkRun_of_gcnt_ne_zero (h : Running s) (hg : s.gcnt ≠ 0) {r : State} (hr : SameSources c r s) (pos n : Nat) :
    chunkRun c pos n s = { (List.range s.nvoices.toNat).foldl (playPart c (Voice.rangePart c r pos n)) s with
      gcnt := advanceCounter c n s.gcnt } := by
  have htick : globalTickIfDue c s = s := if_neg hg
  have hpart : Voice.blockPart c s s.gcnt pos n = Voice.rangePart c r pos n := by
    rw [hr.blockPart]
    funext x
    rw [Voice.blockPart, cutAtBoundary_of_ne_zero c hg]
  rw [chunkRun_eq_playParts h, htick, hpart]

/-- A chunk cut in two, where the counter does not come round. -/
theorem chunkRun_add (h : Running s) (ha : 0 < a) (hcap : start + a + b ≤ c.maxBlockCap)
    (hwf : Memory.wf (bufferWords c) s.buf = true) (hg : s.gcnt.toNat + a < c.controlDiv)
    (hc : ∀ v < s.nvoices.toNat, (s.voice v).ccnt.toNat < c.controlDiv)
    (hcut : ∀ v < s.nvoices.toNat,
      MayBeCut c a ((s.voice v).cutAtBoundary c s.gcnt) ((chunkRun c start a s).voice v)) :
    chunkRun c start (a + b) s = chunkRun c (start + a) b (chunkRun c start a s) := by
  have hfirst := chunkRun_eq_playParts h c start a
  have hvoice := fun v => globalTickIfDue_voice c s v
  have hrwf : Memory.wf (bufferWords c) (globalTickIfDue c s).buf = true := by
    obtain ⟨_, _, _, _, htick⟩ := globalTickIfDue_only c s
    rwa [htick]
  have hnvoices : (chunkRun c start a s).nvoices = s.nvoices := by
    obtain ⟨_, _, _, _, _, _, hrun⟩ := chunkRun_only h c start a
    rw [hrun]
  have hne : (chunkRun c start a s).gcnt ≠ 0 := by
    rw [chunkRun_gcnt h]
    exact advanceCounter_ne_zero ha hg
  have hsources : SameSources c (globalTickIfDue c s) (chunkRun c start a s) := by
    rw [hfirst, playParts_frame]
    exact ⟨rfl, rfl⟩
  have hapart : ∀ x y, ∀ e ∈ (Voice.blockPart c (globalTickIfDue c s) s.gcnt start a x).added,
      ∀ f ∈ (Voice.rangePart c (globalTickIfDue c s) (start + a) b y).added, e.1 ≠ f.1 := by
    intro x y e he f hf
    obtain ⟨ch, i, hch, hi, he⟩ := addsWithin_renderPart (R := (· < start + a)) _ _ _ _ _ (fun j _ hj => hj) e he
    obtain ⟨ch', j, hch', ⟨hj, hj'⟩, hf⟩ := addsWithin_renderPart
      (R := fun j => start + a ≤ j ∧ j < start + a + b) _ _ _ _ _ (fun j h1 h2 => ⟨h1, h2⟩) f hf
    rw [he, hf]
    exact sampleAddr_ne hch hch' (by omega) (by omega)
  have hsplit : (List.range s.nvoices.toNat).foldl
      (playPart c (Voice.blockPart c (globalTickIfDue c s) s.gcnt start (a + b))) (globalTickIfDue c s) =
      (List.range s.nvoices.toNat).foldl (playPart c (Voice.rangePart c (globalTickIfDue c s) (start + a) b))
        ((List.range s.nvoices.toNat).foldl
          (playPart c (Voice.blockPart c (globalTickIfDue c s) s.gcnt start a)) (globalTickIfDue c s)) := by
    refine (playParts_congr List.nodup_range fun v hv => ?_).trans (playParts_andThen List.nodup_range hrwf
      (Voice.reset_blockPart c _ _ _ _) (Voice.reset_rangePart c _ _ _) hapart)
    have hv := List.mem_range.1 hv
    rw [hvoice]
    exact blockPart_add _ (hc v hv) (chunkRun_voice h c start a hv ▸ hcut v hv) b
  rw [chunkRun_of_gcnt_ne_zero (h.chunkRun c start a) hne hsources, hnvoices, chunkRun_gcnt h,
    advanceCounter_advanceCounter, chunkRun_eq_playParts h, hsplit, hfirst]
  exact congrArg (fun u : State => { u with gcnt := advanceCounter c (a + b) s.gcnt })
    (playParts_withCounter c _ (advanceCounter c a s.gcnt) _ _).symm

/-! RENDER. -/

/-- Two RENDERs one after the other are one RENDER if their loops are one loop. -/
theorem execOf_render_append (hm : s.mode = .ready) (hr : start + a + b ≤ s.maxBlock.toNat) (he : s.events = [])
    (hloop : Running { s with busy := true } →
      endCommand (renderLoop c (a + b) (({ s with busy := true } : State).atRange start (a + b))) =
      endCommand (renderLoop c b
        ((renderLoop c a (({ s with busy := true } : State).atRange start a)).atRange (start + a) b)))
    (ht : execOf c (.render start a) s = .next t) (hu : execOf c (.render (start + a) b) t = .next u) :
    execOf c (.render start (a + b)) s = .next u := by
  have hlen := s.maxBlock.isLt
  have hrun : Running { s with busy := true } := ⟨rfl, he⟩
  obtain ⟨⟨hbusy, -⟩, hmode, hmax⟩ := renderLoop_frame (c := c) hrun (pos := start) (left := a) (by omega) a
  rw [execOf_render_of_accepted c hm (by omega)] at ht
  have ht : t = endCommand (renderLoop c a (({ s with busy := true } : State).atRange start a)) :=
    (Host.Outcome.next.inj ht).symm
  have hmode' : t.mode = .ready := by rw [ht]; exact hmode.trans hm
  have hmax' : t.maxBlock = s.maxBlock := by rw [ht]; exact hmax
  rw [execOf_render_of_accepted c hmode' (by rw [hmax']; omega), ht] at hu
  rw [execOf_render_of_accepted c hm (by omega), ← hu]
  refine congrArg Host.Outcome.next ((hloop hrun).trans ?_)
  generalize renderLoop c a (({ s with busy := true } : State).atRange start a) = r at hbusy
  rw [State.atRange, ← hbusy]
  rfl

/-- At the end of a pool chunk (R311). -/
theorem execOf_render_split_at_chunk (hm : s.mode = .ready) (hr : start + a + b ≤ s.maxBlock.toNat) (he : s.events = [])
    (hg : s.gcnt.toNat < c.controlDiv) (hend : (s.gcnt.toNat + a) % c.controlDiv = 0)
    (ht : execOf c (.render start a) s = .next t) (hu : execOf c (.render (start + a) b) t = .next u) :
    execOf c (.render start (a + b)) s = .next u :=
  have hlen := s.maxBlock.isLt
  execOf_render_append hm hr he
    (fun hrun => congrArg endCommand (renderLoop_add hrun (by omega) hg hend le_rfl le_rfl le_rfl)) ht hu

/-- Inside a pool chunk, where every voice may be cut (R433). -/
theorem execOf_render_split_in_chunk (hm : s.mode = .ready) (hr : start + a + b ≤ s.maxBlock.toNat)
    (hcap : s.maxBlock.toNat ≤ c.maxBlockCap) (hwf : Memory.wf (bufferWords c) s.buf = true) (he : s.events = [])
    (hg : s.gcnt.toNat + a + b ≤ c.controlDiv) (hc : ∀ v < s.nvoices.toNat, (s.voice v).ccnt.toNat < c.controlDiv)
    (hcut : 0 < b → ∀ v < s.nvoices.toNat, MayBeCut c a ((s.voice v).cutAtBoundary c s.gcnt) (t.voice v))
    (ht : execOf c (.render start a) s = .next t) (hu : execOf c (.render (start + a) b) t = .next u) :
    execOf c (.render start (a + b)) s = .next u := by
  have hlen := s.maxBlock.isLt
  have hstart : endCommand (renderLoop c a (({ s with busy := true } : State).atRange start a)) = t := by
    rw [execOf_render_of_accepted c hm (by omega)] at ht
    exact Host.Outcome.next.inj ht
  refine execOf_render_append hm hr he (fun hrun => ?_) ht hu
  obtain rfl | hb := Nat.eq_zero_or_pos b
  · rfl
  obtain rfl | ha := Nat.eq_zero_or_pos a
  · rw [Nat.zero_add]
    rfl
  have hg' : ({ s with busy := true } : State).gcnt.toNat + (a + b) ≤ c.controlDiv := by rwa [← Nat.add_assoc]
  have hg1 : (chunkRun c start a { s with busy := true }).gcnt.toNat = s.gcnt.toNat + a := by
    rw [chunkRun_gcnt hrun]
    exact advanceCounter_of_lt (by omega)
  have hfirst := renderLoop_one_chunk (c := c) (start := start) (k := a) hrun (by omega) ha (by omega) le_rfl
  have hsecond := renderLoop_one_chunk (c := c) (start := start + a) (k := b) (hrun.chunkRun c start a) (by omega) hb
    (by omega) le_rfl
  have hwhole := renderLoop_one_chunk (c := c) (start := start) (k := a + b) hrun (by omega) (by omega) hg' le_rfl
  rw [hfirst] at hstart
  have hvoice : ∀ v, (chunkRun c start a { s with busy := true }).voice v = t.voice v := fun v => by rw [← hstart]; rfl
  have hadd := chunkRun_add (c := c) (b := b) hrun ha (by omega) hwf (by omega) hc fun v hv => hvoice v ▸ hcut hb v hv
  rw [hfirst, hwhole, hadd]
  exact (congrArg endCommand hsecond).symm

/-- Settles O36: at the end of a pool chunk the loop is cut between two rounds; inside one, every voice's part is cut in two, and the
second parts add into other words than the first. -/
theorem renderSplitsAtControlTick : Obligations.RenderSplitsAtControlTick := by
  refine ⟨fun start a b s t u hm hr he hg hend ht hu => ?_,
    fun start a b s t u hm hr hmax hwf he hg hc ht hu hvoices => ?_,
    fun capped start a b s t u hm hr hmax hwf he hg hc ht hu => ?_⟩
  · rw [exec_eq_execOf] at ht hu ⊢
    exact execOf_render_split_at_chunk hm hr he hg hend ht hu
  · rw [exec_eq_execOf] at ht hu ⊢
    refine execOf_render_split_in_chunk hm hr hmax hwf he hg hc (fun hb v hv => ?_) ht hu
    obtain hidle | hactive | ⟨hcount, hroom⟩ := hvoices v hv
    · exact .inl (by rwa [Voice.sounds_hw])
    · exact .inr (.inl (by rwa [Voice.sounds_hw]))
    · exact .inr (.inr (.inr ⟨hcount, lt_of_lt_of_le (Nat.lt_add_of_pos_right hb) hroom⟩))
  · exact execOf_render_split_in_chunk (c := readings capped true) hm hr hmax hwf he hg hc
      (fun _ _ _ => .inr (.inr (.inl rfl))) ht hu

end Sys2Proof.Machine
end

section
/-! SUPPORT. The configuration commands (47_config_commands.md R320 to R330): dropped in HALTED only, else each decides on its
arguments alone; and a rejection repeated, or a PREPARE repeated, finds what the first one left. -/

namespace Sys2Proof.Machine

variable {H : Word} {body : State → State} {s : State}

/-! Admission. -/

/-- In HALTED every C-port command is dropped (60_exceptions.md R383). -/
theorem cCommand_of_halted (hm : s.mode = .halted) : cCommand H body s = rejectedC 2 H s :=
  (if_pos hm).trans (raise_c_eq .notPrepared H true s)

theorem cCommand_of_not_halted (hm : s.mode ≠ .halted) : cCommand H body s = body { s with busy := true } :=
  if_neg hm

/-- A command whose one test is `p`: dropped with `E_CONFIG` if it fails, else its effects. -/
theorem cCommand_config {p : Prop} [Decidable p] (hm : s.mode ≠ .halted) :
    (p → cCommand H (fun s => if p then raise .config H .c s else body s) s = rejectedC 1 H s) ∧
    (¬ p → cCommand H (fun s => if p then raise .config H .c s else body s) s = body { s with busy := true }) := by
  rw [cCommand_of_not_halted hm]
  exact ⟨fun h => (if_pos h).trans (raise_c_eq .config H true s), fun h => if_neg h⟩

/-- A rejection repeated changes nothing: its bit is set already, and an error is recorded already. -/
theorem rejectedC_rejectedC (b : Nat) (H : Word) (s : State) : rejectedC b H (rejectedC b H s) = rejectedC b H s := by
  have hbit : (s.err ||| 1#6 <<< b) ||| 1#6 <<< b = s.err ||| 1#6 <<< b := by rw [BitVec.or_assoc, BitVec.or_self]
  have hfirst : s.err ||| 1#6 <<< b = 0 → s.err = 0 := fun h => (BitVec.or_eq_zero_iff.1 h).1
  unfold rejectedC
  dsimp only
  rw [hbit]
  by_cases h : s.err ||| 1#6 <<< b = 0
  · simp only [hfirst h, if_true, ite_self]
  · simp only [h, if_false]

/-! PREPARE. -/

/-- The arguments that PREPARE accepts (R320). -/
def PrepareLegal (d : BitVec 64) (mb nc : Nat) : Prop :=
  fgt (f64ToNum d) 0#32 = true ∧ f64ToNum d ≠ Num32.inf ∧ (1 ≤ mb ∧ mb ≤ 4096) ∧ (1 ≤ nc ∧ nc ≤ 2)

theorem rateLegal_iff (x : Num32) : rateLegal x = true ↔ fgt x 0#32 = true ∧ x ≠ Num32.inf := by
  simp [rateLegal]

/-- PREPARE's three tests together. -/
theorem prepareCommand_of_not_halted (d : BitVec 64) (mb nc : Nat) (hm : s.mode ≠ .halted) :
    (¬ PrepareLegal d mb nc → prepareCommand hw H d mb nc s = rejectedC 1 H s) ∧
    (PrepareLegal d mb nc → prepareCommand hw H d mb nc s =
      endCommand (prepareEffects hw (f64ToNum d) mb nc { s with busy := true })) := by
  have hdrop : raise .config H .c { s with busy := true } = rejectedC 1 H s := raise_c_eq .config H true s
  have hcap : hw.maxBlockCap = 4096 := rfl
  have hchannels : hw.maxChannels = 2 := rfl
  unfold prepareCommand PrepareLegal
  rw [cCommand_of_not_halted hm, hdrop, ← and_assoc, ← rateLegal_iff, hcap, hchannels]
  refine ⟨fun h => ?_, fun ⟨hrate, hmb, hnc⟩ => ?_⟩
  · split
    · rfl
    split
    · rfl
    split
    · rfl
    · exact absurd ⟨by simpa using ‹¬ (!rateLegal _) = true›, by omega, by omega⟩ h
  · rw [if_neg (by simp [hrate]), if_neg (by omega), if_neg (by omega)]

/-- The state an accepted PREPARE leaves (R322). -/
theorem endCommand_prepareEffects (fsn : Num32) (mb nc : Nat) (b : Bool) (s : State) :
    endCommand (prepareEffects hw fsn mb nc { s with busy := b }) = { s with
      mode := .ready, fs := fsn, maxBlock := BitVec.ofNat 16 mb, nch := BitVec.ofNat 2 nc,
      voices := s.voices.map fun _ => Voice.reset, lfo := Osc.reset, lfoOut := 0#32, fmIn := 0#32, modIn := 0#32,
      gcnt := 0, noteSeq := 0, der1 := derivedOf fsn s.par.env1, der2 := derivedOf fsn s.par.env2,
      busy := false, cursor := none } := by
  have hder := prepareEffects_der (derivesAsHw_readings true false) fsn mb nc { s with busy := b }
  have h1 : (prepareEffects hw fsn mb nc { s with busy := b }).der1 = derivedOf fsn s.par.env1 := hder .env1
  have h2 : (prepareEffects hw fsn mb nc { s with busy := b }).der2 = derivedOf fsn s.par.env2 := hder .env2
  rw [prepareEffects_frame, h1, h2]
  rfl

/-! SETVOICES. -/

/-- The range constructed or destroyed is that between the two counts, whichever is the greater. -/
theorem constructRange_min_max (n old : Nat) (voices : List Voice) :
    constructRange hw (min n old) (max n old) voices =
      voices.mapIdx fun v x => if n ≤ v ∧ v < old ∨ old ≤ v ∧ v < n then Voice.reset else x := by
  have hrange : ∀ v, (min n old ≤ v ∧ v < max n old) ↔ (n ≤ v ∧ v < old ∨ old ≤ v ∧ v < n) := by omega
  simp only [constructRange, hrange, Voice.construct_eq]

end Sys2Proof.Machine

namespace Sys2Proof.Machine.ConfigCommands

/-- Settles O16: admission, the three tests, and the record of an accepted PREPARE. -/
theorem prepareCommand : Obligations.PrepareCommand := by
  intro d mb nc s
  refine ⟨fun hm => congrArg Host.Outcome.next (cCommand_of_halted hm),
    fun hm h => congrArg Host.Outcome.next ((prepareCommand_of_not_halted d mb nc hm).1 h),
    fun hm h => congrArg Host.Outcome.next ?_⟩
  exact ((prepareCommand_of_not_halted d mb nc hm).2 h).trans (endCommand_prepareEffects _ mb nc true s)

/-- Settles O17: the second PREPARE goes the way of the first, and on its way all it writes stands already. -/
theorem prepareIdempotent : Obligations.PrepareIdempotent := by
  intro d mb nc s t hst
  obtain ⟨shalted, sillegal, slegal⟩ := prepareCommand d mb nc s
  obtain ⟨thalted, tillegal, tlegal⟩ := prepareCommand d mb nc t
  by_cases hm : s.mode = .halted
  · obtain rfl := Host.Outcome.next.inj ((shalted hm).symm.trans hst)
    rw [thalted hm, rejectedC_rejectedC]
  by_cases h : PrepareLegal d mb nc
  · obtain rfl := Host.Outcome.next.inj ((slegal hm h).symm.trans hst)
    rw [tlegal Mode.noConfusion h, List.map_map]
    rfl
  · obtain rfl := Host.Outcome.next.inj ((sillegal hm h).symm.trans hst)
    rw [tillegal hm h, rejectedC_rejectedC]

/-- Settles O18: admission, the bound, and the range between the two counts. -/
theorem setvoicesCommand : Obligations.SetvoicesCommand := by
  intro n s
  refine ⟨fun hm => congrArg Host.Outcome.next (cCommand_of_halted hm),
    fun hm hn => congrArg Host.Outcome.next ((cCommand_config hm).1 hn), fun hm hn => ?_⟩
  rw [← constructRange_min_max]
  exact congrArg Host.Outcome.next ((cCommand_config hm).2 (Nat.not_lt.2 hn))

/-- Settles O19: admission, the bound, and the one entry of the table that `scope` names; a field of four bits is stored as given. -/
theorem routeCommand : Obligations.RouteCommand := by
  intro scope index valid en src dst s i
  have hexec : exec i s =
      .next (Machine.routeCommand hw i.header scope index ⟨valid, en, src, dst⟩ s) := by
    have hfield : ∀ x : BitVec 4, BitVec.ofNat 4 x.toNat = x := fun x => (BitVec.ofNat_toNat 4 x).trans x.setWidth_eq
    show execRoute scope index valid en src.toNat dst.toNat s = _
    rw [execRoute, hfield, hfield]
  rw [hexec]
  refine ⟨fun hm => congrArg Host.Outcome.next (cCommand_of_halted hm),
    fun hm h => congrArg Host.Outcome.next ((cCommand_config hm).1 h), fun hm h hscope => ?_, fun hm h hscope => ?_⟩
  all_goals
    subst hscope
    exact congrArg Host.Outcome.next ((cCommand_config hm).2 (Nat.not_le.2 h))

end Sys2Proof.Machine.ConfigCommands
end

section
/-! SUPPORT. `rst` inside a RENDER (70_reset_and_hazards.md R410, 20_memory.md R82, R92): the command is abandoned where `rst` is
taken, and the buffer has only been added into. -/

namespace Sys2Proof.Machine

variable {c : Params} {s t u : State} {start count : Nat} {es : List Event}

/-! After `rst` nothing of the command goes on. -/

theorem atomic_rst (c : Params) (f : State → State) (u : State) : atomic c f (rst c u) = rst c u := rfl

theorem sampleLoop_rst (c : Params) (v n i : Nat) (u : State) : sampleLoop c v n i (rst c u) = rst c u := by
  induction n generalizing i with
  | zero => rfl
  | succ n ih => rw [sampleLoop, atomic_rst, ih]

theorem renderLoop_rst (c : Params) (k : Nat) (u : State) : renderLoop c k (rst c u) = rst c u := by
  cases k <;> rfl

/-- `rst` looks only at the buffer and at the moves still to come. -/
theorem rst_congr (c : Params) (hbuf : t.buf = u.buf) (hevents : t.events = u.events) : rst c t = rst c u := by
  rw [rst, rst, hbuf, hevents]

/-- An atomic step with `rst` chosen at the boundary after it. -/
theorem atomic_of_reset {f : State → State} (hb : s.busy = true) (he : (f s).events = .rst :: es) :
    atomic c f s = rst c { f s with events := es } := by
  rw [atomic, if_pos hb, interleave, he]
  rfl

/-- An atomic step with the engine's next step chosen at the boundary after it. -/
theorem atomic_of_engine {f : State → State} (hb : s.busy = true) (he : (f s).events = .engine :: es) :
    atomic c f s = { f s with events := es } := by
  rw [atomic, if_pos hb, interleave, he]
  rfl

theorem endCommand_rst_hw (u : State) : endCommand (rst hw u) = { State.reset with buf := u.buf, events := u.events } := by
  rw [rst_hw]
  rfl

/-- RENDER's state when its loop begins. -/
def State.renderStarted (start count : Nat) (s : State) : State :=
  { s with busy := true, cursor := some ⟨BitVec.ofNat 32 start, BitVec.ofNat 16 count⟩ }

theorem exec_render_eq (hm : s.mode = .ready) (hr : start + count ≤ s.maxBlock.toNat) :
    exec (.render start count) s = .next (endCommand (renderLoop hw count (s.renderStarted start count))) :=
  exec_render_of_accepted hm hr

/-- A RENDER whose first chunk ends in `rst`. -/
theorem exec_render_of_chunk_reset (hm : s.mode = .ready) (hr : start + count ≤ s.maxBlock.toNat) (hn : 0 < count)
    (hchunk : poolChunk hw ⟨BitVec.ofNat 32 start, BitVec.ofNat 16 count⟩ (s.renderStarted start count) = rst hw u) :
    exec (.render start count) s = .next { State.reset with buf := u.buf, events := u.events } := by
  have hlen := s.maxBlock.isLt
  have hrem : BitVec.ofNat 16 count ≠ 0 := fun h0 => by
    have : (BitVec.ofNat 16 count).toNat = count := by rw [BitVec.toNat_ofNat]; omega
    simp [h0] at this
    omega
  obtain ⟨k, rfl⟩ : ∃ k, count = k + 1 := ⟨count - 1, by omega⟩
  rw [exec_render_eq hm hr, renderLoop_of_cursor rfl hrem, hchunk, renderLoop_rst, endCommand_rst_hw]

/-! At the boundary after the global tick. -/

theorem poolChunk_of_reset (cur : Cursor) (hb : s.busy = true) (hg : s.gcnt = 0) (he : s.events = .rst :: es) :
    poolChunk c cur s = rst c { globalTick c s with events := es } := by
  have hevents : (globalTick c s).events = .rst :: es := by rw [globalTick_frame]; exact he
  rw [poolChunk, if_pos hg, atomic_of_reset hb hevents]
  rfl

/-! At the boundary after a sample. -/

/-- A voice sample does not see the cursor or the moves. -/
theorem voiceSample_withCursor_events (c : Params) (v i : Nat) (s : State) (cur : Option Cursor) (es : List Event) :
    voiceSample c v i { s with cursor := cur, events := es } =
      { voiceSample c v i s with cursor := cur, events := es } := by
  unfold voiceSample mixIn memWrite
  dsimp only
  split <;> split <;> (try split) <;> (try split) <;> rfl

theorem voiceSample_busy (c : Params) (v i : Nat) (s : State) : (voiceSample c v i s).busy = s.busy := by
  rw [voiceSample_frame]

theorem voiceSample_events (c : Params) (v i : Nat) (s : State) : (voiceSample c v i s).events = s.events := by
  rw [voiceSample_frame]

theorem atomic_voiceSample_of_noMoves (hb : s.busy = true) (cur : Option Cursor) (v i : Nat) :
    atomic c (voiceSample c v i) { s with cursor := cur, events := [] } =
      { voiceSample c v i s with cursor := cur, events := [] } := by
  rw [atomic_of_noMoves (s := { s with cursor := cur, events := [] }) hb (voiceSample_events ..), voiceSample_withCursor_events]

/-- `rst` at the boundary after sample `k + 1` of a sub-chunk leaves the buffer of `k + 1` samples with no move chosen. -/
theorem sampleLoop_of_reset (cur : Option Cursor) (v : Nat) {k n : Nat} (hk : k < n) (i : Nat) (hb : s.busy = true)
    (he : s.events = List.replicate k .engine ++ .rst :: es) :
    sampleLoop c v n i s =
      rst c { sampleLoop c v (k + 1) i { s with cursor := cur, events := [] } with events := es } := by
  induction k generalizing n i s with
  | zero =>
    obtain ⟨n, rfl⟩ : ∃ m, n = m + 1 := ⟨n - 1, by omega⟩
    rw [sampleLoop, atomic_of_reset hb ((voiceSample_events c v i s).trans he), sampleLoop_rst,
      sampleLoop, atomic_voiceSample_of_noMoves hb]
    rfl
  | succ k ih =>
    obtain ⟨n, rfl⟩ : ∃ m, n = m + 1 := ⟨n - 1, by omega⟩
    rw [sampleLoop, atomic_of_engine hb ((voiceSample_events c v i s).trans he), sampleLoop,
      atomic_voiceSample_of_noMoves hb]
    exact ih (s := { voiceSample c v i s with events := List.replicate k .engine ++ .rst :: es }) (by omega) (i + 1)
      ((voiceSample_busy c v i s).trans hb) rfl

/-- A RENDER of `n` samples plays one active voice alone, and neither a global tick nor a tick of that voice is due in it. -/
structure OneVoiceNoTick (n : Nat) (s : State) : Prop where
  nvoices : s.nvoices = 1
  active : (s.voice 0).isActive = true
  gcnt : s.gcnt ≠ 0 ∧ s.gcnt.toNat + n ≤ 100
  ccnt : (s.voice 0).ccnt ≠ 0 ∧ (s.voice 0).ccnt.toNat + n ≤ 100

theorem OneVoiceNoTick.shorter {m n : Nat} (h : OneVoiceNoTick n s) (hm : m ≤ n) : OneVoiceNoTick m s where
  nvoices := h.nvoices
  active := h.active
  gcnt := ⟨h.gcnt.1, by have := h.gcnt.2; omega⟩
  ccnt := ⟨h.ccnt.1, by have := h.ccnt.2; omega⟩

theorem chunkLength_of_fits {n : Nat} {k : BitVec 16} (h : k.toNat + n ≤ 100) : chunkLength hw n k = n := by
  have : min n (100 - k.toNat) = n := by omega
  exact this

/-- The voice renders the range in one sub-chunk without a tick. -/
theorem OneVoiceNoTick.renderVoices {n : Nat} (h : OneVoiceNoTick n s) (hb : s.busy = true) (hn : 0 < n) (pos : Nat) :
    (liveVoices s).foldl (renderVoice hw pos n) s =
      whileBusy (fun s => s.modVoice 0 (Voice.advance hw n)) (sampleLoop hw 0 n pos s) := by
  have hlive : liveVoices s = [0] := by rw [liveVoices, h.nvoices]; rfl
  have hdone : ∀ k pos (u : State), voiceLoop hw 0 k pos (n - n) u = u := fun k pos u => by
    cases k with
    | zero => rfl
    | succ k => simp [voiceLoop]
  obtain ⟨k, rfl⟩ : ∃ k, n = k + 1 := ⟨n - 1, by omega⟩
  rw [hlive, List.foldl_cons, List.foldl_nil, renderVoice, whileBusy, if_pos hb, cutFadeOut_hw, voiceLoop,
    if_neg (by simp [hb, h.active]), if_neg h.ccnt.1]
  dsimp only
  rw [chunkLength_of_fits h.ccnt.2, hdone]

/-- With no move chosen such a RENDER leaves the buffer of its samples. -/
theorem OneVoiceNoTick.rendered_buf {n : Nat} (h : OneVoiceNoTick n s) (hn : 0 < n) (hm : s.mode = .ready)
    (hr : start + n ≤ s.maxBlock.toNat) (he : s.events = []) (hu : exec (.render start n) s = .next u) :
    u.buf = (sampleLoop hw 0 n start (s.renderStarted start n)).buf := by
  have hlen := s.maxBlock.isLt
  have hrun : Running (s.renderStarted start n) := ⟨rfl, he⟩
  have hstarted : OneVoiceNoTick n (s.renderStarted start n) := { h with }
  have hloop := renderLoop_one_chunk (c := hw) (start := start) (k := n) hrun (by omega) hn h.gcnt.2 le_rfl
  have htick : globalTickIfDue hw (s.renderStarted start n) = s.renderStarted start n := if_neg h.gcnt.1
  have hchunk : (chunkRun hw start n (s.renderStarted start n)).buf =
      (whileBusy (fun s => s.modVoice 0 (Voice.advance hw n)) (sampleLoop hw 0 n start (s.renderStarted start n))).buf := by
    rw [chunkRun, htick, ← hstarted.renderVoices rfl hn start]
    rfl
  rw [exec_render_eq hm hr] at hu
  rw [← Host.Outcome.next.inj hu]
  refine (congrArg State.buf hloop).trans (hchunk.trans ?_)
  unfold whileBusy
  split <;> rfl

/-- `rst` at the boundary after sample `k + 1` leaves the buffer of the RENDER of `k + 1` samples. -/
theorem OneVoiceNoTick.exec_render_of_reset {k : Nat} (h : OneVoiceNoTick count s) (hk : k < count) (hm : s.mode = .ready)
    (hr : start + count ≤ s.maxBlock.toNat) (he : s.events = List.replicate k .engine ++ .rst :: es)
    (hu : exec (.render start (k + 1)) { s with events := [] } = .next u) :
    exec (.render start count) s = .next { State.reset with buf := u.buf, events := es } := by
  have hlen := s.maxBlock.isLt
  have hpos : (BitVec.ofNat 32 start).toNat = start := by rw [BitVec.toNat_ofNat]; omega
  have hrem : (BitVec.ofNat 16 count).toNat = count := by rw [BitVec.toNat_ofNat]; omega
  have hshort : OneVoiceNoTick (k + 1) { s with events := [] } := { h.shorter hk with }
  have hbuf := hshort.rendered_buf (Nat.succ_pos k) hm (by show start + (k + 1) ≤ s.maxBlock.toNat; omega) rfl hu
  have hstarted : OneVoiceNoTick count (s.renderStarted start count) := { h with }
  have hsamples : sampleLoop hw 0 count start (s.renderStarted start count) = rst hw { u with events := es } :=
    (sampleLoop_of_reset (s := s.renderStarted start count) (some ⟨BitVec.ofNat 32 start, BitVec.ofNat 16 (k + 1)⟩) 0 hk
      start rfl he).trans (rst_congr hw hbuf.symm rfl)
  refine exec_render_of_chunk_reset hm hr (by omega) (u := { u with events := es }) ?_
  rw [poolChunk, if_neg hstarted.gcnt.1]
  dsimp only
  rw [hpos, hrem, chunkLength_of_fits hstarted.gcnt.2, hstarted.renderVoices rfl (by omega), hsamples]
  rfl

/-! Anywhere in a RENDER. -/

/-- Every word of the canonical buffer of `t` is that of `s` with additions, and unchanged outside the range. -/
structure AddedWithin (start count : Nat) (s t : State) : Prop where
  memory : Memory.wf (bufferWords hw) t.buf = true
  added : ∀ a, ∃ zs : List Num32, memRead a t = zs.foldl fadd (memRead a s)
  other : ∀ a, ¬ Rendered s start count a → memRead a t = memRead a s

theorem AddedWithin.of_buf {t' : State} (h : AddedWithin start count s t) (hbuf : t'.buf = t.buf) : AddedWithin start count s t' where
  memory := hbuf ▸ h.memory
  added a := by rw [memRead, hbuf]; exact h.added a
  other a := by rw [memRead, hbuf]; exact h.other a

theorem AddedWithin.mixIn {ch i : Nat} (h : AddedWithin start count s t) (ha : Rendered s start count (sampleAddr hw ch i))
    (z : Num32) : AddedWithin start count s (mixIn hw ch i z t) where
  memory := mixIn_wf ch z h.memory
  added a := by
    obtain ⟨zs, hzs⟩ := h.added a
    by_cases hword : a = sampleAddr hw ch i ∧ a < bufferWords hw
    · obtain ⟨rfl, hlt⟩ := hword
      exact ⟨zs ++ [z], by rw [Machine.mixIn, memRead_memWrite_same hw h.memory hlt, hzs, List.foldl_append]; rfl⟩
    · refine ⟨zs, Eq.trans ?_ hzs⟩
      by_cases hne : a = sampleAddr hw ch i
      · rw [Machine.mixIn, memWrite, if_neg fun hlt => hword ⟨hne, hne ▸ hlt⟩]
      · exact memRead_mixIn_ne z hne
  other a hout := by
    have hne : a ≠ sampleAddr hw ch i := fun hin => hout (hin ▸ ha)
    rw [memRead_mixIn_ne z hne, h.other a hout]

theorem AddedWithin.mixIn_if {p : Prop} [Decidable p] {ch i : Nat} (h : AddedWithin start count s t)
    (ha : p → Rendered s start count (sampleAddr hw ch i)) (z : Num32) :
    AddedWithin start count s (if p then Machine.mixIn hw ch i z t else t) := by
  split
  · exact h.mixIn (ha ‹_›) z
  · exact h

theorem AddedWithin.voiceSample {i : Nat} (h : AddedWithin start count s t) (hnch : t.nch = s.nch)
    (hi : start ≤ i ∧ i < start + count) (v : Nat) : AddedWithin start count s (voiceSample hw v i t) := by
  have hrendered : ∀ ch < t.nch.toNat, Rendered s start count (sampleAddr hw ch i) := fun ch hch =>
    ⟨ch, i, hnch ▸ hch, hi.1, hi.2, rfl⟩
  have hrecord : AddedWithin start count s (t.modVoice v fun _ => ((t.voice v).sample hw t).2.2) := h.of_buf rfl
  exact (hrecord.mixIn_if (hrendered 0) _).mixIn_if (hrendered 1) _

/-- `rst` stands among the moves still to come, after moves of the engine and the writer only. -/
def ResetToCome (s : State) (pre es : List Event) (t : State) : Prop :=
  t.mode = .ready ∧ t.nch = s.nch ∧ ∃ rest, rest <:+ pre ∧ t.events = rest ++ .rst :: es

/-- `rst` was taken, and nothing but the buffer and the later moves is left. -/
def ResetTaken (es : List Event) (t : State) : Prop := t = { State.reset with buf := t.buf, events := es }

theorem not_resetTaken_of_busy (hb : t.busy = true) : ¬ ResetTaken es t := fun h => by
  rw [h] at hb
  cases hb

theorem interleave_resetToCome {pre : List Event} (hpre : ∀ e ∈ pre, e = .engine ∨ e = .writer) (h : ResetToCome s pre es t) :
    (interleave hw t).buf = t.buf ∧ (ResetToCome s pre es (interleave hw t) ∨ ResetTaken es (interleave hw t)) := by
  obtain ⟨hm, hnch, rest, hrest, hevents⟩ := h
  unfold interleave
  rw [hevents]
  obtain ⟨_, _, _, _, _, _, _, _, _, rest', hrest', e⟩ | ⟨-, u, e, hbuf, hu⟩ :=
    interleaveWith_until hw .rst (by simp) rest es (fun e he => hpre e (hrest.mem he)) t
  · rw [e]
    exact ⟨rfl, .inl ⟨hm, hnch, rest', hrest'.trans hrest, rfl⟩⟩
  · rw [e, rst_hw, hbuf, hu]
    exact ⟨rfl, .inr rfl⟩

/-- Everything in a RENDER keeps this, up to `rst`. -/
theorem addedUntilReset_keeps {pre : List Event} (hpre : ∀ e ∈ pre, e = .engine ∨ e = .writer) :
    Keeps hw (fun i => start ≤ i ∧ i < start + count)
      (fun t => AddedWithin start count s t ∧ (ResetToCome s pre es t ∨ ResetTaken es t)) where
  global t hb h := by
    obtain ⟨hadd, hmoves⟩ := h
    have hmoves := hmoves.resolve_right (not_resetTaken_of_busy hb)
    rw [globalTick_frame]
    exact ⟨hadd.of_buf rfl, .inl hmoves⟩
  tick v t hb h := ⟨h.1.of_buf rfl, .inl (h.2.resolve_right (not_resetTaken_of_busy hb))⟩
  sample v i t hi hb h := by
    obtain ⟨hadd, hmoves⟩ := h
    have hmoves := hmoves.resolve_right (not_resetTaken_of_busy hb)
    refine ⟨hadd.voiceSample hmoves.2.1 hi v, .inl ?_⟩
    rw [voiceSample_frame]
    exact hmoves
  moves t hb h := by
    obtain ⟨hbuf, hmoves⟩ := interleave_resetToCome hpre (h.2.resolve_right (not_resetTaken_of_busy hb))
    exact ⟨h.1.of_buf hbuf, hmoves⟩
  advance v n t hb h := ⟨h.1.of_buf rfl, .inl (h.2.resolve_right (not_resetTaken_of_busy hb))⟩
  cut v t hb h := h

/-- Settles O38: after the global tick and after a sample the chunk ends in `rst`; anywhere else everything in RENDER keeps what
holds up to `rst`. -/
theorem renderAbandonedByReset : Obligations.RenderAbandonedByReset := by
  refine ⟨fun start count s es hm hr hn hg he => ?_, fun start count s t pre es hm hr hwf hpre he hexec => ?_,
    fun start count k s u es hm hr hg hgfit hv _ hx h0 hfit hk1 hk he hu => ?_⟩
  · have hbuf : (globalTick hw (s.renderStarted start count)).buf = s.buf := by rw [globalTick_frame]; rfl
    rw [exec_render_of_chunk_reset hm hr hn (poolChunk_of_reset _ rfl hg he), ← hbuf]
  · have hstart : AddedWithin start count s (s.renderStarted start count) :=
      ⟨hwf, fun a => ⟨[], rfl⟩, fun a _ => rfl⟩
    obtain ⟨hadd, hend⟩ := render_keeps (addedUntilReset_keeps (start := start) (count := count) (s := s) (es := es) hpre)
      (fun t n cur hb h => ⟨h.1.of_buf rfl, .inl (h.2.resolve_right (not_resetTaken_of_busy hb))⟩) start count
      (Nat.lt_of_le_of_lt hr s.maxBlock.isLt) (fun j h1 h2 => ⟨h1, h2⟩) { s with busy := true } rfl
      ⟨hstart.of_buf rfl, .inl ⟨hm, rfl, pre, List.suffix_refl pre, he⟩⟩ count
    rw [exec_render_eq hm hr] at hexec
    obtain rfl := Host.Outcome.next.inj hexec
    refine ⟨?_, fun a => ⟨hadd.added a, hadd.other a⟩⟩
    obtain ⟨hmode, -, hrest⟩ | htaken := hend
    · exact .inr ⟨hmode, hrest⟩
    · exact .inl (congrArg endCommand htaken)
  · obtain ⟨k, rfl⟩ : ∃ m, k = m + 1 := ⟨k - 1, by omega⟩
    exact OneVoiceNoTick.exec_render_of_reset ⟨hv, hx, ⟨hg, hgfit⟩, ⟨h0, hfit⟩⟩ hk hm hr he hu

end Sys2Proof.Machine
end

section
/-! SUPPORT. The forms of SETPARAM (48_parameter_setters.md R340 to R366) when no other move is chosen in between, what they store, and
the single writes of a sequence. -/

namespace Sys2Proof.Machine

variable {c : Params} {s : State}

/-! Cells. -/

theorem ParamCells.get_set_same (p : ParamCells) (id : ParamId) (v : Num32) : (p.set id v).get id = v := by
  cases id <;> rfl

theorem ParamCells.get_set_ne (p : ParamCells) {id id' : ParamId} (h : id' ≠ id) (v : Num32) :
    (p.set id v).get id' = p.get id' := by
  cases id <;> cases id' <;> simp [ParamCells.set, ParamCells.get] at h ⊢

/-- Settles O30: a SETPARAM's only write of a parameter cell is that of the raw word, and it records no error. -/
theorem setparamStoresWord : Obligations.SetparamStoresWord := by
  intro id x s
  refine ⟨_, exec_instr id x s, ?_⟩
  rw [setParam_frame]
  exact ⟨s.par.get_set_same id x, fun id' h => s.par.get_set_ne h x, rfl⟩

/-! Write sequences. -/

/-- With no derived write to come a SETPARAM takes no move (R342). -/
theorem setParam_of_no_sequence {id : ParamId} (h : derivedWrites id = []) (v : Word) (s : State) :
    setParam c id v s = { s with par := s.par.set id v, pPend := [], pbusy := false } := by
  have hdrain : ∀ u : State, u.pPend = [] → drainWith c u.events u = u := fun u hu => by
    cases he : u.events with
    | nil => rw [drainWith, State.withEvents_of_eq he, hu, List.length_nil, writeRest]
    | cons e es =>
      unfold drainWith
      rw [if_pos (by rw [hu]; rfl)]
      exact State.withEvents_of_eq he
  have hstart : setParamStart id v s = { s with par := s.par.set id v, pPend := [], pbusy := false } := by
    rw [setParamStart, h]
    rfl
  have hrun : setParam c id v s = drainWith c (setParamStart id v s).events (setParamStart id v s) := rfl
  rw [hrun, hstart]
  exact hdrain _ rfl

theorem writeNext_of_none (hp : s.pPend = []) : writeNext c s = s := by
  rw [writeNext, hp]

/-- The next derived write of a sequence in flight (R342). -/
theorem writeNext_of_pending {E : EnvId} {n : DerivedName} {rest : List (EnvId × DerivedName)} (hp : s.pPend = (E, n) :: rest) :
    writeNext c s = setPending rest (deriveCell c E n s) := by
  rw [writeNext, hp]

theorem deriveCell_hw (E : EnvId) (n : DerivedName) (s : State) :
    deriveCell hw E n s = s.setDer E n ((derivedOf s.fs (s.par.env E)).get n) := by
  rw [← derivesAsHw_readings true false]
  rfl

/-- The derived writes `ns`, each with its value from the cells and the rate of `s`. -/
def writeDerived (s : State) (ns : List (EnvId × DerivedName)) : State :=
  ns.foldl (fun t p => t.setDer p.1 p.2 ((derivedOf s.fs (s.par.env p.1)).get p.2)) s

/-- The rest of a sequence makes its writes with the values of the cells at its beginning, which no write of it changes. -/
theorem writeRest_of_pending (ns : List (EnvId × DerivedName)) (s : State) :
    writeRest hw ns.length (setPending ns s) = setPending [] (writeDerived s ns) := by
  have hwrites : ∀ u : State, u.fs = s.fs → u.par = s.par → writeRest hw ns.length (setPending ns u) =
      setPending [] (ns.foldl (fun t p => t.setDer p.1 p.2 ((derivedOf s.fs (s.par.env p.1)).get p.2)) u) := by
    induction ns with
    | nil => exact fun u _ _ => rfl
    | cons p ns ih =>
      intro u hfs hpar
      have hset : ∀ x, setPending ns ((setPending (p :: ns) u).setDer p.1 p.2 x) = setPending ns (u.setDer p.1 p.2 x) :=
        fun x => by rw [State.setDer.eq_def, State.setDer.eq_def]; cases p.1 <;> rfl
      rw [List.length_cons, writeRest, writeNext_of_pending (setPending_pPend (p :: ns) u), deriveCell_hw, hset, setPending_fs,
        setPending_par, hfs, hpar]
      exact ih _ ((State.setDer_fs ..).trans hfs) ((State.setDer_par ..).trans hpar)
  exact hwrites s rfl rfl

/-- With no move chosen a SETPARAM makes all its derived writes at once. -/
theorem exec_instr_of_noMoves (he : s.events = []) (id : ParamId) (x : Word) :
    exec (id.instr x) s = .next (setPending [] (writeDerived { s with par := s.par.set id x } (derivedWrites id))) := by
  have hrun : setParam hw id x s = drainWith hw (setParamStart id x s).events (setParamStart id x s) := rfl
  have hstart : (setParamStart id x s).events = [] := he
  rw [exec_instr, hrun, hstart, drainWith, State.withEvents_of_eq hstart]
  exact congrArg Host.Outcome.next (writeRest_of_pending (derivedWrites id) { s with par := s.par.set id x })

/-- The cells `ns` of one envelope set to their values of its cells and the rate. -/
def Derived.recomputed (fs : Num32) (m : EnvMaster) (ns : List DerivedName) (d : Derived) : Derived :=
  ns.foldl (fun d n => d.set n ((derivedOf fs m).get n)) d

theorem writeDerived_env1 (s : State) (ns : List DerivedName) : writeDerived s (ns.map (EnvId.env1, ·)) =
    { s with der1 := Derived.recomputed s.fs s.par.env1 ns s.der1 } := by
  rw [writeDerived, List.foldl_map]
  exact List.foldl_hom (g₁ := fun d n => d.set n ((derivedOf s.fs s.par.env1).get n))
    (g₂ := fun t n => t.setDer .env1 n ((derivedOf s.fs s.par.env1).get n)) (fun d : Derived => { s with der1 := d }) fun _ _ => rfl

theorem writeDerived_env2 (s : State) (ns : List DerivedName) : writeDerived s (ns.map (EnvId.env2, ·)) =
    { s with der2 := Derived.recomputed s.fs s.par.env2 ns s.der2 } := by
  rw [writeDerived, List.foldl_map]
  exact List.foldl_hom (g₁ := fun d n => d.set n ((derivedOf s.fs s.par.env2).get n))
    (g₂ := fun t n => t.setDer .env2 n ((derivedOf s.fs s.par.env2).get n)) (fun d : Derived => { s with der2 := d }) fun _ _ => rfl

/-- A SETPARAM of the first envelope whose sequence is `ns`, with no move chosen. -/
theorem exec_env1_of_noMoves (he : s.events = []) {id : ParamId} {ns : List DerivedName}
    (hns : derivedWrites id = ns.map (EnvId.env1, ·)) (x : Word) : exec (id.instr x) s = .next { s with
      par := s.par.set id x, pPend := [], pbusy := false,
      der1 := Derived.recomputed s.fs (s.par.set id x).env1 ns s.der1 } := by
  rw [exec_instr_of_noMoves he, hns, writeDerived_env1]
  rfl

/-- The same of the second envelope. -/
theorem exec_env2_of_noMoves (he : s.events = []) {id : ParamId} {ns : List DerivedName}
    (hns : derivedWrites id = ns.map (EnvId.env2, ·)) (x : Word) : exec (id.instr x) s = .next { s with
      par := s.par.set id x, pPend := [], pbusy := false,
      der2 := Derived.recomputed s.fs (s.par.set id x).env2 ns s.der2 } := by
  rw [exec_instr_of_noMoves he, hns, writeDerived_env2]
  rfl

/-- Settles O25: none of these ids has a derived write to come. -/
theorem setparamRawForms : Obligations.SetparamRawForms := by
  intro x s
  have hraw : ∀ id, derivedWrites id = [] →
      exec (id.instr x) s = .next { s with par := s.par.set id x, pPend := [], pbusy := false } := fun id h => by
    rw [exec_instr, setParam_of_no_sequence h]
  exact ⟨hraw .oscWaveform rfl, hraw .oscAntialias rfl, hraw .oscDetune rfl, hraw .oscPanspread rfl, hraw .oscFmdepth rfl,
    hraw .filtCutoff rfl, hraw .filtResonance rfl, hraw .filtModdepth rfl, hraw .env1Mode rfl, hraw .env2Mode rfl,
    hraw .lfoAmount rfl, hraw .lfoFreq rfl⟩

/-- Settles O26: the two writes of the sequence, each computed from the new cells. -/
theorem setparamAttackForms : Obligations.SetparamAttackForms := by
  intro x s he
  refine ⟨fun i m hi => ?_, fun i m hi => ?_⟩
  all_goals
    simp only [List.mem_cons, Prod.mk.injEq, List.not_mem_nil, or_false] at hi
    obtain ⟨rfl, rfl⟩ | ⟨rfl, rfl⟩ := hi
  · exact exec_env1_of_noMoves he (id := .env1Attack) (ns := [.attackCoef, .attackBase]) rfl x
  · exact exec_env1_of_noMoves he (id := .env1RatioA) (ns := [.attackCoef, .attackBase]) rfl x
  · exact exec_env2_of_noMoves he (id := .env2Attack) (ns := [.attackCoef, .attackBase]) rfl x
  · exact exec_env2_of_noMoves he (id := .env2RatioA) (ns := [.attackCoef, .attackBase]) rfl x

/-- Settles O27: the writes of each sequence, computed from the new cells. -/
theorem setparamDecayForms : Obligations.SetparamDecayForms := fun x _ he =>
  ⟨exec_env1_of_noMoves he (id := .env1Decay) (ns := [.decayCoef, .decayBase]) rfl x,
    exec_env2_of_noMoves he (id := .env2Decay) (ns := [.decayCoef, .decayBase]) rfl x,
    exec_env1_of_noMoves he (id := .env1Sustain) (ns := [.decayBase]) rfl x,
    exec_env2_of_noMoves he (id := .env2Sustain) (ns := [.decayBase]) rfl x⟩

/-- Settles O28: the writes of each sequence, computed from the new cells. -/
theorem setparamReleaseForms : Obligations.SetparamReleaseForms := fun x _ he =>
  ⟨exec_env1_of_noMoves he (id := .env1Release) (ns := [.releaseCoef, .releaseBase]) rfl x,
    exec_env2_of_noMoves he (id := .env2Release) (ns := [.releaseCoef, .releaseBase]) rfl x,
    exec_env1_of_noMoves he (id := .env1RatioDr) (ns := [.decayCoef, .decayBase, .releaseCoef, .releaseBase]) rfl x,
    exec_env2_of_noMoves he (id := .env2RatioDr) (ns := [.decayCoef, .decayBase, .releaseCoef, .releaseBase]) rfl x⟩

theorem writerTurn_of_pending {run : Instr → State → StepOutcome} (hp : s.pPend ≠ []) :
    writerTurn c run s = .next (writeNext c s) :=
  if_neg fun h => hp (List.isEmpty_iff.1 h)

/-- Settles O7: the writer's turn is the next write of the sequence in flight. -/
theorem stepWritesNextDerivedCell : Obligations.StepWritesNextDerivedCell := by
  intro s es E n rest hmove hp
  have hp' : ({ s with events := es } : State).pPend = (E, n) :: rest := hp
  rw [step_of_writerMoves hmove, writerTurn_of_pending (by rw [hp']; simp), writeNext_of_pending hp', deriveCell_hw]
  rfl

end Sys2Proof.Machine
end

section
/-! SUPPORT. Errors and their record (60_exceptions.md R380 to R393): what raising one records, that the record is sticky, and what can
change the mode. -/

namespace Sys2Proof.Machine

variable {c : Params} {s t : State}

/-- A P-port error is the record of R381. -/
theorem raise_p_eq (e : Error) (H : Word) (s : State) : raise e H .p s = rejectedP e.bit H s := by
  unfold raise rejectedP
  rw [Error.flag_eq]
  by_cases h : s.err = 0 <;> simp only [h, if_true, if_false]

/-! The record is sticky. -/

/-- The error bits of `s` are set in `t`, and if there is one, `t` records the first error of `s`. -/
def RecordKept (s t : State) : Prop :=
  s.err &&& t.err = s.err ∧ (s.err ≠ 0 → t.errinfo = s.errinfo ∧ t.errport = s.errport)

theorem RecordKept.of_eq (herr : t.err = s.err) (hinfo : t.errinfo = s.errinfo) (hport : t.errport = s.errport) :
    RecordKept s t :=
  ⟨by rw [herr, BitVec.and_self], fun _ => ⟨hinfo, hport⟩⟩

/-- The first error's record stands, and a bit is added. -/
theorem RecordKept.raise (h : RecordKept s t) (e : Error) (H : Word) (port : Port) : RecordKept s (raise e H port t) := by
  obtain ⟨hbits, hfirst⟩ := h
  refine ⟨?_, fun h0 => ?_⟩
  · rw [raise_err]
    refine BitVec.eq_of_getElem_eq fun i hi => ?_
    have hbit := congrArg (·[i]) hbits
    simp only [BitVec.getElem_and, BitVec.getElem_or] at hbit ⊢
    rw [Bool.and_or_distrib_left, hbit]
    cases s.err[i] <;> rfl
  · have ht : t.err ≠ 0 := fun ht => h0 (hbits.symm.trans (by rw [ht]; exact BitVec.and_zero))
    rw [raise_errinfo, raise_errport, if_neg ht, if_neg ht]
    exact hfirst h0

/-- What the moves of the writer keep, all moves without `rst` keep. -/
theorem interleaveWith_keeps_of_noReset {P : State → Prop} (hwriter : ∀ s, P s → P (writerStep c s))
    (htake : ∀ s es, P s → P { s with events := es }) {es : List Event} (hrst : .rst ∉ es) (s : State) (h : P s) :
    P (interleaveWith c es s) := by
  induction es generalizing s with
  | nil => exact htake s [] h
  | cons e es ih =>
    have htail : .rst ∉ es := fun hm => hrst (List.mem_cons_of_mem e hm)
    cases e with
    | engine => exact htake s es h
    | writer => exact ih htail _ (hwriter s h)
    | rst => exact absurd List.mem_cons_self hrst
    | hostWrite a w => exact htake s _ h

theorem RecordKept.writerStep (h : RecordKept s t) (c : Params) : RecordKept s (writerStep c t) := by
  obtain e | e | ⟨_, rest, _, ⟨H, er, e⟩ | ⟨id, v, e⟩ | e⟩ := writerStep_cases c t <;> rw [e]
  · rw [writeNext_frame]
    exact h
  · exact h
  · exact RecordKept.raise (t := { t with pIn := rest }) h er H .p
  · exact h
  · exact h

/-- In a RENDER without `rst`: the mode is that of `s`, and the record of `s` is kept. -/
def StatusKept (s t : State) : Prop := .rst ∉ t.events ∧ t.mode = s.mode ∧ RecordKept s t

theorem statusKept_renderKeeps (c : Params) (s : State) : RenderKeeps c (StatusKept s) where
  global t _ h := by rw [globalTick_frame]; exact h
  tick v t _ h := h
  sample v i t _ _ h := by rw [voiceSample_frame]; exact h
  moves t _ h := by
    obtain ⟨hrst, hstatus⟩ := h
    refine ⟨?_, interleaveWith_keeps_of_noReset (P := fun t => t.mode = s.mode ∧ RecordKept s t)
      (fun t h => ⟨?_, h.2.writerStep c⟩) (fun t es h => h) hrst t hstatus⟩
    · obtain ⟨_, _, _, _, _, _, _, _, _, _, e, hsuffix⟩ := interleave_of_noReset c hrst
      rw [e]
      exact fun hm => hrst (hsuffix.mem hm)
    · rw [writerStep_frame]
      exact h.1
  advance v n t _ h := h
  cut v t _ h := by rw [cutFadeOut_frame]; exact h
  cursor t cur h := h
  counter t n h := h

theorem renderLoop_statusKept (c : Params) {start count : Nat} (hrst : .rst ∉ s.events) (hb : s.busy = true)
    (hlen : start + count ≤ s.maxBlock.toNat) : StatusKept s (renderLoop c count
      { s with cursor := some ⟨BitVec.ofNat 32 start, BitVec.ofNat 16 count⟩ }) :=
  (statusKept_renderKeeps c s).renderLoop hb hlen ⟨hrst, rfl, .of_eq rfl rfl rfl⟩

theorem CommandDone.recordKept (h : CommandDone c s t) (hrst : .rst ∉ s.events) : RecordKept s t := by
  have hrefl : RecordKept s s := .of_eq rfl rfl rfl
  cases h with
  | rejected e H => exact hrefl.raise e H .c
  | halted H => exact hrefl.raise .capacity H .c
  | prepared fsn mb nc => rw [prepareEffects_frame]; exact hrefl
  | voicesSet => exact hrefl
  | routedVoice => exact hrefl
  | routedGlobal => exact hrefl
  | noteStarted v n => rw [takeVoice_frame]; exact hrefl
  | noteStopped vs n tail => rw [stopAll_frame]; exact hrefl
  | rendered start count hb hlen => exact (renderLoop_statusKept c hrst hb hlen).2.2

theorem engineTurn_recordKept (hrst : .rst ∉ s.events) (h : engineTurn (execOf c) s = .next t) : RecordKept s t := by
  have hrefl : RecordKept s s := .of_eq rfl rfl rfl
  unfold engineTurn at h
  split at h
  · cases h
    exact hrefl
  · rename_i i rest hd
    split at h <;> cases h
    · exact hrefl
    · exact CommandDone.recordKept (s := { s with cIn := rest, busy := true })
        (runOf_done (port_of_decode hd) { s with cIn := rest }) hrst
  · cases h
    refine RecordKept.raise ?_ ..
    exact hrefl
  · cases h
    refine RecordKept.raise ?_ ..
    exact hrefl

theorem writerTurn_recordKept (h : writerTurn c (execOf c) s = .next t) : RecordKept s t := by
  have hrefl : RecordKept s s := .of_eq rfl rfl rfl
  unfold writerTurn at h
  split at h
  · split at h
    · cases h
      exact hrefl
    · rename_i i rest hd
      have hport := port_of_decode hd
      cases h
      cases i using Instr.byFormat with
      | setparam id v =>
        rw [runOf_instr, setParam_frame]
        exact hrefl
      | _ => cases hport
    · cases h
      refine RecordKept.raise ?_ ..
      exact hrefl
    · cases h
      refine RecordKept.raise ?_ ..
      exact hrefl
  · cases h
    rw [writeNext_frame]
    exact hrefl

theorem stepOf_recordKept (hrst : .rst ∉ s.events) (h : stepOf c s = .next t) : RecordKept s t := by
  unfold stepOf stepWith at h
  split at h
  · split at h
    · exact engineTurn_recordKept hrst h
    · exact writerTurn_recordKept h
  · rename_i es he
    exact engineTurn_recordKept (s := { s with events := es }) (fun hm => hrst (he ▸ List.mem_cons_of_mem _ hm)) h
  · rename_i es he
    exact writerTurn_recordKept (s := { s with events := es }) h
  · rename_i es he
    exact absurd (he ▸ List.mem_cons_self) hrst
  · cases h
    unfold hostWrite
    split
    · exact .of_eq rfl rfl rfl
    · rw [memWrite_frame]
      exact .of_eq rfl rfl rfl

/-- Settles O15: the record of one error, and that everything a step can do but `rst` keeps it. -/
theorem errorRecord : Obligations.ErrorRecord :=
  ⟨fun e H s => ⟨raise_c_eq e H s.busy s, raise_p_eq e H s⟩,
    fun s _ h hrst => stepOf_recordKept hrst (step_eq_stepOf s ▸ h)⟩

/-! HALTED. -/

theorem writeNext_withMode (c : Params) (m : Mode) (s : State) :
    writeNext c { s with mode := m } = { writeNext c s with mode := m } := by
  have hderive : ∀ E n, deriveCell c E n { s with mode := m } = { deriveCell c E n s with mode := m } := fun E n => by
    cases E <;> rfl
  by_cases hp : s.pPend = []
  · rw [writeNext_of_none hp, writeNext_of_none (s := { s with mode := m }) hp]
  · obtain ⟨p, rest, hp⟩ := List.exists_cons_of_ne_nil hp
    rw [writeNext_of_pending hp, writeNext_of_pending (s := { s with mode := m }) hp, hderive]
    rfl

theorem writeRest_withMode (c : Params) (m : Mode) (k : Nat) (s : State) :
    writeRest c k { s with mode := m } = { writeRest c k s with mode := m } := by
  induction k generalizing s with
  | zero => rfl
  | succ k ih => rw [writeRest, writeNext_withMode, ih, writeRest]

theorem drainWith_withMode (c : Params) (m : Mode) (es : List Event) (s : State) :
    drainWith c es { s with mode := m } = { drainWith c es s with mode := m } := by
  induction es generalizing s with
  | nil => exact writeRest_withMode c m s.pPend.length { s with events := [] }
  | cons e es ih =>
    unfold drainWith
    dsimp only
    split
    · rfl
    · cases e with
      | writer => rw [writeNext_withMode, ih]
      | engine => rfl
      | rst => rfl
      | hostWrite a w => rfl

theorem setParam_withMode (c : Params) (id : ParamId) (v : Word) (m : Mode) (s : State) :
    setParam c id v { s with mode := m } = { setParam c id v s with mode := m } :=
  drainWith_withMode c m s.events (setParamStart id v s)

/-- Settles O23: admission is the first thing a C-port command does, and a SETPARAM does not see the mode. -/
theorem haltedAdmitsNothing : Obligations.HaltedAdmitsNothing := by
  refine ⟨fun i s hport hm => ?_, fun i s t m hport h => ?_⟩
  · cases i using Instr.byFormat with
    | setparam id v => rw [port_instr] at hport; cases hport
    | _ => exact congrArg Host.Outcome.next (cCommand_of_halted hm)
  · cases i using Instr.byFormat with
    | setparam id v =>
      rw [exec_instr] at h ⊢
      rw [setParam_withMode, Host.Outcome.next.inj h]
    | _ => cases hport

/-! The mode. -/

/-- A C-port command's mode: of what holds of the old one, and of the new one when the command is admitted. -/
theorem cCommand_mode {H : Word} {body : State → State} {P : Mode → Prop} (hs : P s.mode)
    (hbody : P (body { s with busy := true }).mode) : P (cCommand H body s).mode := by
  unfold cCommand
  dsimp only
  split
  · rw [raise_mode]
    exact hs
  · exact hbody

theorem prepareCommand_mode (H : Word) (d : BitVec 64) (mb nc : Nat) (s : State) :
    (prepareCommand c H d mb nc s).mode = s.mode ∨ (prepareCommand c H d mb nc s).mode = .ready := by
  refine cCommand_mode (P := fun m => m = s.mode ∨ m = .ready) (.inl rfl) ?_
  split
  · exact .inl (raise_mode ..)
  split
  · exact .inl (raise_mode ..)
  split
  · exact .inl (raise_mode ..)
  · exact .inr (by rw [endCommand_mode, prepareEffects_frame])

theorem setVoicesCommand_mode (H : Word) (n : Nat) (s : State) : (setVoicesCommand c H n s).mode = s.mode := by
  refine cCommand_mode (P := (· = s.mode)) rfl ?_
  split
  · exact raise_mode ..
  · rfl

theorem routeCommand_mode (H : Word) (scope : Scope) (k : Nat) (r : Route) (s : State) :
    (routeCommand c H scope k r s).mode = s.mode := by
  refine cCommand_mode (P := (· = s.mode)) rfl ?_
  split
  · exact raise_mode ..
  · cases scope <;> rfl

theorem noteOn_mode (H : Word) (n : BitVec 7) (s : State) :
    (noteOn c H n s).mode = s.mode ∨ s.nvoices = 0 ∧ (noteOn c H n s).mode = .halted := by
  refine cCommand_mode (P := fun m => m = s.mode ∨ s.nvoices = 0 ∧ m = .halted) (.inl rfl) ?_
  split
  · exact .inl (raise_mode ..)
  split
  · exact .inr ⟨‹_›, rfl⟩
  · exact .inl (by rw [endCommand_mode, takeVoice_frame])

theorem noteOff_mode (H : Word) (n : BitVec 7) (tail : Bool) (s : State) : (noteOff H n tail s).mode = s.mode := by
  refine cCommand_mode (P := (· = s.mode)) rfl ?_
  split
  · exact raise_mode ..
  · rw [endCommand_mode, stopAll_frame]

theorem renderCommand_mode (H : Word) (start count : Nat) (hrst : .rst ∉ s.events) :
    (renderCommand c H start count s).mode = s.mode := by
  refine cCommand_mode (P := (· = s.mode)) rfl ?_
  split
  · exact raise_mode ..
  split
  · exact raise_mode ..
  · rename_i hlen
    exact (renderLoop_statusKept c (s := { s with busy := true }) hrst rfl (Nat.le_of_not_lt hlen)).2.1

/-- Settles O24, command by command. -/
theorem modeChanges : Obligations.ModeChanges := by
  intro i s t h hrst hne
  rw [exec_eq_execOf] at h
  obtain rfl := Host.Outcome.next.inj h
  cases i using Instr.byFormat with
  | prepare d mb nc => exact .inl ⟨d, mb, nc, rfl, (prepareCommand_mode _ d mb nc s).resolve_left hne⟩
  | setvoices n => exact absurd (setVoicesCommand_mode _ n s) hne
  | noteon ch n v => exact .inr ⟨ch, n, v, rfl, (noteOn_mode _ _ s).resolve_left hne⟩
  | noteoff ch n v tail => exact absurd (noteOff_mode _ _ tail s) hne
  | render start count => exact absurd (renderCommand_mode _ start count hrst) hne
  | route scope k valid en src dst => exact absurd (routeCommand_mode _ scope k _ s) hne
  | setparam id v => exact absurd (by rw [runOf_instr, setParam_frame]) hne

/-! The step. -/

/-- Settles O8: the engine's or the writer's turn drops the command that its port's decoder refuses. -/
theorem stepDropsIllegalCommand : Obligations.StepDropsIllegalCommand := by
  refine ⟨fun s es why H rest hmove hd => ?_, fun s es why H rest hmove hp hd => ?_, fun s es H rest hmove hp hd => ?_⟩
  · have hcan : engineCanMove s = true := by rw [engineCanMove, hd]
    rw [step_of_engineMoves hmove hcan, engineTurn, show decode .c ({ s with events := es } : State).cIn = _ from hd]
    exact congrArg Host.Outcome.next (raise_c_eq .illegal H s.busy { s with cIn := rest, events := es })
  · rw [step_of_writerMoves hmove, writerTurn, show decode .p ({ s with events := es } : State).pIn = _ from hd,
      if_pos (List.isEmpty_iff.2 hp)]
    exact congrArg Host.Outcome.next (raise_p_eq .illegal H { s with pIn := rest, events := es })
  · rw [step_of_writerMoves hmove, writerTurn, show decode .p ({ s with events := es } : State).pIn = _ from hd,
      if_pos (List.isEmpty_iff.2 hp)]
    exact congrArg Host.Outcome.next (raise_p_eq .paramId H { s with pIn := rest, events := es })

/-- Settles O10: it is the writer's turn, and its port waits. -/
theorem stepIdleHoldsState : Obligations.StepIdleHoldsState := by
  intro s he hp hc hpIn
  rw [step_of_writerMoves (.inr ⟨he, rfl, .inl hc⟩), State.withEvents_of_eq he, writerTurn, if_pos (List.isEmpty_iff.2 hp), hpIn]

/-- A step answers a next state when the command it may run does. -/
theorem stepWith_answers (c : Params) {run : Instr → State → StepOutcome} (hrun : ∀ i s, ∃ t, run i s = .next t)
    (s : State) : ∃ t, stepWith c run s = .next t := by
  have hengine : ∀ s, ∃ t, engineTurn run s = .next t := fun s => by
    unfold engineTurn
    split
    · exact ⟨_, rfl⟩
    · split
      · exact ⟨_, rfl⟩
      · exact hrun _ _
    · exact ⟨_, rfl⟩
    · exact ⟨_, rfl⟩
  have hwriter : ∀ s, ∃ t, writerTurn c run s = .next t := fun s => by
    unfold writerTurn
    split
    · split
      · exact ⟨_, rfl⟩
      · exact hrun _ _
      · exact ⟨_, rfl⟩
      · exact ⟨_, rfl⟩
    · exact ⟨_, rfl⟩
  unfold stepWith
  split
  · split
    · exact hengine s
    · exact hwriter s
  · exact hengine _
  · exact hwriter _
  · exact ⟨_, rfl⟩
  · exact ⟨_, rfl⟩

/-- Settles O13: every command of every configuration answers a next state, and so every step does. -/
theorem stepAlwaysAnswers : Obligations.StepAlwaysAnswers := by
  have hanswers : ∀ (c : Params) (s : State), ∃ t, stepOf c s = .next t := fun c =>
    stepWith_answers c fun i s => ⟨runOf c i s, rfl⟩
  exact ⟨fun s => step_eq_stepOf s ▸ hanswers hw s, hanswers, step_eq_stepOf, State.resetOf_hw.symm⟩

end Sys2Proof.Machine
end

section
/-! SUPPORT. `rst` and the reset state (70_reset_and_hazards.md R410, 10_state.md R31 to R55), of this hardware and, for the derived
cells, of any configuration. -/

namespace Sys2Proof.Machine

variable (c : Params)

/-- Settles O11: `rst` is the step's whole move. -/
theorem stepReset : Obligations.StepReset := by
  intro s es he
  have hstep : step s = .next (rst hw { s with events := es }) := by
    unfold step stepWith
    rw [he]
  rw [hstep, rst_hw]

/-! The derived cells that a time of zero gives (41_envelope.md R171 to R174), whatever the rate and the bounds of the ratios. -/

/-- Zero times anything is a zero, or a NaN. -/
theorem fmul_zero_left (x : Num32) : isNaN (fmul Num32.zero x) = true ∨ isZero (fmul Num32.zero x) = true := by
  by_cases hx : isNaN x = true
  · exact .inl (isNaN_fmul_right _ hx)
  · obtain rfl | rfl | hfin := number_cases (Bool.eq_false_iff.2 hx)
    · exact .inl (isNaN_freeNaN .mul _ _)
    · exact .inl (isNaN_freeNaN .mul _ _)
    · right
      rw [fmul_of_finite rfl hfin, show units Num32.zero = 0 from rfl, Nat.zero_mul, roundMag_zero, isZero,
        fmag_fpack (by decide)]
      rfl

/-- A NaN or a zero is cut to a number that is not positive. -/
theorem nonNegative_le_zero {x : Num32} (h : isNaN x = true ∨ isZero x = true) :
    fle (nonNegative x) Num32.zero = true := by
  obtain ⟨hnan, _, _, hself⟩ := clampRange x Num32.zero Num32.inf rfl rfl (by decide)
  unfold nonNegative
  obtain h | h := h
  · rw [hnan h]
    decide
  · have hnum := isNaN_of_isFinite (isFinite_of_isZero h)
    have hvalue := value_eq_zero_iff.2 h
    rw [hself (fle_iff_value.2 ⟨rfl, hnum, by rw [value_zero, hvalue]⟩)
      (fle_iff_value.2 ⟨hnum, rfl, by rw [value_inf, hvalue]; decide⟩)]
    exact fle_iff_value.2 ⟨hnum, rfl, by rw [value_zero, hvalue]⟩

theorem rate_zero_le_zero (fs : Num32) : fle (rate c fs Num32.zero) Num32.zero = true := by
  have hzero : fmul (nonNegative Num32.zero) Num32.milli = Num32.zero := by decide +kernel
  unfold rate
  rw [hzero]
  exact nonNegative_le_zero (fmul_zero_left _)

/-- A time of zero has the coefficient zero (41_envelope.md R173). -/
theorem calcCoef_rate_zero (fs q : Num32) : calcCoef c (rate c fs Num32.zero) q = Num32.zero :=
  if_pos (rate_zero_le_zero c fs)

/-- A target ratio is finite in every configuration: its bounds are. -/
theorem isFinite_ratio (x : Num32) : isFinite (ratio c x) = true := by
  obtain ⟨_, hzero, hmin⟩ := flt_iff_value.1 c.ratioMin_legal
  obtain ⟨hfinite, hgt⟩ := c.ratioMax_legal
  obtain ⟨hnan, hlo, hhi⟩ := clamp_bounds x (fle_of_flt hgt)
  have hmax := units_lt_of_isFinite hfinite
  rw [← natAbs_value] at hmax
  rw [value_zero] at hmin
  exact isFinite_of_value (x := clamp x _ _) hnan (by omega) (by omega)

/-- A base under the coefficient zero is its other factor (41_envelope.md R174). -/
theorem fmul_one_sub_zero {x : Num32} (h : isNaN x = false) : fmul x (fsub Num32.one Num32.zero) = x := by
  rw [show fsub Num32.one Num32.zero = Num32.one by decide +kernel, fmul_one h]

theorem isNaN_one_add_ratio (x : Num32) : isNaN (fadd Num32.one (ratio c x)) = false :=
  (rounded_fadd rfl (isFinite_ratio c x)).1

theorem isNaN_one_sub_ratio (x : Num32) : isNaN (fsub Num32.one (ratio c x)) = false :=
  (rounded_fsub rfl (isFinite_ratio c x)).1

theorem isNaN_fneg_ratio (x : Num32) : isNaN (fneg (ratio c x)) = false :=
  (isNaN_fneg _).trans (isNaN_of_isFinite (isFinite_ratio c x))

/-- The derived cells at reset in any configuration: every coefficient is zero, every base its other factor. -/
theorem resetDerived_of_ratios : resetDerived c =
    ⟨Num32.zero, fadd Num32.one (ratio c 0x3E99999A#32), Num32.zero, fsub Num32.one (ratio c 0x38D1B717#32),
      Num32.zero, fneg (ratio c 0x38D1B717#32)⟩ := by
  have hsustain : unitLevel Num32.one = Num32.one := by decide +kernel
  simp only [resetDerived, derivedValue, EnvMaster.reset, calcCoef_rate_zero, hsustain,
    fmul_one_sub_zero (isNaN_one_add_ratio c _), fmul_one_sub_zero (isNaN_one_sub_ratio c _),
    fmul_one_sub_zero (isNaN_fneg_ratio c _)]

/-- Settles O14: `State.reset` field by field, and `resetDerived` of any configuration. -/
theorem resetValues : Obligations.ResetValues := by
  refine ⟨⟨rfl, rfl, rfl, rfl, rfl⟩, ⟨rfl, rfl, rfl, rfl, rfl⟩, ⟨rfl, rfl, rfl⟩, fun id => ?parameters, fun E => ?derived,
    ⟨rfl, rfl, rfl, rfl⟩, rfl, rfl, ⟨rfl, fun v hv => ?voices⟩, ⟨rfl, rfl, rfl⟩, fun c E => ?ratios⟩
  case parameters => cases id <;> rfl
  case derived => cases E <;> rfl
  case voices =>
    rw [List.eq_of_mem_replicate hv]
    decide
  case ratios => cases E <;> exact resetDerived_of_ratios c

end Sys2Proof.Machine
end
